-- ==== Sys2Proof/Word.lean ====
section
/-! DEFINITION. The word types of the Davrow 2460: plain names for the widths the spec uses. -/

namespace Sys2Proof

/-- A byte of a record, an item or a code (R186). -/
abbrev Byte := BitVec 8

/-- A 16-bit field: sample, pattern word, tag, sequence. -/
abbrev Half := BitVec 16

/-- A 32-bit field: counter, reply value, window register. -/
abbrev Word := BitVec 32

/-- A 64-bit host address. -/
abbrev Addr := BitVec 64

/-- A value of the 48-bit timebase (R46). -/
abbrev Tick := BitVec 48

/-- Stream ids 0 to 31. -/
abbrev StreamId := Fin 32

/-- Pacer numbers 0 to 15. -/
abbrev PacerId := Fin 16

/-- Sample port and pattern port numbers 0 to 7. -/
abbrev PortId := Fin 8

/-- External input numbers 0 to 3. -/
abbrev InputId := Fin 4

/-- Command queue numbers 0 to 3. -/
abbrev CqId := Fin 4

/-- Reply queue numbers 0 and 1. -/
abbrev RqId := Fin 2

/-- Entries of the in-flight command table, 0 to 31. -/
abbrev SlotId := Fin 32

end Sys2Proof
end

