-- ==== Sys2Proof/Syntax.lean ====
section
/-! DEFINITION. The rows of spec/opcode_table.json as one inductive type, one constructor per row.
A command record's operands are the record as software wrote it (chapter 11, section 11.2), less its command
code, which the constructor fixes; the other rows carry what their rule says arrives with them. -/

namespace Sys2Proof

/-- The bytes of a 32-byte command record after its command code (section 11.2): the header flags of byte 1, the
tag of bytes 2 to 3, the id of byte 4, byte 5, bytes 6 to 7, and the parameters of bytes 8 to 31 as one
little-endian number whose bit 0 is bit 0 of byte 8. -/
structure RecordBody where
  flags : Byte
  tag : Half
  id : Byte
  byte5 : Byte
  bytes6to7 : Half
  params : BitVec 192
  deriving DecidableEq, Repr

/-- A fetched command record: its command code (byte 0) and the rest. -/
structure Record where
  code : Byte
  body : RecordBody
  deriving DecidableEq, Repr

/-- The message address and data of one interrupt vector (R166). -/
structure MsiVector where
  address : Addr
  data : Word
  deriving DecidableEq, Repr

/-- The function's link configuration as far as the controller's behaviour reads it (R166). -/
structure LinkConfig where
  busMaster : Bool
  msiEnable : Bool
  vector0 : MsiVector
  vector1 : MsiVector
  deriving DecidableEq, Repr

/-- How the host accesses the register window (R182): a 32-bit access, or one of any other size. A 64-bit access
at a multiple of 8 is two 32-bit accesses, each a happening of its own, and so two rows (`writeAccess`). -/
inductive AccessSize where
  | word
  | other
  deriving DecidableEq, Repr

/-- The commands of the block: one constructor per row of the table, in its order. -/
inductive Instr where
  /-- NOP, R141: a record of queue `q`. -/
  | nop (q : CqId) (r : RecordBody)
  /-- READ_TIME, R142. -/
  | readTime (q : CqId) (r : RecordBody)
  /-- OPEN, R4 and R5. -/
  | openStream (q : CqId) (r : RecordBody)
  /-- ARM, R6 and R7. -/
  | arm (q : CqId) (r : RecordBody)
  /-- STOP, R11 to R13. -/
  | stop (q : CqId) (r : RecordBody)
  /-- RESUME, R19. -/
  | resume (q : CqId) (r : RecordBody)
  /-- CLOSE, R20 and R21. -/
  | close (q : CqId) (r : RecordBody)
  /-- QUERY_STREAM, R22. -/
  | queryStream (q : CqId) (r : RecordBody)
  /-- GRANT, R28 and R29. -/
  | grant (q : CqId) (r : RecordBody)
  /-- RECLAIM, R30. -/
  | reclaim (q : CqId) (r : RecordBody)
  /-- SET_PACER, R50 and R51. -/
  | setPacer (q : CqId) (r : RecordBody)
  /-- HALT_PACER, R52. -/
  | haltPacer (q : CqId) (r : RecordBody)
  /-- LOAD_PATTERN, R112 and R113. -/
  | loadPattern (q : CqId) (r : RecordBody)
  /-- CREATE_CQ, R123. -/
  | createCq (q : CqId) (r : RecordBody)
  /-- DELETE_CQ, R124. -/
  | deleteCq (q : CqId) (r : RecordBody)
  /-- CREATE_RQ, R145. -/
  | createRq (q : CqId) (r : RecordBody)
  /-- DELETE_RQ, R146. -/
  | deleteRq (q : CqId) (r : RecordBody)
  /-- CONFIG_INPUT, R71. -/
  | configInput (q : CqId) (r : RecordBody)
  /-- CONFIG_PORT, R84. -/
  | configPort (q : CqId) (r : RecordBody)
  /-- ENABLE, R173 to R175: a DEVCTL write with FRESET clear and ENABLE 1. -/
  | enable
  /-- QUIESCE, R175 to R177: a DEVCTL write with FRESET clear and ENABLE 0. -/
  | quiesce
  /-- FUNCTION_RESET, R181: a DEVCTL write with FRESET set; `enableBit` is what it holds in ENABLE. -/
  | functionReset (enableBit : Bool)
  /-- POWER_ON_RESET, R180; `link` is the link configuration the host link gives at power-up. -/
  | powerOnReset (link : LinkConfig)
  /-- PRODUCER_WRITE, R126: a write of `v` to CQPROD of queue `q`. -/
  | producerWrite (q : CqId) (v : Word)
  /-- CONSUMER_WRITE, R152: a write of `v` to RQCONS of queue `q`. -/
  | consumerWrite (q : RqId) (v : Word)
  /-- INTERRUPT_ENABLE, R154: a write to RQINT of queue `q` with bit 0 `on` and bit 1 clear. -/
  | interruptEnable (q : RqId) (on : Bool)
  /-- ERROR_FLAG_CLEAR, R153: a write to RQINT of queue `q` with bit 1 set and bit 0 `on` (R192). -/
  | errorFlagClear (q : RqId) (on : Bool)
  /-- REGISTER_WRITE, R182 and R184: a write of `v` at `offset` of the window. -/
  | registerWrite (offset : BitVec 12) (size : AccessSize) (v : Word)
  /-- PACER_FIRING, R53: the target of WAITING pacer `p` is due. -/
  | pacerFiring (p : PacerId)
  /-- DRIVEN_PACER_FIRING, R58: the target of DRIVEN pacer `p` is due. -/
  | drivenPacerFiring (p : PacerId)
  /-- CHANGE_SEEN, R69: the pin of input `i` shows the level that is not the qualified one. -/
  | changeSeen (i : InputId)
  /-- CHANGE_REVERTS, R69: the pin of input `i` shows the qualified level again. -/
  | changeReverts (i : InputId)
  /-- EDGE_QUALIFIES, R69 and R70: the filter of input `i` expires with the new level held. -/
  | edgeQualifies (i : InputId)
  /-- READY, R80: the converter of sample port `n` answers ready. -/
  | ready (n : PortId)
  /-- RESULT, R80: sample port `n` holds the complete sample. -/
  | result (n : PortId)
  /-- TIMEOUT, R81: the elapsed count of sample port `n` has reached its timeout in force. -/
  | timeout (n : PortId)
  /-- ARBITRATION, R162: the link can take a transfer. -/
  | arbitration
  /-- TRANSFER_SENT, R162 and R166: the transfer being sent has been handed to the link in full. -/
  | transferSent
  /-- READ_COMPLETION, R167: the (rest of the) data of the outstanding read `tag` returns with success. -/
  | readCompletion (tag : Nat) (data : List Byte)
  /-- ERROR_COMPLETION, R167: a part of the outstanding read `tag` returns with an error or poisoned. -/
  | errorCompletion (tag : Nat)
  /-- READ_TIMEOUT, R167: the deadline of the outstanding read `tag` is reached. -/
  | readTimeout (tag : Nat)
  /-- TURN, R129. -/
  | turn
  /-- HELD_RECORD_TAKEN, R139: the held record of queue `q`. -/
  | heldRecordTaken (q : CqId)
  /-- PREFETCH_READ, R103: the prefetch of stream `i`. -/
  | prefetchRead (i : StreamId)
  /-- RETIREMENT, R35: the grant of stream `i` that is finished with. -/
  | retirement (i : StreamId)
  /-- CLOSING_STEPS, R21: stream `i`. -/
  | closingSteps (i : StreamId)
  /-- DELETING_DONE, R125: command queue `q`. -/
  | deletingDone (q : CqId)
  /-- QUIESCE_END, R177. -/
  | quiesceEnd
  /-- TIMEBASE_TICK, R46; bit n of `serial` is the level on the serial data input of sample port n. -/
  | timebaseTick (serial : BitVec 8)
  /-- LINK_CONFIGURATION_CHANGE, R166. -/
  | linkConfigurationChange (link : LinkConfig)
  /-- LINK_STATE_CHANGE, R166: the link goes down or comes up. -/
  | linkStateChange (up : Bool)
  /-- COMPLETION_PART, R167: a part of the data of the outstanding read `tag` returns with success. -/
  | completionPart (tag : Nat) (data : List Byte)
  deriving DecidableEq, Repr

end Sys2Proof
end

