-- ==== Sys2Proof/Machine/Operands.lean ====
section
/-! DEFINITION. The fields of a command record (chapter 11, section 11.2), read from its bytes by their offsets,
and the reserved fields of each command's layout. -/

namespace Sys2Proof

/-- Byte `k` of a record, `k` from 8 to 31. -/
def RecordBody.byteAt (r : RecordBody) (k : Nat) : Byte :=
  r.params.extractLsb' (8 * (k - 8)) 8

/-- Bytes `k` and `k + 1` of a record, little-endian, `k` from 8 to 30 (R186). -/
def RecordBody.halfAt (r : RecordBody) (k : Nat) : Half :=
  r.params.extractLsb' (8 * (k - 8)) 16

/-- Bytes `k` to `k + 3` of a record, little-endian. -/
def RecordBody.wordAt (r : RecordBody) (k : Nat) : Word :=
  r.params.extractLsb' (8 * (k - 8)) 32

/-- Bytes `k` to `k + 7` of a record, little-endian. -/
def RecordBody.addrAt (r : RecordBody) (k : Nat) : Addr :=
  r.params.extractLsb' (8 * (k - 8)) 64

/-- Byte 6 of a record. -/
def RecordBody.byte6 (r : RecordBody) : Byte :=
  r.bytes6to7.extractLsb' 0 8

/-- Byte 7 of a record. -/
def RecordBody.byte7 (r : RecordBody) : Byte :=
  r.bytes6to7.extractLsb' 8 8

/-- The ORDERED flag: bit 0 of byte 1. -/
def RecordBody.ordered (r : RecordBody) : Bool :=
  r.flags.getLsbD 0

/-- The QUIET flag: bit 1 of byte 1. -/
def RecordBody.quiet (r : RecordBody) : Bool :=
  r.flags.getLsbD 1

/-- STRICT of an OPEN: bit 0 of byte 7. -/
def RecordBody.optStrict (r : RecordBody) : Bool :=
  r.byte7.getLsbD 0

/-- STARVE_HALT of an OPEN: bit 1 of byte 7. -/
def RecordBody.optStarveHalt (r : RecordBody) : Bool :=
  r.byte7.getLsbD 1

/-- The timestamp option of an OPEN: bit 2 of byte 7. -/
def RecordBody.optTimestamp (r : RecordBody) : Bool :=
  r.byte7.getLsbD 2

/-- Park present of an OPEN: bit 3 of byte 7. -/
def RecordBody.optPark (r : RecordBody) : Bool :=
  r.byte7.getLsbD 3

/-- Reload of an OPEN: bit 4 of byte 7. -/
def RecordBody.optReload (r : RecordBody) : Bool :=
  r.byte7.getLsbD 4

/-- The park word of an OPEN: bytes 12 to 13. -/
def RecordBody.parkWord (r : RecordBody) : Half :=
  r.halfAt 12

/-- The first `n` bytes from byte 16 on: the scan list or the advance set of an OPEN. -/
def RecordBody.listBytes (r : RecordBody) (n : Nat) : List Byte :=
  (List.range n).map fun k => r.byteAt (16 + k)

/-- NOTIFY of a GRANT: bit 0 of byte 5. -/
def RecordBody.optNotify (r : RecordBody) : Bool :=
  r.byte5.getLsbD 0

/-- RECYCLE of a GRANT: bit 1 of byte 5. -/
def RecordBody.optRecycle (r : RecordBody) : Bool :=
  r.byte5.getLsbD 1

/-- REL of a SET_PACER: bit 0 of byte 5. -/
def RecordBody.optRel (r : RecordBody) : Bool :=
  r.byte5.getLsbD 0

/-- The stop-trigger mode field of an ARM: bits 0 to 1 of byte 7. -/
def RecordBody.modeField (r : RecordBody) : Byte :=
  (r.byte7.extractLsb' 0 2).setWidth 8

/-- The end policy field of an ARM: bits 4 to 5 of byte 7. -/
def RecordBody.policyField (r : RecordBody) : Byte :=
  (r.byte7.extractLsb' 4 2).setWidth 8

/-- Bytes `first` to `first + n - 1` of a record, `first` at least 8, are all 0. -/
def RecordBody.zeroBytes (r : RecordBody) (first n : Nat) : Bool :=
  r.params.extractLsb' (8 * (first - 8)) (8 * n) == 0

/-- Header flags: bits 2 to 7 of byte 1 are reserved (section 11.2). -/
def RecordBody.flagsOk (r : RecordBody) : Bool :=
  r.flags.extractLsb' 2 6 == 0

/-- Bytes 5 to 31 are reserved: the layout of RESUME, CLOSE, RECLAIM, HALT_PACER, DELETE_CQ and DELETE_RQ. -/
def RecordBody.onlyId (r : RecordBody) : Bool :=
  r.byte5 == 0 && r.bytes6to7 == 0 && r.zeroBytes 8 24

/-- Bytes 4 to 31 are reserved: the layout of NOP and READ_TIME. -/
def RecordBody.noFields (r : RecordBody) : Bool :=
  r.id == 0 && r.onlyId

/-- The reserved fields of an OPEN that no kind uses: bits 5 to 7 of byte 7, bytes 14 to 15 and 24 to 31. -/
def RecordBody.openReserved (r : RecordBody) : Bool :=
  r.bytes6to7.extractLsb' 13 3 == 0 && r.zeroBytes 14 2 && r.zeroBytes 24 8

/-- The reserved fields of an ARM: bits 2, 3, 6 and 7 of byte 7, and bytes 12 to 31. -/
def RecordBody.armReserved (r : RecordBody) : Bool :=
  r.bytes6to7.extractLsb' 10 2 == 0 && r.bytes6to7.extractLsb' 14 2 == 0 && r.zeroBytes 12 20

/-- The reserved fields of a STOP: bytes 6 to 31. -/
def RecordBody.stopReserved (r : RecordBody) : Bool :=
  r.bytes6to7 == 0 && r.zeroBytes 8 24

/-- The reserved fields of a QUERY_STREAM: bytes 5 to 7 and 16 to 31. -/
def RecordBody.queryReserved (r : RecordBody) : Bool :=
  r.byte5 == 0 && r.bytes6to7 == 0 && r.zeroBytes 16 16

/-- The reserved fields of a GRANT: bits 2 to 7 of byte 5, and bytes 18 to 31. -/
def RecordBody.grantReserved (r : RecordBody) : Bool :=
  r.byte5.extractLsb' 2 6 == 0 && r.zeroBytes 18 14

/-- The reserved fields of a SET_PACER: bits 1 to 7 of byte 5, bytes 6 to 7 and 24 to 31. -/
def RecordBody.setPacerReserved (r : RecordBody) : Bool :=
  r.byte5.extractLsb' 1 7 == 0 && r.bytes6to7 == 0 && r.zeroBytes 24 8

/-- The reserved fields of a LOAD_PATTERN: bytes 4 to 7 and 20 to 31. -/
def RecordBody.loadReserved (r : RecordBody) : Bool :=
  r.id == 0 && r.byte5 == 0 && r.bytes6to7 == 0 && r.zeroBytes 20 12

/-- The reserved fields of a CREATE_CQ: bytes 16 to 31. -/
def RecordBody.createCqReserved (r : RecordBody) : Bool :=
  r.zeroBytes 16 16

/-- The reserved fields of a CREATE_RQ: byte 5 and bytes 16 to 31. -/
def RecordBody.createRqReserved (r : RecordBody) : Bool :=
  r.byte5 == 0 && r.zeroBytes 16 16

/-- The reserved fields of a CONFIG_INPUT: bytes 8 to 31. -/
def RecordBody.configInputReserved (r : RecordBody) : Bool :=
  r.zeroBytes 8 24

/-- The reserved fields of a CONFIG_PORT: bytes 5 to 7 and 12 to 31. -/
def RecordBody.configPortReserved (r : RecordBody) : Bool :=
  r.byte5 == 0 && r.bytes6to7 == 0 && r.zeroBytes 12 20

/-- A window write names a 32-bit register: a 32-bit access at a multiple of 4 (R182). -/
def registerAccessOk (offset : BitVec 12) (size : AccessSize) : Bool :=
  size == .word && offset.extractLsb' 0 2 == 0

end Sys2Proof
end

