-- ==== Sys2Proof/WellFormed.lean ====
section
/-! DEFINITION. Which terms of `Instr` are well formed: a command record whose reserved bytes are 0 as the layout
of its command has them (section 11.2), a window write at a register's offset, and completion data that is not
empty. An ill-formed term still has a meaning (a record with a reserved byte set is refused BAD_PARAM, R136); the
predicate says which terms software that follows chapter 11 sends. -/

namespace Sys2Proof

/-- The well-formed commands. -/
def Instr.wellFormed : Instr → Bool
  | .nop _ r => r.flagsOk && r.noFields
  | .readTime _ r => r.flagsOk && r.noFields
  | .openStream _ r => r.flagsOk && r.openReserved
  | .arm _ r => r.flagsOk && r.armReserved
  | .stop _ r => r.flagsOk && r.stopReserved
  | .resume _ r => r.flagsOk && r.onlyId
  | .close _ r => r.flagsOk && r.onlyId
  | .queryStream _ r => r.flagsOk && r.queryReserved
  | .grant _ r => r.flagsOk && r.grantReserved
  | .reclaim _ r => r.flagsOk && r.onlyId
  | .setPacer _ r => r.flagsOk && r.setPacerReserved
  | .haltPacer _ r => r.flagsOk && r.onlyId
  | .loadPattern _ r => r.flagsOk && r.loadReserved
  | .createCq _ r => r.flagsOk && r.createCqReserved
  | .deleteCq _ r => r.flagsOk && r.onlyId
  | .createRq _ r => r.flagsOk && r.createRqReserved
  | .deleteRq _ r => r.flagsOk && r.onlyId
  | .configInput _ r => r.flagsOk && r.configInputReserved
  | .configPort _ r => r.flagsOk && r.configPortReserved
  | .registerWrite offset size _ => registerAccessOk offset size
  | .readCompletion _ data => !data.isEmpty
  | .completionPart _ data => !data.isEmpty
  | .enable => true
  | .quiesce => true
  | .functionReset _ => true
  | .powerOnReset _ => true
  | .producerWrite _ _ => true
  | .consumerWrite _ _ => true
  | .interruptEnable _ _ => true
  | .errorFlagClear _ _ => true
  | .pacerFiring _ => true
  | .drivenPacerFiring _ => true
  | .changeSeen _ => true
  | .changeReverts _ => true
  | .edgeQualifies _ => true
  | .ready _ => true
  | .result _ => true
  | .timeout _ => true
  | .arbitration => true
  | .transferSent => true
  | .errorCompletion _ => true
  | .readTimeout _ => true
  | .turn => true
  | .heldRecordTaken _ => true
  | .prefetchRead _ => true
  | .retirement _ => true
  | .closingSteps _ => true
  | .deletingDone _ => true
  | .quiesceEnd => true
  | .timebaseTick _ => true
  | .linkConfigurationChange _ => true
  | .linkStateChange _ => true

end Sys2Proof
end

