-- ==== Sys2Proof/Decode.lean ====
section
/-! DEFINITION. Byte order (R186), the 32-byte command record as bytes and back (section 11.2), and
`decodeTableWord`. The table gives no row any bits, so no word spells a command. -/

namespace Sys2Proof

/-- The low `n` bytes of `v`, least significant first (R186). -/
def leBytes : Nat → Nat → List Byte
  | 0, _ => []
  | n + 1, v => BitVec.ofNat 8 v :: leBytes n (v / 256)

/-- The number whose bytes, least significant first, are given (R186). -/
def leNat : List Byte → Nat
  | [] => 0
  | b :: bs => b.toNat + 256 * leNat bs

/-- The 256 bits of a record, byte 0 lowest. -/
def Record.bits (r : Record) : BitVec 256 :=
  r.body.params ++ (r.body.bytes6to7 ++ (r.body.byte5 ++ (r.body.id ++ (r.body.tag ++ (r.body.flags ++ r.code)))))

/-- The record whose 256 bits are `w` (section 11.2: code 0, flags 1, tag 2 to 3, id 4, bytes 5, 6 to 7, 8 to 31). -/
def Record.ofBits (w : BitVec 256) : Record where
  code := w.extractLsb' 0 8
  body :=
    { flags := w.extractLsb' 8 8
      tag := w.extractLsb' 16 16
      id := w.extractLsb' 32 8
      byte5 := w.extractLsb' 40 8
      bytes6to7 := w.extractLsb' 48 16
      params := w.extractLsb' 64 192 }

/-- The 32 bytes of a record as they stand in host memory. -/
def encodeRecord (r : Record) : List Byte :=
  leBytes 32 r.bits.toNat

/-- The record that 32 bytes of host memory hold. -/
def decodeRecord (bytes : List Byte) : Record :=
  Record.ofBits (BitVec.ofNat 256 (leNat bytes))

/-- The command that a word spells by the bits spec/opcode_table.json gives its rows. The table gives none
("n_rows_with_fixed": 0 of 98_reader.md), so no word spells a command. -/
def decodeTableWord (_nbits _w : Nat) : Option Instr :=
  none

end Sys2Proof
end

