-- ==== Sys2Proof/Config.lean ====
section
/-! DEFINITION. The figures the part fixes (00_scope.md "Units and capacities"), the bounds the model sets on its
own loops, and the one value the spec leaves unstated. -/

namespace Sys2Proof.Config

/-- Grants one stream holds at most, counting the current grant (R27). -/
def maxGrants : Nat := 8

/-- Items a capture stream's staging holds (R93). -/
def stagingDepth : Nat := 4

/-- Words a PLAY stream's prefetch FIFO holds (section 6.2). -/
def fifoDepth : Nat := 16

/-- Entries of pattern memory (R111). -/
def patternEntries : Nat := 4096

/-- The host page a transfer may not cross (R161). -/
def pageBytes : Nat := 4096

/-- The largest transfer in bytes (R161). -/
def maxTransfer : Nat := 256

/-- Entries one pattern-load read covers at most (R113). -/
def maxLoadEntries : Nat := 64

/-- Ticks from the sending of a read to its deadline (R167). -/
def readDeadline : Nat := 20000

/-- The timeout of every sample port after a reset (R79). -/
def resetTimeout : Nat := 2000

/-- Stream-class transfers served in a row at most while control work waits (R163). -/
def streamAllowance : Nat := 4

/-- DEDUCED (log 8): more deliveries than any chain of events that begins at one happening has. R66 says that
every such chain ends; every stream but a TALLY with reload emits once, and one of those emits at most one
TERMINAL for every two events it counts, and one more when its run ends. -/
def chainBound : Nat := 256

/-- DEDUCED (log 4): more follow-on happenings than one happening can bring due: four held records, three
deletions pending before it and one begun by it, and the end of a quiesce. -/
def followOnBound : Nat := 16

/-- DEDUCED (log 6): the rounds in which a tick takes what is due. What one round leaves due comes of a held record
it took (a SET_PACER whose target is due, R51), and no more than four records are held at once. -/
def dueRounds : Nat := 5

/-- DESIGN CHOICE (log 32): a free value. Value 1 or value 2 of the ABORTED reply that DELETE_CQ gives a held record
(its 256 bits) where the spec states none (R124, R189). -/
opaque abortedValue (which : Nat) (record : BitVec 256) : Word

end Sys2Proof.Config
end

