-- ==== Sys2Proof/Machine/State.lean ====
section
/-! DEFINITION. Everything the spec gives the machine, block by block (00_scope.md "Blocks"), as plain data, and
the machine right after power-on reset. -/

namespace Sys2Proof.Machine

/-- The reasons the machine stops with a fault. There are none: a stream fault, a queue fault and a reply write
failure are states of the block (R17, R131, R178), and no row of the table ends without a next state. Safe: no
run of the model is cut short. -/
inductive Fault
  deriving DecidableEq, Repr

/-- The reasons a row is refused by the model. A refusal by the controller is not one: it is a reply (R137). -/
inductive Refusal where
  /-- Raised by `exec` alone, for a row that has no meaning yet; no arm raises it. Safe. -/
  | notModelled (mnemonic : String)
  deriving DecidableEq, Repr

/-! ## Pacer Bank (chapter 3) -/

/-- Pacer states (section 3.2). -/
inductive PacerState where
  | off
  | waiting
  | owned
  | driven
  deriving DecidableEq, Repr

/-- One row of the pacer table (section 3.2). -/
structure Pacer where
  state : PacerState
  target : Tick
  period : Word
  remaining : Word
  late : Word
  deriving DecidableEq, Repr

/-! ## Event Fabric (chapter 4) -/

/-- An event: its code, and the tick at which its source emitted it (R60). -/
structure Event where
  code : Byte
  stamp : Tick
  deriving DecidableEq, Repr

/-- Edge selections of an input (R68). -/
inductive EdgeSelection where
  | off
  | rising
  | falling
  | both
  deriving DecidableEq, Repr

/-- One trigger input (R68). `pin` is the level the pin shows; `sampled` says that this tick's one sample of the
pin has been taken; `fresh` says that the first tick after a reset is still to come (log 11). -/
structure Input where
  edges : EdgeSelection
  filter : Byte
  qualified : Bool
  candidate : Option Tick
  pin : Bool
  sampled : Bool
  fresh : Bool
  deriving DecidableEq, Repr

/-! ## Sample Port Unit (chapter 5) -/

/-- The state of a sample port and, in BUSY, its phase (R79). -/
inductive PortPhase where
  | idle
  | waitReady
  | shifting
  deriving DecidableEq, Repr

/-- One sample port (R79). `shift` and `bits` are the data bits shifted in so far and their number (R80). -/
structure SamplePort where
  phase : PortPhase
  timeout : Half
  elapsed : Half
  inForce : Half
  shift : Half
  bits : Nat
  deriving DecidableEq, Repr

/-! ## Stream Manager (chapters 1, 2, 5 and 6) -/

/-- Stream states (section 1.3). -/
inductive StreamState where
  | closed
  | opened
  | armed
  | running
  | stopping
  | halted
  | closing
  deriving DecidableEq, Repr

/-- Stream kinds. -/
inductive Kind where
  | scan
  | stamp
  | play
  | ring
  | tally
  deriving DecidableEq, Repr

/-- Stop modes (R9). -/
inductive StopMode where
  | now
  | item
  | buffer
  deriving DecidableEq, Repr

/-- End policies (R6). -/
inductive EndPolicy where
  | report
  | quiet
  deriving DecidableEq, Repr

/-- Why a run ended, as an END notice gives it (R15). -/
inductive EndReason where
  | limit
  | stopEvent
  | target
  deriving DecidableEq, Repr

/-- The six causes that halt a stream (section 1.7). -/
inductive StreamFault where
  | starved
  | underflow
  | overrun
  | backlog
  | portTimeout
  | busError
  deriving DecidableEq, Repr

/-- A grant (section 2.1). Its position is the list it stands in. `number` is how a staged item names its grant. -/
structure Grant where
  number : Nat
  address : Addr
  count : Nat
  tag : Half
  notify : Bool
  recycle : Bool
  reserved : Bool
  fill : Nat
  firstSeq : Option Half
  missed : Nat
  deriving DecidableEq, Repr

/-- One list position of the scan in flight: still awaited, a sample, or a timeout mark (section 5.2). -/
inductive ScanSlot where
  | awaited
  | sample (v : Half)
  | timedOut
  deriving DecidableEq, Repr

/-- The scan in flight (section 5.2), one slot per list position. -/
structure ScanFlight where
  time : Tick
  slots : List ScanSlot
  deriving DecidableEq, Repr

/-- A staged item (R93): its grant, its host address, its bytes, and how many of them have been served. -/
structure Staged where
  grant : Nat
  address : Addr
  bytes : List Byte
  served : Nat
  deriving DecidableEq, Repr

/-- The prefetch's read in progress (section 6.2): the grant, the word it starts at, its length in words, its host
address, and whether the mover has served it. -/
structure PlayRead where
  grant : Nat
  start : Nat
  words : Nat
  address : Addr
  served : Bool
  deriving DecidableEq, Repr

/-- A pending stop (section 1.2): the governing mode, the waiting STOP commands by their in-flight entries in the
order taken, and the event-origin mark. -/
structure PendingStop where
  mode : StopMode
  commands : List SlotId
  event : Bool
  deriving DecidableEq, Repr

/-- The CLOSE a CLOSING stream answers, and the grants it has returned as reclaimed so far (R20). -/
structure Closing where
  slot : SlotId
  reclaimed : Nat
  deriving DecidableEq, Repr

/-- A stream context (section 1.2). A field that does not belong to the stream's kind holds its zero. -/
structure Stream where
  state : StreamState
  kind : Option Kind
  replyQueue : RqId
  scanList : List PortId
  timestamp : Bool
  patternPort : PortId
  park : Option Half
  pacer : PacerId
  regionBase : Nat
  regionLength : Nat
  startOffset : Nat
  advanceSource : Byte
  advanceSet : List Byte
  strict : Bool
  starveHalt : Bool
  tallyTarget : Word
  reload : Bool
  startSource : Byte
  stopSource : Byte
  stopMode : Option StopMode
  endPolicy : Option EndPolicy
  itemLimit : Word
  produced : Word
  dropped : Word
  overruns : Word
  backlogLosses : Word
  portTimeouts : Word
  underflows : Word
  tally : Word
  sequence : Half
  pendingStop : Option PendingStop
  fault : Option StreamFault
  faultReserved : Bool
  endReserved : Bool
  waiting : List Grant
  current : Option Grant
  finishing : List Grant
  scan : Option ScanFlight
  staging : List Staged
  fifo : List Half
  prefetching : Bool
  read : Option PlayRead
  ringPosition : Nat
  closing : Option Closing
  deriving DecidableEq, Repr

/-- A context in CLOSED: every field zero or absent (R1). -/
def Stream.empty : Stream where
  state := .closed
  kind := none
  replyQueue := 0
  scanList := []
  timestamp := false
  patternPort := 0
  park := none
  pacer := 0
  regionBase := 0
  regionLength := 0
  startOffset := 0
  advanceSource := 0
  advanceSet := []
  strict := false
  starveHalt := false
  tallyTarget := 0
  reload := false
  startSource := 0
  stopSource := 0
  stopMode := none
  endPolicy := none
  itemLimit := 0
  produced := 0
  dropped := 0
  overruns := 0
  backlogLosses := 0
  portTimeouts := 0
  underflows := 0
  tally := 0
  sequence := 0
  pendingStop := none
  fault := none
  faultReserved := false
  endReserved := false
  waiting := []
  current := none
  finishing := []
  scan := none
  staging := []
  fifo := []
  prefetching := false
  read := none
  ringPosition := 0
  closing := none

/-! ## Pattern Output Unit (chapter 6) -/

/-- A LOAD_PATTERN in flight and its region (R113): its in-flight entry, host address, first entry, count, the
entries written so far, and whether its next read has been served by the mover. -/
structure Load where
  slot : SlotId
  address : Addr
  first : Nat
  count : Nat
  written : Nat
  served : Bool
  deriving DecidableEq, Repr

/-! ## Command Unit (chapter 7) -/

/-- Command queue states (section 7.1). -/
inductive CqState where
  | absent
  | active
  | faulted
  | deleting
  deriving DecidableEq, Repr

/-- The two causes that fault a command queue (section 7.1). -/
inductive QueueFault where
  | badIndex
  | busError
  deriving DecidableEq, Repr

/-- A command queue record (section 7.1). `held` names the in-flight entry that keeps the held record. -/
structure CommandQueue where
  state : CqState
  base : Addr
  size : Nat
  producer : Nat
  consumer : Nat
  replyQueue : RqId
  fault : Option QueueFault
  faultReserved : Bool
  held : Option SlotId
  deriving DecidableEq, Repr

/-- Phases of an in-flight entry (section 7.5). -/
inductive Phase where
  | fetching
  | held
  | working
  deriving DecidableEq, Repr

/-- An in-flight command table entry (section 7.5): queue, record position, phase, the reply queue the command's
reply goes to (R135), the record once fetched (command, tag and target), and the two reply values that a long
command fixes when it is taken (QUERY_STREAM, R22; DELETE_CQ, R124). -/
structure Entry where
  queue : CqId
  position : Nat
  phase : Phase
  replyQueue : RqId
  record : Option Record
  value1 : Word
  value2 : Word
  deriving DecidableEq, Repr

/-- The fetch in progress (R130): its queue, its in-flight entry, the host address of its record, and whether the
mover has served it. -/
structure Fetch where
  queue : CqId
  slot : SlotId
  address : Addr
  served : Bool
  deriving DecidableEq, Repr

/-! ## Reply Unit (chapter 8) -/

/-- An item of a reply queue's waiting list (R150): a reply at its position, or an interrupt message. -/
inductive WaitItem where
  | reply (position : Nat) (bytes : List Byte)
  | message
  deriving DecidableEq, Repr

/-- A reply queue record (section 8.1). `sent` is the interrupt state: SENT when true, ARMED when false. -/
structure ReplyQueue where
  active : Bool
  base : Addr
  size : Nat
  head : Nat
  tail : Nat
  phase : Bool
  occupied : Nat
  reserved : Nat
  waiting : List WaitItem
  enabled : Bool
  sent : Bool
  errorFlag : Bool
  deriving DecidableEq, Repr

/-! ## Transfer Mover (chapter 9) -/

/-- Who asked for a transfer (section 9.1). `closing i` is a PLAY read that stream i, in CLOSING, waits for
(R106); `lostReply` is a reply or message that was served before its queue's list was withdrawn, of which only a
failure is heard (R158, R159, R170); `nobody` is any other transfer whose requester has abandoned it. -/
inductive Requester where
  | capture (i : StreamId)
  | prefetch (i : StreamId)
  | closing (i : StreamId)
  | reply (q : RqId)
  | message (q : RqId)
  | status (slot : SlotId)
  | fetch
  | load (slot : SlotId)
  | lostReply
  | nobody
  deriving DecidableEq, Repr

/-- A transfer on the link (R161): `bytes` is what a write carries; `last` marks the last transfer of its request. -/
structure Transfer where
  who : Requester
  isRead : Bool
  address : Addr
  length : Nat
  bytes : List Byte
  last : Bool
  deriving DecidableEq, Repr

/-- An outstanding read (R167): the tag its completions carry, its requester, address, length and deadline, and
the data its completion parts have brought so far. -/
structure OutstandingRead where
  tag : Nat
  who : Requester
  address : Addr
  length : Nat
  deadline : Tick
  got : List Byte
  deriving DecidableEq, Repr

/-- A status record being written for a QUERY_STREAM (R22): its in-flight entry, host address and bytes, and how
many of them have been served. -/
structure StatusWrite where
  slot : SlotId
  address : Addr
  bytes : List Byte
  served : Nat
  deriving DecidableEq, Repr

/-! ## Device Control (chapter 10) -/

/-- Device states (section 10.1). -/
inductive DeviceState where
  | off
  | ready
  | quiescing
  | fatal
  deriving DecidableEq, Repr

/-- Status causes (R172). -/
inductive Cause where
  | ok
  | config
  | replyWrite
  deriving DecidableEq, Repr

/-- The whole machine. `emitted` holds the events of the running happening that are still to be delivered and is
empty between steps (log 8); `order` is the free order in which events reach their subscribers (log 7);
`nextTag` numbers the reads sent (log 21); `pending` is the queue of rows waiting to be taken. -/
structure State where
  timebase : Tick
  pacers : Vector Pacer 16
  inputs : Vector Input 4
  emitted : List Event
  order : List StreamId
  ports : Vector SamplePort 8
  streams : Vector Stream 32
  portHolder : Vector (Option StreamId) 8
  patternHolder : Vector (Option StreamId) 8
  patternWord : Vector Half 8
  patternMemory : List Host.Cell
  loads : List Load
  queues : Vector CommandQueue 4
  inflight : Vector (Option Entry) 32
  fetch : Option Fetch
  lastServed : CqId
  replyQueues : Vector ReplyQueue 2
  statusWrites : List StatusWrite
  sending : Option Transfer
  outstanding : List OutstandingRead
  lastStream : StreamId
  lastReplyQueue : RqId
  streamRun : Nat
  nextTag : Nat
  device : DeviceState
  cause : Cause
  aqbase : Addr
  arbase : Addr
  qsize : Word
  link : LinkConfig
  linkUp : Bool
  pending : List Instr
  deriving DecidableEq, Repr

/-! ## Reset values -/

/-- A pacer in OFF with zero fields (R49). -/
def Pacer.zero : Pacer where
  state := .off
  target := 0
  period := 0
  remaining := 0
  late := 0

/-- An input after a reset, its pin showing `pin` (R68). The qualified level is the pin's at the first tick. -/
def Input.atReset (pin : Bool) : Input where
  edges := .off
  filter := 0
  qualified := pin
  candidate := none
  pin := pin
  sampled := false
  fresh := true

/-- A sample port in IDLE with timeout `t` (R79). -/
def SamplePort.idle (t : Half) : SamplePort where
  phase := .idle
  timeout := t
  elapsed := 0
  inForce := 0
  shift := 0
  bits := 0

/-- A command queue in ABSENT (R121). R121 gives no value for the reply queue, a field without effect in ABSENT: RQ0
is the model's (DESIGN CHOICE, log 31). -/
def CommandQueue.absent : CommandQueue where
  state := .absent
  base := 0
  size := 0
  producer := 0
  consumer := 0
  replyQueue := 0
  fault := none
  faultReserved := false
  held := none

/-- A reply queue in ABSENT with the interrupt enable and error flag its RQINT register holds (R144, R158, R159). That
the interrupt state is ARMED after DELETE_RQ too, where R146 gives none, is the model's (DESIGN CHOICE, log 35). -/
def ReplyQueue.absent (enabled errorFlag : Bool) : ReplyQueue where
  active := false
  base := 0
  size := 0
  head := 0
  tail := 0
  phase := true
  occupied := 0
  reserved := 0
  waiting := []
  enabled := enabled
  sent := false
  errorFlag := errorFlag

/-- DESIGN CHOICE (log 10), unsafe: the link configuration at `State.reset`. R180 says only that it takes the
values the host link gives at power-up. -/
def LinkConfig.zero : LinkConfig where
  busMaster := false
  msiEnable := false
  vector0 := ⟨0, 0⟩
  vector1 := ⟨0, 0⟩

/-- The machine right after power-on reset (R180), with nothing waiting on its queue. -/
def State.reset : State where
  timebase := 0
  pacers := Vector.replicate 16 Pacer.zero
  inputs := Vector.replicate 4 (Input.atReset false)
  emitted := []
  order := []
  ports := Vector.replicate 8 (SamplePort.idle (BitVec.ofNat 16 Config.resetTimeout))
  streams := Vector.replicate 32 Stream.empty
  portHolder := Vector.replicate 8 none
  patternHolder := Vector.replicate 8 none
  patternWord := Vector.replicate 8 0
  patternMemory := []
  loads := []
  queues := Vector.replicate 4 CommandQueue.absent
  inflight := Vector.replicate 32 none
  fetch := none
  lastServed := 3
  replyQueues := Vector.replicate 2 (ReplyQueue.absent false false)
  statusWrites := []
  sending := none
  outstanding := []
  lastStream := 31
  lastReplyQueue := 1
  streamRun := 0
  nextTag := 0
  device := .off
  cause := .ok
  aqbase := 0
  arbase := 0
  qsize := 0
  link := LinkConfig.zero
  linkUp := true
  pending := []

end Sys2Proof.Machine
end

