-- ==== Sys2Proof/Machine/Flags.lean ====
section
/-! DEFINITION. The codes of chapter 11 and of section 7.6: command codes, status codes, event codes, and the
encodings of R188, each with its reader where software writes it. -/

namespace Sys2Proof.Machine

/-- The nineteen commands (section 7.9). -/
inductive Opcode where
  | nop | readTime | openStream | arm | stop | resume | close | queryStream | grant | reclaim | setPacer | haltPacer
  | loadPattern | createCq | deleteCq | createRq | deleteRq | configInput | configPort
  deriving DecidableEq, Repr

/-- Command codes (section 11.2, byte 0). -/
def Opcode.code : Opcode → Byte
  | .nop => 0x01
  | .readTime => 0x02
  | .openStream => 0x10
  | .arm => 0x11
  | .stop => 0x12
  | .resume => 0x13
  | .close => 0x14
  | .queryStream => 0x15
  | .grant => 0x18
  | .reclaim => 0x19
  | .setPacer => 0x20
  | .haltPacer => 0x21
  | .loadPattern => 0x28
  | .createCq => 0x30
  | .deleteCq => 0x31
  | .createRq => 0x32
  | .deleteRq => 0x33
  | .configInput => 0x38
  | .configPort => 0x39

/-- The command a code names; every other value is unknown (section 11.2). -/
def opcodeOf (b : Byte) : Option Opcode :=
  if b = 0x01 then some .nop
  else if b = 0x02 then some .readTime
  else if b = 0x10 then some .openStream
  else if b = 0x11 then some .arm
  else if b = 0x12 then some .stop
  else if b = 0x13 then some .resume
  else if b = 0x14 then some .close
  else if b = 0x15 then some .queryStream
  else if b = 0x18 then some .grant
  else if b = 0x19 then some .reclaim
  else if b = 0x20 then some .setPacer
  else if b = 0x21 then some .haltPacer
  else if b = 0x28 then some .loadPattern
  else if b = 0x30 then some .createCq
  else if b = 0x31 then some .deleteCq
  else if b = 0x32 then some .createRq
  else if b = 0x33 then some .deleteRq
  else if b = 0x38 then some .configInput
  else if b = 0x39 then some .configPort
  else none

/-- The commands CQ0 alone may carry (R136). -/
def Opcode.adminOnly : Opcode → Bool
  | .createCq | .deleteCq | .createRq | .deleteRq | .configInput | .configPort => true
  | .nop | .readTime | .openStream | .arm | .stop | .resume | .close | .queryStream | .grant | .reclaim | .setPacer
  | .haltPacer | .loadPattern => false

/-- Status codes (R137). -/
inductive Status where
  | ok | badOpcode | adminOnly | badId | wrongState | badParam | portBusy | pacerBusy | regionBusy | listFull
  | noReplyRoom | inUse | busError | aborted | faulted | wrongKind
  deriving DecidableEq, Repr

/-- The numbers of the status codes (R137). -/
def Status.code : Status → Byte
  | .ok => 0
  | .badOpcode => 1
  | .adminOnly => 2
  | .badId => 3
  | .wrongState => 4
  | .badParam => 5
  | .portBusy => 6
  | .pacerBusy => 7
  | .regionBusy => 8
  | .listFull => 9
  | .noReplyRoom => 10
  | .inUse => 11
  | .busError => 12
  | .aborted => 13
  | .faulted => 14
  | .wrongKind => 15

/-- Stream states (R188). -/
def StreamState.code : StreamState → Byte
  | .closed => 0
  | .opened => 1
  | .armed => 2
  | .running => 3
  | .stopping => 4
  | .halted => 5
  | .closing => 6

/-- Stream kinds, 0 in a CLOSED stream (R188). -/
def kindCode : Option Kind → Byte
  | none => 0
  | some .scan => 1
  | some .stamp => 2
  | some .play => 3
  | some .ring => 4
  | some .tally => 5

/-- The kind an OPEN names (R188). -/
def kindOf (b : Byte) : Option Kind :=
  if b = 1 then some .scan
  else if b = 2 then some .stamp
  else if b = 3 then some .play
  else if b = 4 then some .ring
  else if b = 5 then some .tally
  else none

/-- Stop modes (R188). -/
def StopMode.code : StopMode → Byte
  | .now => 1
  | .item => 2
  | .buffer => 3

/-- The mode a STOP names (R188). -/
def stopModeOf (b : Byte) : Option StopMode :=
  if b = 1 then some .now
  else if b = 2 then some .item
  else if b = 3 then some .buffer
  else none

/-- The stop-trigger mode an ARM names: ITEM or BUFFER alone (R188). -/
def triggerModeOf (b : Byte) : Option StopMode :=
  if b = 2 then some .item
  else if b = 3 then some .buffer
  else none

/-- The strength of a stop mode (R9): NOW over ITEM over BUFFER. -/
def StopMode.strength : StopMode → Nat
  | .now => 2
  | .item => 1
  | .buffer => 0

/-- End policies (R188). -/
def EndPolicy.code : EndPolicy → Byte
  | .report => 1
  | .quiet => 2

/-- The end policy an ARM names (R188). -/
def policyOf (b : Byte) : Option EndPolicy :=
  if b = 1 then some .report
  else if b = 2 then some .quiet
  else none

/-- Edge selections (R188). -/
def EdgeSelection.code : EdgeSelection → Byte
  | .off => 0
  | .rising => 1
  | .falling => 2
  | .both => 3

/-- The edge selection a CONFIG_INPUT names (R188). -/
def edgesOf (b : Byte) : Option EdgeSelection :=
  if b = 0 then some .off
  else if b = 1 then some .rising
  else if b = 2 then some .falling
  else if b = 3 then some .both
  else none

/-- END reasons (R188). -/
def EndReason.code : EndReason → Byte
  | .limit => 1
  | .stopEvent => 2
  | .target => 3

/-- Stream fault causes (R188). -/
def StreamFault.code : StreamFault → Byte
  | .starved => 20
  | .underflow => 21
  | .overrun => 22
  | .backlog => 23
  | .portTimeout => 24
  | .busError => 12

/-- Queue fault causes (R188). -/
def QueueFault.code : QueueFault → Byte
  | .badIndex => 25
  | .busError => 12

/-- Device states as DEVSTAT shows them (section 11.7). -/
def DeviceState.code : DeviceState → Nat
  | .off => 0
  | .ready => 1
  | .quiescing => 2
  | .fatal => 3

/-- Status causes as DEVSTAT shows them (section 11.7). -/
def Cause.code : Cause → Nat
  | .ok => 0
  | .config => 1
  | .replyWrite => 2

/-- The code of event PACER p (R60). -/
def pacerCode (p : PacerId) : Byte :=
  BitVec.ofNat 8 p.val

/-- The code of event INPUT i (R60). -/
def inputCode (i : InputId) : Byte :=
  BitVec.ofNat 8 (16 + i.val)

/-- The code of event TERMINAL s (R60). -/
def terminalCode (i : StreamId) : Byte :=
  BitVec.ofNat 8 (32 + i.val)

/-- IMMEDIATE, as a start source (R188). -/
def immediateCode : Byte := 254

/-- NONE, as a stop source (R188). -/
def noneCode : Byte := 255

/-- A TERMINAL code, 32 to 63 (R60). -/
def isTerminalCode (c : Byte) : Bool :=
  32 ≤ c.toNat && c.toNat ≤ 63

/-- A code that has a source: PACER, INPUT or TERMINAL (R60). -/
def isEventCode (c : Byte) : Bool :=
  c.toNat ≤ 19 || isTerminalCode c

/-- A code stream `i` may name as a source: one that has a source, and not its own TERMINAL (R4, R6). -/
def mayName (i : StreamId) (c : Byte) : Bool :=
  isEventCode c && c != terminalCode i

end Sys2Proof.Machine
end

