-- ==== Sys2Proof/Machine/Records.lean ====
section
/-! DEFINITION. The records the controller writes, byte for byte: reply records (R189), capture items (R98, R99,
R190), the stream status record (R191); and the words and entries it reads (R190). -/

namespace Sys2Proof.Machine

/-- Byte 0 of a reply record: the kind in bits 0 to 3, the phase in bit 7 (R189). -/
def replyByte0 (kind : Byte) (phase : Bool) : Byte :=
  if phase then kind ||| 0x80 else kind

/-- A COMMAND reply (R155, R189). -/
def commandReply (code : Byte) (q : CqId) (status : Status) (tag : Half) (value1 value2 : Word) (phase : Bool) :
    List Byte :=
  [replyByte0 1 phase, code, BitVec.ofNat 8 q.val, status.code] ++ leBytes 2 tag.toNat ++ [0, 0] ++
    leBytes 4 value1.toNat ++ leBytes 4 value2.toNat

/-- The grant was cut short: its fill has not reached its item count (section 2.4). -/
def Grant.isPartial (g : Grant) : Bool :=
  g.fill < g.count

/-- A BUFFER notice for grant `g` of stream `i`, retiring at tick `t` (R37, R189). -/
def bufferNotice (i : StreamId) (g : Grant) (t : Tick) (phase : Bool) : List Byte :=
  [replyByte0 2 phase, BitVec.ofNat 8 i.val, if g.isPartial then 1 else 0, BitVec.ofNat 8 g.missed] ++
    leBytes 2 g.tag.toNat ++ leBytes 2 (g.firstSeq.getD 0).toNat ++ leBytes 2 g.fill ++ [0, 0] ++ leBytes 4 t.toNat

/-- An END notice of stream `i` at tick `t` (R156, R189). -/
def endNotice (i : StreamId) (reason : EndReason) (produced : Word) (t : Tick) (phase : Bool) : List Byte :=
  [replyByte0 3 phase, BitVec.ofNat 8 i.val, reason.code, 0] ++ [0, 0, 0, 0] ++ leBytes 4 produced.toNat ++
    leBytes 4 t.toNat

/-- A FAULT notice of stream `i` at tick `t` (R156, R189). -/
def faultNotice (i : StreamId) (cause : StreamFault) (produced : Word) (t : Tick) (phase : Bool) : List Byte :=
  [replyByte0 4 phase, BitVec.ofNat 8 i.val, cause.code, 0] ++ [0, 0, 0, 0] ++ leBytes 4 produced.toNat ++
    leBytes 4 t.toNat

/-- A QUEUE notice of command queue `q` (R131, R189). -/
def queueNotice (q : CqId) (cause : QueueFault) (consumer : Nat) (phase : Bool) : List Byte :=
  [replyByte0 5 phase, BitVec.ofNat 8 q.val, cause.code, 0] ++ leBytes 2 consumer ++ [0, 0] ++
    [0, 0, 0, 0, 0, 0, 0, 0]

/-- The size of a SCAN item of `n` samples (R98). -/
def scanItemSize (n : Nat) (timestamp : Bool) : Nat :=
  let raw := 4 + (if timestamp then 8 else 0) + 2 * n
  raw + raw % 4

/-- The item size a stream's kind and options fix at OPEN, in bytes (section 2.1, R98, R99). -/
def Stream.itemSize (st : Stream) : Nat :=
  match st.kind with
  | some .scan => scanItemSize st.scanList.length st.timestamp
  | some .stamp => 12
  | _ => 2

/-- The sample a list position gives to the item: 0 where its port timed out (R87). -/
def ScanSlot.value : ScanSlot → Half
  | .sample v => v
  | .awaited => 0
  | .timedOut => 0

/-- The timeout mask: bit k set where list position k timed out (R190). -/
def timeoutMask : List ScanSlot → Nat
  | [] => 0
  | x :: xs => (if x = .timedOut then 1 else 0) + 2 * timeoutMask xs

/-- A SCAN item (R98, R190). -/
def scanItem (timestamp : Bool) (f : ScanFlight) (sequence : Half) : List Byte :=
  let n := f.slots.length
  let body :=
    leBytes 2 sequence.toNat ++ [BitVec.ofNat 8 (n % 16), BitVec.ofNat 8 (timeoutMask f.slots)] ++
      (if timestamp then leBytes 8 f.time.toNat else []) ++ f.slots.flatMap fun x => leBytes 2 x.value.toNat
  body ++ List.replicate (scanItemSize n timestamp - body.length) 0

/-- A STAMP item (R99, R190). -/
def stampItem (e : Event) (sequence : Half) : List Byte :=
  leBytes 2 sequence.toNat ++ [e.code, 0] ++ leBytes 8 e.stamp.toNat

/-- The grants a stream holds: current, waiting and finishing together (R27). -/
def Stream.grantsHeld (st : Stream) : Nat :=
  st.waiting.length + st.finishing.length + (if st.current.isSome then 1 else 0)

/-- Byte 7 of the status record (R191). -/
def Stream.statusFlags (st : Stream) : Nat :=
  (if st.strict then 1 else 0) + (if st.starveHalt then 2 else 0) + (if st.scan.isSome then 4 else 0) +
    (if st.current.isSome then 8 else 0) + (if st.park.isSome then 16 else 0)

/-- Byte 6 of the status record: stop-trigger mode and end policy of the last ARM, 0 before the first (R191). -/
def Stream.statusModes (st : Stream) : Nat :=
  ((st.stopMode.map StopMode.code).getD 0).toNat + 16 * ((st.endPolicy.map EndPolicy.code).getD 0).toNat

/-- Byte 43 of the status record: the governing mode of the pending stop and the event-origin mark (R191). -/
def Stream.statusPending (st : Stream) : Nat :=
  match st.pendingStop with
  | none => 0
  | some p => p.mode.code.toNat + (if p.event then 128 else 0)

/-- The 64-byte stream status record of stream `i` at tick `t` (R22, R191). A CLOSED context is all zeros (R1), so
its record gives the id and the tick alone. -/
def statusRecord (i : StreamId) (st : Stream) (t : Tick) : List Byte :=
  [BitVec.ofNat 8 i.val, st.state.code, kindCode st.kind, BitVec.ofNat 8 st.replyQueue.val, st.startSource,
    st.stopSource, BitVec.ofNat 8 st.statusModes, BitVec.ofNat 8 st.statusFlags] ++
  leBytes 4 st.itemLimit.toNat ++ leBytes 4 st.produced.toNat ++ leBytes 4 st.dropped.toNat ++
  leBytes 4 st.overruns.toNat ++ leBytes 4 st.backlogLosses.toNat ++ leBytes 4 st.portTimeouts.toNat ++
  leBytes 4 st.underflows.toNat ++ leBytes 4 st.tally.toNat ++ leBytes 2 st.sequence.toNat ++
  [(st.fault.map StreamFault.code).getD 0, BitVec.ofNat 8 st.statusPending,
    BitVec.ofNat 8 ((st.pendingStop.map fun p => p.commands.length).getD 0), BitVec.ofNat 8 st.grantsHeld,
    BitVec.ofNat 8 st.staging.length, BitVec.ofNat 8 st.fifo.length] ++
  leBytes 2 ((st.current.map fun g => g.tag.toNat).getD 0) ++ leBytes 2 ((st.current.map Grant.fill).getD 0) ++
  leBytes 2 st.ringPosition ++ [0, 0] ++ leBytes 8 t.toNat

/-- The 16-bit words that host bytes hold, in address order (R186, R190). -/
def halvesOf : List Byte → List Half
  | low :: high :: rest => (high ++ low) :: halvesOf rest
  | _ => []

end Sys2Proof.Machine
end

