-- ==== Sys2Proof/Machine/Ops.lean ====
section
/-! DEFINITION. The named operations over the machine's tables: reading and replacing one element, the due test,
round-robin orders, pattern memory, the in-flight table, and emitting an event. -/

namespace Sys2Proof.Machine

/-! ## Elements of the tables -/

/-- Pacer `p`. -/
def State.pacer (s : State) (p : PacerId) : Pacer := s.pacers.get p

/-- The state with pacer `p` replaced. -/
def State.setPacer (s : State) (p : PacerId) (x : Pacer) : State := { s with pacers := s.pacers.set p x }

/-- Input `i`. -/
def State.input (s : State) (i : InputId) : Input := s.inputs.get i

/-- The level of the input's pin at the present tick (R69, R71): what this tick's one sample showed, which is the level
that is not the qualified one exactly where the sample began or kept a candidate; before that sample, what the pin
shows, which a sample now would take (log 11). -/
def Input.level (x : Input) : Bool :=
  if x.sampled then x.qualified ^^ x.candidate.isSome else x.pin

/-- The state with input `i` replaced. -/
def State.setInput (s : State) (i : InputId) (x : Input) : State := { s with inputs := s.inputs.set i x }

/-- Sample port `n`. -/
def State.port (s : State) (n : PortId) : SamplePort := s.ports.get n

/-- The state with sample port `n` replaced. -/
def State.setPort (s : State) (n : PortId) (x : SamplePort) : State := { s with ports := s.ports.set n x }

/-- Stream context `i`. -/
def State.stream (s : State) (i : StreamId) : Stream := s.streams.get i

/-- The state with stream context `i` replaced. -/
def State.setStream (s : State) (i : StreamId) (x : Stream) : State := { s with streams := s.streams.set i x }

/-- The holder of sample port `n` (R5). -/
def State.holder (s : State) (n : PortId) : Option StreamId := s.portHolder.get n

/-- The state with the holder of sample port `n` replaced. -/
def State.setHolder (s : State) (n : PortId) (h : Option StreamId) : State :=
  { s with portHolder := s.portHolder.set n h }

/-- The holder of pattern port `n` (R5). -/
def State.patHolder (s : State) (n : PortId) : Option StreamId := s.patternHolder.get n

/-- The state with the holder of pattern port `n` replaced. -/
def State.setPatHolder (s : State) (n : PortId) (h : Option StreamId) : State :=
  { s with patternHolder := s.patternHolder.set n h }

/-- The word pattern port `n` drives (R100). -/
def State.portWord (s : State) (n : PortId) : Half := s.patternWord.get n

/-- The state with the word of pattern port `n` set (R100). -/
def State.setPortWord (s : State) (n : PortId) (w : Half) : State :=
  { s with patternWord := s.patternWord.set n w }

/-- Command queue `q`. -/
def State.queue (s : State) (q : CqId) : CommandQueue := s.queues.get q

/-- The state with command queue `q` replaced. -/
def State.setQueue (s : State) (q : CqId) (x : CommandQueue) : State := { s with queues := s.queues.set q x }

/-- In-flight entry `k`, if it is taken. -/
def State.entry (s : State) (k : SlotId) : Option Entry := s.inflight.get k

/-- The state with in-flight entry `k` replaced or freed. -/
def State.setEntry (s : State) (k : SlotId) (x : Option Entry) : State := { s with inflight := s.inflight.set k x }

/-- Reply queue `q`. -/
def State.rq (s : State) (q : RqId) : ReplyQueue := s.replyQueues.get q

/-- The state with reply queue `q` replaced. -/
def State.setRq (s : State) (q : RqId) (x : ReplyQueue) : State := { s with replyQueues := s.replyQueues.set q x }

/-! ## Numbers out of a record -/

/-- The stream a record names, once its id is known to be below 32 (R1). -/
def streamOf (r : RecordBody) : StreamId := Fin.ofNat 32 r.id.toNat

/-- The pacer a record names, once its id is known to be below 16. -/
def pacerOf (r : RecordBody) : PacerId := Fin.ofNat 16 r.id.toNat

/-- The command queue a record names, once its id is known to be below 4. -/
def cqOf (r : RecordBody) : CqId := Fin.ofNat 4 r.id.toNat

/-- The input a record names, once its id is known to be below 4. -/
def inputOf (r : RecordBody) : InputId := Fin.ofNat 4 r.id.toNat

/-- The sample port a record names, once its id is known to be below 8. -/
def portOf (r : RecordBody) : PortId := Fin.ofNat 8 r.id.toNat

/-- A reply queue number out of a byte known to be 0 or 1. -/
def rqOf (b : Byte) : RqId := Fin.ofNat 2 b.toNat

/-! ## Time -/

/-- Target `t` is due at tick `n` (R47). -/
def due (n t : Tick) : Bool :=
  (n - t).toNat < 2 ^ 47

/-- The low 32 bits of a tick. -/
def tickLow (t : Tick) : Word :=
  t.setWidth 32

/-! ## Host addresses -/

/-- A run of `n` bytes from `a` lies within the 64-bit address space. -/
def fits (a : Addr) (n : Nat) : Bool :=
  a.toNat + n ≤ 2 ^ 64

/-- The bytes from `a` to the next 4 KiB boundary of host addresses (R161). -/
def bytesToPage (a : Addr) : Nat :=
  Config.pageBytes - a.toNat % Config.pageBytes

/-- The length of the next transfer of a request with `n` bytes left from `a` on (R161). -/
def transferLength (a : Addr) (n : Nat) : Nat :=
  min n (min Config.maxTransfer (bytesToPage a))

/-- A queue size: a power of two from 16 to 4096 (R123, R145). -/
def isQueueSize (n : Nat) : Bool :=
  [16, 32, 64, 128, 256, 512, 1024, 2048, 4096].contains n

/-! ## Round-robin orders -/

/-- The streams in the order that begins after `last` and goes round (R164). -/
def streamsAfter (last : StreamId) : List StreamId :=
  (List.range 32).map fun k => Fin.ofNat 32 (last.val + 1 + k)

/-- The command queues in the order that begins after `last` and goes round (R129). -/
def queuesAfter (last : CqId) : List CqId :=
  (List.range 4).map fun k => Fin.ofNat 4 (last.val + 1 + k)

/-- All stream ids, lowest first. -/
def allStreams : List StreamId := List.finRange 32

/-! ## Pattern memory (R111), as bytes: entry k at 4k to 4k + 3 in the layout of a loaded entry (R190) -/

/-- The byte at `a`; an address not listed reads 0, the contents after power-on reset (R111). -/
def memRead : List Host.Cell → Nat → Byte
  | [], _ => 0
  | (x, b) :: m, a => if x = a then b else memRead m a

/-- Store byte `b` at `a`, keeping the list sorted and free of zeros. -/
def memWrite : List Host.Cell → Nat → Byte → List Host.Cell
  | [], a, b => if b = 0 then [] else [(a, b)]
  | (x, y) :: m, a, b =>
    if a < x then (if b = 0 then (x, y) :: m else (a, b) :: (x, y) :: m)
    else if a = x then (if b = 0 then m else (a, b) :: m)
    else (x, y) :: memWrite m a b

/-- Store bytes at `a`, `a + 1` and so on. -/
def memWriteAll (m : List Host.Cell) (a : Nat) : List Byte → List Host.Cell
  | [] => m
  | b :: bs => memWriteAll (memWrite m a b) (a + 1) bs

/-- The canonical form: addresses strictly rising, no byte 0. -/
def Memory.wf : List Host.Cell → Bool
  | [] => true
  | [c] => c.2 != 0
  | c :: d :: m => c.2 != 0 && decide (c.1 < d.1) && Memory.wf (d :: m)

/-- The word of pattern entry `k` (R111). -/
def entryWord (m : List Host.Cell) (k : Nat) : Half :=
  memRead m (4 * k + 1) ++ memRead m (4 * k)

/-- The delay code of pattern entry `k` (R111). -/
def entryDelayCode (m : List Host.Cell) (k : Nat) : Half :=
  memRead m (4 * k + 3) ++ memRead m (4 * k + 2)

/-- The delay of pattern entry `k` in ticks: its delay code plus 1 (R111). -/
def entryDelay (m : List Host.Cell) (k : Nat) : Nat :=
  (entryDelayCode m k).toNat + 1

/-- The regions of `n` entries from `a` and of `m` entries from `b` have an entry in common (R112). -/
def regionsOverlap (a n b m : Nat) : Bool :=
  a < b + m && b < a + n

/-! ## The in-flight table (section 7.5) -/

/-- A free in-flight entry, the lowest (log 24). -/
def State.freeSlot (s : State) : Option SlotId :=
  (List.finRange 32).find? fun k => (s.entry k).isNone

/-- The number of entries of queue `q` in phase `p`. -/
def State.countPhase (s : State) (q : CqId) (p : Phase) : Nat :=
  (List.finRange 32).countP fun k =>
    match s.entry k with
    | some e => e.queue == q && e.phase == p
    | none => false

/-- Queue `q` has an entry in phase WORKING (R139). -/
def State.hasWorking (s : State) (q : CqId) : Bool :=
  s.countPhase q .working != 0

/-- The queue's outstanding work: its entries apart from a held record (R124). -/
def State.outstandingWork (s : State) (q : CqId) : Nat :=
  s.countPhase q .working + s.countPhase q .fetching

/-- The entry passes to WORKING, with the two reply values the command has fixed (R133). -/
def State.toWorking (s : State) (k : SlotId) (value1 value2 : Word) : State :=
  match s.entry k with
  | none => s
  | some e => s.setEntry k (some { e with phase := .working, value1 := value1, value2 := value2 })

/-! ## Events -/

/-- Emit event `c`, stamped with the present tick (R48, R60). It is delivered after the running happening (R65). -/
def State.emit (s : State) (c : Byte) : State :=
  { s with emitted := s.emitted ++ [⟨c, s.timebase⟩] }

end Sys2Proof.Machine
end

