-- ==== Sys2Proof/Machine/Replies.lean ====
section
/-! DEFINITION. The Reply Unit (chapter 8): reservations, submission, the waiting list, consumer writes, the
interrupt, and the completion of a command by its reply. -/

namespace Sys2Proof.Machine

/-! ## Reservations (R147, R148) -/

/-- A claim that must leave `n - 1` entries besides its own is granted: `n` is 1 for a command claim and 2 for a
stream-side claim (R147). -/
def ReplyQueue.grants (x : ReplyQueue) (n : Nat) : Bool :=
  x.occupied + x.reserved + n ≤ x.size - 1

/-- A command claim of queue `q` is granted (R147). -/
def State.commandClaim (s : State) (q : RqId) : Bool :=
  (s.rq q).grants 1

/-- A stream-side claim of queue `q` is granted (R147). -/
def State.streamClaim (s : State) (q : RqId) : Bool :=
  (s.rq q).grants 2

/-- A granted claim raises reserved by one (R147). -/
def State.reserve (s : State) (q : RqId) : State :=
  let x := s.rq q
  s.setRq q { x with reserved := x.reserved + 1 }

/-- A released reservation lowers reserved by one (R148). -/
def State.release (s : State) (q : RqId) : State :=
  let x := s.rq q
  s.setRq q { x with reserved := x.reserved - 1 }

/-- Release a reservation where one is held. -/
def State.releaseIf (s : State) (held : Bool) (q : RqId) : State :=
  if held then s.release q else s

/-! ## Submission (R149) -/

/-- What a submission does at the queue (R149): it consumes a reservation, takes the tail position and the phase,
advances the tail, inverting the phase at the wrap, and joins the waiting list. -/
def ReplyQueue.submit (x : ReplyQueue) (record : Bool → List Byte) : ReplyQueue :=
  let next := (x.tail + 1) % x.size
  { x with
    reserved := x.reserved - 1
    occupied := x.occupied + 1
    tail := next
    phase := if next = 0 then !x.phase else x.phase
    waiting := x.waiting ++ [.reply x.tail (record x.phase)] }

/-- A reply is submitted to queue `q`; `record` gives its bytes for a phase (R149). Every reply uses up a
reservation made earlier, so without one nothing is submitted (log 20). -/
def State.submit (s : State) (q : RqId) (record : Bool → List Byte) : State :=
  if (s.rq q).reserved = 0 then s else s.setRq q ((s.rq q).submit record)

/-- The queue's interrupt message is asked for: it joins the waiting list and the interrupt state is SENT (R154). -/
def ReplyQueue.askMessage (x : ReplyQueue) : ReplyQueue :=
  { x with waiting := x.waiting ++ [.message], sent := true }

/-- The head of the waiting list has been dealt with: it leaves the list. A reply written while the enable is set
and the state ARMED asks for the message (R150, R154). -/
def ReplyQueue.itemWritten (x : ReplyQueue) : ReplyQueue :=
  match x.waiting with
  | [] => x
  | .message :: rest => { x with waiting := rest }
  | .reply _ _ :: rest =>
    let y := { x with waiting := rest }
    if y.enabled && !y.sent then y.askMessage else y

/-! ## The consumer position (R152) -/

/-- The advance of a consumer write of `v` below the size: (v - head) mod size (R152). -/
def ReplyQueue.advance (x : ReplyQueue) (v : Nat) : Nat :=
  (v + x.size - x.head) % x.size

/-- A consumer write is valid: below the size, and its advance at most occupied (R152, R192). -/
def ReplyQueue.validConsumer (x : ReplyQueue) (v : Nat) : Bool :=
  v < x.size && x.advance v ≤ x.occupied

/-- What a consumer write of `v` does at an ACTIVE queue (R152, R154). -/
def ReplyQueue.consume (x : ReplyQueue) (v : Nat) : ReplyQueue :=
  if x.validConsumer v then
    let y := { x with head := v, occupied := x.occupied - x.advance v }
    if x.sent then
      if y.occupied ≠ 0 && y.enabled then y.askMessage else { y with sent := false }
    else y
  else { x with errorFlag := true }

/-- A write of `v` to RQCONS of queue `q` (R152, R185). -/
def State.consumerWrite (s : State) (q : RqId) (v : Word) : State :=
  if s.device = .ready ∧ (s.rq q).active then s.setRq q ((s.rq q).consume v.toNat) else s

/-! ## RQINT (R153, R154, R185, R192) -/

/-- A write to RQINT of queue `q`: the enable becomes `on`, the error flag is cleared when `clear` is set, and
then an enable gone from clear to set asks for a message where the device is READY and the queue ACTIVE with
entries occupied (R185, R192). -/
def State.writeInterrupt (s : State) (q : RqId) (on clear : Bool) : State :=
  let x := s.rq q
  let y := { x with enabled := on, errorFlag := x.errorFlag && !clear }
  if on && !x.enabled && s.device == .ready && x.active && x.occupied != 0 then s.setRq q y.askMessage
  else s.setRq q y

/-! ## Completing a command (R133, R135, R138) -/

/-- The command of in-flight entry `k` completes: its reply is submitted to the reply queue bound at its fetch, or,
for QUIET and OK, its reservation is released; and its entry is freed, in one happening. -/
def State.complete (s : State) (k : SlotId) (status : Status) (value1 value2 : Word) : State :=
  match s.entry k with
  | none => s
  | some e =>
    let code := (e.record.map Record.code).getD 0
    let tag := (e.record.map fun r => r.body.tag).getD 0
    let quiet := (e.record.map fun r => r.body.quiet).getD false
    let s := s.setEntry k none
    if quiet && status == .ok then s.release e.replyQueue
    else s.submit e.replyQueue (commandReply code e.queue status tag value1 value2)

/-- A refused command: its status, and 0 for both values (R135, R137). -/
def State.refuse (s : State) (k : SlotId) (status : Status) : State :=
  s.complete k status 0 0

/-- The entry of a command or fetch that gets no reply is freed and its reservation released (R125, R131). -/
def State.discard (s : State) (k : SlotId) : State :=
  match s.entry k with
  | none => s
  | some e => (s.setEntry k none).release e.replyQueue

/-- A queue enters FAULTED with `cause` and posts its QUEUE notice on RQ0 from its queue-fault reservation (R126,
R131). -/
def State.faultQueue (s : State) (q : CqId) (cause : QueueFault) : State :=
  let x := s.queue q
  let s := s.setQueue q { x with state := .faulted, fault := some cause, faultReserved := false }
  if x.faultReserved then s.submit 0 (queueNotice q cause x.consumer) else s

end Sys2Proof.Machine
end

