-- ==== Sys2Proof/Machine/Grants.lean ====
section
/-! DEFINITION. Buffer grants (chapter 2) and the PLAY prefetch's demand for words (R103): promotion, retirement,
recycling, and giving grants back as reclaimed. -/

namespace Sys2Proof.Machine

/-- BUFFER governs the stream's pending stop (R9). -/
def Stream.bufferGoverns (st : Stream) : Bool :=
  match st.pendingStop with
  | some p => p.mode == .buffer
  | none => false

/-- The numbers of the grants a stream holds. -/
def Stream.grantNumbers (st : Stream) : List Nat :=
  (st.waiting ++ st.finishing ++ st.current.toList).map Grant.number

/-- A grant number no held grant of the stream has, the lowest (log 24). -/
def Stream.freeGrantNumber (st : Stream) : Nat :=
  ((List.range Config.maxGrants).find? fun k => !st.grantNumbers.contains k).getD Config.maxGrants

/-- The grant joins the tail of the waiting queue. -/
def State.appendWaiting (s : State) (i : StreamId) (g : Grant) : State :=
  let st := s.stream i
  s.setStream i { st with waiting := st.waiting ++ [g] }

/-- A recycled grant rejoins the waiting queue with fill 0 and no first sequence (R38). With NOTIFY it asks for a
fresh reservation, and counts a missed notice when that is denied (R39). -/
def State.rejoin (s : State) (i : StreamId) (g : Grant) : State :=
  let q := (s.stream i).replyQueue
  let g := { g with fill := 0, firstSeq := none }
  if g.notify then
    if s.streamClaim q then (s.reserve q).appendWaiting i { g with reserved := true }
    else s.appendWaiting i { g with reserved := false, missed := min 255 (g.missed + 1) }
  else s.appendWaiting i g

/-- The stream is in a state in which a full grant recycles (R38). -/
def StreamState.recycles : StreamState → Bool
  | .armed | .running => true
  | .closed | .opened | .stopping | .halted | .closing => false

/-- A grant that has left its list retires (R35): its notice by R37, then it recycles by R38 or leaves. -/
def State.retire (s : State) (i : StreamId) (g : Grant) : State :=
  let st := s.stream i
  let noticed := g.notify && g.reserved
  let s := if noticed then s.submit st.replyQueue (bufferNotice i g s.timebase) else s
  let g := if noticed then { g with reserved := false, missed := 0 } else g
  if g.recycle && !g.isPartial && st.state.recycles then s.rejoin i g
  else s.releaseIf g.reserved st.replyQueue

/-- Release the reservations of grants that leave without a notice (R30, R36, R43). -/
def State.releaseGrants (s : State) (q : RqId) : List Grant → State
  | [] => s
  | g :: gs => (s.releaseIf g.reserved q).releaseGrants q gs

/-- An item of grant `n` is in staging. -/
def Stream.hasStaged (st : Stream) (n : Nat) : Bool :=
  st.staging.any fun x => x.grant == n

/-! ## The PLAY prefetch (section 6.2) -/

/-- Words of room in the FIFO (R103). -/
def Stream.fifoRoom (st : Stream) : Nat :=
  Config.fifoDepth - st.fifo.length

/-- A prefetch with no current grant and room promotes the head of the waiting queue, unless BUFFER governs
(R32, R103). -/
def Stream.promoteForRead (st : Stream) : Stream :=
  match st.current, st.waiting with
  | none, g :: rest =>
    if st.fifoRoom ≠ 0 && !st.bufferGoverns then { st with current := some g, waiting := rest } else st
  | _, _ => st

/-- The host address of the grant's next word (R34, R103). -/
def Grant.nextWord (g : Grant) : Addr :=
  g.address + BitVec.ofNat 64 (2 * g.fill)

/-- A prefetch with a current grant asks for a read when the room is at least the smallest of 8, the remaining
words and the words up to the next page; the read's length is the smallest of room, remaining and boundary (R103). -/
def Stream.askRead (st : Stream) : Stream :=
  match st.current with
  | none => st
  | some g =>
    let remaining := g.count - g.fill
    let boundary := bytesToPage g.nextWord / 2
    let ask : PlayRead :=
      { grant := g.number
        start := g.fill
        words := min st.fifoRoom (min remaining boundary)
        address := g.nextWord
        served := false }
    if remaining ≠ 0 && min 8 (min remaining boundary) ≤ st.fifoRoom then { st with read := some ask }
    else st

/-- The test of R103: an active prefetch with no read in progress promotes and asks as it can. -/
def Stream.prefetchTest (st : Stream) : Stream :=
  if st.kind = some .play ∧ st.prefetching ∧ st.read = none then st.promoteForRead.askRead else st

/-- The test of R103 at stream `i`. -/
def State.prefetchTest (s : State) (i : StreamId) : State :=
  s.setStream i (s.stream i).prefetchTest

/-! ## Retirement that is due (R35, R36) -/

/-- The oldest FINISHING grant retires when none of its items is left in staging; a PLAY stream's current grant
retires when its fill has reached its item count. -/
def State.retireDue (s : State) (i : StreamId) : State :=
  let st := s.stream i
  match st.finishing with
  | g :: rest =>
    if st.hasStaged g.number then s else (s.setStream i { st with finishing := rest }).retire i g
  | [] =>
    match st.kind, st.current with
    | some .play, some g =>
      if g.isPartial then s
      else ((s.setStream i { st with current := none }).retire i g).prefetchTest i
    | _, _ => s

end Sys2Proof.Machine
end

