-- ==== Sys2Proof/Machine/Streams.lean ====
section
/-! DEFINITION. The stream as a whole (chapter 1): the stop condition, the end of a run, faults, park words and
the closing steps. -/

namespace Sys2Proof.Machine

/-! ## The stop condition (R9) -/

/-- The condition of the governing mode holds (R9). The conditions of RING and TALLY under BUFFER hold at a lap end
and at a target reach alone, and are tested there (R58, R75). -/
def Stream.stopConditionHolds (st : Stream) : Bool :=
  match st.pendingStop with
  | none => false
  | some p =>
    match p.mode, st.kind with
    | .now, _ => true
    | .item, some .scan => st.scan.isNone
    | .item, _ => true
    | .buffer, some .scan => st.current.isNone
    | .buffer, some .stamp => st.current.isNone
    | .buffer, some .play => st.fifo.isEmpty && st.current.isNone
    | .buffer, _ => false

/-- The stream is RUNNING or STOPPING. -/
def StreamState.runs : StreamState → Bool
  | .running | .stopping => true
  | .closed | .opened | .armed | .halted | .closing => false

/-- The STOP commands waiting on the stream, in the order taken (R12, R13). -/
def Stream.stopCommands (st : Stream) : List SlotId :=
  match st.pendingStop with
  | some p => p.commands
  | none => []

/-! ## Transfers a stream lets go of (R106) -/

/-- The transfer on the link and the outstanding reads of requester `a` become those of `b`. -/
def State.reassign (s : State) (a b : Requester) : State :=
  { s with
    sending := s.sending.map fun t => if t.who = a then { t with who := b } else t
    outstanding := s.outstanding.map fun o => if o.who = a then { o with who := b } else o }

/-- A PLAY prefetch stops with its FIFO emptied (R102): an unserved read is withdrawn, and a served one is left to
`heir` (R106). -/
def State.stopPrefetch (s : State) (i : StreamId) (heir : Requester) : State :=
  let st := s.stream i
  let s := s.setStream i { st with fifo := [], prefetching := false, read := none }
  match st.read with
  | some r => if r.served then s.reassign (.prefetch i) heir else s
  | none => s

/-- A DRIVEN pacer returns to OWNED with target 0 (R59). -/
def State.pacerToOwned (s : State) (p : PacerId) : State :=
  let x := s.pacer p
  if x.state = .driven then s.setPacer p { x with state := .owned, target := 0 } else s

/-- The timed work of the stream is wound down by kind (R10, step 2, less its current grant). -/
def State.windDown (s : State) (i : StreamId) (heir : Requester) : State :=
  let st := s.stream i
  match st.kind with
  | some .scan => s.setStream i { st with scan := none }
  | some .play => s.stopPrefetch i heir
  | some .ring => s.pacerToOwned st.pacer
  | _ => s

/-- A park word is driven on the stream's pattern port (R23). -/
def State.drivePark (s : State) (i : StreamId) : State :=
  let st := s.stream i
  match st.park with
  | some w => s.setPortWord st.patternPort w
  | none => s

/-! ## Grants at the end of work (R10, R36) -/

/-- The current grant is given back as reclaimed: it leaves the stream and its reservation is released (R36). -/
def State.reclaimCurrent (s : State) (i : StreamId) : State :=
  let st := s.stream i
  match st.current with
  | some g => (s.setStream i { st with current := none }).releaseIf g.reserved st.replyQueue
  | none => s

/-- The current grant with fill 0 goes back to the head of the waiting queue (R10, R36). -/
def State.restoreCurrent (s : State) (i : StreamId) : State :=
  let st := s.stream i
  match st.current with
  | some g => s.setStream i { st with current := none, waiting := { g with firstSeq := none } :: st.waiting }
  | none => s

/-- The current grant, cut short with fill above 0: with items in staging it becomes FINISHING, else it retires
partial at once (R36). -/
def State.cutShort (s : State) (i : StreamId) : State :=
  let st := s.stream i
  match st.current with
  | none => s
  | some g =>
    if st.hasStaged g.number then s.setStream i { st with current := none, finishing := st.finishing ++ [g] }
    else (s.setStream i { st with current := none }).retire i g

/-- The stream has a current grant of fill 0. -/
def Stream.currentUnfilled (st : Stream) : Bool :=
  match st.current with
  | some g => g.fill == 0
  | none => false

/-! ## Replies of pending STOPs -/

/-- The pending STOP commands reply in the order taken; the first carries the reclaim count, the others 0 (R10,
R13). -/
def State.replyStops (s : State) (commands : List SlotId) (status : Status) (produced : Word) (reclaimed : Nat) :
    State :=
  match commands with
  | [] => s
  | c :: cs => (s.complete c status produced (BitVec.ofNat 32 reclaimed)).replyStops cs status produced 0

/-- The stream's end-notice reservation, if held, is released (R3). -/
def State.releaseEnd (s : State) (i : StreamId) : State :=
  let st := s.stream i
  (s.setStream i { st with endReserved := false }).releaseIf st.endReserved st.replyQueue

/-- The END notice is submitted from the end-notice reservation, which only REPORT holds (R3, R10). -/
def State.postEnd (s : State) (i : StreamId) (reason : EndReason) : State :=
  let st := s.stream i
  let s := s.setStream i { st with endReserved := false }
  if st.endReserved then s.submit st.replyQueue (endNotice i reason st.produced s.timebase) else s

/-! ## The end of a run (R10, R15, R16) -/

/-- The stream ends its run (R10). `reason` is that of an END notice, posted when no STOP command was pending. -/
def State.endRun (s : State) (i : StreamId) (reason : EndReason) : State :=
  let before := s.stream i
  let commands := before.stopCommands
  let s := s.setStream i { before with state := .opened, pendingStop := none }
  let s := s.windDown i .nobody
  let s := s.drivePark i
  let unfilled := (s.stream i).currentUnfilled
  let reclaims := unfilled && !commands.isEmpty
  let s :=
    if reclaims then s.reclaimCurrent i
    else if unfilled then s.restoreCurrent i
    else s.cutShort i
  let s := s.replyStops commands .ok before.produced (if reclaims then 1 else 0)
  let s := if commands.isEmpty then s.postEnd i reason else s.releaseEnd i
  s.emit (terminalCode i)

/-- The stop condition is tested at a stream that runs: where it holds, the run ends (R9). A run that ends with no
STOP command pending ends by its stop event (R14). -/
def State.testStop (s : State) (i : StreamId) : State :=
  let st := s.stream i
  if st.state.runs && st.stopConditionHolds then s.endRun i .stopEvent else s

/-- The item limit is nonzero and items produced has reached it (R15). -/
def Stream.limitReached (st : Stream) : Bool :=
  st.itemLimit != 0 && decide (st.itemLimit ≤ st.produced)

/-- A stop in mode `mode` reaches a RUNNING stream, by a STOP command (R12) or by the stop event (R14). -/
def State.stopRunning (s : State) (i : StreamId) (mode : StopMode) (commands : List SlotId) : State :=
  let st := s.stream i
  let st := { st with pendingStop := some { mode := mode, commands := commands, event := commands.isEmpty } }
  if st.stopConditionHolds then (s.setStream i st).endRun i .stopEvent
  else s.setStream i { st with state := .stopping }

/-! ## Faults (R17, R18) -/

/-- The stream meets a fault condition: from OPEN, ARMED, RUNNING or STOPPING it enters HALTED (R17); in any other
state the condition changes nothing (R18, R21). -/
def State.haltStream (s : State) (i : StreamId) (cause : StreamFault) : State :=
  let st := s.stream i
  match st.state with
  | .closed | .halted | .closing => s
  | .opened | .armed | .running | .stopping =>
    let s := if st.state.runs then s.drivePark i else s
    let s := s.setStream i
      { st with
        state := .halted
        fault := some cause
        scan := none
        prefetching := false
        pendingStop := none
        faultReserved := false }
    let s := if st.faultReserved then s.submit st.replyQueue (faultNotice i cause st.produced s.timebase) else s
    let s := s.replyStops st.stopCommands .faulted st.produced 0
    s.releaseEnd i

/-! ## Closing (R20, R21) -/

/-- A transfer of requester `w` is being sent or outstanding. -/
def State.transferOf (s : State) (w : Requester) : Bool :=
  (match s.sending with
    | some t => t.who == w
    | none => false) || s.outstanding.any fun o => o.who == w

/-- The stream's work is outstanding: an unsent staged write, a served prefetch read not returned, or a held
sample port still BUSY (R20). -/
def State.hasOutstanding (s : State) (i : StreamId) : Bool :=
  let st := s.stream i
  !st.staging.isEmpty || s.transferOf (.closing i) || st.scanList.any fun n => (s.port n).phase != .idle

/-- The stream's sample ports and pattern port lose their holder, and a RING stream's pacer goes to OFF with its
fields zero (R21, step 3). -/
def State.freeResources (s : State) (i : StreamId) : State :=
  let st := s.stream i
  let s := st.scanList.foldl (fun s n => if s.holder n = some i then s.setHolder n none else s) s
  let s := if s.patHolder st.patternPort = some i then s.setPatHolder st.patternPort none else s
  if st.kind = some .ring then s.setPacer st.pacer Pacer.zero else s

/-- The closing steps (R21). -/
def State.closingSteps (s : State) (i : StreamId) : State :=
  let st := s.stream i
  let unfilled := st.currentUnfilled
  let s := if unfilled then s.reclaimCurrent i else s.cutShort i
  let s := s.drivePark i
  let s := s.freeResources i
  let s := s.setStream i Stream.empty
  match st.closing with
  | some c => s.complete c.slot .ok st.produced (BitVec.ofNat 32 (c.reclaimed + if unfilled then 1 else 0))
  | none => s

/-- A CLOSING stream with nothing left outstanding passes through its closing steps (R21). -/
def State.closeIfDrained (s : State) (i : StreamId) : State :=
  if (s.stream i).state = .closing ∧ s.hasOutstanding i = false then s.closingSteps i else s

end Sys2Proof.Machine
end

