-- ==== Sys2Proof/Machine/Capture.lean ====
section
/-! DEFINITION. Capture (chapter 5): the strobe, the scan in flight, item completion, placement and staging. -/

namespace Sys2Proof.Machine

/-! ## Item completion (section 5.4) -/

/-- The item is placed in the current grant `g` and joins the tail of staging (R33, R93). -/
def State.stageItem (s : State) (i : StreamId) (g : Grant) (sequence : Half) (bytes : List Byte) : State :=
  let st := s.stream i
  let item : Staged :=
    { grant := g.number
      address := g.address + BitVec.ofNat 64 (g.fill * st.itemSize)
      bytes := bytes
      served := 0 }
  let g := { g with fill := g.fill + 1, firstSeq := if g.fill = 0 then some sequence else g.firstSeq }
  let st := { st with staging := st.staging ++ [item] }
  if g.isPartial then s.setStream i { st with current := some g }
  else s.setStream i { st with current := none, finishing := st.finishing ++ [g] }

/-- An item that meets backlog is lost and counted, and halts the stream under STRICT (R94). -/
def State.loseToBacklog (s : State) (i : StreamId) : State :=
  let st := s.stream i
  let s := s.setStream i { st with backlogLosses := st.backlogLosses + 1 }
  if st.strict then s.haltStream i .backlog else s

/-- An item that meets starvation is dropped and counted, and halts the stream under STARVE_HALT (R40). -/
def State.starve (s : State) (i : StreamId) : State :=
  let st := s.stream i
  let s := s.setStream i { st with dropped := st.dropped + 1 }
  if st.starveHalt then s.haltStream i .starved else s

/-- The placement of a completed item (R93). A stream under a governing BUFFER stop with no current grant completes
no item (R93); the model would drop one. -/
def State.placeItem (s : State) (i : StreamId) (sequence : Half) (bytes : List Byte) : State :=
  let st := s.stream i
  if Config.stagingDepth ≤ st.staging.length then s.loseToBacklog i
  else
    match st.current, st.waiting with
    | some g, _ => s.stageItem i g sequence bytes
    | none, [] => s.starve i
    | none, g :: rest =>
      if st.bufferGoverns then s.starve i
      else (s.setStream i { st with waiting := rest }).stageItem i g sequence bytes

/-- After an item: the natural end by the item limit, or else the stop condition (R92, steps 3 and 4). -/
def State.afterItem (s : State) (i : StreamId) : State :=
  if (s.stream i).limitReached then s.endRun i .limit else s.testStop i

/-- A completed item takes the sequence and is counted (R91), is placed (R93), and the stream takes the
consequences in the order of R92. `timeouts` says that a SCAN item has a timeout mark. -/
def State.completeItem (s : State) (i : StreamId) (bytes : Half → List Byte) (timeouts : Bool) : State :=
  let st := s.stream i
  let s := s.setStream i { st with sequence := st.sequence + 1, produced := st.produced + 1 }
  let s := s.placeItem i st.sequence (bytes st.sequence)
  if (s.stream i).state = .halted then s
  else if timeouts && st.strict then s.haltStream i .portTimeout
  else s.afterItem i

/-! ## The SCAN advance (section 5.2) -/

/-- A strobe accepted by a port in IDLE (R80). -/
def SamplePort.strobe (x : SamplePort) : SamplePort :=
  { x with phase := .waitReady, inForce := x.timeout, elapsed := 0, shift := 0, bits := 0 }

/-- Every port of the list is strobed (R85). -/
def State.strobeAll (s : State) : List PortId → State
  | [] => s
  | n :: ns => (s.setPort n (s.port n).strobe).strobeAll ns

/-- Every port of the list is IDLE (R85). -/
def State.allIdle (s : State) (l : List PortId) : Bool :=
  l.all fun n => (s.port n).phase == .idle

/-- A SCAN advance at tick `t` starts a scan (R85) or is an overrun (R86). -/
def State.scanAdvance (s : State) (i : StreamId) (t : Tick) : State :=
  let st := s.stream i
  if st.scan.isNone && s.allIdle st.scanList then
    let flight : ScanFlight := { time := t, slots := List.replicate st.scanList.length .awaited }
    (s.strobeAll st.scanList).setStream i { st with scan := some flight }
  else
    let s := s.setStream i { st with overruns := st.overruns + 1 }
    if st.strict then s.haltStream i .overrun else s

/-- A STAMP advance completes an item holding the event's stamp and code (R90). -/
def State.stampAdvance (s : State) (i : StreamId) (e : Event) : State :=
  s.completeItem i (stampItem e) false

/-! ## Outcomes of the sample ports (R82, R87, R88) -/

/-- The number of timeout marks (R88). -/
def ScanFlight.marks (f : ScanFlight) : Nat :=
  f.slots.count .timedOut

/-- The scan in flight, its last position delivered, is complete (R88). -/
def State.completeScan (s : State) (i : StreamId) (f : ScanFlight) : State :=
  let st := s.stream i
  let s := s.setStream i { st with scan := none, portTimeouts := st.portTimeouts + BitVec.ofNat 32 f.marks }
  s.completeItem i (scanItem st.timestamp f) (f.marks != 0)

/-- A position of the scan in flight is delivered (R87). -/
def State.takeOutcome (s : State) (i : StreamId) (f : ScanFlight) (k : Nat) (outcome : ScanSlot) : State :=
  let f := { f with slots := f.slots.set k outcome }
  if f.slots.contains .awaited then
    let st := s.stream i
    s.setStream i { st with scan := some f }
  else s.completeScan i f

/-- An outcome of port `n` reaches the stream that holds it (R82): taken into the scan in flight where that awaits
the port, else discarded; for a CLOSING stream the port then counts as drained. -/
def State.portOutcome (s : State) (n : PortId) (outcome : ScanSlot) : State :=
  match s.holder n with
  | none => s
  | some i =>
    let st := s.stream i
    match st.scan with
    | some f =>
      let k := st.scanList.idxOf n
      if f.slots[k]? = some .awaited then s.takeOutcome i f k outcome else s
    | none => s.closeIfDrained i

/-! ## Staging (R95, R96) -/

/-- The oldest staged item has been sent or has failed: it leaves staging, its grant retires where it was the last
one staged, and a CLOSING stream is tested (R35, R95, R96, R21). -/
def State.itemDealt (s : State) (i : StreamId) : State :=
  let st := s.stream i
  ((s.setStream i { st with staging := st.staging.tail }).retireDue i).closeIfDrained i

/-- A capture write has failed (R96): the item leaves staging, the stream takes the fault, and the retirement comes
after it. -/
def State.itemFailed (s : State) (i : StreamId) : State :=
  let st := s.stream i
  (((s.setStream i { st with staging := st.staging.tail }).haltStream i .busError).retireDue i).closeIfDrained i

end Sys2Proof.Machine
end

