-- ==== Sys2Proof/Machine/Playback.lean ====
section
/-! DEFINITION. Playback (chapter 6): the PLAY advance and prefetch completions, and RING streams. -/

namespace Sys2Proof.Machine

/-! ## PLAY (sections 6.2 and 6.3) -/

/-- An advance that finds the FIFO empty (R108). -/
def State.underflow (s : State) (i : StreamId) : State :=
  let st := s.stream i
  if st.starveHalt then s.haltStream i .underflow
  else (s.setStream i { st with underflows := st.underflows + 1 }).testStop i

/-- A PLAY advance (R107): the oldest word goes to the pattern port and is counted; then the limit, the stop
condition, and, where the stream still runs, the prefetch. -/
def State.playAdvance (s : State) (i : StreamId) : State :=
  let st := s.stream i
  match st.fifo with
  | [] => s.underflow i
  | w :: rest =>
    let s := s.setPortWord st.patternPort w
    let s := s.setStream i { st with fifo := rest, produced := st.produced + 1 }
    let s := s.afterItem i
    if (s.stream i).state.runs then s.prefetchTest i else s

/-- The read in progress of stream `i` is done and its bytes have returned (R104, R110). -/
def State.prefetchDone (s : State) (i : StreamId) (data : List Byte) : State :=
  let st := s.stream i
  match st.read with
  | none => s
  | some r =>
    let st := { st with fifo := st.fifo ++ halvesOf data, read := none }
    match st.current with
    | none => s.setStream i st
    | some g =>
      let g := { g with fill := g.fill + r.words }
      let s :=
        if g.isPartial then s.setStream i { st with current := some g }
        else (s.setStream i { st with current := none }).retire i g
      (s.testStop i).prefetchTest i

/-- The read in progress of stream `i` has failed (R105). -/
def State.prefetchFailed (s : State) (i : StreamId) : State :=
  let st := s.stream i
  (s.setStream i { st with read := none }).haltStream i .busError

/-! ## RING (section 6.5) -/

/-- The entry after `p`, going round the region (R118). -/
def Stream.nextEntry (st : Stream) (p : Nat) : Nat :=
  st.regionBase + (p - st.regionBase + 1) % st.regionLength

/-- The start-offset entry (R118). -/
def Stream.startEntry (st : Stream) : Nat :=
  st.regionBase + st.startOffset

/-- Entry `k` is output at tick `t` (R118): its word on the port, the ring position, the count, and the pacer's next
target. -/
def State.outputEntry (s : State) (i : StreamId) (k : Nat) (produced : Word) (t : Tick) : State :=
  let st := s.stream i
  let s := s.setPortWord st.patternPort (entryWord s.patternMemory k)
  let s := s.setStream i { st with ringPosition := k, produced := produced }
  let x := s.pacer st.pacer
  s.setPacer st.pacer
    { x with state := .driven, target := t + BitVec.ofNat 48 (entryDelay s.patternMemory k) }

/-- The natural end by the item limit, at a RING stream after an output (R8, R58). -/
def State.ringLimit (s : State) (i : StreamId) : State :=
  if (s.stream i).limitReached then s.endRun i .limit else s

/-- A stream enters RUNNING at tick `t` (R8): a RING stream outputs its start entry and drives its pacer (R57). -/
def State.startRun (s : State) (i : StreamId) (t : Tick) : State :=
  let st := s.stream i
  let s := s.setStream i { st with state := .running }
  if st.kind = some .ring then (s.outputEntry i st.startEntry 1 t).ringLimit i else s

/-- The firing of its DRIVEN pacer at tick `t`, at the RING stream that drives it (R58): at a lap end under BUFFER
the run ends, else the next entry is output. -/
def State.ringFiring (s : State) (i : StreamId) (t : Tick) : State :=
  let st := s.stream i
  let next := st.nextEntry st.ringPosition
  if st.bufferGoverns && next == st.startEntry then s.endRun i .stopEvent
  else (s.outputEntry i next (st.produced + 1) t).ringLimit i

end Sys2Proof.Machine
end

