-- ==== Sys2Proof/Machine/Events.lean ====
section
/-! DEFINITION. The Event Fabric's delivery and TALLY streams (chapter 4, sections 4.1 to 4.3 and 4.5). -/

namespace Sys2Proof.Machine

/-! ## TALLY (section 4.5) -/

/-- A TALLY advance (R74): one count; at the target, the reach of R75 or R76. -/
def State.tallyAdvance (s : State) (i : StreamId) : State :=
  let st := s.stream i
  let st := { st with tally := st.tally + 1, produced := st.produced + 1 }
  if st.tally < st.tallyTarget then s.setStream i st
  else if st.reload then
    if st.state = .stopping then (s.setStream i st).endRun i .stopEvent
    else (s.setStream i { st with tally := 0 }).emit (terminalCode i)
  else (s.setStream i st).endRun i .target

/-! ## Roles (R61 to R64) -/

/-- The stream names code `c` as an advance (R61). -/
def Stream.advancesOn (st : Stream) (c : Byte) : Bool :=
  match st.kind with
  | some .scan => st.advanceSource == c
  | some .play => st.advanceSource == c
  | some .tally => st.advanceSource == c
  | some .stamp => st.advanceSet.contains c
  | some .ring => false
  | none => false

/-- The stream takes the event as an advance (R62, R85, R90, R107, R74). -/
def State.advance (s : State) (i : StreamId) (e : Event) : State :=
  match (s.stream i).kind with
  | some .scan => s.scanAdvance i e.stamp
  | some .stamp => s.stampAdvance i e
  | some .play => s.playAdvance i
  | some .tally => s.tallyAdvance i
  | some .ring => s
  | none => s

/-- A RUNNING stream takes the event in the stop role (R14). -/
def State.stopRole (s : State) (i : StreamId) (e : Event) : State :=
  let st := s.stream i
  match st.state, st.stopMode with
  | .running, some m => if st.stopSource = e.code then s.stopRunning i m [] else s
  | _, _ => s

/-- The delivery of event `e` to stream `i`, in the roles its state admits (R62), the advance before the stop
(R64). -/
def State.deliver (s : State) (i : StreamId) (e : Event) : State :=
  let st := s.stream i
  match st.state with
  | .armed => if st.startSource = e.code then s.startRun i e.stamp else s
  | .running => ((if st.advancesOn e.code then s.advance i e else s).stopRole i e)
  | .stopping => if st.bufferGoverns && st.advancesOn e.code then s.advance i e else s
  | .closed | .opened | .halted | .closing => s

/-- The stream names code `c` in some role, and its state admits a role (R61, R62). -/
def Stream.subscribes (st : Stream) (c : Byte) : Bool :=
  match st.state with
  | .armed => st.startSource == c
  | .running => st.advancesOn c || st.stopSource == c
  | .stopping => st.advancesOn c
  | .closed | .opened | .halted | .closing => false

/-- The streams event `c` reaches, in the free order of the state: first those that the next 32 entries of the order
list, then the rest (R63, log 7). -/
def State.subscribers (s : State) (c : Byte) : List StreamId :=
  let all := allStreams.filter fun i => (s.stream i).subscribes c
  let listed := ((s.order.take 32).filter fun i => all.contains i).eraseDups
  listed ++ all.filter fun i => !listed.contains i

/-- Event `e` is delivered to every stream of a list. -/
def State.deliverAll (s : State) (e : Event) : List StreamId → State
  | [] => s
  | i :: l => (s.deliver i e).deliverAll e l

/-- The order that is left after an event has gone to the streams of `l`: one that reaches several has used up its 32
entries, so that the next is ordered afresh (log 7). -/
def State.orderAfter (s : State) (l : List StreamId) : List StreamId :=
  if 1 < l.length then s.order.drop 32 else s.order

/-- The events emitted are delivered, each to all it reaches before the next, in the order they were emitted
(R65). `n` bounds the chain, which always ends (R66, log 8). -/
def State.deliverEvents : Nat → State → State
  | 0, s => { s with emitted := [] }
  | n + 1, s =>
    match s.emitted with
    | [] => s
    | e :: rest =>
      let reached := s.subscribers e.code
      State.deliverEvents n ({ s with emitted := rest, order := s.orderAfter reached }.deliverAll e reached)

end Sys2Proof.Machine
end

