-- ==== Sys2Proof/Machine/StreamCommands.lean ====
section
/-! DEFINITION. The commands on streams and grants: OPEN, ARM, STOP, RESUME, CLOSE, QUERY_STREAM (chapter 1), GRANT
and RECLAIM (chapter 2). For each, its check gives the one status of R136, and its acceptance gives its effects.
`k` is the in-flight entry of the record taken. -/

namespace Sys2Proof.Machine

/-- A stream id is 0 to 31 (R1, R187). -/
def streamIdOk (r : RecordBody) : Bool :=
  r.id.toNat < 32

/-! ## OPEN (R4, R5) -/

/-- Reply queue byte 6 of an OPEN names RQ0, or RQ1 while it exists (R4). -/
def State.replyQueueOk (s : State) (b : Byte) : Bool :=
  b == 0 || (b == 1 && (s.rq 1).active)

/-- The scan list of an OPEN: ports 0 to 7, no port twice, and the bytes beyond it 0 (R4, section 11.2). -/
def scanFieldsOk (r : RecordBody) : Bool :=
  let n := (r.byteAt 8).toNat
  let l := r.listBytes n
  1 ≤ n && n ≤ 8 && l.all (fun b => b.toNat < 8) && decide l.Nodup && r.zeroBytes (16 + n) (8 - n)

/-- The advance set of an OPEN: 1 to 4 different codes stream `i` may name, and the bytes beyond it 0 (R4). -/
def stampFieldsOk (i : StreamId) (r : RecordBody) : Bool :=
  let n := (r.byteAt 8).toNat
  let l := r.listBytes n
  1 ≤ n && n ≤ 4 && l.all (mayName i) && decide l.Nodup && r.zeroBytes (16 + n) (8 - n)

/-- The park word of a PLAY or RING OPEN is 0 where park present is clear (section 11.2). -/
def parkOk (r : RecordBody) : Bool :=
  r.optPark || r.parkWord == 0

/-- The region of a RING OPEN (R4). -/
def regionFieldsOk (r : RecordBody) : Bool :=
  let base := (r.halfAt 16).toNat
  let length := (r.halfAt 18).toNat
  1 ≤ length && length ≤ 4096 && base + length ≤ 4096 && (r.halfAt 20).toNat < length

/-- The options and fields of an OPEN of kind `kind` are in range, and those that do not belong to the kind are 0
(R4, R66, R187). -/
def openFieldsOk (i : StreamId) (kind : Kind) (r : RecordBody) : Bool :=
  match kind with
  | .scan =>
    !r.optPark && !r.optReload && scanFieldsOk r && mayName i (r.byteAt 9) && r.zeroBytes 10 4
  | .stamp =>
    !r.optTimestamp && !r.optPark && !r.optReload && stampFieldsOk i r && r.zeroBytes 9 5
  | .play =>
    !r.optStrict && !r.optTimestamp && !r.optReload && r.byteAt 8 == 0 && mayName i (r.byteAt 9) &&
      (r.byteAt 10).toNat < 8 && r.byteAt 11 == 0 && parkOk r && r.zeroBytes 16 8
  | .ring =>
    !r.optStrict && !r.optStarveHalt && !r.optTimestamp && !r.optReload && r.zeroBytes 8 2 &&
      (r.byteAt 10).toNat < 8 && (r.byteAt 11).toNat < 16 && parkOk r && regionFieldsOk r && r.zeroBytes 22 2
  | .tally =>
    !r.optStrict && !r.optStarveHalt && !r.optTimestamp && !r.optPark && r.byteAt 8 == 0 && mayName i (r.byteAt 9) &&
      r.zeroBytes 10 4 && r.wordAt 16 != 0 && r.zeroBytes 20 4 &&
      !(r.optReload && r.wordAt 16 == 1 && isTerminalCode (r.byteAt 9))

/-- The parameters of an OPEN of stream `i` pass R4. -/
def State.openParamsOk (s : State) (i : StreamId) (r : RecordBody) : Bool :=
  r.flagsOk && r.openReserved && s.replyQueueOk r.byte6 &&
    match kindOf r.byte5 with
    | some kind => openFieldsOk i kind r
    | none => false

/-- The scan list an OPEN names: the ports of its list bytes. -/
def scanListOf (r : RecordBody) : List PortId :=
  (r.listBytes (r.byteAt 8).toNat).map fun b => Fin.ofNat 8 b.toNat

/-- The pattern port an OPEN names. -/
def patternPortOf (r : RecordBody) : PortId := Fin.ofNat 8 (r.byteAt 10).toNat

/-- The pacer an OPEN names. -/
def openPacerOf (r : RecordBody) : PacerId := Fin.ofNat 16 (r.byteAt 11).toNat

/-- A port an OPEN of kind `kind` names has a holder (R5). -/
def State.openPortHeld (s : State) (kind : Kind) (r : RecordBody) : Bool :=
  match kind with
  | .scan => (scanListOf r).any fun n => (s.holder n).isSome
  | .play => (s.patHolder (patternPortOf r)).isSome
  | .ring => (s.patHolder (patternPortOf r)).isSome
  | .stamp => false
  | .tally => false

/-- The kind an OPEN names, once its parameters have passed. -/
def openKind (r : RecordBody) : Kind :=
  (kindOf r.byte5).getD .scan

/-- The status of an OPEN (R4, R5, R136). -/
def State.openCheck (s : State) (r : RecordBody) : Status :=
  let i := streamOf r
  if !streamIdOk r then .badId
  else if (s.stream i).state ≠ .closed then .wrongState
  else if !s.openParamsOk i r then .badParam
  else if s.openPortHeld (openKind r) r then .portBusy
  else if openKind r = .ring ∧ (s.pacer (openPacerOf r)).state ≠ .off then .pacerBusy
  else if !s.streamClaim (rqOf r.byte6) then .noReplyRoom
  else .ok

/-- The context an accepted OPEN gives the stream (R5): the parameters of its kind, the fault-notice reservation,
and OPEN. -/
def openedStream (r : RecordBody) : Stream :=
  let kind := openKind r
  let plays := kind == .play || kind == .ring
  let sourced := kind == .scan || kind == .play || kind == .tally
  { Stream.empty with
    state := .opened
    kind := some kind
    replyQueue := rqOf r.byte6
    scanList := if kind = .scan then scanListOf r else []
    timestamp := r.optTimestamp
    patternPort := if plays then patternPortOf r else 0
    park := if plays && r.optPark then some r.parkWord else none
    pacer := if kind = .ring then openPacerOf r else 0
    regionBase := if kind = .ring then (r.halfAt 16).toNat else 0
    regionLength := if kind = .ring then (r.halfAt 18).toNat else 0
    startOffset := if kind = .ring then (r.halfAt 20).toNat else 0
    advanceSource := if sourced then r.byteAt 9 else 0
    advanceSet := if kind = .stamp then r.listBytes (r.byteAt 8).toNat else []
    strict := r.optStrict
    starveHalt := r.optStarveHalt
    tallyTarget := if kind = .tally then r.wordAt 16 else 0
    reload := r.optReload
    faultReserved := true }

/-- Stream `i` becomes the holder of the ports and the pacer an OPEN names (R5, R56). -/
def State.claimResources (s : State) (i : StreamId) (st : Stream) : State :=
  let s := st.scanList.foldl (fun s n => s.setHolder n (some i)) s
  match st.kind with
  | some .play => s.setPatHolder st.patternPort (some i)
  | some .ring => (s.setPatHolder st.patternPort (some i)).setPacer st.pacer { Pacer.zero with state := .owned }
  | _ => s

/-- OPEN taken (R5). -/
def State.takeOpen (s : State) (k : SlotId) (r : RecordBody) : State :=
  match s.openCheck r with
  | .ok =>
    let i := streamOf r
    let st := openedStream r
    (((s.reserve st.replyQueue).claimResources i st).setStream i st).complete k .ok 0 0
  | status => s.refuse k status

/-! ## ARM (R6, R7) -/

/-- A start source of stream `i` (R6). -/
def startSourceOk (i : StreamId) (c : Byte) : Bool :=
  c == immediateCode || mayName i c

/-- A stop source of stream `i` (R6). -/
def stopSourceOk (i : StreamId) (c : Byte) : Bool :=
  c == noneCode || mayName i c

/-- The parameters of an ARM of stream `i` pass R6. -/
def State.armParamsOk (s : State) (i : StreamId) (r : RecordBody) : Bool :=
  r.flagsOk && r.armReserved && startSourceOk i r.byte5 && stopSourceOk i r.byte6 &&
    (triggerModeOf r.modeField).isSome && (policyOf r.policyField).isSome &&
    !((s.stream i).kind == some .tally && r.wordAt 8 != 0)

/-- The region of stream `i` overlaps the region of a LOAD_PATTERN in flight (R6, R115). -/
def State.regionLoading (s : State) (st : Stream) : Bool :=
  st.kind == some .ring &&
    s.loads.any fun l => regionsOverlap st.regionBase st.regionLength l.first l.count

/-- The status of an ARM (R6, R136). -/
def State.armCheck (s : State) (r : RecordBody) : Status :=
  let i := streamOf r
  let st := s.stream i
  if !streamIdOk r then .badId
  else if st.state ≠ .opened then .wrongState
  else if !s.armParamsOk i r then .badParam
  else if s.regionLoading st then .regionBusy
  else if policyOf r.policyField = some .report ∧ s.streamClaim st.replyQueue = false then .noReplyRoom
  else .ok

/-- The context after an accepted ARM, in ARMED (R7): sources, modes and limit stored, counters and sequence 0. -/
def armedStream (st : Stream) (r : RecordBody) : Stream :=
  { st with
    state := .armed
    startSource := r.byte5
    stopSource := r.byte6
    stopMode := triggerModeOf r.modeField
    endPolicy := policyOf r.policyField
    itemLimit := r.wordAt 8
    produced := 0
    dropped := 0
    overruns := 0
    backlogLosses := 0
    portTimeouts := 0
    underflows := 0
    tally := 0
    sequence := 0
    endReserved := policyOf r.policyField == some .report
    prefetching := st.kind == some .play }

/-- ARM taken (R7). With IMMEDIATE the stream passes on to RUNNING at this tick, and then ARM replies. -/
def State.takeArm (s : State) (k : SlotId) (r : RecordBody) : State :=
  match s.armCheck r with
  | .ok =>
    let i := streamOf r
    let st := armedStream (s.stream i) r
    let s := if st.endReserved then s.reserve st.replyQueue else s
    let s := (s.setStream i st).prefetchTest i
    let s := if r.byte5 = immediateCode then s.startRun i s.timebase else s
    s.complete k .ok 0 0
  | status => s.refuse k status

/-! ## STOP (R11 to R13) -/

/-- The status of a STOP (R11, R136). -/
def State.stopCheck (s : State) (r : RecordBody) : Status :=
  let st := s.stream (streamOf r)
  if !streamIdOk r then .badId
  else if st.state ≠ .armed ∧ st.state ≠ .running ∧ st.state ≠ .stopping then .wrongState
  else if !(r.flagsOk && r.stopReserved && (stopModeOf r.byte5).isSome) then .badParam
  else .ok

/-- A STOP of an ARMED stream cancels the arming (R11). -/
def State.stopArmed (s : State) (i : StreamId) (k : SlotId) : State :=
  let s := s.setStream i { s.stream i with state := .opened }
  let plays := (s.stream i).kind == some .play
  let s := if plays then s.stopPrefetch i .nobody else s
  let reclaims := plays && (s.stream i).currentUnfilled
  let s := if reclaims then s.reclaimCurrent i else if plays then s.cutShort i else s
  let s := s.releaseEnd i
  s.complete k .ok (s.stream i).produced (if reclaims then 1 else 0)

/-- A STOP of a STOPPING stream joins the pending list; a stronger mode governs, and is tested at once (R13). -/
def State.stopAgain (s : State) (i : StreamId) (mode : StopMode) (k : SlotId) : State :=
  let st := s.stream i
  match st.pendingStop with
  | none => s
  | some p =>
    let stronger := decide (p.mode.strength < mode.strength)
    let p := { p with mode := if stronger then mode else p.mode, commands := p.commands ++ [k] }
    let s := s.setStream i { st with pendingStop := some p }
    if stronger then s.testStop i else s

/-- STOP taken (R11 to R13). A STOP that leaves its stream in STOPPING stays in WORKING. -/
def State.takeStop (s : State) (k : SlotId) (r : RecordBody) : State :=
  match s.stopCheck r with
  | .ok =>
    let i := streamOf r
    let mode := (stopModeOf r.byte5).getD .now
    match (s.stream i).state with
    | .armed => s.stopArmed i k
    | .running => (s.toWorking k 0 0).stopRunning i mode [k]
    | _ => (s.toWorking k 0 0).stopAgain i mode k
  | status => s.refuse k status

/-! ## RESUME (R19) -/

/-- The status of a RESUME (R19, R136). -/
def State.resumeCheck (s : State) (r : RecordBody) : Status :=
  let st := s.stream (streamOf r)
  if !streamIdOk r then .badId
  else if st.state ≠ .halted then .wrongState
  else if !(r.flagsOk && r.onlyId) then .badParam
  else if !s.streamClaim st.replyQueue then .noReplyRoom
  else .ok

/-- RESUME taken (R19). -/
def State.takeResume (s : State) (k : SlotId) (r : RecordBody) : State :=
  match s.resumeCheck r with
  | .ok =>
    let i := streamOf r
    let st := s.stream i
    ((s.reserve st.replyQueue).setStream i
      { st with state := .opened, fault := none, faultReserved := true }).complete k .ok 0 0
  | status => s.refuse k status

/-! ## CLOSE (R20) -/

/-- The status of a CLOSE (R20, R136). -/
def State.closeCheck (s : State) (r : RecordBody) : Status :=
  let st := s.stream (streamOf r)
  if !streamIdOk r then .badId
  else if st.state = .closed ∨ st.state = .closing then .wrongState
  else if !(r.flagsOk && r.onlyId) then .badParam
  else .ok

/-- What CLOSE does at the instant it is taken (R20): work stopped, park word driven, waiting grants returned,
reservations released, pending STOPs ABORTED; the stream is left in CLOSING with its reclaim count, and without the
fault cause that a HALTED stream had (section 1.2: present in HALTED alone). -/
def State.beginClose (s : State) (i : StreamId) (k : SlotId) : State :=
  let before := s.stream i
  let s := (s.windDown i (.closing i)).drivePark i
  let s := s.releaseGrants before.replyQueue before.waiting
  let s := s.releaseIf before.faultReserved before.replyQueue
  let s := s.releaseIf before.endReserved before.replyQueue
  let s := s.setStream i
    { s.stream i with
      state := .closing
      pendingStop := none
      fault := none
      faultReserved := false
      endReserved := false
      waiting := []
      closing := some { slot := k, reclaimed := before.waiting.length } }
  s.replyStops before.stopCommands .aborted before.produced 0

/-- CLOSE taken (R20): with nothing outstanding it passes through the closing steps at once. -/
def State.takeClose (s : State) (k : SlotId) (r : RecordBody) : State :=
  match s.closeCheck r with
  | .ok =>
    let i := streamOf r
    ((s.toWorking k 0 0).beginClose i k).closeIfDrained i
  | status => s.refuse k status

/-! ## QUERY_STREAM (R22) -/

/-- The status of a QUERY_STREAM (R22, R136). -/
def queryCheck (r : RecordBody) : Status :=
  let a := r.addrAt 8
  if !streamIdOk r then .badId
  else if !(r.flagsOk && r.queryReserved && a.toNat % 4 == 0 && fits a 64) then .badParam
  else .ok

/-- QUERY_STREAM taken (R22): the record of the snapshot goes to the status-record writer. -/
def State.takeQuery (s : State) (k : SlotId) (r : RecordBody) : State :=
  match queryCheck r with
  | .ok =>
    let i := streamOf r
    let st := s.stream i
    let write : StatusWrite :=
      { slot := k, address := r.addrAt 8, bytes := statusRecord i st s.timebase, served := 0 }
    let s := s.toWorking k (st.state.code.setWidth 32) (tickLow s.timebase)
    { s with statusWrites := s.statusWrites ++ [write] }
  | status => s.refuse k status

/-! ## GRANT and RECLAIM (R28 to R31) -/

/-- The stream takes no grants: a RING or TALLY stream (R28, R30). -/
def Stream.grantless (st : Stream) : Bool :=
  st.kind == some .ring || st.kind == some .tally

/-- The buffer of a GRANT: item count times the item size (section 2.1). -/
def grantBytes (st : Stream) (r : RecordBody) : Nat :=
  (r.halfAt 16).toNat * st.itemSize

/-- The parameters of a GRANT pass R28, step 4. -/
def grantParamsOk (st : Stream) (r : RecordBody) : Bool :=
  r.flagsOk && r.grantReserved && (r.addrAt 8).toNat % 4 == 0 && r.halfAt 16 != 0 &&
    fits (r.addrAt 8) (grantBytes st r)

/-- The status of a GRANT (R28, R136). -/
def State.grantCheck (s : State) (r : RecordBody) : Status :=
  let st := s.stream (streamOf r)
  if !streamIdOk r then .badId
  else if st.grantless then .wrongKind
  else if st.state = .closed ∨ st.state = .closing then .wrongState
  else if !grantParamsOk st r then .badParam
  else if Config.maxGrants ≤ st.grantsHeld then .listFull
  else if r.optNotify && !s.streamClaim st.replyQueue then .noReplyRoom
  else .ok

/-- The record an accepted GRANT creates, WAITING (R26). -/
def newGrant (st : Stream) (r : RecordBody) : Grant where
  number := st.freeGrantNumber
  address := r.addrAt 8
  count := (r.halfAt 16).toNat
  tag := r.bytes6to7
  notify := r.optNotify
  recycle := r.optRecycle
  reserved := r.optNotify
  fill := 0
  firstSeq := none
  missed := 0

/-- GRANT taken (R28). A PLAY prefetch that waits for a grant promotes it in the same happening (R29). The counts
of the reply are those the happening leaves (log 13). -/
def State.takeGrant (s : State) (k : SlotId) (r : RecordBody) : State :=
  match s.grantCheck r with
  | .ok =>
    let i := streamOf r
    let st := s.stream i
    let s := if r.optNotify then s.reserve st.replyQueue else s
    let s := (s.appendWaiting i (newGrant st r)).prefetchTest i
    s.complete k .ok (BitVec.ofNat 32 (s.stream i).grantsHeld) (BitVec.ofNat 32 (s.stream i).waiting.length)
  | status => s.refuse k status

/-- The status of a RECLAIM (R30, R136). -/
def State.reclaimCheck (s : State) (r : RecordBody) : Status :=
  let st := s.stream (streamOf r)
  if !streamIdOk r then .badId
  else if st.grantless then .wrongKind
  else if st.state = .closed ∨ st.state = .closing then .wrongState
  else if !(r.flagsOk && r.onlyId) then .badParam
  else .ok

/-- RECLAIM taken (R30). -/
def State.takeReclaim (s : State) (k : SlotId) (r : RecordBody) : State :=
  match s.reclaimCheck r with
  | .ok =>
    let i := streamOf r
    let st := s.stream i
    let s := (s.setStream i { st with waiting := [] }).releaseGrants st.replyQueue st.waiting
    s.complete k .ok (BitVec.ofNat 32 st.waiting.length) (BitVec.ofNat 32 (s.stream i).grantsHeld)
  | status => s.refuse k status

end Sys2Proof.Machine
end

