-- ==== Sys2Proof/Machine/UnitCommands.lean ====
section
/-! DEFINITION. The commands on pacers (chapter 3), pattern memory (chapter 6), inputs and sample ports (chapters 4
and 5), and NOP and READ_TIME (chapter 7). -/

namespace Sys2Proof.Machine

/-! ## NOP and READ_TIME (R141, R142) -/

/-- The status of a NOP or a READ_TIME: only reserved bits can refuse it (R141, R142). -/
def plainCheck (r : RecordBody) : Status :=
  if r.flagsOk && r.noFields then .ok else .badParam

/-- NOP taken (R141). -/
def State.takeNop (s : State) (k : SlotId) (q : CqId) (r : RecordBody) : State :=
  match plainCheck r with
  | .ok => s.complete k .ok (BitVec.ofNat 32 q.val) (BitVec.ofNat 32 (s.queue q).consumer)
  | status => s.refuse k status

/-- READ_TIME taken (R142). -/
def State.takeReadTime (s : State) (k : SlotId) (r : RecordBody) : State :=
  match plainCheck r with
  | .ok => s.complete k .ok (tickLow s.timebase) (BitVec.ofNat 32 (s.timebase.toNat / 2 ^ 32))
  | status => s.refuse k status

/-! ## SET_PACER and HALT_PACER (R50 to R52) -/

/-- A pacer number is 0 to 15 (R50). -/
def pacerIdOk (r : RecordBody) : Bool :=
  r.id.toNat < 16

/-- The pacer is held by a RING stream: OWNED or DRIVEN (R50, R56). -/
def PacerState.isHeld : PacerState → Bool
  | .owned | .driven => true
  | .off | .waiting => false

/-- The parameters of a SET_PACER pass R50, step 2. -/
def setPacerParamsOk (r : RecordBody) : Bool :=
  r.flagsOk && r.setPacerReserved && r.wordAt 16 != 0 &&
    (if r.optRel then decide ((r.addrAt 8).toNat < 2 ^ 47) else decide ((r.addrAt 8).toNat < 2 ^ 48))

/-- The status of a SET_PACER (R50, R136). -/
def State.setPacerCheck (s : State) (r : RecordBody) : Status :=
  if !pacerIdOk r then .badId
  else if !setPacerParamsOk r then .badParam
  else if (s.pacer (pacerOf r)).state.isHeld then .pacerBusy
  else .ok

/-- The target a SET_PACER fixes at tick `n` (R51). -/
def newTarget (n : Tick) (r : RecordBody) : Tick :=
  if r.optRel then n + (r.addrAt 8).setWidth 48 else (r.addrAt 8).setWidth 48

/-- The pacer an accepted SET_PACER leaves (R51). -/
def programmedPacer (n : Tick) (r : RecordBody) : Pacer where
  state := .waiting
  target := newTarget n r
  period := r.wordAt 16
  remaining := r.wordAt 20
  late := 0

/-- SET_PACER taken (R51). A target already due fires as a happening of the pacer. -/
def State.takeSetPacer (s : State) (k : SlotId) (r : RecordBody) : State :=
  match s.setPacerCheck r with
  | .ok =>
    let p := pacerOf r
    let x := programmedPacer s.timebase r
    (s.setPacer p x).complete k .ok (tickLow x.target) (s.pacer p).late
  | status => s.refuse k status

/-- The status of a HALT_PACER (R52, R136). -/
def State.haltPacerCheck (s : State) (r : RecordBody) : Status :=
  if !pacerIdOk r then .badId
  else if !(r.flagsOk && r.onlyId) then .badParam
  else if (s.pacer (pacerOf r)).state.isHeld then .pacerBusy
  else .ok

/-- HALT_PACER taken (R52): OFF with the fields as they stand; the reply gives the state before and the late count. -/
def State.takeHaltPacer (s : State) (k : SlotId) (r : RecordBody) : State :=
  match s.haltPacerCheck r with
  | .ok =>
    let p := pacerOf r
    let x := s.pacer p
    (s.setPacer p { x with state := .off }).complete k .ok (if x.state = .waiting then 1 else 0) x.late
  | status => s.refuse k status

/-! ## LOAD_PATTERN (R112, R113) -/

/-- The first entry a LOAD_PATTERN names. -/
def loadFirst (r : RecordBody) : Nat := (r.halfAt 16).toNat

/-- The count a LOAD_PATTERN names. -/
def loadCount (r : RecordBody) : Nat := (r.halfAt 18).toNat

/-- The parameters of a LOAD_PATTERN pass R112, step 1. -/
def loadParamsOk (r : RecordBody) : Bool :=
  r.flagsOk && r.loadReserved && 1 ≤ loadCount r && loadCount r ≤ Config.patternEntries &&
    loadFirst r + loadCount r ≤ Config.patternEntries && (r.addrAt 8).toNat % 4 == 0 &&
    fits (r.addrAt 8) (4 * loadCount r)

/-- The stream is a RING stream in ARMED, RUNNING or STOPPING whose region overlaps the given one (R112). -/
def Stream.ringOverlaps (st : Stream) (first count : Nat) : Bool :=
  st.kind == some .ring && (st.state == .armed || st.state.runs) &&
    regionsOverlap st.regionBase st.regionLength first count

/-- The load region overlaps one in use (R112, step 2). -/
def State.regionBusy (s : State) (first count : Nat) : Bool :=
  (allStreams.any fun i => (s.stream i).ringOverlaps first count) ||
    s.loads.any fun l => regionsOverlap l.first l.count first count

/-- The status of a LOAD_PATTERN (R112, R136). -/
def State.loadCheck (s : State) (r : RecordBody) : Status :=
  if !loadParamsOk r then .badParam
  else if s.regionBusy (loadFirst r) (loadCount r) then .regionBusy
  else .ok

/-- LOAD_PATTERN taken (R113): its region joins the load-region list, and its first read is asked for. A refusal
gives 0 entries written and the first entry (R112). -/
def State.takeLoad (s : State) (k : SlotId) (r : RecordBody) : State :=
  match s.loadCheck r with
  | .ok =>
    let load : Load :=
      { slot := k
        address := r.addrAt 8
        first := loadFirst r
        count := loadCount r
        written := 0
        served := false }
    let s := s.toWorking k 0 0
    { s with loads := s.loads ++ [load] }
  | status => s.complete k status 0 (BitVec.ofNat 32 (loadFirst r))

/-! ## CONFIG_INPUT (R71) -/

/-- The parameters of a CONFIG_INPUT pass R71. -/
def configInputParamsOk (r : RecordBody) : Bool :=
  r.flagsOk && r.configInputReserved && (edgesOf r.byte5).isSome && r.bytes6to7.toNat ≤ 255

/-- The status of a CONFIG_INPUT (R71, R136). -/
def configInputCheck (r : RecordBody) : Status :=
  if !(r.id.toNat < 4) then .badId
  else if !configInputParamsOk r then .badParam
  else .ok

/-- CONFIG_INPUT taken (R71): the new configuration, no candidate, and the pin's level at this tick as the qualified
level, which is the one this tick's sample showed where it has been taken (R69, R72, log 11). The reply gives the
configuration before and the qualified level after. -/
def State.takeConfigInput (s : State) (k : SlotId) (r : RecordBody) : State :=
  match configInputCheck r with
  | .ok =>
    let i := inputOf r
    let x := s.input i
    let y := { x with
      edges := (edgesOf r.byte5).getD .off
      filter := r.bytes6to7.setWidth 8
      qualified := x.level
      candidate := none
      sampled := true }
    (s.setInput i y).complete k .ok (BitVec.ofNat 32 (x.edges.code.toNat + 256 * x.filter.toNat))
      (if y.qualified then 1 else 0)
  | status => s.refuse k status

/-! ## CONFIG_PORT (R84) -/

/-- The parameters of a CONFIG_PORT pass R84. -/
def configPortParamsOk (r : RecordBody) : Bool :=
  r.flagsOk && r.configPortReserved && r.wordAt 8 != 0 && (r.wordAt 8).toNat ≤ 65535

/-- The status of a CONFIG_PORT (R84, R136). -/
def State.configPortCheck (s : State) (r : RecordBody) : Status :=
  if !(r.id.toNat < 8) then .badId
  else if !configPortParamsOk r then .badParam
  else if (s.holder (portOf r)).isSome then .inUse
  else .ok

/-- CONFIG_PORT taken (R84): the new timeout; the reply gives the one before. -/
def State.takeConfigPort (s : State) (k : SlotId) (r : RecordBody) : State :=
  match s.configPortCheck r with
  | .ok =>
    let n := portOf r
    let x := s.port n
    (s.setPort n { x with timeout := (r.wordAt 8).setWidth 16 }).complete k .ok (x.timeout.setWidth 32) 0
  | status => s.refuse k status

end Sys2Proof.Machine
end

