-- ==== Sys2Proof/Machine/QueueCommands.lean ====
section
/-! DEFINITION. The admin commands on queues: CREATE_CQ and DELETE_CQ (section 7.2), CREATE_RQ and DELETE_RQ
(section 8.2). -/

namespace Sys2Proof.Machine

/-- CREATE_CQ and DELETE_CQ name queue 1, 2 or 3 (R123, R124). -/
def cqIdOk (r : RecordBody) : Bool :=
  1 ≤ r.id.toNat && r.id.toNat ≤ 3

/-- A ring of `size` records of `bytes` bytes at `base`: aligned, of a legal size, within the address space (R123,
R145). -/
def ringOk (base : Addr) (size bytes : Nat) : Bool :=
  base.toNat % 64 == 0 && isQueueSize size && fits base (size * bytes)

/-! ## CREATE_CQ (R123) -/

/-- The parameters of a CREATE_CQ pass R123, step 3. -/
def State.createCqParamsOk (s : State) (r : RecordBody) : Bool :=
  r.flagsOk && r.createCqReserved && ringOk (r.addrAt 8) r.bytes6to7.toNat 32 && s.replyQueueOk r.byte5

/-- The status of a CREATE_CQ (R123, R136). -/
def State.createCqCheck (s : State) (r : RecordBody) : Status :=
  if !cqIdOk r then .badId
  else if (s.queue (cqOf r)).state ≠ .absent then .wrongState
  else if !s.createCqParamsOk r then .badParam
  else if !s.streamClaim 0 then .noReplyRoom
  else .ok

/-- An ACTIVE command queue at its creation, holding its queue-fault reservation (R121, R123). -/
def CommandQueue.created (base : Addr) (size : Nat) (rq : RqId) : CommandQueue where
  state := .active
  base := base
  size := size
  producer := 0
  consumer := 0
  replyQueue := rq
  fault := none
  faultReserved := true
  held := none

/-- CREATE_CQ taken (R123). -/
def State.takeCreateCq (s : State) (k : SlotId) (r : RecordBody) : State :=
  match s.createCqCheck r with
  | .ok =>
    let x := CommandQueue.created (r.addrAt 8) r.bytes6to7.toNat (rqOf r.byte5)
    ((s.reserve 0).setQueue (cqOf r) x).complete k .ok (BitVec.ofNat 32 (cqOf r).val) (r.bytes6to7.setWidth 32)
  | status => s.refuse k status

/-! ## DELETE_CQ (R124, R125) -/

/-- The available records of a queue: (producer - consumer) mod size (R127). -/
def CommandQueue.available (x : CommandQueue) : Nat :=
  (x.producer + x.size - x.consumer) % x.size

/-- The status of a DELETE_CQ (R124, R136). -/
def State.deleteCqCheck (s : State) (r : RecordBody) : Status :=
  let x := s.queue (cqOf r)
  if !cqIdOk r then .badId
  else if x.state = .absent ∨ x.state = .deleting then .wrongState
  else if !(r.flagsOk && r.onlyId) then .badParam
  else .ok

/-- The two values of the ABORTED reply of a held record that is discarded: a STOP or CLOSE gives the items produced
of the stream it names, and 0 for its reclaim count; a command that R189 does not list gives 0 and 0. For every other
record the spec states no value, and both are free (DESIGN CHOICE, log 32). -/
def State.abortedValues (s : State) (rec : Record) : Word × Word :=
  let free := (Config.abortedValue 1 rec.bits, Config.abortedValue 2 rec.bits)
  match opcodeOf rec.code with
  | none | some .openStream | some .arm | some .resume => (0, 0)
  | some .stop | some .close => if streamIdOk rec.body then ((s.stream (streamOf rec.body)).produced, 0) else free
  | _ => free

/-- The held record of in-flight entry `k` is discarded and replies ABORTED from its reservation (R124, R135). -/
def State.abortHeld (s : State) (k : SlotId) : State :=
  match (s.entry k).bind Entry.record with
  | some rec => s.complete k .aborted (s.abortedValues rec).1 (s.abortedValues rec).2
  | none => s.complete k .aborted 0 0

/-- The records DELETE_CQ abandons unfetched: the available ones less the record of a fetch in progress (R124). Where
software has written the producer back onto the consumer during that fetch, nothing is available and the count is 0:
the difference does not go below 0 (DESIGN CHOICE, log 33). -/
def State.abandonedRecords (s : State) (q : CqId) : Nat :=
  (s.queue q).available - s.countPhase q .fetching

/-- DELETE_CQ taken (R124): a held record replies ABORTED, the queue-fault reservation is released, the available
records are abandoned, and the queue is gone at once or waits in DELETING. -/
def State.takeDeleteCq (s : State) (k : SlotId) (r : RecordBody) : State :=
  match s.deleteCqCheck r with
  | .ok =>
    let q := cqOf r
    let x := s.queue q
    let s := match x.held with
      | some h => s.abortHeld h
      | none => s
    let s := s.releaseIf x.faultReserved 0
    let abandoned := BitVec.ofNat 32 (s.abandonedRecords q)
    let waits := s.outstandingWork q
    if waits = 0 then (s.setQueue q CommandQueue.absent).complete k .ok abandoned 0
    else
      (s.setQueue q { x with state := .deleting, fault := none, faultReserved := false, held := none }).toWorking k
        abandoned (BitVec.ofNat 32 waits)
  | status => s.refuse k status

/-- The in-flight entry of the DELETE_CQ that waits for queue `q` (R125). -/
def State.deleteEntry (s : State) (q : CqId) : Option SlotId :=
  (List.finRange 32).find? fun k =>
    match s.entry k with
    | some e =>
      e.phase == .working &&
        match e.record with
        | some r => r.code == Opcode.deleteCq.code && cqOf r.body == q
        | none => false
    | none => false

/-- Queue `q` is in DELETING with no outstanding work (R125). -/
def State.deletionDue (s : State) (q : CqId) : Bool :=
  (s.queue q).state == .deleting && s.outstandingWork q == 0

/-- The queue becomes ABSENT and its DELETE_CQ replies OK with the values of R124 (R125). -/
def State.deletingDone (s : State) (q : CqId) : State :=
  let s' := s.setQueue q CommandQueue.absent
  match s.deleteEntry q with
  | some k =>
    match s.entry k with
    | some e => s'.complete k .ok e.value1 e.value2
    | none => s'
  | none => s'

/-! ## CREATE_RQ and DELETE_RQ (R145, R146) -/

/-- The parameters of a CREATE_RQ pass R145, step 3. -/
def createRqParamsOk (r : RecordBody) : Bool :=
  r.flagsOk && r.createRqReserved && ringOk (r.addrAt 8) r.bytes6to7.toNat 16

/-- The status of a CREATE_RQ (R145, R136). -/
def State.createRqCheck (s : State) (r : RecordBody) : Status :=
  if r.id ≠ 1 then .badId
  else if (s.rq 1).active then .wrongState
  else if !createRqParamsOk r then .badParam
  else .ok

/-- An ACTIVE reply queue at its creation, with `reserved` reservations and the RQINT values it keeps (R144,
R145). -/
def ReplyQueue.created (base : Addr) (size reserved : Nat) (enabled errorFlag : Bool) : ReplyQueue where
  active := true
  base := base
  size := size
  head := 0
  tail := 0
  phase := true
  occupied := 0
  reserved := reserved
  waiting := []
  enabled := enabled
  sent := false
  errorFlag := errorFlag

/-- CREATE_RQ taken (R145). -/
def State.takeCreateRq (s : State) (k : SlotId) (r : RecordBody) : State :=
  match s.createRqCheck r with
  | .ok =>
    let x := s.rq 1
    let y := ReplyQueue.created (r.addrAt 8) r.bytes6to7.toNat 0 x.enabled x.errorFlag
    (s.setRq 1 y).complete k .ok 1 (r.bytes6to7.setWidth 32)
  | status => s.refuse k status

/-- A command queue in ACTIVE, FAULTED or DELETING is bound to RQ1 (R146). -/
def State.rq1Bound (s : State) : Bool :=
  (List.finRange 4).any fun q => (s.queue q).state != .absent && (s.queue q).replyQueue == 1

/-- A stream in any state but CLOSED names RQ1 (R146). -/
def State.rq1Named (s : State) : Bool :=
  allStreams.any fun i => (s.stream i).state != .closed && (s.stream i).replyQueue == 1

/-- Something is bound to RQ1 or owed to it (R146). -/
def State.rq1InUse (s : State) : Bool :=
  s.rq1Bound || s.rq1Named || (s.rq 1).reserved != 0 || !(s.rq 1).waiting.isEmpty

/-- The status of a DELETE_RQ (R146, R136). -/
def State.deleteRqCheck (s : State) (r : RecordBody) : Status :=
  if r.id ≠ 1 then .badId
  else if !(s.rq 1).active then .wrongState
  else if !(r.flagsOk && r.onlyId) then .badParam
  else if s.rq1InUse then .inUse
  else .ok

/-- DELETE_RQ taken (R146): RQ1 is ABSENT, and its interrupt state ARMED, which R146 leaves open (DESIGN CHOICE,
log 35). -/
def State.takeDeleteRq (s : State) (k : SlotId) (r : RecordBody) : State :=
  match s.deleteRqCheck r with
  | .ok =>
    let x := s.rq 1
    (s.setRq 1 (ReplyQueue.absent x.enabled x.errorFlag)).complete k .ok 1 (BitVec.ofNat 32 x.occupied)
  | status => s.refuse k status

end Sys2Proof.Machine
end

