-- ==== Sys2Proof/Machine/Taking.lean ====
section
/-! DEFINITION. Taking a command record (chapter 7): the order of checks up to the command's own (R136), the fetch
that brings the record, the hold of ORDERED, and what a happening brings due at its own instant. -/

namespace Sys2Proof.Machine

/-! ## A record is taken (R136) -/

/-- The command `op` of the record in in-flight entry `k`, from queue `q`, once its code is known and the queue may
carry it. -/
def State.runOpcode (s : State) (k : SlotId) (q : CqId) (op : Opcode) (r : RecordBody) : State :=
  match op with
  | .nop => s.takeNop k q r
  | .readTime => s.takeReadTime k r
  | .openStream => s.takeOpen k r
  | .arm => s.takeArm k r
  | .stop => s.takeStop k r
  | .resume => s.takeResume k r
  | .close => s.takeClose k r
  | .queryStream => s.takeQuery k r
  | .grant => s.takeGrant k r
  | .reclaim => s.takeReclaim k r
  | .setPacer => s.takeSetPacer k r
  | .haltPacer => s.takeHaltPacer k r
  | .loadPattern => s.takeLoad k r
  | .createCq => s.takeCreateCq k r
  | .deleteCq => s.takeDeleteCq k r
  | .createRq => s.takeCreateRq k r
  | .deleteRq => s.takeDeleteRq k r
  | .configInput => s.takeConfigInput k r
  | .configPort => s.takeConfigPort k r

/-- A record is taken (R136): BAD_OPCODE, then ADMIN_ONLY, then the command's own checks. -/
def State.takeRecord (s : State) (k : SlotId) (q : CqId) (rec : Record) : State :=
  match opcodeOf rec.code with
  | none => s.refuse k .badOpcode
  | some op =>
    if op.adminOnly ∧ q ≠ 0 then s.refuse k .adminOnly
    else s.runOpcode k q op rec.body

/-! ## The fetch (R130, R131, R139) -/

/-- The record of queue `q` fetched into entry `k` is let in: the consumer advances (R127, R130), and the entry, that
was `e`, keeps the record. -/
def State.letIn (s : State) (q : CqId) (k : SlotId) (e : Entry) (rec : Record) : State :=
  let x := s.queue q
  (s.setQueue q { x with consumer := (x.consumer + 1) % x.size }).setEntry k (some { e with record := some rec })

/-- The record let in is held (R139): its entry is in HELD, and its queue names it. -/
def State.holdRecord (s : State) (q : CqId) (k : SlotId) : State :=
  match s.entry k with
  | none => s
  | some e => (s.setQueue q { s.queue q with held := some k }).setEntry k (some { e with phase := .held })

/-- The record of the fetch in progress has returned (R130): a FAULTED or DELETING queue discards it (R125, R131);
else the consumer advances and the record is held (R139) or taken. -/
def State.fetchDone (s : State) (rec : Record) : State :=
  match s.fetch with
  | none => s
  | some f =>
    let s := { s with fetch := none }
    if (s.queue f.queue).state ≠ .active then s.discard f.slot
    else
      match s.entry f.slot with
      | none => s
      | some e =>
        let u := s.letIn f.queue f.slot e rec
        if rec.body.ordered && s.hasWorking f.queue then u.holdRecord f.queue f.slot
        else u.takeRecord f.slot f.queue rec

/-- The fetch in progress has failed (R131): its entry is freed and its reservation released; an ACTIVE queue enters
FAULTED. -/
def State.fetchFailed (s : State) : State :=
  match s.fetch with
  | none => s
  | some f =>
    let s := { s with fetch := none }.discard f.slot
    if (s.queue f.queue).state = .active then s.faultQueue f.queue .busError else s

/-! ## Held records (R139, R140) -/

/-- Queue `q` has a held record and no entry in WORKING (R139). -/
def State.heldDue (s : State) (q : CqId) : Bool :=
  (s.queue q).held.isSome && !s.hasWorking q

/-- The held record of queue `q` leaves HELD and is taken (R139). Its entry is then like that of a record fetched
just now. -/
def State.takeHeld (s : State) (q : CqId) : State :=
  let x := s.queue q
  match x.held with
  | none => s
  | some k =>
    let s := s.setQueue q { x with held := none }
    match s.entry k with
    | none => s
    | some e =>
      match e.record with
      | none => s.discard k
      | some rec => (s.setEntry k (some { e with phase := .fetching })).takeRecord k q rec

/-! ## The end of a quiesce (R170, R177) -/

/-- A stream has a request waiting at the mover (R160): a staged item not yet served in full, or an unserved read. -/
def Stream.hasRequest (st : Stream) : Bool :=
  (st.staging.any fun x => x.served < x.bytes.length) ||
    match st.read with
    | some r => !r.served
    | none => false

/-- Some stream has a request waiting (R163). -/
def State.streamRequests (s : State) : Bool :=
  allStreams.any fun i => (s.stream i).hasRequest

/-- A reply queue has an item waiting, while no item of it is being sent (R150). -/
def State.replyRequest (s : State) (q : RqId) : Bool :=
  !(s.rq q).waiting.isEmpty

/-- The status-record writer has a request waiting (R165). -/
def State.statusRequest (s : State) : Bool :=
  s.statusWrites.any fun w => w.served < w.bytes.length

/-- The command fetcher has its fetch waiting (R165). -/
def State.fetchRequest (s : State) : Bool :=
  match s.fetch with
  | some f => !f.served
  | none => false

/-- A load has its read waiting (R165). -/
def State.loadRequest (s : State) : Bool :=
  s.loads.any fun l => !l.served

/-- Some control-class requester has a request waiting (R163). -/
def State.controlRequests (s : State) : Bool :=
  s.replyRequest 0 || s.replyRequest 1 || s.statusRequest || s.fetchRequest || s.loadRequest

/-- The mover is drained: nothing being sent, nothing waiting, no read outstanding (R170). -/
def State.drained (s : State) : Bool :=
  s.sending.isNone && s.outstanding.isEmpty && !s.streamRequests && !s.controlRequests

/-- A quiesce whose mover reports itself drained (R177). -/
def State.quiesceDue (s : State) : Bool :=
  s.device == .quiescing && s.drained

/-- The device enters OFF, and CQ0 and RQ0 become ABSENT (R177). -/
def State.quiesceEnd (s : State) : State :=
  let x := s.rq 0
  { (s.setQueue 0 CommandQueue.absent).setRq 0 (ReplyQueue.absent x.enabled x.errorFlag) with device := .off }

/-! ## What a happening brings due at its own instant (log 3, log 4) -/

/-- A follow-on that a rule takes at the instant it becomes due. -/
inductive FollowOn where
  | deletion (q : CqId)
  | held (q : CqId)
  | quiesce
  deriving DecidableEq, Repr

/-- The follow-on due next: deletions (R125), held records (R139), the end of a quiesce (R177). DESIGN CHOICE
(log 4): the spec gives two of them due at once no order. -/
def State.nextFollowOn (s : State) : Option FollowOn :=
  match (List.finRange 4).find? fun q => s.deletionDue q with
  | some q => some (.deletion q)
  | none =>
    match (List.finRange 4).find? fun q => s.heldDue q with
    | some q => some (.held q)
    | none => if s.quiesceDue then some .quiesce else none

/-- The follow-on is taken. -/
def State.takeFollowOn (s : State) : FollowOn → State
  | .deletion q => s.deletingDone q
  | .held q => s.takeHeld q
  | .quiesce => s.quiesceEnd

/-- A happening comes to its end: the events it emitted are delivered (R65), then each follow-on due is taken, with
the events it emits in turn. `n` bounds the follow-ons (log 4). -/
def State.settle : Nat → State → State
  | 0, s => { s with emitted := [] }
  | n + 1, s =>
    let s := State.deliverEvents Config.chainBound s
    match s.nextFollowOn with
    | none => s
    | some f => State.settle n (s.takeFollowOn f)

/-- The end of a happening (log 3). -/
def State.finish (s : State) : State :=
  State.settle Config.followOnBound s

/-- The read of the command fetch leaves the outstanding list (R167). -/
def State.fetchReadEnds (s : State) : State :=
  { s with outstanding := s.outstanding.filter fun o => o.who != Requester.fetch }

/-- A record of queue `q` arrives: the outstanding read of the queue's fetch in progress ends with it (R130, R167).
Where no such read is outstanding there is nothing for it to complete, and nothing changes (R167, log 1). -/
def State.recordArrives (s : State) (q : CqId) (rec : Record) : State :=
  match s.fetch with
  | none => s
  | some f =>
    if f.queue = q ∧ (s.outstanding.any fun o => o.who == Requester.fetch) then
      (s.fetchReadEnds.fetchDone rec).finish
    else s

end Sys2Proof.Machine
end

