-- ==== Sys2Proof/Machine/Device.lean ====
section
/-! DEFINITION. Device Control (chapter 10): enable, quiesce, fatal stop, the resets, and the register window. -/

namespace Sys2Proof.Machine

/-! ## Enabling (R173 to R175) -/

/-- The CQ0 size field of QSIZE: bits 0 to 3 (section 11.7). -/
def qsizeCq (v : Word) : Nat := (v.extractLsb' 0 4).toNat

/-- The RQ0 size field of QSIZE: bits 8 to 11 (section 11.7). -/
def qsizeRq (v : Word) : Nat := (v.extractLsb' 8 4).toNat

/-- The bits of QSIZE outside its two fields are 0 (R173). -/
def qsizeOthersZero (v : Word) : Bool :=
  v.extractLsb' 4 4 == 0 && v.extractLsb' 12 20 == 0

/-- The admin configuration is good (R173). -/
def State.configGood (s : State) : Bool :=
  let cq := qsizeCq s.qsize
  let rq := qsizeRq s.qsize
  s.aqbase.toNat % 64 == 0 && s.arbase.toNat % 64 == 0 && 4 ≤ cq && cq ≤ 12 && 4 ≤ rq && rq ≤ 12 &&
    qsizeOthersZero s.qsize && fits s.aqbase (2 ^ cq * 32) && fits s.arbase (2 ^ rq * 16)

/-- The device enters READY (R174): RQ0 and CQ0 become ACTIVE, and RQ0 holds CQ0's queue-fault reservation. -/
def State.enter (s : State) : State :=
  let x := s.rq 0
  let s := s.setRq 0 (ReplyQueue.created s.arbase (2 ^ qsizeRq s.qsize) 1 x.enabled x.errorFlag)
  let s := s.setQueue 0 (CommandQueue.created s.aqbase (2 ^ qsizeCq s.qsize) 0)
  { s with device := .ready, cause := .ok }

/-- A DEVCTL write of ENABLE 1 with FRESET clear (R173, R174, R175). -/
def State.writeEnable (s : State) : State :=
  if s.device = .off then
    if s.configGood then s.enter else { s with cause := .config }
  else s

/-! ## Shutdown (R176, R178) -/

/-- Every port goes to IDLE with its timeout kept and no outcome (R83). -/
def State.idlePorts (s : State) : State :=
  (List.finRange 8).foldl (fun s n => s.setPort n (SamplePort.idle (s.port n).timeout)) s

/-- Every stream's park word, if any, is driven on its pattern port (R23, R24). -/
def State.driveParks (s : State) : State :=
  allStreams.foldl (fun s i => s.drivePark i) s

/-- CQ0 keeps its fields, unfetched, without held record or reservation; CQ1 to CQ3 become ABSENT (R121, R122). -/
def State.dropQueues (s : State) : State :=
  let x := s.queue 0
  { s with
    queues := (Vector.replicate 4 CommandQueue.absent).set 0 { x with faultReserved := false, held := none } }

/-- Both waiting lists are withdrawn and every reservation ends; RQ1 becomes ABSENT; RQ0 is kept (R158, R159). -/
def State.dropReplies (s : State) : State :=
  let x := s.rq 0
  let y := s.rq 1
  (s.setRq 0 { x with reserved := 0, waiting := [] }).setRq 1 (ReplyQueue.absent y.enabled y.errorFlag)

/-- Whose a served transfer is once all work is abandoned: a reply write's failure is still taken by R157 (R158, R159,
R170), and nothing else of it reaches anyone. -/
def Requester.abandoned (w : Requester) : Requester :=
  match w with
  | .reply _ | .message _ | .lostReply => .lostReply
  | .capture _ | .prefetch _ | .closing _ | .status _ | .fetch | .load _ | .nobody => .nobody

/-- What every block does when Device Control begins a quiesce or a fatal stop (R24, R44, R49, R83, R97, R116, R122,
R158, R159, R170). -/
def State.shutdown (s : State) : State :=
  let s := ((s.driveParks.idlePorts).dropQueues).dropReplies
  { s with
    pacers := Vector.replicate 16 Pacer.zero
    streams := Vector.replicate 32 Stream.empty
    portHolder := Vector.replicate 8 none
    patternHolder := Vector.replicate 8 none
    loads := []
    inflight := Vector.replicate 32 none
    fetch := none
    lastServed := 3
    statusWrites := []
    sending := s.sending.map fun t => { t with who := t.who.abandoned }
    outstanding := s.outstanding.map fun o => { o with who := .nobody }
    lastStream := 31
    lastReplyQueue := 1
    streamRun := 0 }

/-- A DEVCTL write of ENABLE 0 with FRESET clear (R175, R176): in READY a quiesce begins, and it ends at the same
instant where the mover is drained already (R177). -/
def State.writeDisable (s : State) : State :=
  if s.device = .ready then { s.shutdown with device := .quiescing }.finish else s

/-- RQ0, frozen, asks for the vector 0 message (R158). -/
def State.askVector0 (s : State) : State :=
  if (s.rq 0).active then s.setRq 0 (s.rq 0).askMessage else s

/-- A reply write failure reaches Device Control (R157, R178): in READY or QUIESCING a fatal stop begins. -/
def State.fatalStop (s : State) : State :=
  match s.device with
  | .ready | .quiescing => { s.shutdown with device := .fatal, cause := .replyWrite }.askVector0
  | .off | .fatal => s

/-! ## Resets (R180, R181) -/

/-- The inputs after a reset: the pins show what they show (R68). -/
def State.resetInputs (s : State) : Vector Input 4 :=
  (List.finRange 4).foldl (fun (v : Vector Input 4) (i : InputId) => v.set i (Input.atReset (s.input i).pin))
    (Vector.replicate 4 (Input.atReset false))

/-- Power-on reset (R180). `link` is the link configuration the host link gives (log 10). What is not the
controller's stays: the pins, the link's being up, the free order, the read tags given out, and the queue of rows. -/
def State.powerOn (s : State) (link : LinkConfig) : State :=
  { State.reset with
    inputs := s.resetInputs
    order := s.order
    nextTag := s.nextTag
    link := link
    linkUp := s.linkUp
    pending := s.pending }

/-- Function reset (R181): power-on reset on every block but the timebase, pattern memory and link configuration. -/
def State.functionReset (s : State) : State :=
  { s.powerOn s.link with
    timebase := s.timebase
    patternMemory := s.patternMemory }

/-! ## Producer writes (R126) -/

/-- A write of `v` to CQPROD of queue `q` (R126, R185, R192). -/
def State.producerWrite (s : State) (q : CqId) (v : Word) : State :=
  let x := s.queue q
  if s.device = .ready ∧ x.state = .active then
    if v.toNat < x.size then s.setQueue q { x with producer := v.toNat } else s.faultQueue q .badIndex
  else s

/-! ## The register window (section 10.6, section 11.7) -/

/-- Replace the low half of a 64-bit register. -/
def withLow (a : Addr) (v : Word) : Addr :=
  a.extractLsb' 32 32 ++ v

/-- Replace the high half of a 64-bit register. -/
def withHigh (a : Addr) (v : Word) : Addr :=
  v ++ a.extractLsb' 0 32

/-- A write of `v` to DEVCTL (R192): bit 1 is FRESET, else bit 0 is ENABLE. -/
def State.writeDevctl (s : State) (v : Word) : State :=
  if v.getLsbD 1 then s.functionReset
  else if v.getLsbD 0 then s.writeEnable
  else s.writeDisable

/-- A 32-bit write of `v` at a multiple of 4 (R182, R184, R185): each register by the block that takes it; AQBASE,
ARBASE and QSIZE while the device is OFF; everything else is ignored. -/
def State.writeWindow (s : State) (offset : BitVec 12) (v : Word) : State :=
  if offset = 0x04 then s.writeDevctl v
  else if offset = 0x10 then (if s.device = .off then { s with aqbase := withLow s.aqbase v } else s)
  else if offset = 0x14 then (if s.device = .off then { s with aqbase := withHigh s.aqbase v } else s)
  else if offset = 0x18 then (if s.device = .off then { s with arbase := withLow s.arbase v } else s)
  else if offset = 0x1C then (if s.device = .off then { s with arbase := withHigh s.arbase v } else s)
  else if offset = 0x20 then (if s.device = .off then { s with qsize := v } else s)
  else if offset = 0x40 then s.producerWrite 0 v
  else if offset = 0x44 then s.producerWrite 1 v
  else if offset = 0x48 then s.producerWrite 2 v
  else if offset = 0x4C then s.producerWrite 3 v
  else if offset = 0x50 then s.consumerWrite 0 v
  else if offset = 0x54 then s.consumerWrite 1 v
  else if offset = 0x58 then s.writeInterrupt 0 (v.getLsbD 0) (v.getLsbD 1)
  else if offset = 0x5C then s.writeInterrupt 1 (v.getLsbD 0) (v.getLsbD 1)
  else s

/-- RQINT as it reads (section 11.7). -/
def ReplyQueue.interruptRegister (x : ReplyQueue) : Word :=
  (if x.enabled then 1 else 0) ||| (if x.errorFlag then 2 else 0)

/-- What a 32-bit read at `offset` returns; it changes nothing (R182, R183, R184, R185). An offset that holds no
register, or is not a multiple of 4, reads 0. -/
def State.readWindow (s : State) (offset : BitVec 12) : Word :=
  if offset = 0x00 then 0x00032460
  else if offset = 0x04 then (if s.device = .ready then 1 else 0)
  else if offset = 0x08 then BitVec.ofNat 32 (s.device.code + 256 * s.cause.code)
  else if offset = 0x10 then s.aqbase.extractLsb' 0 32
  else if offset = 0x14 then s.aqbase.extractLsb' 32 32
  else if offset = 0x18 then s.arbase.extractLsb' 0 32
  else if offset = 0x1C then s.arbase.extractLsb' 32 32
  else if offset = 0x20 then s.qsize
  else if offset = 0x40 then BitVec.ofNat 32 (s.queue 0).producer
  else if offset = 0x44 then BitVec.ofNat 32 (s.queue 1).producer
  else if offset = 0x48 then BitVec.ofNat 32 (s.queue 2).producer
  else if offset = 0x4C then BitVec.ofNat 32 (s.queue 3).producer
  else if offset = 0x50 then BitVec.ofNat 32 (s.rq 0).head
  else if offset = 0x54 then BitVec.ofNat 32 (s.rq 1).head
  else if offset = 0x58 then (s.rq 0).interruptRegister
  else if offset = 0x5C then (s.rq 1).interruptRegister
  else 0

/-! ## Accesses of the host (R182) -/

/-- What the host reads with an access of `bytes` bytes at `offset`, in its low bits (R182): a 32-bit access one
register, a 64-bit access at a multiple of 8 its two halves, the lower offset in the low one, and any other 0. The
halves of a 64-bit access are happenings of their own, so this is its value where nothing is taken between them
(log 23). -/
def State.readAccess (s : State) (offset : BitVec 12) (bytes : Nat) : BitVec 64 :=
  if bytes = 4 then (s.readWindow offset).setWidth 64
  else if bytes = 8 ∧ offset.toNat % 8 = 0 then s.readWindow (offset + 4) ++ s.readWindow offset
  else 0

/-- The rows of a write access of the host, of `bytes` bytes with value `v` at `offset` (R182): a 32-bit access is one
row, a 64-bit access at a multiple of 8 one row for each half, the lower offset first, and any other a row that is
ignored (log 23). -/
def writeAccess (offset : BitVec 12) (bytes : Nat) (v : BitVec 64) : List Instr :=
  if bytes = 4 then [.registerWrite offset .word (v.setWidth 32)]
  else if bytes = 8 ∧ offset.toNat % 8 = 0 then
    [.registerWrite offset .word (v.setWidth 32), .registerWrite (offset + 4) .word (v.extractLsb' 32 32)]
  else [.registerWrite offset .other (v.setWidth 32)]

end Sys2Proof.Machine
end

