-- ==== Sys2Proof/Machine/Mover.lean ====
section
/-! DEFINITION. The Transfer Mover (chapter 9): arbitration, the cutting of requests into transfers, completion,
failure, and the report of each to its requester. The requests that wait are held in their requesters' own
records; a requester has a request waiting where its record says so (R160). -/

namespace Sys2Proof.Machine

/-! ## The link (R166) -/

/-- The link accepts transfers: bus mastering enabled and the link up (R166). -/
def State.linkAccepts (s : State) : Bool :=
  s.link.busMaster && s.linkUp

/-! ## The next transfer of a request (R161) -/

/-- The next transfer of a write with `served` of its bytes served (R161). -/
def nextWrite (who : Requester) (address : Addr) (bytes : List Byte) (served : Nat) : Transfer :=
  let a := address + BitVec.ofNat 64 served
  let n := transferLength a (bytes.length - served)
  { who := who
    isRead := false
    address := a
    length := n
    bytes := (bytes.drop served).take n
    last := served + n == bytes.length }

/-- A read that is one transfer (R161). -/
def oneRead (who : Requester) (address : Addr) (length : Nat) : Transfer where
  who := who
  isRead := true
  address := address
  length := length
  bytes := []
  last := true

/-- The vector of a reply queue's interrupt message (section 8.6). -/
def LinkConfig.vector (l : LinkConfig) (q : RqId) : MsiVector :=
  if q = 0 then l.vector0 else l.vector1

/-- An interrupt message: a write of 4 bytes to the address, and with the data, of its vector (R166). -/
def State.messageTransfer (s : State) (q : RqId) : Transfer where
  who := .message q
  isRead := false
  address := (LinkConfig.vector s.link q).address
  length := 4
  bytes := leBytes 4 (LinkConfig.vector s.link q).data.toNat
  last := true

/-- A reply: one transfer of 16 bytes at base + 16 × position (R150). -/
def ReplyQueue.replyTransfer (x : ReplyQueue) (q : RqId) (position : Nat) (bytes : List Byte) : Transfer where
  who := .reply q
  isRead := false
  address := x.base + BitVec.ofNat 64 (16 * position)
  length := 16
  bytes := bytes
  last := true

/-! ## Reports to the requesters (R166, R167, R169) -/

/-- A command that waits on a transfer completes with the values fixed when it was taken (R22). -/
def State.completeWith (s : State) (k : SlotId) (status : Status) : State :=
  match s.entry k with
  | some e => s.complete k status e.value1 e.value2
  | none => s

/-- The status record of entry `k` is written, or has failed: its writer is done with it and QUERY_STREAM replies
(R22). -/
def State.statusDone (s : State) (k : SlotId) (status : Status) : State :=
  { s with statusWrites := s.statusWrites.filter fun w => w.slot != k }.completeWith k status

/-- The load of entry `k` leaves the load-region list and LOAD_PATTERN replies with the entries written (R114). -/
def State.loadEnds (s : State) (l : Load) (status : Status) : State :=
  { s with loads := s.loads.filter fun m => m.slot != l.slot }.complete l.slot status (BitVec.ofNat 32 l.written)
    (BitVec.ofNat 32 l.first)

/-- A pattern-load read is done: its entries are written, and the next read is asked for, or the load completes
(R113, R114). -/
def State.loadReadDone (s : State) (k : SlotId) (data : List Byte) : State :=
  match s.loads.find? fun l => l.slot == k with
  | none => s
  | some l =>
    let s := { s with patternMemory := memWriteAll s.patternMemory (4 * (l.first + l.written)) data }
    let l := { l with written := l.written + data.length / 4, served := false }
    if l.count ≤ l.written then s.loadEnds l .ok
    else { s with loads := s.loads.map fun m => if m.slot = k then l else m }

/-- A pattern-load read has failed: the load ends with BUS_ERROR (R114). -/
def State.loadReadFailed (s : State) (k : SlotId) : State :=
  match s.loads.find? fun l => l.slot == k with
  | none => s
  | some l => s.loadEnds l .busError

/-- The head of a reply queue's waiting list is dealt with (R150, R154). -/
def State.replyItemDone (s : State) (q : RqId) : State :=
  s.setRq q (s.rq q).itemWritten

/-- The head of a reply queue's waiting list has failed: a reply write failure, reported to Device Control (R157).
The failed item is not written again. -/
def State.replyItemFailed (s : State) (q : RqId) : State :=
  let x := s.rq q
  (s.setRq q { x with waiting := x.waiting.tail }).fatalStop

/-- The mover reports a request done: for a read, with its data (R166, R167). -/
def State.reportDone (s : State) (who : Requester) (data : List Byte) : State :=
  match who with
  | .capture i => s.itemDealt i
  | .prefetch i => s.prefetchDone i data
  | .closing i => s.closeIfDrained i
  | .reply q => s.replyItemDone q
  | .message q => s.replyItemDone q
  | .status k => s.statusDone k .ok
  | .fetch => s.fetchDone (decodeRecord data)
  | .load k => s.loadReadDone k data
  | .lostReply => s
  | .nobody => s

/-- The mover reports a request failed (R169). -/
def State.reportFailed (s : State) (who : Requester) : State :=
  match who with
  | .capture i => s.itemFailed i
  | .prefetch i => s.prefetchFailed i
  | .closing i => s.closeIfDrained i
  | .reply q => s.replyItemFailed q
  | .message q => s.replyItemFailed q
  | .status k => s.statusDone k .busError
  | .fetch => s.fetchFailed
  | .load k => s.loadReadFailed k
  | .lostReply => s.fatalStop
  | .nobody => s

/-! ## Serving (R162) -/

/-- The transfer is served: refused by the link, its request fails at once (R166); else it is being sent. -/
def State.serve (s : State) (t : Transfer) : State :=
  if s.linkAccepts then { s with sending := some t } else s.reportFailed t.who

/-- The first staged item with bytes not yet served, and its next transfer (R164). -/
def Stream.nextStaged (st : Stream) (i : StreamId) : Option (Staged × Transfer) :=
  (st.staging.find? fun x => x.served < x.bytes.length).map fun x =>
    (x, nextWrite (.capture i) x.address x.bytes x.served)

/-- Staging with `n` more bytes of its first unserved item served. -/
def serveStaged (n : Nat) : List Staged → List Staged
  | [] => []
  | x :: xs => if x.served < x.bytes.length then { x with served := x.served + n } :: xs else x :: serveStaged n xs

/-- The oldest waiting transfer of stream `i` is served (R164). -/
def State.serveStream (s : State) (i : StreamId) : State :=
  let st := s.stream i
  match st.nextStaged i with
  | some (_, t) => (s.setStream i { st with staging := serveStaged t.length st.staging }).serve t
  | none =>
    match st.read with
    | some r =>
      (s.setStream i { st with read := some { r with served := true } }).serve
        (oneRead (.prefetch i) r.address (2 * r.words))
    | none => s

/-- The head of reply queue `q`'s waiting list is served (R150, R165). With message-signalled interrupts disabled a
message is taken as done without being sent (R166). -/
def State.serveReply (s : State) (q : RqId) : State :=
  let s := { s with lastReplyQueue := q }
  match (s.rq q).waiting with
  | [] => s
  | .message :: _ => if s.link.msiEnable then s.serve (s.messageTransfer q) else s.replyItemDone q
  | .reply position bytes :: _ => s.serve ((s.rq q).replyTransfer q position bytes)

/-- Status writes with `n` more bytes of the one of entry `k` served. -/
def serveStatusBytes (k : SlotId) (n : Nat) (l : List StatusWrite) : List StatusWrite :=
  l.map fun w => if w.slot = k then { w with served := w.served + n } else w

/-- The earliest-accepted status record still waiting is served (R165). -/
def State.serveStatus (s : State) : State :=
  match s.statusWrites.find? fun w => w.served < w.bytes.length with
  | none => s
  | some w =>
    let t := nextWrite (.status w.slot) w.address w.bytes w.served
    { s with statusWrites := serveStatusBytes w.slot t.length s.statusWrites }.serve t

/-- The one fetch is served (R165): one read of 32 bytes (R130). -/
def State.serveFetch (s : State) : State :=
  match s.fetch with
  | none => s
  | some f => { s with fetch := some { f with served := true } }.serve (oneRead .fetch f.address 32)

/-- The host address of a load's next read (R113). -/
def Load.nextAddress (l : Load) : Addr :=
  l.address + BitVec.ofNat 64 (4 * l.written)

/-- The entries of a load's next read: the smallest of those left, 64, and those up to the next page (R113). -/
def Load.nextEntries (l : Load) : Nat :=
  min (l.count - l.written) (min Config.maxLoadEntries (bytesToPage l.nextAddress / 4))

/-- The read of the earliest-accepted load that has one waiting is served (R165). -/
def State.serveLoad (s : State) : State :=
  match s.loads.find? fun l => !l.served with
  | none => s
  | some l =>
    { s with loads := s.loads.map fun (m : Load) => if m.slot = l.slot then { m with served := true } else m }.serve
      (oneRead (.load l.slot) l.nextAddress (4 * l.nextEntries))

/-! ## Arbitration (R163 to R165) -/

/-- The reply queue chosen when a reply is served (R165): the other than the last served, where both wait. -/
def State.nextReplyQueue (s : State) : RqId :=
  if s.replyRequest 0 && s.replyRequest 1 then (if s.lastReplyQueue = 0 then 1 else 0)
  else if s.replyRequest 0 then 0 else 1

/-- The control class is served: the waiting requester of the highest rank (R165). -/
def State.serveControl (s : State) : State :=
  if s.replyRequest 0 || s.replyRequest 1 then s.serveReply s.nextReplyQueue
  else if s.statusRequest then s.serveStatus
  else if s.fetchRequest then s.serveFetch
  else s.serveLoad

/-- The stream class is served: the first waiting stream after the last served, which becomes the last (R164). -/
def State.serveStreamClass (s : State) : State :=
  match (streamsAfter s.lastStream).find? fun i => (s.stream i).hasRequest with
  | some i => { s with lastStream := i }.serveStream i
  | none => s

/-- The class an arbitration serves, true for the stream class, and the consecutive stream count after it (R163). -/
def chooseClass (streams control : Bool) (count : Nat) : Bool × Nat :=
  if streams && control then (if count < Config.streamAllowance then (true, count + 1) else (false, 0))
  else (streams, 0)

/-- An arbitration: where no transfer is being sent and a request waits, one transfer is served (R162, R163). -/
def State.arbitrate (s : State) : State :=
  if s.sending.isSome || !(s.streamRequests || s.controlRequests) then s
  else
    let choice := chooseClass s.streamRequests s.controlRequests s.streamRun
    let s := { s with streamRun := choice.2 }
    if choice.1 then s.serveStreamClass else s.serveControl

/-! ## Sending and completion (R162, R166, R167) -/

/-- The transfer being sent has been handed to the link: a write is done, and its request with its last transfer; a
read becomes outstanding, with its deadline (R162, R166, R167). Where the link has come to refuse transfers since the
serving, it refuses this one, and its request fails (R166, R169; DEDUCED, log 30). -/
def State.sent (s : State) : State :=
  match s.sending with
  | none => s
  | some t =>
    let s := { s with sending := none }
    if !s.linkAccepts then s.reportFailed t.who
    else if t.isRead then
      let o : OutstandingRead :=
        { tag := s.nextTag
          who := t.who
          address := t.address
          length := t.length
          deadline := s.timebase + BitVec.ofNat 48 Config.readDeadline
          got := [] }
      { s with outstanding := s.outstanding ++ [o], nextTag := s.nextTag + 1 }
    else if t.last then s.reportDone t.who []
    else s

/-- The outstanding read with tag `tag`. -/
def State.readOf (s : State) (tag : Nat) : Option OutstandingRead :=
  s.outstanding.find? fun o => o.tag == tag

/-- The outstanding read with tag `tag` ends: it leaves the list (R167). -/
def State.endRead (s : State) (tag : Nat) : State :=
  { s with outstanding := s.outstanding.filter fun o => o.tag != tag }

/-- Data of the outstanding read `tag` returns with success (R167): held until complete, and then handed over in
address order, which is the order in which the parts arrive (DESIGN CHOICE, log 34). A completion that matches no
outstanding read is discarded. -/
def State.dataReturned (s : State) (tag : Nat) (data : List Byte) : State :=
  match s.readOf tag with
  | none => s
  | some o =>
    let got := o.got ++ data
    if got.length < o.length then
      { s with outstanding := s.outstanding.map fun p => if p.tag = tag then { p with got := got } else p }
    else (s.endRead tag).reportDone o.who (got.take o.length)

/-- The outstanding read `tag` ends with a failure (R167). -/
def State.readFailed (s : State) (tag : Nat) : State :=
  match s.readOf tag with
  | none => s
  | some o => (s.endRead tag).reportFailed o.who

/-! ## The fetcher's turn (R128, R129, R130) -/

/-- Queue `q` meets conditions 1 to 5 of R128, a free in-flight entry apart. -/
def State.eligible (s : State) (q : CqId) : Bool :=
  let x := s.queue q
  s.device == .ready && x.state == .active && x.available != 0 && x.held.isNone && s.commandClaim x.replyQueue

/-- The fetch of queue `q` begins, with in-flight entry `k` (R130). -/
def State.beginFetch (s : State) (q : CqId) (k : SlotId) : State :=
  let x := s.queue q
  let e : Entry :=
    { queue := q
      position := x.consumer
      phase := .fetching
      replyQueue := x.replyQueue
      record := none
      value1 := 0
      value2 := 0 }
  let f : Fetch :=
    { queue := q
      slot := k
      address := x.base + BitVec.ofNat 64 (32 * x.consumer)
      served := false }
  { ((s.reserve x.replyQueue).setEntry k (some e)) with fetch := some f, lastServed := q }

/-- A turn of the fetcher (R129): with no fetch in progress it fetches from the first eligible queue after the last
one served. -/
def State.takeTurn (s : State) : State :=
  match s.fetch, s.freeSlot with
  | none, some k =>
    match (queuesAfter s.lastServed).find? fun q => s.eligible q with
    | some q => s.beginFetch q k
    | none => s
  | _, _ => s

end Sys2Proof.Machine
end

