-- ==== Sys2Proof/Machine/Timing.lean ====
section
/-! DEFINITION. What time brings: pacer firings (chapter 3), the qualification of inputs (chapter 4), the sample port
handshake (chapter 5), read deadlines (chapter 9), and the tick itself (R46). -/

namespace Sys2Proof.Machine

/-! ## The firing of a WAITING pacer (R53) -/

/-- The whole periods by which a firing at tick `n` falls behind its target (R53). -/
def Pacer.skipped (x : Pacer) (n : Tick) : Nat :=
  (n - x.target).toNat / x.period.toNat

/-- The target after a firing at tick `n` (R53, step 3). -/
def Pacer.nextTarget (x : Pacer) (n : Tick) : Tick :=
  x.target + BitVec.ofNat 48 ((x.skipped n + 1) * x.period.toNat)

/-- The late count after a firing at tick `n`, saturating (R53, step 2). -/
def Pacer.nextLate (x : Pacer) (n : Tick) : Word :=
  BitVec.ofNat 32 (min (2 ^ 32 - 1) (x.late.toNat + x.skipped n))

/-- The firings left after a firing at tick `n` (R53, step 4). -/
def Pacer.nextRemaining (x : Pacer) (n : Tick) : Word :=
  BitVec.ofNat 32 (x.remaining.toNat - (x.skipped n + 1))

/-- The pacer after a firing at tick `n` (R53): with its count used up it is OFF. -/
def Pacer.fired (x : Pacer) (n : Tick) : Pacer :=
  { x with
    state := if x.remaining ≠ 0 ∧ x.nextRemaining n = 0 then .off else .waiting
    target := x.nextTarget n
    late := x.nextLate n
    remaining := x.nextRemaining n }

/-- Pacer `p` is in WAITING with its target due (R53). -/
def State.firingDue (s : State) (p : PacerId) : Bool :=
  (s.pacer p).state == .waiting && due s.timebase (s.pacer p).target

/-- The firing of WAITING pacer `p`: its event, and its fields moved on (R53). -/
def State.firePacer (s : State) (p : PacerId) : State :=
  (s.setPacer p ((s.pacer p).fired s.timebase)).emit (pacerCode p)

/-- The PACER_FIRING happening, where it is due. -/
def State.pacerFires (s : State) (p : PacerId) : State :=
  if s.firingDue p then (s.firePacer p).finish else s

/-! ## The firing of a DRIVEN pacer (R58) -/

/-- Pacer `p` is in DRIVEN with its target due (R58). -/
def State.drivenDue (s : State) (p : PacerId) : Bool :=
  (s.pacer p).state == .driven && due s.timebase (s.pacer p).target

/-- The RING stream that drives pacer `p`: it names the pacer and is RUNNING or STOPPING (R56). -/
def State.ringOf (s : State) (p : PacerId) : Option StreamId :=
  allStreams.find? fun i => (s.stream i).kind == some .ring && (s.stream i).pacer == p && (s.stream i).state.runs

/-- The firing of DRIVEN pacer `p`: its event, and then the work of its RING stream (R58). -/
def State.fireDriven (s : State) (p : PacerId) : State :=
  let t := s.emit (pacerCode p)
  match s.ringOf p with
  | some i => t.ringFiring i s.timebase
  | none => t

/-- The DRIVEN_PACER_FIRING happening, where it is due. -/
def State.drivenFires (s : State) (p : PacerId) : State :=
  if s.drivenDue p then (s.fireDriven p).finish else s

/-! ## Inputs (R69, R70) -/

/-- The one sample of the pin at tick `n` (R69): a change from the qualified level begins a candidate; the
qualified level removes one. Nothing more is sampled in a tick that has been sampled, or before the first tick
after a reset (R68, log 11). -/
def Input.sample (x : Input) (n : Tick) : Input :=
  if x.sampled || x.fresh then x
  else if x.pin = x.qualified then { x with candidate := none, sampled := true }
  else if x.candidate.isSome then { x with sampled := true }
  else { x with candidate := some n, sampled := true }

/-- The pin shows level `v` at tick `n`, and is sampled (R69). -/
def Input.show (x : Input) (v : Bool) (n : Tick) : Input :=
  { x with pin := v }.sample n

/-- The CHANGE_SEEN happening (R69): the pin shows the level that is not the qualified one. -/
def State.changeSeen (s : State) (i : InputId) : State :=
  s.setInput i ((s.input i).show (!(s.input i).qualified) s.timebase)

/-- The CHANGE_REVERTS happening (R69): the pin shows the qualified level. -/
def State.changeReverts (s : State) (i : InputId) : State :=
  s.setInput i ((s.input i).show (s.input i).qualified s.timebase)

/-- There is a candidate, and the pin's level at this tick is the one that is not the qualified one (R69). -/
def Input.showsNew (x : Input) : Bool :=
  x.candidate.isSome && x.level != x.qualified

/-- A candidate's filter has expired at tick `n` with the new level held in that tick's sample (R69). -/
def Input.qualifies (x : Input) (n : Tick) : Bool :=
  match x.candidate with
  | some t => x.showsNew && decide (x.filter.toNat ≤ (n - t).toNat)
  | none => false

/-- The edge selection admits an edge to level `up` (R70). -/
def EdgeSelection.admits (e : EdgeSelection) (up : Bool) : Bool :=
  match e with
  | .off => false
  | .rising => up
  | .falling => !up
  | .both => true

/-- The input after its edge has qualified (R69): the qualified level is the other one. -/
def Input.qualify (x : Input) : Input :=
  { x with qualified := !x.qualified, candidate := none, sampled := true }

/-- The qualification of an edge of input `i` (R69, R70). -/
def State.qualifyEdge (s : State) (i : InputId) : State :=
  let x := s.input i
  let s := s.setInput i x.qualify
  if x.edges.admits (!x.qualified) then s.emit (inputCode i) else s

/-- The EDGE_QUALIFIES happening, where it is due. -/
def State.edgeQualifies (s : State) (i : InputId) : State :=
  if (s.input i).qualifies s.timebase then (s.qualifyEdge i).finish else s

/-! ## Sample ports (R80, R81) -/

/-- A ready is seen at port `n` (R80): in WAIT_READY it begins the shifting, else it is ignored. At the tick of the
expiry the ready taken first wins (R81). -/
def State.ready (s : State) (n : PortId) : State :=
  let x := s.port n
  if x.phase = .waitReady then s.setPort n { x with phase := .shifting, shift := 0, bits := 0 } else s

/-- Port `n` holds the complete sample (R80). -/
def State.resultDue (s : State) (n : PortId) : Bool :=
  (s.port n).phase == .shifting && (s.port n).bits == 16

/-- The elapsed count of port `n` has reached its timeout in force (R81). -/
def State.timeoutDue (s : State) (n : PortId) : Bool :=
  (s.port n).phase == .waitReady && decide ((s.port n).inForce ≤ (s.port n).elapsed)

/-- Port `n` enters IDLE and its outcome reaches the stream that holds it (R80, R81, R82). -/
def State.portDelivers (s : State) (n : PortId) (outcome : ScanSlot) : State :=
  (s.setPort n (SamplePort.idle (s.port n).timeout)).portOutcome n outcome

/-- The RESULT happening, where it is due (R80). -/
def State.resultArrives (s : State) (n : PortId) : State :=
  if s.resultDue n then (s.portDelivers n (.sample (s.port n).shift)).finish else s

/-- The TIMEOUT happening, where it is due (R81). -/
def State.timeoutExpires (s : State) (n : PortId) : State :=
  if s.timeoutDue n then (s.portDelivers n .timedOut).finish else s

/-! ## Read deadlines (R167) -/

/-- The deadline of the outstanding read `tag` is reached (R167). -/
def State.deadlineDue (s : State) (tag : Nat) : Bool :=
  match s.readOf tag with
  | some o => due s.timebase o.deadline
  | none => false

/-- The READ_TIMEOUT happening, where it is due (R167). -/
def State.readExpires (s : State) (tag : Nat) : State :=
  if s.deadlineDue tag then (s.readFailed tag).finish else s

/-! ## The tick (R46) -/

/-- The pin of input `i` is sampled, if this tick's sample has not been taken, and its edge qualifies where due. -/
def State.inputLast (s : State) (i : InputId) : State :=
  (s.setInput i ((s.input i).sample s.timebase)).edgeQualifies i

/-- One round over everything due at the present tick and not yet taken. DESIGN CHOICE (log 6): inputs, pacers,
ports, reads. -/
def State.takeRound (s : State) : State :=
  let s := (List.finRange 4).foldl State.inputLast s
  let s := (List.finRange 16).foldl (fun s p => (s.pacerFires p).drivenFires p) s
  let s := (List.finRange 8).foldl (fun s n => (s.resultArrives n).timeoutExpires n) s
  (s.outstanding.map OutstandingRead.tag).foldl State.readExpires s

/-- Something is due at the present tick, or a pin is still to be sampled (R46, R53, R58, R69, R80, R81, R167). -/
def State.anyDue (s : State) : Bool :=
  ((List.finRange 4).any fun i =>
      !((s.input i).sampled || (s.input i).fresh) || (s.input i).qualifies s.timebase) ||
    ((List.finRange 16).any fun p => s.firingDue p || s.drivenDue p) ||
    ((List.finRange 8).any fun n => s.resultDue n || s.timeoutDue n) ||
    s.outstanding.any fun o => due s.timebase o.deadline

/-- Rounds are taken until nothing is due, at most `n`. -/
def State.takeRounds : Nat → State → State
  | 0, s => s
  | n + 1, s => if s.anyDue then State.takeRounds n s.takeRound else s

/-- Everything due at the present tick is taken (R53, R58, R69, R81, R80, R167: each at its tick, none later), with
what the taking makes due at the same tick (R51). -/
def State.takeDue (s : State) : State :=
  State.takeRounds Config.dueRounds s

/-- A sample port at the next tick, `bit` on its serial data input (R80): elapsed rises in WAIT_READY; one bit is
shifted in, most significant first, in SHIFTING. -/
def SamplePort.tick (x : SamplePort) (bit : Bool) : SamplePort :=
  match x.phase with
  | .idle => x
  | .waitReady => { x with elapsed := x.elapsed + 1 }
  | .shifting =>
    if x.bits < 16 then { x with shift := (x.shift <<< 1) ||| (if bit then 1 else 0), bits := x.bits + 1 } else x

/-- An input at the next tick: to be sampled again; at the first tick after a reset the pin's level is the
qualified level, and that is the tick's sample (R68). -/
def Input.tick (x : Input) : Input :=
  if x.fresh then { x with qualified := x.pin, candidate := none, sampled := true, fresh := false }
  else { x with sampled := false }

/-- Every input moves to the next tick. -/
def State.tickInputs (s : State) : State :=
  (List.finRange 4).foldl (fun s i => s.setInput i (s.input i).tick) s

/-- Every sample port moves to the next tick. -/
def State.tickPorts (s : State) (serial : BitVec 8) : State :=
  (List.finRange 8).foldl (fun s n => s.setPort n ((s.port n).tick (serial.getLsbD n.val))) s

/-- The timebase advances by one, wrapping (R46), and the interval counts with it (R48). -/
def State.nextTick (s : State) (serial : BitVec 8) : State :=
  let s := (s.tickInputs).tickPorts serial
  { s with timebase := s.timebase + 1 }

/-- The TIMEBASE_TICK happening. -/
def State.tick (s : State) (serial : BitVec 8) : State :=
  s.takeDue.nextTick serial

end Sys2Proof.Machine
end

