-- ==== Sys2Proof/Machine/CommandRows.lean ====
section
/-! DEFINITION. The meanings of the nineteen command rows. Each is the arrival of a record of queue `q` with that
command's code: the outstanding command fetch of the queue completes with it (R130, R167), and the record is then
held (R139) or taken (R136, and the command's own rules). With no such fetch outstanding nothing changes (log 1). -/

namespace Sys2Proof.Machine

/-- NOP (R141): a NOP record of queue `q` arrives. -/
def execNop (q : CqId) (r : RecordBody) (s : State) : Host.Outcome State Fault Refusal :=
  .next (s.recordArrives q ⟨Opcode.nop.code, r⟩)

/-- READ_TIME (R142): a READ_TIME record of queue `q` arrives. -/
def execReadTime (q : CqId) (r : RecordBody) (s : State) : Host.Outcome State Fault Refusal :=
  .next (s.recordArrives q ⟨Opcode.readTime.code, r⟩)

/-- OPEN (R4, R5): a OPEN record of queue `q` arrives. -/
def execOpenStream (q : CqId) (r : RecordBody) (s : State) : Host.Outcome State Fault Refusal :=
  .next (s.recordArrives q ⟨Opcode.openStream.code, r⟩)

/-- ARM (R6, R7): a ARM record of queue `q` arrives. -/
def execArm (q : CqId) (r : RecordBody) (s : State) : Host.Outcome State Fault Refusal :=
  .next (s.recordArrives q ⟨Opcode.arm.code, r⟩)

/-- STOP (R11 to R13): a STOP record of queue `q` arrives. -/
def execStop (q : CqId) (r : RecordBody) (s : State) : Host.Outcome State Fault Refusal :=
  .next (s.recordArrives q ⟨Opcode.stop.code, r⟩)

/-- RESUME (R19): a RESUME record of queue `q` arrives. -/
def execResume (q : CqId) (r : RecordBody) (s : State) : Host.Outcome State Fault Refusal :=
  .next (s.recordArrives q ⟨Opcode.resume.code, r⟩)

/-- CLOSE (R20, R21): a CLOSE record of queue `q` arrives. -/
def execClose (q : CqId) (r : RecordBody) (s : State) : Host.Outcome State Fault Refusal :=
  .next (s.recordArrives q ⟨Opcode.close.code, r⟩)

/-- QUERY_STREAM (R22): a QUERY_STREAM record of queue `q` arrives. -/
def execQueryStream (q : CqId) (r : RecordBody) (s : State) : Host.Outcome State Fault Refusal :=
  .next (s.recordArrives q ⟨Opcode.queryStream.code, r⟩)

/-- GRANT (R28, R29): a GRANT record of queue `q` arrives. -/
def execGrant (q : CqId) (r : RecordBody) (s : State) : Host.Outcome State Fault Refusal :=
  .next (s.recordArrives q ⟨Opcode.grant.code, r⟩)

/-- RECLAIM (R30): a RECLAIM record of queue `q` arrives. -/
def execReclaim (q : CqId) (r : RecordBody) (s : State) : Host.Outcome State Fault Refusal :=
  .next (s.recordArrives q ⟨Opcode.reclaim.code, r⟩)

/-- SET_PACER (R50, R51): a SET_PACER record of queue `q` arrives. -/
def execSetPacer (q : CqId) (r : RecordBody) (s : State) : Host.Outcome State Fault Refusal :=
  .next (s.recordArrives q ⟨Opcode.setPacer.code, r⟩)

/-- HALT_PACER (R52): a HALT_PACER record of queue `q` arrives. -/
def execHaltPacer (q : CqId) (r : RecordBody) (s : State) : Host.Outcome State Fault Refusal :=
  .next (s.recordArrives q ⟨Opcode.haltPacer.code, r⟩)

/-- LOAD_PATTERN (R112, R113): a LOAD_PATTERN record of queue `q` arrives. -/
def execLoadPattern (q : CqId) (r : RecordBody) (s : State) : Host.Outcome State Fault Refusal :=
  .next (s.recordArrives q ⟨Opcode.loadPattern.code, r⟩)

/-- CREATE_CQ (R123): a CREATE_CQ record of queue `q` arrives. -/
def execCreateCq (q : CqId) (r : RecordBody) (s : State) : Host.Outcome State Fault Refusal :=
  .next (s.recordArrives q ⟨Opcode.createCq.code, r⟩)

/-- DELETE_CQ (R124): a DELETE_CQ record of queue `q` arrives. -/
def execDeleteCq (q : CqId) (r : RecordBody) (s : State) : Host.Outcome State Fault Refusal :=
  .next (s.recordArrives q ⟨Opcode.deleteCq.code, r⟩)

/-- CREATE_RQ (R145): a CREATE_RQ record of queue `q` arrives. -/
def execCreateRq (q : CqId) (r : RecordBody) (s : State) : Host.Outcome State Fault Refusal :=
  .next (s.recordArrives q ⟨Opcode.createRq.code, r⟩)

/-- DELETE_RQ (R146): a DELETE_RQ record of queue `q` arrives. -/
def execDeleteRq (q : CqId) (r : RecordBody) (s : State) : Host.Outcome State Fault Refusal :=
  .next (s.recordArrives q ⟨Opcode.deleteRq.code, r⟩)

/-- CONFIG_INPUT (R71): a CONFIG_INPUT record of queue `q` arrives. -/
def execConfigInput (q : CqId) (r : RecordBody) (s : State) : Host.Outcome State Fault Refusal :=
  .next (s.recordArrives q ⟨Opcode.configInput.code, r⟩)

/-- CONFIG_PORT (R84): a CONFIG_PORT record of queue `q` arrives. -/
def execConfigPort (q : CqId) (r : RecordBody) (s : State) : Host.Outcome State Fault Refusal :=
  .next (s.recordArrives q ⟨Opcode.configPort.code, r⟩)

end Sys2Proof.Machine
end

