-- ==== Sys2Proof/Machine/DeviceRows.lean ====
section
/-! DEFINITION. The meanings of the rows that write registers, and of the resets (chapters 7, 8 and 10). -/

namespace Sys2Proof.Machine

/-- ENABLE (R173 to R175). -/
def execEnable (s : State) : Host.Outcome State Fault Refusal :=
  .next s.writeEnable

/-- QUIESCE (R175 to R177). -/
def execQuiesce (s : State) : Host.Outcome State Fault Refusal :=
  .next s.writeDisable

/-- FUNCTION_RESET (R181). With FRESET set the ENABLE bit of the write is ignored (R192). -/
def execFunctionReset (_enableBit : Bool) (s : State) : Host.Outcome State Fault Refusal :=
  .next s.functionReset

/-- POWER_ON_RESET (R180). -/
def execPowerOnReset (link : LinkConfig) (s : State) : Host.Outcome State Fault Refusal :=
  .next (s.powerOn link)

/-- PRODUCER_WRITE (R126). -/
def execProducerWrite (q : CqId) (v : Word) (s : State) : Host.Outcome State Fault Refusal :=
  .next (s.producerWrite q v)

/-- CONSUMER_WRITE (R152). -/
def execConsumerWrite (q : RqId) (v : Word) (s : State) : Host.Outcome State Fault Refusal :=
  .next (s.consumerWrite q v)

/-- INTERRUPT_ENABLE (R154): an RQINT write that leaves the error flag. -/
def execInterruptEnable (q : RqId) (on : Bool) (s : State) : Host.Outcome State Fault Refusal :=
  .next (s.writeInterrupt q on false)

/-- ERROR_FLAG_CLEAR (R153): an RQINT write that clears the error flag; its bit 0 is the enable bit (R192). -/
def execErrorFlagClear (q : RqId) (on : Bool) (s : State) : Host.Outcome State Fault Refusal :=
  .next (s.writeInterrupt q on true)

/-- REGISTER_WRITE (R182, R184): a 32-bit write at a multiple of 4 takes effect; any other is ignored. -/
def execRegisterWrite (offset : BitVec 12) (size : AccessSize) (v : Word) (s : State) : Host.Outcome State Fault Refusal :=
  .next (if registerAccessOk offset size then s.writeWindow offset v else s)

/-- LINK_CONFIGURATION_CHANGE (R166). -/
def execLinkConfigurationChange (link : LinkConfig) (s : State) : Host.Outcome State Fault Refusal :=
  .next { s with link := link }

/-- LINK_STATE_CHANGE (R166). -/
def execLinkStateChange (up : Bool) (s : State) : Host.Outcome State Fault Refusal :=
  .next { s with linkUp := up }

end Sys2Proof.Machine
end

