-- ==== Sys2Proof/Machine/InternalRows.lean ====
section
/-! DEFINITION. The meanings of the rows that the controller takes by itself: the fetch turn and what comes due inside
a happening (log 3). A row whose condition does not hold changes nothing (log 2). -/

namespace Sys2Proof.Machine

/-- TURN (R129, R130). -/
def execTurn (s : State) : Host.Outcome State Fault Refusal :=
  .next s.takeTurn

/-- HELD_RECORD_TAKEN (R139). -/
def execHeldRecordTaken (q : CqId) (s : State) : Host.Outcome State Fault Refusal :=
  .next (if s.heldDue q then (s.takeHeld q).finish else s)

/-- PREFETCH_READ (R103). -/
def execPrefetchRead (i : StreamId) (s : State) : Host.Outcome State Fault Refusal :=
  .next (s.prefetchTest i)

/-- RETIREMENT (R35). -/
def execRetirement (i : StreamId) (s : State) : Host.Outcome State Fault Refusal :=
  .next (s.retireDue i)

/-- CLOSING_STEPS (R21). -/
def execClosingSteps (i : StreamId) (s : State) : Host.Outcome State Fault Refusal :=
  .next (s.closeIfDrained i).finish

/-- DELETING_DONE (R125). -/
def execDeletingDone (q : CqId) (s : State) : Host.Outcome State Fault Refusal :=
  .next (if s.deletionDue q then (s.deletingDone q).finish else s)

/-- QUIESCE_END (R177). -/
def execQuiesceEnd (s : State) : Host.Outcome State Fault Refusal :=
  .next (if s.quiesceDue then s.quiesceEnd else s)

end Sys2Proof.Machine
end

