-- ==== Sys2Proof/Machine/TimeRows.lean ====
section
/-! DEFINITION. The meanings of the timed rows: pacers, inputs, sample ports and the tick (chapters 3, 4 and 5). A row
whose condition does not hold changes nothing (log 2). -/

namespace Sys2Proof.Machine

/-- PACER_FIRING (R53). -/
def execPacerFiring (p : PacerId) (s : State) : Host.Outcome State Fault Refusal :=
  .next (s.pacerFires p)

/-- DRIVEN_PACER_FIRING (R58). -/
def execDrivenPacerFiring (p : PacerId) (s : State) : Host.Outcome State Fault Refusal :=
  .next (s.drivenFires p)

/-- CHANGE_SEEN (R69). -/
def execChangeSeen (i : InputId) (s : State) : Host.Outcome State Fault Refusal :=
  .next (s.changeSeen i)

/-- CHANGE_REVERTS (R69). -/
def execChangeReverts (i : InputId) (s : State) : Host.Outcome State Fault Refusal :=
  .next (s.changeReverts i)

/-- EDGE_QUALIFIES (R69, R70). -/
def execEdgeQualifies (i : InputId) (s : State) : Host.Outcome State Fault Refusal :=
  .next (s.edgeQualifies i)

/-- READY (R80, R81). -/
def execReady (n : PortId) (s : State) : Host.Outcome State Fault Refusal :=
  .next (s.ready n)

/-- RESULT (R80, R82). -/
def execResult (n : PortId) (s : State) : Host.Outcome State Fault Refusal :=
  .next (s.resultArrives n)

/-- TIMEOUT (R81, R82). -/
def execTimeout (n : PortId) (s : State) : Host.Outcome State Fault Refusal :=
  .next (s.timeoutExpires n)

/-- TIMEBASE_TICK (R46, R80). -/
def execTimebaseTick (serial : BitVec 8) (s : State) : Host.Outcome State Fault Refusal :=
  .next (s.tick serial)

end Sys2Proof.Machine
end

