-- ==== Sys2Proof/Machine/TransferRows.lean ====
section
/-! DEFINITION. The meanings of the rows of the Transfer Mover (chapter 9). A row whose condition does not hold
changes nothing (log 2). -/

namespace Sys2Proof.Machine

/-- ARBITRATION (R162 to R166). -/
def execArbitration (s : State) : Host.Outcome State Fault Refusal :=
  .next s.arbitrate.finish

/-- TRANSFER_SENT (R162, R166; where the link refuses by now, log 30). -/
def execTransferSent (s : State) : Host.Outcome State Fault Refusal :=
  .next s.sent.finish

/-- READ_COMPLETION (R167): the data returned completes the read, or the read goes on waiting for the rest. -/
def execReadCompletion (tag : Nat) (data : List Byte) (s : State) : Host.Outcome State Fault Refusal :=
  .next (s.dataReturned tag data).finish

/-- COMPLETION_PART (R167): a part is held, and the part that brings the last of the data completes the read. -/
def execCompletionPart (tag : Nat) (data : List Byte) (s : State) : Host.Outcome State Fault Refusal :=
  .next (s.dataReturned tag data).finish

/-- ERROR_COMPLETION (R167, R169). -/
def execErrorCompletion (tag : Nat) (s : State) : Host.Outcome State Fault Refusal :=
  .next (s.readFailed tag).finish

/-- READ_TIMEOUT (R167, R169). -/
def execReadTimeout (tag : Nat) (s : State) : Host.Outcome State Fault Refusal :=
  .next (s.readExpires tag)

end Sys2Proof.Machine
end

