-- ==== Sys2Proof/Machine/Dispatch.lean ====
section
/-! DEFINITION. One arm per row of spec/opcode_table.json. -/

namespace Sys2Proof.Machine

def exec (i : Instr) (s : State) : Host.Outcome State Fault Refusal :=
  match i with
  | .nop q r => Sys2Proof.Machine.execNop q r s
  | .readTime q r => Sys2Proof.Machine.execReadTime q r s
  | .openStream q r => Sys2Proof.Machine.execOpenStream q r s
  | .arm q r => Sys2Proof.Machine.execArm q r s
  | .stop q r => Sys2Proof.Machine.execStop q r s
  | .resume q r => Sys2Proof.Machine.execResume q r s
  | .close q r => Sys2Proof.Machine.execClose q r s
  | .queryStream q r => Sys2Proof.Machine.execQueryStream q r s
  | .grant q r => Sys2Proof.Machine.execGrant q r s
  | .reclaim q r => Sys2Proof.Machine.execReclaim q r s
  | .setPacer q r => Sys2Proof.Machine.execSetPacer q r s
  | .haltPacer q r => Sys2Proof.Machine.execHaltPacer q r s
  | .loadPattern q r => Sys2Proof.Machine.execLoadPattern q r s
  | .createCq q r => Sys2Proof.Machine.execCreateCq q r s
  | .deleteCq q r => Sys2Proof.Machine.execDeleteCq q r s
  | .createRq q r => Sys2Proof.Machine.execCreateRq q r s
  | .deleteRq q r => Sys2Proof.Machine.execDeleteRq q r s
  | .configInput q r => Sys2Proof.Machine.execConfigInput q r s
  | .configPort q r => Sys2Proof.Machine.execConfigPort q r s
  | .enable => Sys2Proof.Machine.execEnable s
  | .quiesce => Sys2Proof.Machine.execQuiesce s
  | .functionReset enableBit => Sys2Proof.Machine.execFunctionReset enableBit s
  | .powerOnReset link => Sys2Proof.Machine.execPowerOnReset link s
  | .producerWrite q v => Sys2Proof.Machine.execProducerWrite q v s
  | .consumerWrite q v => Sys2Proof.Machine.execConsumerWrite q v s
  | .interruptEnable q on => Sys2Proof.Machine.execInterruptEnable q on s
  | .errorFlagClear q on => Sys2Proof.Machine.execErrorFlagClear q on s
  | .registerWrite offset size v => Sys2Proof.Machine.execRegisterWrite offset size v s
  | .pacerFiring p => Sys2Proof.Machine.execPacerFiring p s
  | .drivenPacerFiring p => Sys2Proof.Machine.execDrivenPacerFiring p s
  | .changeSeen n => Sys2Proof.Machine.execChangeSeen n s
  | .changeReverts n => Sys2Proof.Machine.execChangeReverts n s
  | .edgeQualifies n => Sys2Proof.Machine.execEdgeQualifies n s
  | .ready n => Sys2Proof.Machine.execReady n s
  | .result n => Sys2Proof.Machine.execResult n s
  | .timeout n => Sys2Proof.Machine.execTimeout n s
  | .arbitration => Sys2Proof.Machine.execArbitration s
  | .transferSent => Sys2Proof.Machine.execTransferSent s
  | .readCompletion tag data => Sys2Proof.Machine.execReadCompletion tag data s
  | .errorCompletion tag => Sys2Proof.Machine.execErrorCompletion tag s
  | .readTimeout tag => Sys2Proof.Machine.execReadTimeout tag s
  | .turn => Sys2Proof.Machine.execTurn s
  | .heldRecordTaken q => Sys2Proof.Machine.execHeldRecordTaken q s
  | .prefetchRead n => Sys2Proof.Machine.execPrefetchRead n s
  | .retirement n => Sys2Proof.Machine.execRetirement n s
  | .closingSteps n => Sys2Proof.Machine.execClosingSteps n s
  | .deletingDone q => Sys2Proof.Machine.execDeletingDone q s
  | .quiesceEnd => Sys2Proof.Machine.execQuiesceEnd s
  | .timebaseTick serial => Sys2Proof.Machine.execTimebaseTick serial s
  | .linkConfigurationChange link => Sys2Proof.Machine.execLinkConfigurationChange link s
  | .linkStateChange up => Sys2Proof.Machine.execLinkStateChange up s
  | .completionPart tag data => Sys2Proof.Machine.execCompletionPart tag data s

end Sys2Proof.Machine
end

