-- ==== Sys2Proof/Machine/Step.lean ====
section
/-! DEFINITION. The step: the row at the front of the queue is taken; and what the host asks of a table word. -/

namespace Sys2Proof.Machine

/-- The row at the front of the queue is taken, with the queue's rest left waiting. On an empty queue the block idles
(DESIGN CHOICE, log 9). -/
def step (s : State) : Host.Outcome State Fault Refusal :=
  match s.pending with
  | [] => .next s
  | c :: rest => exec c { s with pending := rest }

/-- The state with the command that a table word spells at the front of its queue; no word spells one. -/
def State.withFetchWord (s : State) (nbits w : Nat) : State :=
  match decodeTableWord nbits w with
  | some c => { s with pending := c :: s.pending }
  | none => s

end Sys2Proof.Machine
end

