-- ==== Sys2Proof/Safety.lean ====
section
/-! DEFINITION. The terms in which claims about the machine are made: sound reply queues, a calm machine, a command
record that arrives, what an answered command leaves, and what a fault, the end of a run, a retirement and a completed
item leave of a stream. -/

namespace Sys2Proof.Machine

/-! ## Sound reply queues (section 8.1, R144, R147, R149, R152) -/

/-- An ABSENT queue holds and owes nothing. An ACTIVE one has a legal size, its head below it, its tail occupied
entries after its head, and occupied and reserved together leave one entry free. -/
def ReplyQueue.Sound (x : ReplyQueue) : Prop :=
  (x.active = false ∧ x.size = 0 ∧ x.occupied = 0 ∧ x.reserved = 0 ∧ x.head = 0 ∧ x.tail = 0 ∧ x.waiting = []) ∨
    (x.active = true ∧ isQueueSize x.size = true ∧ x.head < x.size ∧ x.tail = (x.head + x.occupied) % x.size ∧
      x.occupied + x.reserved ≤ x.size - 1)

/-- Both reply queues are sound. -/
def State.RepliesSound (s : State) : Prop :=
  ∀ q, (s.rq q).Sound

/-- Pattern memory is in its canonical form. -/
def State.PatternSound (s : State) : Prop :=
  Memory.wf s.patternMemory = true

/-! ## A calm machine -/

/-- No event waits to be delivered, no record is held, no queue is being deleted and no quiesce is running: nothing
but the happening taken next can come due. -/
def State.Calm (s : State) : Prop :=
  s.emitted = [] ∧ (∀ q, (s.queue q).held = none ∧ (s.queue q).state ≠ .deleting) ∧ s.device ≠ .quiescing

/-- No stream takes event `c` in any role as the contexts stand (R62). -/
def State.Unheard (s : State) (c : Byte) : Prop :=
  ∀ i, (s.stream i).subscribes c = false

/-! ## A command record arrives (R130, R136) -/

/-- The row by which a record of command `op` arrives at queue `q`. -/
def Opcode.row (op : Opcode) (q : CqId) (r : RecordBody) : Instr :=
  match op with
  | .nop => .nop q r
  | .readTime => .readTime q r
  | .openStream => .openStream q r
  | .arm => .arm q r
  | .stop => .stop q r
  | .resume => .resume q r
  | .close => .close q r
  | .queryStream => .queryStream q r
  | .grant => .grant q r
  | .reclaim => .reclaim q r
  | .setPacer => .setPacer q r
  | .haltPacer => .haltPacer q r
  | .loadPattern => .loadPattern q r
  | .createCq => .createCq q r
  | .deleteCq => .deleteCq q r
  | .createRq => .createRq q r
  | .deleteRq => .deleteRq q r
  | .configInput => .configInput q r
  | .configPort => .configPort q r

/-- The read of fetch `f` of ACTIVE queue `q` is outstanding, with in-flight entry `e` in FETCHING, whose command
reservation its reply queue holds (R128, R130). -/
def State.Fetching (s : State) (q : CqId) (f : Fetch) (e : Entry) : Prop :=
  s.fetch = some f ∧ f.queue = q ∧ s.entry f.slot = some e ∧ e.queue = q ∧ e.phase = .fetching ∧
    (s.queue q).state = .active ∧ (s.outstanding.any fun o => o.who == Requester.fetch) = true ∧
    (s.rq e.replyQueue).reserved ≠ 0

/-- The machine is calm, fetch `f` of queue `q` is outstanding, and a record `r` that returns is not held (R139). -/
def State.Takes (s : State) (q : CqId) (r : RecordBody) (f : Fetch) (e : Entry) : Prop :=
  s.Calm ∧ s.Fetching q f e ∧ (r.ordered = true → s.hasWorking q = false)

/-- The state in which the record `rec` of fetch `f` is taken: the fetch and its read have ended, the consumer has
advanced, and the entry keeps the record (R130). -/
def State.withRecord (s : State) (f : Fetch) (e : Entry) (rec : Record) : State :=
  { s with
    outstanding := s.outstanding.filter fun o => o.who != Requester.fetch
    fetch := none
    queues := s.queues.set f.queue
      { s.queue f.queue with consumer := ((s.queue f.queue).consumer + 1) % (s.queue f.queue).size }
    inflight := s.inflight.set f.slot (some { e with record := some rec }) }

/-- The command of entry `e` at slot `k`, with record `rec`, has replied (R133, R135, R149), or under QUIET and OK
has released its reservation (R138): that, and the freeing of its entry, is all that happens. -/
def State.answered (s : State) (k : SlotId) (e : Entry) (rec : Record) (status : Status) (value1 value2 : Word) :
    State :=
  let x := s.rq e.replyQueue
  let y :=
    if rec.body.quiet && status == .ok then { x with reserved := x.reserved - 1 }
    else x.submit (commandReply rec.code e.queue status rec.body.tag value1 value2)
  { s with
    inflight := s.inflight.set k none
    replyQueues := s.replyQueues.set e.replyQueue y }

/-- The entry `e` at slot `k`, with record `rec`, is in WORKING with the values its command has fixed (R133). -/
def State.atWork (s : State) (k : SlotId) (e : Entry) (rec : Record) (value1 value2 : Word) : State :=
  { s with
    inflight :=
      s.inflight.set k (some { e with record := some rec, phase := .working, value1 := value1, value2 := value2 }) }

/-- The one status R136 gives a record of command `op` from queue `q`, taken in state `s`. -/
def State.statusOf (s : State) (op : Opcode) (q : CqId) (r : RecordBody) : Status :=
  if op.adminOnly ∧ q ≠ 0 then .adminOnly
  else
    match op with
    | .nop => plainCheck r
    | .readTime => plainCheck r
    | .openStream => s.openCheck r
    | .arm => s.armCheck r
    | .stop => s.stopCheck r
    | .resume => s.resumeCheck r
    | .close => s.closeCheck r
    | .queryStream => queryCheck r
    | .grant => s.grantCheck r
    | .reclaim => s.reclaimCheck r
    | .setPacer => s.setPacerCheck r
    | .haltPacer => s.haltPacerCheck r
    | .loadPattern => s.loadCheck r
    | .createCq => s.createCqCheck r
    | .deleteCq => s.deleteCqCheck r
    | .createRq => s.createRqCheck r
    | .deleteRq => s.deleteRqCheck r
    | .configInput => configInputCheck r
    | .configPort => s.configPortCheck r

/-- Nothing is due at the present tick: no edge qualifies once every pin has been sampled, and no pacer, port or
deadline waits for its happening (R46, R53, R58, R69, R80, R81, R167). -/
def State.NothingDue (s : State) : Prop :=
  (∀ i, ((s.input i).sample s.timebase).qualifies s.timebase = false) ∧
    (∀ p, s.firingDue p = false ∧ s.drivenDue p = false) ∧
    (∀ n, s.resultDue n = false ∧ s.timeoutDue n = false) ∧
    ∀ o ∈ s.outstanding, due s.timebase o.deadline = false

/-! ## An event that reaches one stream (R53, R62) -/

/-- WAITING pacer `p` is due in a calm machine, and no stream but `i` takes its event in any role. -/
def State.FiresTo (s : State) (p : PacerId) (i : StreamId) : Prop :=
  s.Calm ∧ (s.pacer p).state = .waiting ∧ (s.timebase - (s.pacer p).target).toNat < 2 ^ 47 ∧
    ∀ j, j ≠ i → (s.stream j).subscribes (pacerCode p) = false

/-- The state with pacer `p`, that was WAITING, moved on by its firing (R53). -/
def State.firedAt (s : State) (p : PacerId) : State :=
  { s with pacers := s.pacers.set p ((s.pacer p).fired s.timebase) }

/-! ## A stream meets a fault, or its run ends (R10, R15, R17) -/

/-- Stream `i` has no STOP command waiting on it and holds its fault-notice reservation, which its reply queue counts
(R3, R147). -/
def State.CanHalt (s : State) (i : StreamId) : Prop :=
  let st := s.stream i
  st.stopCommands = [] ∧ st.faultReserved = true ∧ (s.rq st.replyQueue).reserved ≠ 0

/-- The words of the pattern ports once the park word of `st`, if it has one, is on its port (R23). -/
def State.parkedWords (s : State) (st : Stream) : Vector Half 8 :=
  match st.park with
  | some w => s.patternWord.set st.patternPort w
  | none => s.patternWord

/-- Stream `i`, its context `st` at the instant, has met fault `cause` with no STOP command waiting (R17): it is HALTED
with the cause, its scan and prefetch have stopped, its park word is driven where it ran, its FAULT notice is submitted
from its reservation, and its end-notice reservation, if held, is released. -/
def State.faulted (s : State) (i : StreamId) (st : Stream) (cause : StreamFault) : State :=
  let x := (s.rq st.replyQueue).submit (faultNotice i cause st.produced s.timebase)
  { s with
    streams := s.streams.set i
      { st with
        state := .halted
        fault := some cause
        scan := none
        prefetching := false
        pendingStop := none
        faultReserved := false
        endReserved := false }
    patternWord := if st.state = .running ∨ st.state = .stopping then s.parkedWords st else s.patternWord
    replyQueues := s.replyQueues.set st.replyQueue (if st.endReserved then { x with reserved := x.reserved - 1 } else x) }

/-- Stream `i`, its context `st` once its work is wound down, has ended its run with no STOP command waiting (R10, R15):
it is OPEN, a RING stream's DRIVEN pacer is OWNED with target 0, its park word is driven, and under REPORT its END
notice is submitted from its reservation. -/
def State.endedRun (s : State) (i : StreamId) (st : Stream) (reason : EndReason) : State :=
  { s with
    streams := s.streams.set i { st with state := .opened, pendingStop := none, endReserved := false }
    pacers :=
      if st.kind = some .ring ∧ (s.pacer st.pacer).state = .driven then
        s.pacers.set st.pacer { s.pacer st.pacer with state := .owned, target := 0 }
      else s.pacers
    patternWord := s.parkedWords st
    replyQueues :=
      if st.endReserved then
        s.replyQueues.set st.replyQueue
          ((s.rq st.replyQueue).submit (endNotice i reason st.produced s.timebase))
      else s.replyQueues }

/-- Stream context `st` as the end of its run leaves it where no STOP command waits (R10, R36), less its state: its timed
work is wound down by kind, and its current grant goes back to the head of the waiting queue with fill 0, joins the
finishing grants with an item of it still in staging, or has retired. -/
def Stream.runLeft (st : Stream) : Stream :=
  { st with
    scan := if st.kind = some .scan then none else st.scan
    fifo := if st.kind = some .play then [] else st.fifo
    prefetching := if st.kind = some .play then false else st.prefetching
    read := if st.kind = some .play then none else st.read
    current := none
    waiting :=
      match st.current with
      | some g => if g.fill = 0 then { g with firstSeq := none } :: st.waiting else st.waiting
      | none => st.waiting
    finishing :=
      match st.current with
      | some g => if g.fill ≠ 0 ∧ ∃ y ∈ st.staging, y.grant = g.number then st.finishing ++ [g] else st.finishing
      | none => st.finishing }

/-- What the end of a run of stream `i`, its context `st` at the instant, does before its END notice beside the stream
itself: a read that has been served becomes nobody's (R106), and a current grant that retires at once submits its
BUFFER notice where it holds a reservation (R10, R36, R37). -/
def State.cutShortNow (s : State) (i : StreamId) (st : Stream) : State :=
  let u := if st.kind = some .play ∧ st.read.any PlayRead.served then s.reassign (.prefetch i) .nobody else s
  match st.current with
  | some g =>
    if g.fill ≠ 0 ∧ (¬∃ y ∈ st.staging, y.grant = g.number) ∧ g.notify = true ∧ g.reserved = true then
      { u with
        replyQueues := s.replyQueues.set st.replyQueue
          ((s.rq st.replyQueue).submit (bufferNotice i g s.timebase)) }
    else u
  | none => u

/-! ## A grant retires (R35, R37 to R39) -/

/-- Grant `g` of stream `i`, whose context without it is `st`, has retired (R35): it has submitted its BUFFER notice
under NOTIFY with a reservation (R37); full, with RECYCLE, in ARMED or RUNNING it has joined the tail of the waiting
queue (R38), under NOTIFY with a fresh reservation or, that denied, one missed notice more (R39, R147); else it has
left. -/
def State.retired (s : State) (i : StreamId) (st : Stream) (g : Grant) : State :=
  let x := s.rq st.replyQueue
  let noticed := g.notify = true ∧ g.reserved = true
  let y := if noticed then x.submit (bufferNotice i g s.timebase) else x
  let missed := if noticed then 0 else g.missed
  let again := fun (w : Grant) => ({ st with waiting := st.waiting ++ [w] } : Stream)
  let w : Grant := { g with fill := 0, firstSeq := none, missed := missed }
  if g.recycle = true ∧ g.count ≤ g.fill ∧ (st.state = .armed ∨ st.state = .running) then
    if g.notify = false then { s with streams := s.streams.set i (again { g with fill := 0, firstSeq := none }) }
    else if y.occupied + y.reserved + 2 ≤ y.size - 1 then
      { s with
        streams := s.streams.set i (again { w with reserved := true })
        replyQueues := s.replyQueues.set st.replyQueue { y with reserved := y.reserved + 1 } }
    else
      { s with
        streams := s.streams.set i (again { w with reserved := false, missed := min 255 (missed + 1) })
        replyQueues := s.replyQueues.set st.replyQueue y }
  else { s with streams := s.streams.set i st, replyQueues := s.replyQueues.set st.replyQueue y }

/-! ## An item completes (R33, R40, R91 to R94) -/

/-- Stream `st` with the item of number `n` and bytes `bytes` placed in grant `g` (R33, R93, R95): it joins the tail of
staging at the grant's next position, and a grant so filled is FINISHING. -/
def Stream.placed (st : Stream) (g : Grant) (n : Half) (bytes : List Byte) : Stream :=
  let h : Grant := { g with fill := g.fill + 1, firstSeq := if g.fill = 0 then some n else g.firstSeq }
  let item : Staged :=
    { grant := g.number
      address := g.address + BitVec.ofNat 64 (g.fill * st.itemSize)
      bytes := bytes
      served := 0 }
  if h.fill < h.count then { st with staging := st.staging ++ [item], current := some h }
  else { st with staging := st.staging ++ [item], current := none, finishing := st.finishing ++ [h] }

/-- What completing an item of bytes `bytes` makes of stream `st`, with no stop pending, and the fault that it brings
(R91 to R94, R40, R88): the item is numbered and counted; with four items in staging it is lost to backlog, with no
grant left it is dropped, else it is placed in the current grant or in the promoted head of the waiting queue. `late`
says that the item is a SCAN item with a timeout mark. -/
def Stream.completed (st : Stream) (bytes : List Byte) (late : Bool) : Stream × Option StreamFault :=
  let c : Stream := { st with sequence := st.sequence + 1, produced := st.produced + 1 }
  let timeout : Option StreamFault := if st.strict && late then some .portTimeout else none
  if 4 ≤ st.staging.length then
    ({ c with backlogLosses := st.backlogLosses + 1 }, if st.strict then some .backlog else none)
  else
    match st.current, st.waiting with
    | some g, _ => (c.placed g st.sequence bytes, timeout)
    | none, g :: rest => ({ c with waiting := rest }.placed g st.sequence bytes, timeout)
    | none, [] => ({ c with dropped := st.dropped + 1 }, if st.starveHalt then some .starved else timeout)

/-- The items produced by `st` have reached its item limit (R15). -/
abbrev Stream.AtLimit (st : Stream) : Prop :=
  st.itemLimit ≠ 0 ∧ st.itemLimit.toNat ≤ st.produced.toNat

/-- The current grant of `st`, cut short with its last item still in staging, is FINISHING (R36). -/
def Stream.currentFinishes (st : Stream) : Stream :=
  match st.current with
  | some g => { st with current := none, finishing := st.finishing ++ [g] }
  | none => st

/-- What the completion of an item leaves (R92), where it made `y` of stream `i`: HALTED by its fault, or with its run
ended by the item limit, or going on. -/
def State.itemTaken (s : State) (i : StreamId) (y : Stream × Option StreamFault) : State :=
  match y.2 with
  | some cause => s.faulted i y.1 cause
  | none =>
    if y.1.AtLimit then s.endedRun i y.1.currentFinishes .limit
    else { s with streams := s.streams.set i y.1 }

end Sys2Proof.Machine
end

