-- ==== Sys2Proof/Certificates/Slice0/Obligations.lean ====
section
/-! DEFINITION. The statements of this model, for the provers. -/

open Sys2Proof Sys2Proof.Machine

/-! ## The machine as a whole -/

/-- With a row at the front of the queue, a step is `exec` of that row with the queue's rest; on an empty queue the
block idles. The idling is the model's choice (log 9). -/
def Obligations.StepTakesTheFrontRow : Prop :=
  (∀ (c : Instr) (rest : List Instr) (s : State),
    step { s with pending := c :: rest } = exec c { s with pending := rest }) ∧
    ∀ s : State, s.pending = [] → step s = .next s

/-- Every row, in every state, answers a next state, and it leaves the queue of rows to the step. That no row stops is
the model's choice (log 29). -/
def Obligations.EveryRowAnswersAndKeepsTheQueue : Prop :=
  ∀ (c : Instr) (s : State), ∃ t, exec c s = .next t ∧ t.pending = s.pending

/-- A record's 32 bytes give the record back: no bit of a record is dropped (section 11.2, R186). -/
def Obligations.RecordBytesGiveTheRecordBack : Prop :=
  ∀ rec : Record, (encodeRecord rec).length = 32 ∧ decodeRecord (encodeRecord rec) = rec

/-- A command's row is the READ_COMPLETION of its queue's command fetch with the record's 32 bytes (log 1). -/
def Obligations.CommandRowsAreReadCompletions : Prop :=
  ∀ (op : Opcode) (q : CqId) (r : RecordBody) (s : State) (f : Fetch) (o : OutstandingRead),
    s.fetch = some f → f.queue = q → o ∈ s.outstanding → o.who = .fetch → o.length = 32 → o.got = [] →
    (∀ p ∈ s.outstanding, p.tag = o.tag ∨ p.who = .fetch → p = o) →
    exec (op.row q r) s = exec (.readCompletion o.tag (encodeRecord ⟨op.code, r⟩)) s

/-- Every step keeps both reply queues sound: occupied and reserved together never exceed the size less one, and the
tail stands occupied entries after the head (section 8.1, R147). -/
def Obligations.RepliesStaySound : Prop :=
  ∀ s t : State, s.RepliesSound → step s = .next t → t.RepliesSound

/-- Every step keeps pattern memory in its canonical form. The byte layout is the model's (log 12). -/
def Obligations.PatternMemoryStaysCanonical : Prop :=
  ∀ s t : State, s.PatternSound → step s = .next t → t.PatternSound

/-- After reset the reply queues and pattern memory are sound, the device is OFF with cause OK, the timebase is 0, every
stream is CLOSED and every pacer OFF, every port is IDLE with timeout 2000 and no holder, no load, command, fetch or
status record is there, every queue is ABSENT with the values of its record, the mover has nothing sent or outstanding
and its arbiter its first values, and the window registers are 0 (R49, R68, R79, R100, R111, R121, R129, R144, R160,
R171, R180, R184). The reply queue of an ABSENT command queue, the bytes of pattern memory, the link configuration and
the pin levels are the model's (logs 31, 12, 10 and 11). -/
def Obligations.ResetIsAsTheSpecSays : Prop :=
  State.reset.RepliesSound ∧ State.reset.PatternSound ∧
    State.reset.device = .off ∧ State.reset.cause = .ok ∧ State.reset.timebase = 0 ∧
    (∀ i, State.reset.stream i = Stream.empty) ∧ (∀ p, State.reset.pacer p = Pacer.zero) ∧
    (∀ n, State.reset.port n = SamplePort.idle 2000 ∧ State.reset.holder n = none ∧ State.reset.patHolder n = none ∧
      State.reset.portWord n = 0) ∧
    (∀ i, (State.reset.input i).edges = .off ∧ (State.reset.input i).filter = 0 ∧
      (State.reset.input i).candidate = none ∧ (State.reset.input i).fresh = true) ∧
    State.reset.loads = [] ∧ (∀ a, memRead State.reset.patternMemory a = 0) ∧
    (∀ q, State.reset.queue q =
      { state := .absent
        base := 0
        size := 0
        producer := 0
        consumer := 0
        replyQueue := 0
        fault := none
        faultReserved := false
        held := none }) ∧
    (∀ k, State.reset.entry k = none) ∧ State.reset.fetch = none ∧ State.reset.lastServed = 3 ∧
    (∀ q, State.reset.rq q =
      { active := false
        base := 0
        size := 0
        head := 0
        tail := 0
        phase := true
        occupied := 0
        reserved := 0
        waiting := []
        enabled := false
        sent := false
        errorFlag := false }) ∧
    State.reset.statusWrites = [] ∧ State.reset.sending = none ∧ State.reset.outstanding = [] ∧
    State.reset.lastStream = 31 ∧ State.reset.lastReplyQueue = 1 ∧ State.reset.streamRun = 0 ∧
    State.reset.aqbase = 0 ∧ State.reset.arbase = 0 ∧ State.reset.qsize = 0 ∧ State.reset.link = LinkConfig.zero

/-- The timebase moves by one at a tick, goes to 0 at power-on reset, and no other row touches it (R46). That no
other row takes time is the model's reading (log 19). -/
def Obligations.OnlyTicksMoveTime : Prop :=
  ∀ (c : Instr) (s t : State), exec c s = .next t →
    t.timebase =
      match c with
      | .timebaseTick _ => s.timebase + 1
      | .powerOnReset _ => 0
      | _ => s.timebase

/-! ## Records taken, refused and held (chapter 7)

The row of a command stands for the completion of its queue's fetch with that record: the reading of log 1, on which
every statement about a command record rests for its premise. The fetcher's next turn, which follows the end of the
fetch (R130), is a row of its own, and so none begins within these rows: that is the model's too (log 5). -/

/-- A refused command changes nothing but this: its record has been fetched, its reply is submitted with its one
status, QUIET or not, and its entry is freed (R136, R137). -/
def Obligations.RefusedCommandsChangeNothing : Prop :=
  ∀ (op : Opcode) (q : CqId) (r : RecordBody) (s : State) (f : Fetch) (e : Entry), s.Takes q r f e →
    (s.withRecord f e ⟨op.code, r⟩).statusOf op q r ≠ .ok →
    exec (op.row q r) s =
      .next ((s.withRecord f e ⟨op.code, r⟩).answered f.slot e ⟨op.code, r⟩
        ((s.withRecord f e ⟨op.code, r⟩).statusOf op q r) 0
        (if op = .loadPattern then BitVec.ofNat 32 (loadFirst r) else 0))

/-- A fetched record with an unknown command code is refused BAD_OPCODE on any queue (R136). -/
def Obligations.UnknownCodesAreRefused : Prop :=
  ∀ (rec : Record) (q : CqId) (s : State) (f : Fetch) (e : Entry) (o : OutstandingRead), s.Takes q rec.body f e →
    opcodeOf rec.code = none → o ∈ s.outstanding → o.who = .fetch → o.length = 32 → o.got = [] →
    (∀ p ∈ s.outstanding, p.tag = o.tag ∨ p.who = .fetch → p = o) →
    exec (.readCompletion o.tag (encodeRecord rec)) s =
      .next ((s.withRecord f e rec).answered f.slot e rec .badOpcode 0 0)

/-- A record with ORDERED set, fetched while its queue has an entry in WORKING, is held: its entry passes to HELD and
its queue names it (R139). -/
def Obligations.OrderedRecordsAreHeld : Prop :=
  ∀ (op : Opcode) (q : CqId) (r : RecordBody) (s : State) (f : Fetch) (e : Entry), s.Calm → s.Fetching q f e →
    r.ordered = true → s.hasWorking q = true →
    exec (op.row q r) s =
      .next { s.withRecord f e ⟨op.code, r⟩ with
        queues := s.queues.set q
          { s.queue q with
            consumer := ((s.queue q).consumer + 1) % (s.queue q).size
            held := some f.slot }
        inflight := s.inflight.set f.slot (some { e with record := some ⟨op.code, r⟩, phase := .held }) }

/-- NOP replies the number of its queue and that queue's consumer after its own fetch, READ_TIME the two parts of the
tick; a reserved field or header flag is refused BAD_PARAM; nothing else changes (R141, R142). -/
def Obligations.NopAndReadTimeReply : Prop :=
  ∀ (s : State) (q : CqId) (r : RecordBody) (f : Fetch) (e : Entry), s.Takes q r f e →
    exec (.nop q r) s =
      .next
        (if r.flagsOk ∧ r.noFields then
          (s.withRecord f e ⟨0x01, r⟩).answered f.slot e ⟨0x01, r⟩ .ok (BitVec.ofNat 32 q.val)
            (BitVec.ofNat 32 (((s.queue q).consumer + 1) % (s.queue q).size))
        else (s.withRecord f e ⟨0x01, r⟩).answered f.slot e ⟨0x01, r⟩ .badParam 0 0) ∧
    exec (.readTime q r) s =
      .next
        (if r.flagsOk ∧ r.noFields then
          (s.withRecord f e ⟨0x02, r⟩).answered f.slot e ⟨0x02, r⟩ .ok (s.timebase.extractLsb' 0 32)
            ((s.timebase.extractLsb' 32 16).setWidth 32)
        else (s.withRecord f e ⟨0x02, r⟩).answered f.slot e ⟨0x02, r⟩ .badParam 0 0)

/-! ## Streams (chapter 1) -/

/-- An accepted OPEN stores the parameters of its kind, byte for byte as section 11.2 lays them out, makes the stream
the holder of the ports it names, puts a RING stream's pacer into OWNED, takes the fault-notice reservation and
replies OK; nothing else changes (R5, R56, R187, R188). -/
def Obligations.OpenTakesTheStream : Prop :=
  ∀ (s : State) (q : CqId) (r : RecordBody) (f : Fetch) (e : Entry), s.Takes q r f e → s.openCheck r = .ok →
    let i : StreamId := Fin.ofNat 32 r.id.toNat
    let scan := r.byte5 = 1
    let stamp := r.byte5 = 2
    let play := r.byte5 = 3
    let ring := r.byte5 = 4
    let tally := r.byte5 = 5
    let rq : RqId := Fin.ofNat 2 (r.bytes6to7.toNat % 256)
    let list := (List.range (r.byteAt 8).toNat).map fun k => r.byteAt (16 + k)
    let ports : List PortId := if scan then list.map fun b => Fin.ofNat 8 b.toNat else []
    let port : PortId := if play ∨ ring then Fin.ofNat 8 (r.byteAt 10).toNat else 0
    let pacer : PacerId := if ring then Fin.ofNat 16 (r.byteAt 11).toNat else 0
    let u := s.withRecord f e ⟨0x10, r⟩
    ∃ t kind, exec (.openStream q r) s = .next t ∧
      (scan ∧ kind = .scan ∨ stamp ∧ kind = .stamp ∨ play ∧ kind = .play ∨ ring ∧ kind = .ring ∨
        tally ∧ kind = .tally) ∧
      t.streams = s.streams.set i
        { Stream.empty with
          state := .opened
          kind := some kind
          replyQueue := rq
          scanList := ports
          timestamp := r.bytes6to7.getLsbD 10
          patternPort := port
          park := if (play ∨ ring) ∧ r.bytes6to7.getLsbD 11 = true then some (r.byteAt 13 ++ r.byteAt 12) else none
          pacer := pacer
          regionBase := if ring then (r.byteAt 17 ++ r.byteAt 16).toNat else 0
          regionLength := if ring then (r.byteAt 19 ++ r.byteAt 18).toNat else 0
          startOffset := if ring then (r.byteAt 21 ++ r.byteAt 20).toNat else 0
          advanceSource := if scan ∨ play ∨ tally then r.byteAt 9 else 0
          advanceSet := if stamp then list else []
          strict := r.bytes6to7.getLsbD 8
          starveHalt := r.bytes6to7.getLsbD 9
          tallyTarget := if tally then r.byteAt 19 ++ r.byteAt 18 ++ (r.byteAt 17 ++ r.byteAt 16) else 0
          reload := r.bytes6to7.getLsbD 12
          faultReserved := true } ∧
      (∀ n, t.holder n = if n ∈ ports then some i else s.holder n) ∧
      (∀ n, t.patHolder n = if (play ∨ ring) ∧ n = port then some i else s.patHolder n) ∧
      (∀ p, t.pacer p = if ring ∧ p = pacer then { Pacer.zero with state := .owned } else s.pacer p) ∧
      t = ({ u with
        streams := t.streams
        portHolder := t.portHolder
        patternHolder := t.patternHolder
        pacers := t.pacers
        replyQueues := s.replyQueues.set rq { s.rq rq with reserved := (s.rq rq).reserved + 1 }
        }.answered f.slot e ⟨0x10, r⟩ .ok 0 0)

/-- An accepted ARM stores its sources, modes and limit, sets every counter and the sequence to 0, takes the
end-notice reservation under REPORT, starts a PLAY prefetch, and leaves the stream in ARMED, or with IMMEDIATE in
RUNNING (a RING stream started so is the next statement's); nothing else changes (R7). -/
def Obligations.ArmSetsTheRun : Prop :=
  ∀ (s : State) (q : CqId) (r : RecordBody) (f : Fetch) (e : Entry), s.Takes q r f e → s.armCheck r = .ok →
    (r.byte5 ≠ 254 ∨ (s.stream (streamOf r)).kind ≠ some .ring) →
    let st := s.stream (streamOf r)
    let report := policyOf r.policyField = some .report
    let a : Stream := { st with
      state := .armed
      startSource := r.byte5
      stopSource := r.byte6
      stopMode := triggerModeOf r.modeField
      endPolicy := policyOf r.policyField
      itemLimit := r.wordAt 8
      produced := 0
      dropped := 0
      overruns := 0
      backlogLosses := 0
      portTimeouts := 0
      underflows := 0
      tally := 0
      sequence := 0
      endReserved := decide report
      prefetching := st.kind == some .play }
    let u := s.withRecord f e ⟨0x11, r⟩
    exec (.arm q r) s =
      .next ({ u with
        streams := s.streams.set (streamOf r)
          { a.prefetchTest with state := if r.byte5 = 254 then .running else .armed }
        replyQueues := if report then (u.reserve st.replyQueue).replyQueues else s.replyQueues
        }.answered f.slot e ⟨0x11, r⟩ .ok 0 0)

/-- A RING stream armed with IMMEDIATE stores its sources, modes and limit, outputs the entry at its start offset, takes
it as its ring position, counts 1, drives its pacer to the tick plus that entry's delay, and ARM replies OK. With item
limit 1, and no stream hearing its TERMINAL, its run ends at once: under REPORT the END notice with reason LIMIT comes
before the reply, the pacer is OWNED with target 0 and the park word is on the port (R7, R8, R15, R57, R118). -/
def Obligations.RingStartsAtItsOffset : Prop :=
  ∀ (s : State) (q : CqId) (r : RecordBody) (f : Fetch) (e : Entry), s.Takes q r f e → s.armCheck r = .ok →
    r.byte5 = 254 → (s.stream (streamOf r)).kind = some .ring →
    let st := s.stream (streamOf r)
    let k := st.regionBase + st.startOffset
    let report := policyOf r.policyField = some .report
    let x := s.rq st.replyQueue
    let y := s.pacer st.pacer
    let a : Stream := { st with
      state := .running
      startSource := r.byte5
      stopSource := r.byte6
      stopMode := triggerModeOf r.modeField
      endPolicy := policyOf r.policyField
      itemLimit := r.wordAt 8
      produced := 1
      dropped := 0
      overruns := 0
      backlogLosses := 0
      portTimeouts := 0
      underflows := 0
      tally := 0
      sequence := 0
      ringPosition := k
      endReserved := decide report
      prefetching := false }
    let u : State :=
      { s.withRecord f e ⟨0x11, r⟩ with
        streams := s.streams.set (streamOf r) a
        patternWord := s.patternWord.set st.patternPort (entryWord s.patternMemory k)
        pacers := s.pacers.set st.pacer
          { y with
            state := .driven
            target := s.timebase + BitVec.ofNat 48 ((entryDelayCode s.patternMemory k).toNat + 1) }
        replyQueues :=
          if report then s.replyQueues.set st.replyQueue { x with reserved := x.reserved + 1 } else s.replyQueues }
    (r.wordAt 8 ≠ 1 → exec (.arm q r) s = .next (u.answered f.slot e ⟨0x11, r⟩ .ok 0 0)) ∧
    (r.wordAt 8 = 1 → s.Unheard (terminalCode (streamOf r)) → st.current = none → st.pendingStop = none →
      exec (.arm q r) s = .next ((u.endedRun (streamOf r) a .limit).answered f.slot e ⟨0x11, r⟩ .ok 0 0))

/-- A STOP of an ARMED stream returns it to OPEN whatever the mode, and no word is driven and no event emitted: the end
reservation is gone; a PLAY prefetch has stopped with its FIFO empty and its current grant cut short; a stream of
another kind keeps the rest of its context, and replies its count and 0 (R11). -/
def Obligations.StopOfArmedStreamCancels : Prop :=
  ∀ (s : State) (q : CqId) (r : RecordBody) (f : Fetch) (e : Entry), s.Takes q r f e → s.stopCheck r = .ok →
    (s.stream (streamOf r)).state = .armed →
    let st := s.stream (streamOf r)
    let u := s.withRecord f e ⟨0x12, r⟩
    (st.kind = some .play →
      ∃ t, exec (.stop q r) s = .next t ∧
        (t.stream (streamOf r)).state = .opened ∧ (t.stream (streamOf r)).endReserved = false ∧
        (t.stream (streamOf r)).fifo = [] ∧ (t.stream (streamOf r)).prefetching = false ∧
        (t.stream (streamOf r)).read = none ∧ (t.stream (streamOf r)).current = none ∧
        (t.stream (streamOf r)).produced = st.produced ∧ t.entry f.slot = none ∧
        (∀ k, k ≠ f.slot → t.entry k = s.entry k) ∧ (∀ j, j ≠ streamOf r → t.stream j = s.stream j) ∧
        t = { u with
          streams := t.streams
          sending := t.sending
          outstanding := t.outstanding
          replyQueues := t.replyQueues
          inflight := t.inflight }) ∧
    (st.kind ≠ some .play → 1 < (s.rq e.replyQueue).reserved →
      exec (.stop q r) s =
        .next ({ u with
          streams := s.streams.set (streamOf r) { st with state := .opened, endReserved := false }
          replyQueues := if st.endReserved then (u.release st.replyQueue).replyQueues else s.replyQueues
          }.answered f.slot e ⟨0x12, r⟩ .ok st.produced 0))

/-- A STOP of a RUNNING stream whose condition does not hold puts the stream in STOPPING with that STOP on its pending
list. A STOP of a STOPPING stream joins the end of the list: a stronger mode (NOW over ITEM over BUFFER) governs from
then on, while an equal or weaker one leaves the governing mode. Where the condition of a mode that comes to govern does
not hold, the STOP stays in WORKING without a reply; nothing else changes (R9, R12, R13). -/
def Obligations.StopWaitsForItsCondition : Prop :=
  ∀ (s : State) (q : CqId) (r : RecordBody) (f : Fetch) (e : Entry) (m : StopMode), s.Takes q r f e →
    s.stopCheck r = .ok → stopModeOf r.byte5 = some m →
    let st := s.stream (streamOf r)
    let waits := fun (x : Stream) =>
      exec (.stop q r) s =
        .next ({ s.withRecord f e ⟨0x12, r⟩ with
          streams := s.streams.set (streamOf r) x
          }.atWork f.slot e ⟨0x12, r⟩ 0 0)
    (st.state = .running →
      let p : PendingStop := { mode := m, commands := [f.slot], event := false }
      ({ st with pendingStop := some p } : Stream).stopConditionHolds = false →
      waits { st with state := .stopping, pendingStop := some p }) ∧
    (∀ p, st.state = .stopping → st.pendingStop = some p →
      let stronger := (m = .now ∧ p.mode ≠ .now) ∨ (m = .item ∧ p.mode = .buffer)
      let p' : PendingStop := { p with mode := if stronger then m else p.mode, commands := p.commands ++ [f.slot] }
      (stronger → ({ st with pendingStop := some p' } : Stream).stopConditionHolds = false) →
      waits { st with pendingStop := some p' })

/-- A STOP NOW of a RUNNING stream ends its run at once, where no stream hears its TERMINAL: the stream is OPEN without
its pending stop and end reservation, its scan, or its FIFO and read, are gone, and its current grant is cut short,
FINISHING where it is filled in part with an item of it in staging; every other field of the stream is kept. A RING
stream's DRIVEN pacer is OWNED and its park word on the port. With no end reservation, and no current grant or one of
fill 0 without a reservation of its own, the STOP's reply is the one thing submitted: the count, and 0 or that one grant
reclaimed. In the other cases the replies, and the reservations released, are left open here; of the rest of the machine
nothing changes but the transfers let go of (R9, R10, R12, R36). -/
def Obligations.StopNowEndsTheRun : Prop :=
  ∀ (s : State) (q : CqId) (r : RecordBody) (f : Fetch) (e : Entry), s.Takes q r f e → s.stopCheck r = .ok →
    (s.stream (streamOf r)).state = .running → r.byte5 = 1 → s.Unheard (terminalCode (streamOf r)) →
    let st := s.stream (streamOf r)
    let u := s.withRecord f e ⟨0x12, r⟩
    ∃ t, exec (.stop q r) s = .next t ∧
      t.stream (streamOf r) =
        { st with
          state := .opened
          pendingStop := none
          endReserved := false
          current := none
          scan := if st.kind = some .scan then none else st.scan
          fifo := if st.kind = some .play then [] else st.fifo
          prefetching := if st.kind = some .play then false else st.prefetching
          read := if st.kind = some .play then none else st.read
          finishing :=
            match st.current with
            | some g =>
              if g.fill ≠ 0 ∧ ∃ y ∈ st.staging, y.grant = g.number then st.finishing ++ [g] else st.finishing
            | none => st.finishing } ∧
      (∀ p, t.pacer p =
        if st.kind = some .ring ∧ p = st.pacer ∧ (s.pacer p).state = .driven then
          { s.pacer p with state := .owned, target := 0 }
        else s.pacer p) ∧
      (∀ n, t.portWord n = if n = st.patternPort then st.park.getD (s.portWord n) else s.portWord n) ∧
      (∀ k, t.entry k = if k = f.slot then none else s.entry k) ∧
      (∀ j, j ≠ streamOf r → t.stream j = s.stream j) ∧
      (st.current = none → st.endReserved = false →
        t.replyQueues = (u.answered f.slot e ⟨0x12, r⟩ .ok st.produced 0).replyQueues) ∧
      (∀ g, st.current = some g → g.fill = 0 → g.reserved = false → st.endReserved = false →
        t.replyQueues = (u.answered f.slot e ⟨0x12, r⟩ .ok st.produced 1).replyQueues) ∧
      t = { u with
        streams := t.streams
        pacers := t.pacers
        patternWord := t.patternWord
        sending := t.sending
        outstanding := t.outstanding
        replyQueues := t.replyQueues
        inflight := t.inflight }

/-- An accepted RESUME takes a new fault-notice reservation and moves the stream from HALTED to OPEN without its
fault cause; it keeps everything else of the stream (R19). -/
def Obligations.ResumeReopens : Prop :=
  ∀ (s : State) (q : CqId) (r : RecordBody) (f : Fetch) (e : Entry), s.Takes q r f e → s.resumeCheck r = .ok →
    let st := s.stream (streamOf r)
    let u : State := (s.withRecord f e ⟨0x13, r⟩).reserve st.replyQueue
    exec (.resume q r) s =
      .next ({ u with
        streams := s.streams.set (streamOf r) { st with state := .opened, fault := none, faultReserved := true }
        }.answered f.slot e ⟨0x13, r⟩ .ok 0 0)

/-- A CLOSE of a stream with nothing outstanding passes through the closing steps at once: the stream is CLOSED with
every field of a CLOSED stream, its ports have no holder, a RING stream's pacer is OFF with zero fields, its park word
is on its port, and the command has ended; with no current grant and no pending stop its reply carries the count and the
grants returned, and in the other cases the replies are left open here; nothing else changes (R20, R21). That a read
detached by the end of an earlier run is not waited for is the model's reading (log 14). -/
def Obligations.CloseWithNothingOutstanding : Prop :=
  ∀ (s : State) (q : CqId) (r : RecordBody) (f : Fetch) (e : Entry), s.Takes q r f e → s.closeCheck r = .ok →
    let st := s.stream (streamOf r)
    let u := s.withRecord f e ⟨0x14, r⟩
    let x := s.rq st.replyQueue
    let n := (st.waiting.countP fun g => g.reserved) + (if st.faultReserved then 1 else 0) +
      (if st.endReserved then 1 else 0)
    st.staging = [] → s.transferOf (.closing (streamOf r)) = false →
    (∀ x, st.read = some x → x.served = false) → (∀ n ∈ st.scanList, (s.port n).phase = .idle) →
    ∃ t, exec (.close q r) s = .next t ∧
      t.stream (streamOf r) = Stream.empty ∧
      (∀ n, t.holder n =
        if n ∈ st.scanList ∧ s.holder n = some (streamOf r) then none else s.holder n) ∧
      (∀ n, t.patHolder n =
        if n = st.patternPort ∧ s.patHolder n = some (streamOf r) then none else s.patHolder n) ∧
      (∀ p, t.pacer p = if st.kind = some .ring ∧ p = st.pacer then Pacer.zero else s.pacer p) ∧
      (∀ n, t.portWord n = if n = st.patternPort then st.park.getD (s.portWord n) else s.portWord n) ∧
      (∀ k, t.entry k = if k = f.slot ∨ k ∈ st.stopCommands then none else s.entry k) ∧
      (∀ j, j ≠ streamOf r → t.stream j = s.stream j) ∧
      (st.current = none → st.pendingStop = none → n < x.reserved →
        t.replyQueues =
          ({ u with replyQueues := u.replyQueues.set st.replyQueue { x with reserved := x.reserved - n } }.answered
            f.slot e ⟨0x14, r⟩ .ok st.produced (BitVec.ofNat 32 st.waiting.length)).replyQueues) ∧
      t = { u with
        streams := t.streams
        portHolder := t.portHolder
        patternHolder := t.patternHolder
        pacers := t.pacers
        patternWord := t.patternWord
        replyQueues := t.replyQueues
        inflight := t.inflight }

/-- A CLOSE of a capture stream with an item in staging or a sample port BUSY, or of a PLAY stream whose served read is
still on its way, leaves the stream in CLOSING and the CLOSE in WORKING: its waiting grants are returned and counted,
its reservations, its pending stop and the fault cause of a HALTED stream are gone, its scan, or its FIFO and read, are
gone, its park word is driven, and its staging and current grant stay; with a pending stop its replies are left open
here; nothing else changes (R20, R106, R191). -/
def Obligations.CloseWaitsForItsWork : Prop :=
  ∀ (s : State) (q : CqId) (r : RecordBody) (f : Fetch) (e : Entry), s.Takes q r f e → s.closeCheck r = .ok →
    let st := s.stream (streamOf r)
    let u := s.withRecord f e ⟨0x14, r⟩
    let x := s.rq st.replyQueue
    let n := (st.waiting.countP fun g => g.reserved) + (if st.faultReserved then 1 else 0) +
      (if st.endReserved then 1 else 0)
    let left : Stream :=
      { st with
        state := .closing
        pendingStop := none
        fault := none
        faultReserved := false
        endReserved := false
        waiting := []
        closing := some { slot := f.slot, reclaimed := st.waiting.length } }
    f.slot ∉ st.stopCommands →
    ((st.kind = some .scan ∨ st.kind = some .stamp) ∧
        (st.staging ≠ [] ∨ ∃ n ∈ st.scanList, (s.port n).phase ≠ .idle)) ∨
      (st.kind = some .play ∧ (∃ y, st.read = some y ∧ y.served = true) ∧
        s.transferOf (.prefetch (streamOf r)) = true) →
    ∃ t, exec (.close q r) s = .next t ∧
      t.stream (streamOf r) =
        (if st.kind = some .scan then { left with scan := none }
        else if st.kind = some .play then { left with fifo := [], prefetching := false, read := none }
        else left) ∧
      t.entry f.slot = some { e with record := some ⟨0x14, r⟩, phase := .working, value1 := 0, value2 := 0 } ∧
      (∀ k, k ≠ f.slot → t.entry k = if k ∈ st.stopCommands then none else s.entry k) ∧
      (∀ n, t.portWord n = if n = st.patternPort then st.park.getD (s.portWord n) else s.portWord n) ∧
      (∀ j, j ≠ streamOf r → t.stream j = s.stream j) ∧
      (st.kind ≠ some .play → t.sending = s.sending ∧ t.outstanding = u.outstanding) ∧
      (st.pendingStop = none →
        t.replyQueues = s.replyQueues.set st.replyQueue { x with reserved := x.reserved - n }) ∧
      t = { u with
        streams := t.streams
        patternWord := t.patternWord
        sending := t.sending
        outstanding := t.outstanding
        replyQueues := t.replyQueues
        inflight := t.inflight }

/-- QUERY_STREAM at a multiple of 4 hands the 64-byte record of the snapshot to the status-record writer, every field of
the stream at its bytes, and waits in WORKING with the two values of its reply; the stream is not touched (R22,
R191). -/
def Obligations.QuerySnapshotsTheStream : Prop :=
  ∀ (s : State) (q : CqId) (r : RecordBody) (f : Fetch) (e : Entry), s.Takes q r f e → queryCheck r = .ok →
    let st := s.stream (streamOf r)
    let bit := fun (b : Bool) (n : Nat) => if b then n else 0
    ∃ b : List Byte, b.length = 64 ∧
      (let field := fun (first n : Nat) => (b.drop first).take n
      let number := fun (first n v : Nat) => field first n = leBytes n v
      field 0 4 = [BitVec.ofNat 8 (streamOf r).val, st.state.code, kindCode st.kind, BitVec.ofNat 8 st.replyQueue.val] ∧
        field 4 2 = [st.startSource, st.stopSource] ∧
        number 6 1
          (((st.stopMode.map StopMode.code).getD 0).toNat + 16 * ((st.endPolicy.map EndPolicy.code).getD 0).toNat) ∧
        number 7 1 (bit st.strict 1 + bit st.starveHalt 2 + bit st.scan.isSome 4 + bit st.current.isSome 8 +
          bit st.park.isSome 16) ∧
        number 8 4 st.itemLimit.toNat ∧ number 12 4 st.produced.toNat ∧ number 16 4 st.dropped.toNat ∧
        number 20 4 st.overruns.toNat ∧ number 24 4 st.backlogLosses.toNat ∧ number 28 4 st.portTimeouts.toNat ∧
        number 32 4 st.underflows.toNat ∧ number 36 4 st.tally.toNat ∧ number 40 2 st.sequence.toNat ∧
        field 42 1 = [(st.fault.map StreamFault.code).getD 0] ∧
        number 43 1 ((st.pendingStop.map fun p => p.mode.code.toNat + bit p.event 128).getD 0) ∧
        number 44 1 st.stopCommands.length ∧
        number 45 1 (st.waiting.length + st.finishing.length + bit st.current.isSome 1) ∧
        number 46 1 st.staging.length ∧ number 47 1 st.fifo.length ∧
        number 48 2 ((st.current.map fun g => g.tag.toNat).getD 0) ∧ number 50 2 ((st.current.map Grant.fill).getD 0) ∧
        number 52 2 st.ringPosition ∧ field 54 2 = [0, 0] ∧ number 56 8 s.timebase.toNat) ∧
      exec (.queryStream q r) s =
        .next ({ s.withRecord f e ⟨0x15, r⟩ with
          statusWrites := s.statusWrites ++
            [({ slot := f.slot, address := r.addrAt 8, bytes := b, served := 0 } : StatusWrite)]
          }.atWork f.slot e ⟨0x15, r⟩ (st.state.code.setWidth 32) (s.timebase.setWidth 32))

/-! ## Grants (chapter 2) -/

/-- An accepted GRANT puts a WAITING grant with fill 0 at the tail of the list, with a notice reservation under
NOTIFY, and an active PLAY prefetch that waits for it goes on with it at once. It replies one grant held more than
before, and the number WAITING (R26, R28, R29). The count after the promotion is the model's reading (log 13). -/
def Obligations.GrantJoinsTheTail : Prop :=
  ∀ (s : State) (q : CqId) (r : RecordBody) (f : Fetch) (e : Entry), s.Takes q r f e → s.grantCheck r = .ok →
    let st := s.stream (streamOf r)
    let notify := r.byte5.getLsbD 0
    let g : Grant :=
      { number := st.freeGrantNumber
        address := r.addrAt 8
        count := (r.halfAt 16).toNat
        tag := r.bytes6to7
        notify := notify
        recycle := r.byte5.getLsbD 1
        reserved := notify
        fill := 0
        firstSeq := none
        missed := 0 }
    let x := ({ st with waiting := st.waiting ++ [g] } : Stream).prefetchTest
    let u := s.withRecord f e ⟨0x18, r⟩
    exec (.grant q r) s =
      .next ({ u with
        streams := s.streams.set (streamOf r) x
        replyQueues := if notify then (u.reserve st.replyQueue).replyQueues else s.replyQueues
        }.answered f.slot e ⟨0x18, r⟩ .ok (BitVec.ofNat 32 (st.grantsHeld + 1)) (BitVec.ofNat 32 x.waiting.length))

/-- An accepted RECLAIM removes every WAITING grant, releases the reservation of each that holds one, and replies the
number removed and the number still held; current and finishing grants stay (R30). -/
def Obligations.ReclaimReturnsWaitingGrants : Prop :=
  ∀ (s : State) (q : CqId) (r : RecordBody) (f : Fetch) (e : Entry), s.Takes q r f e → s.reclaimCheck r = .ok →
    let st := s.stream (streamOf r)
    let n := st.waiting.countP fun g => g.reserved
    let x := s.rq st.replyQueue
    n < x.reserved →
    exec (.reclaim q r) s =
      .next ({ s.withRecord f e ⟨0x19, r⟩ with
        streams := s.streams.set (streamOf r) { st with waiting := [] }
        replyQueues := s.replyQueues.set st.replyQueue { x with reserved := x.reserved - n }
        }.answered f.slot e ⟨0x19, r⟩ .ok (BitVec.ofNat 32 st.waiting.length)
          (BitVec.ofNat 32 (st.grantsHeld - st.waiting.length)))

/-! ## Pacers (chapter 3) -/

/-- SET_PACER: BAD_ID, BAD_PARAM and PACER_BUSY in this order; else the pacer is in WAITING with the new target,
period and count and late count 0, and the reply carries the target and the late count before (R50, R51). -/
def Obligations.SetPacerPrograms : Prop :=
  ∀ (s : State) (q : CqId) (r : RecordBody) (f : Fetch) (e : Entry), s.Takes q r f e →
    let u := s.withRecord f e ⟨0x20, r⟩
    let p : PacerId := Fin.ofNat 16 r.id.toNat
    let rel := r.byte5.getLsbD 0
    let x : Pacer :=
      { state := .waiting
        target := if rel then s.timebase + BitVec.ofNat 48 (r.addrAt 8).toNat else BitVec.ofNat 48 (r.addrAt 8).toNat
        period := r.wordAt 16
        remaining := r.wordAt 20
        late := 0 }
    exec (.setPacer q r) s =
      .next
        (if 16 ≤ r.id.toNat then u.answered f.slot e ⟨0x20, r⟩ .badId 0 0
        else if r.flagsOk = false ∨ r.setPacerReserved = false ∨ r.wordAt 16 = 0 ∨
            (rel = true ∧ 2 ^ 47 ≤ (r.addrAt 8).toNat) ∨ (rel = false ∧ 2 ^ 48 ≤ (r.addrAt 8).toNat) then
          u.answered f.slot e ⟨0x20, r⟩ .badParam 0 0
        else if (s.pacer p).state = .owned ∨ (s.pacer p).state = .driven then
          u.answered f.slot e ⟨0x20, r⟩ .pacerBusy 0 0
        else
          { u with pacers := s.pacers.set p x }.answered f.slot e ⟨0x20, r⟩ .ok (x.target.setWidth 32)
            (s.pacer p).late)

/-- HALT_PACER: BAD_ID, BAD_PARAM and PACER_BUSY in this order; else the pacer is OFF with its other fields as they
stand, and the reply carries its state before and its late count (R52). -/
def Obligations.HaltPacerHalts : Prop :=
  ∀ (s : State) (q : CqId) (r : RecordBody) (f : Fetch) (e : Entry), s.Takes q r f e →
    let u := s.withRecord f e ⟨0x21, r⟩
    let p : PacerId := Fin.ofNat 16 r.id.toNat
    exec (.haltPacer q r) s =
      .next
        (if 16 ≤ r.id.toNat then u.answered f.slot e ⟨0x21, r⟩ .badId 0 0
        else if r.flagsOk = false ∨ r.onlyId = false then u.answered f.slot e ⟨0x21, r⟩ .badParam 0 0
        else
          match (s.pacer p).state with
          | .owned => u.answered f.slot e ⟨0x21, r⟩ .pacerBusy 0 0
          | .driven => u.answered f.slot e ⟨0x21, r⟩ .pacerBusy 0 0
          | .waiting =>
            { u with pacers := s.pacers.set p { s.pacer p with state := .off } }.answered f.slot e ⟨0x21, r⟩ .ok 1
              (s.pacer p).late
          | .off => u.answered f.slot e ⟨0x21, r⟩ .ok 0 (s.pacer p).late)

/-! ## Pattern memory, inputs, sample ports (chapters 4 to 6) -/

/-- An accepted LOAD_PATTERN puts its region on the load-region list, with its first read still to be served, and
waits in WORKING; nothing else changes (R113). -/
def Obligations.LoadPatternBegins : Prop :=
  ∀ (s : State) (q : CqId) (r : RecordBody) (f : Fetch) (e : Entry), s.Takes q r f e → s.loadCheck r = .ok →
    exec (.loadPattern q r) s =
      .next ({ s.withRecord f e ⟨0x28, r⟩ with
        loads := s.loads ++
          [({ slot := f.slot
              address := r.addrAt 8
              first := (r.halfAt 16).toNat
              count := (r.halfAt 18).toNat
              written := 0
              served := false } : Load)]
        }.atWork f.slot e ⟨0x28, r⟩ 0 0)

/-- CONFIG_INPUT: ADMIN_ONLY, BAD_ID and BAD_PARAM in this order; else the input takes the new edge selection and
filter, loses its candidate, and takes its pin's level at this tick as the qualified level, with no event; the reply
carries the configuration before and the qualified level after (R71). Where this tick's sample has been taken, the level
is the one it showed: the other than the qualified one where a candidate stands, and else the qualified one, as after an
edge that has qualified (R72). That the pin stands in State, and is sampled here once in a tick, is the model's
(log 11). -/
def Obligations.ConfigInputRestartsQualification : Prop :=
  ∀ (s : State) (q : CqId) (r : RecordBody) (f : Fetch) (e : Entry), s.Takes q r f e →
    let u := s.withRecord f e ⟨0x38, r⟩
    let i : InputId := Fin.ofNat 4 r.id.toNat
    let x := s.input i
    let level := if x.sampled then (if x.candidate.isSome then !x.qualified else x.qualified) else x.pin
    exec (.configInput q r) s =
      .next
        (if q ≠ 0 then u.answered f.slot e ⟨0x38, r⟩ .adminOnly 0 0
        else if 4 ≤ r.id.toNat then u.answered f.slot e ⟨0x38, r⟩ .badId 0 0
        else if r.flagsOk = false ∨ r.zeroBytes 8 24 = false ∨ 255 < r.bytes6to7.toNat then
          u.answered f.slot e ⟨0x38, r⟩ .badParam 0 0
        else
          match edgesOf r.byte5 with
          | none => u.answered f.slot e ⟨0x38, r⟩ .badParam 0 0
          | some edges =>
            { u with
              inputs := s.inputs.set i
                { x with
                  edges := edges
                  filter := BitVec.ofNat 8 r.bytes6to7.toNat
                  qualified := level
                  candidate := none
                  sampled := true }
              }.answered f.slot e ⟨0x38, r⟩ .ok (BitVec.ofNat 32 (x.edges.code.toNat + 256 * x.filter.toNat))
                (if level then 1 else 0))

/-- CONFIG_PORT: ADMIN_ONLY, BAD_ID, BAD_PARAM and IN_USE in this order; else the port takes the new timeout, and the
reply carries the one before (R84). -/
def Obligations.ConfigPortSetsTheTimeout : Prop :=
  ∀ (s : State) (q : CqId) (r : RecordBody) (f : Fetch) (e : Entry), s.Takes q r f e →
    let u := s.withRecord f e ⟨0x39, r⟩
    let n : PortId := Fin.ofNat 8 r.id.toNat
    exec (.configPort q r) s =
      .next
        (if q ≠ 0 then u.answered f.slot e ⟨0x39, r⟩ .adminOnly 0 0
        else if 8 ≤ r.id.toNat then u.answered f.slot e ⟨0x39, r⟩ .badId 0 0
        else if r.flagsOk = false ∨ r.configPortReserved = false ∨ r.wordAt 8 = 0 ∨ 65535 < (r.wordAt 8).toNat then
          u.answered f.slot e ⟨0x39, r⟩ .badParam 0 0
        else if s.holder n ≠ none then u.answered f.slot e ⟨0x39, r⟩ .inUse 0 0
        else
          { u with ports := s.ports.set n { s.port n with timeout := BitVec.ofNat 16 (r.wordAt 8).toNat } }.answered
            f.slot e ⟨0x39, r⟩ .ok (BitVec.ofNat 32 (s.port n).timeout.toNat) 0)

/-! ## Queues (chapters 7 and 8) -/

/-- An accepted CREATE_CQ makes its queue ACTIVE with its base, size and reply queue, producer and consumer 0, and
its queue-fault reservation on RQ0, and replies its id and size; nothing else changes (R123). -/
def Obligations.CreateCqCreates : Prop :=
  ∀ (s : State) (r : RecordBody) (f : Fetch) (e : Entry), s.Takes 0 r f e → s.createCqCheck r = .ok →
    let u : State := (s.withRecord f e ⟨0x30, r⟩).reserve 0
    let k : CqId := Fin.ofNat 4 r.id.toNat
    exec (.createCq 0 r) s =
      .next ({ u with
        queues := u.queues.set k
          { state := .active
            base := r.addrAt 8
            size := r.bytes6to7.toNat
            producer := 0
            consumer := 0
            replyQueue := Fin.ofNat 2 r.byte5.toNat
            fault := none
            faultReserved := true
            held := none }
        }.answered f.slot e ⟨0x30, r⟩ .ok (BitVec.ofNat 32 r.id.toNat) (BitVec.ofNat 32 r.bytes6to7.toNat))

/-- An accepted DELETE_CQ of a queue without a held record: its queue-fault reservation is released; with no outstanding
work the queue is ABSENT and the reply carries the records abandoned; with some it is DELETING, and the command waits in
WORKING with its two values (R124). That the count of records abandoned does not go below 0, and the reply queue field
of an ABSENT queue, are the model's (logs 33 and 31). -/
def Obligations.DeleteCqRemoves : Prop :=
  ∀ (s : State) (r : RecordBody) (f : Fetch) (e : Entry), s.Takes 0 r f e → s.deleteCqCheck r = .ok →
    1 < (s.rq 0).reserved →
    let u := s.withRecord f e ⟨0x31, r⟩
    let k : CqId := Fin.ofNat 4 r.id.toNat
    let x := s.queue k
    let rqs := if x.faultReserved then (u.release 0).replyQueues else s.replyQueues
    let abandoned := (x.producer + x.size - x.consumer) % x.size - s.countPhase k .fetching
    exec (.deleteCq 0 r) s =
      .next
        (if s.countPhase k .working + s.countPhase k .fetching = 0 then
          { u with queues := u.queues.set k CommandQueue.absent, replyQueues := rqs }.answered f.slot e ⟨0x31, r⟩ .ok
            (BitVec.ofNat 32 abandoned) 0
        else
          { u with
            queues := u.queues.set k { x with state := .deleting, fault := none, faultReserved := false }
            replyQueues := rqs
            }.atWork f.slot e ⟨0x31, r⟩ (BitVec.ofNat 32 abandoned)
              (BitVec.ofNat 32 (s.countPhase k .working + s.countPhase k .fetching)))

/-- An accepted CREATE_RQ makes RQ1 ACTIVE, empty, with phase 1 and state ARMED; an accepted DELETE_RQ makes it ABSENT
and replies the occupied count it held; both keep the enable and the error flag (R145, R146). That DELETE_RQ leaves the
interrupt state ARMED is the model's (log 35). -/
def Obligations.ReplyQueueOneComesAndGoes : Prop :=
  ∀ (s : State) (r : RecordBody) (f : Fetch) (e : Entry), s.Takes 0 r f e → e.replyQueue = 0 →
    (s.createRqCheck r = .ok →
      exec (.createRq 0 r) s =
        .next ({ s.withRecord f e ⟨0x32, r⟩ with
          replyQueues := s.replyQueues.set 1
            { active := true
              base := r.addrAt 8
              size := r.bytes6to7.toNat
              head := 0
              tail := 0
              phase := true
              occupied := 0
              reserved := 0
              waiting := []
              enabled := (s.rq 1).enabled
              sent := false
              errorFlag := (s.rq 1).errorFlag }
          }.answered f.slot e ⟨0x32, r⟩ .ok 1 (BitVec.ofNat 32 r.bytes6to7.toNat))) ∧
    ((s.withRecord f e ⟨0x33, r⟩).deleteRqCheck r = .ok →
      exec (.deleteRq 0 r) s =
        .next ({ s.withRecord f e ⟨0x33, r⟩ with
          replyQueues := s.replyQueues.set 1
            { active := false
              base := 0
              size := 0
              head := 0
              tail := 0
              phase := true
              occupied := 0
              reserved := 0
              waiting := []
              enabled := (s.rq 1).enabled
              sent := false
              errorFlag := (s.rq 1).errorFlag }
          }.answered f.slot e ⟨0x33, r⟩ .ok 1 (BitVec.ofNat 32 (s.rq 1).occupied)))

/-! ## The device (chapter 10) and the registers -/

/-- ENABLE written 1 in OFF checks the admin configuration: good, it moves the device to READY with cause OK, CQ0
ACTIVE and empty, and RQ0 ACTIVE and empty but for CQ0's queue-fault reservation; else it sets cause CONFIG. In every
other state it changes nothing (R173 to R175). -/
def Obligations.EnableChecksTheConfiguration : Prop :=
  ∀ s : State,
    let cq := (s.qsize.extractLsb' 0 4).toNat
    let rq := (s.qsize.extractLsb' 8 4).toNat
    exec .enable s =
      .next
        (if s.device ≠ .off then s
        else if s.aqbase.toNat % 64 = 0 ∧ s.arbase.toNat % 64 = 0 ∧ 4 ≤ cq ∧ cq ≤ 12 ∧ 4 ≤ rq ∧ rq ≤ 12 ∧
            s.qsize &&& 0xFFFFF0F0 = 0 ∧ s.aqbase.toNat + 2 ^ cq * 32 ≤ 2 ^ 64 ∧
            s.arbase.toNat + 2 ^ rq * 16 ≤ 2 ^ 64 then
          { s with
            device := .ready
            cause := .ok
            queues := s.queues.set 0
              { state := .active
                base := s.aqbase
                size := 2 ^ cq
                producer := 0
                consumer := 0
                replyQueue := 0
                fault := none
                faultReserved := true
                held := none }
            replyQueues := s.replyQueues.set 0
              { active := true
                base := s.arbase
                size := 2 ^ rq
                head := 0
                tail := 0
                phase := true
                occupied := 0
                reserved := 1
                waiting := []
                enabled := (s.rq 0).enabled
                sent := false
                errorFlag := (s.rq 0).errorFlag } }
        else { s with cause := .config })

/-- QUIESCE in READY removes all work at once: every stream CLOSED, every pacer OFF, every port IDLE with its timeout,
no load, no command, held or not, CQ1 to CQ3 and RQ1 ABSENT, every waiting request withdrawn, and the arbiter at its
first values; a park word is on its port; nothing else changes (R24, R122, R159, R170, R176). With nothing at the mover
the device is OFF with CQ0 and RQ0 ABSENT; else it is QUIESCING, CQ0 and RQ0 kept, until QUIESCE_END (R177). In every
other state QUIESCE changes nothing (R175). CQ0 is never DELETING: DELETE_CQ refuses it (R124). The reply queue field of
a queue made ABSENT, and the mark of an abandoned transfer on the one being sent, are the model's (logs 31 and 30). -/
def Obligations.QuiesceDropsTheWork : Prop :=
  (∀ s : State, s.device ≠ .ready → exec .quiesce s = .next s) ∧
  (∀ s : State, s.device = .ready →
    ∃ t, exec .quiesce s = .next t ∧
      (∀ i, t.stream i = Stream.empty) ∧ (∀ p, t.pacer p = Pacer.zero) ∧
      (∀ n, t.port n = SamplePort.idle (s.port n).timeout ∧ t.holder n = none ∧ t.patHolder n = none) ∧
      (∀ n, (∀ i, (s.stream i).patternPort = n → (s.stream i).park = none) → t.portWord n = s.portWord n) ∧
      (∀ i w, (s.stream i).park = some w →
        (∀ j, j ≠ i → (s.stream j).patternPort = (s.stream i).patternPort → (s.stream j).park = none) →
        t.portWord (s.stream i).patternPort = w) ∧
      (∀ k, t.entry k = none) ∧ (∀ q, q ≠ 0 → t.queue q = CommandQueue.absent) ∧
      t.rq 1 = ReplyQueue.absent (s.rq 1).enabled (s.rq 1).errorFlag ∧
      t.outstanding.length = s.outstanding.length ∧
      t = { s with
        emitted := []
        streams := t.streams
        pacers := t.pacers
        ports := t.ports
        portHolder := t.portHolder
        patternHolder := t.patternHolder
        patternWord := t.patternWord
        loads := []
        inflight := t.inflight
        queues := t.queues
        fetch := none
        lastServed := 3
        replyQueues := t.replyQueues
        statusWrites := []
        sending := s.sending.map fun x => { x with who := x.who.abandoned }
        outstanding := s.outstanding.map fun o => { o with who := .nobody }
        lastStream := 31
        lastReplyQueue := 1
        streamRun := 0
        device := t.device } ∧
      (s.sending = none ∧ s.outstanding = [] →
        t.device = .off ∧ t.queue 0 = CommandQueue.absent ∧
          t.rq 0 = ReplyQueue.absent (s.rq 0).enabled (s.rq 0).errorFlag) ∧
      (s.sending ≠ none ∨ s.outstanding ≠ [] →
        t.device = .quiescing ∧
          ((s.queue 0).state ≠ .deleting → t.queue 0 = { s.queue 0 with faultReserved := false, held := none }) ∧
          t.rq 0 = { s.rq 0 with reserved := 0, waiting := [] })) ∧
    ∀ s : State, s.device = .quiescing → s.drained = true →
      exec .quiesceEnd s =
        .next { s with
          device := .off
          queues := s.queues.set 0 CommandQueue.absent
          replyQueues := s.replyQueues.set 0 (ReplyQueue.absent (s.rq 0).enabled (s.rq 0).errorFlag) }

/-- FUNCTION_RESET puts every block at its reset values but the timebase, pattern memory and link configuration,
whatever the write holds in ENABLE; POWER_ON_RESET puts every block there and takes the link configuration that comes
with it (R180, R181). What both leave is not the controller's: the pins (log 11), the link's being up (log 10), the free
order of deliveries (log 7), the read tags (log 21) and the queue of rows. -/
def Obligations.ResetsClearTheBlock : Prop :=
  ∀ s : State,
    (∀ b : Bool, ∃ t, exec (.functionReset b) s = .next t ∧
      (∀ i, t.input i = Input.atReset (s.input i).pin) ∧
      t = { State.reset with
        inputs := t.inputs
        timebase := s.timebase
        patternMemory := s.patternMemory
        link := s.link
        linkUp := s.linkUp
        order := s.order
        nextTag := s.nextTag
        pending := s.pending }) ∧
    ∀ link : LinkConfig, ∃ t, exec (.powerOnReset link) s = .next t ∧
      (∀ i, t.input i = Input.atReset (s.input i).pin) ∧
      t = { State.reset with
        inputs := t.inputs
        link := link
        linkUp := s.linkUp
        order := s.order
        nextTag := s.nextTag
        pending := s.pending }

/-- A producer write of v: ignored unless the device is READY and the queue ACTIVE; below the size, v becomes the
producer; else the queue enters FAULTED with BAD_INDEX and posts its QUEUE notice on RQ0 from its reservation (R126,
R131, R192). That no fetch turn begins within the row is the model's, whose turns are rows of their own (log 5). -/
def Obligations.ProducerWriteMovesOrFaults : Prop :=
  ∀ (s : State) (q : CqId) (v : Word),
    let x := s.queue q
    (s.device ≠ .ready ∨ x.state ≠ .active → exec (.producerWrite q v) s = .next s) ∧
    (s.device = .ready → x.state = .active → v.toNat < x.size →
      exec (.producerWrite q v) s = .next { s with queues := s.queues.set q { x with producer := v.toNat } }) ∧
    (s.device = .ready → x.state = .active → x.size ≤ v.toNat → x.faultReserved = true → (s.rq 0).reserved ≠ 0 →
      exec (.producerWrite q v) s =
        .next { s with
          queues := s.queues.set q { x with state := .faulted, fault := some .badIndex, faultReserved := false }
          replyQueues := s.replyQueues.set 0 ((s.rq 0).submit (queueNotice q .badIndex x.consumer)) })

/-- A consumer write of v while the device is READY and the queue ACTIVE: with an advance of at most occupied it
frees the entries, and in SENT re-arms, asking for a message again where entries stay occupied with the enable set;
else, v of size or more included, it sets the error flag alone. Any other is ignored (R152, R154, R192). That no fetch
turn begins within the row is the model's, whose turns are rows of their own (log 5). -/
def Obligations.ConsumerWriteFreesEntries : Prop :=
  ∀ (s : State) (q : RqId) (v : Word),
    let x := s.rq q
    let advance := (v.toNat + x.size - x.head) % x.size
    let y : ReplyQueue := { x with head := v.toNat, occupied := x.occupied - advance }
    exec (.consumerWrite q v) s =
      .next
        (if s.device = .ready ∧ x.active = true then
          { s with
            replyQueues := s.replyQueues.set q
              (if v.toNat < x.size ∧ advance ≤ x.occupied then
                (if x.sent = true then
                  (if 0 < y.occupied ∧ x.enabled = true then
                    { y with waiting := x.waiting ++ [.message], sent := true }
                  else { y with sent := false })
                else y)
              else { x with errorFlag := true }) }
        else s)

/-- The error flag of a reply queue is set by an invalid consumer write, one with an advance above occupied or of size
or more, and cleared by a write of 1 to its place in RQINT, while a write of 0 keeps it; it has no effect on the queue:
a reply is submitted, and a valid consumer write taken, as without it, and both keep it (R153). An RQINT write stores
the enable in every device state, and asks for a message where the enable goes from clear to set while the device is
READY and the queue ACTIVE with entries occupied (R154, R185). -/
def Obligations.InterruptRegisterWrites : Prop :=
  ∀ (s : State) (q : RqId) (on : Bool) (v : Word),
    let x := s.rq q
    let advance := (v.toNat + x.size - x.head) % x.size
    let asks := on = true ∧ x.enabled = false ∧ s.device = .ready ∧ x.active = true ∧ 0 < x.occupied
    let after := fun (flag : Bool) =>
      if asks then
        ({ x with enabled := on, errorFlag := flag, waiting := x.waiting ++ [.message], sent := true } : ReplyQueue)
      else { x with enabled := on, errorFlag := flag }
    exec (.interruptEnable q on) s =
      .next { s with replyQueues := s.replyQueues.set q (after x.errorFlag) } ∧
    exec (.errorFlagClear q on) s = .next { s with replyQueues := s.replyQueues.set q (after false) } ∧
    (s.device = .ready → x.active = true → (x.occupied < advance ∨ x.size ≤ v.toNat) →
      exec (.consumerWrite q v) s =
        .next { s with replyQueues := s.replyQueues.set q { x with errorFlag := true } }) ∧
    (s.device = .ready → x.active = true → v.toNat < x.size → advance ≤ x.occupied →
      ∃ t, exec (.consumerWrite q v) s = .next t ∧ (t.rq q).head = v.toNat ∧
        (t.rq q).occupied = x.occupied - advance ∧ (t.rq q).errorFlag = x.errorFlag) ∧
    ∀ (flag : Bool) (record : Bool → List Byte),
      ({ x with errorFlag := flag } : ReplyQueue).submit record = { x.submit record with errorFlag := flag }

/-- A 32-bit write of AQBASE, ARBASE or QSIZE is stored while the device is OFF, where the register then reads as
written and every other as before, and ignored in every other state. Of the other registers, CQPROD0 to 3 are producer
writes and RQCONS0 and 1 consumer writes of the whole value; RQINT0 and 1 clear the error flag with bit 1 set, and set
the enable from bit 0; DEVCTL resets the function with bit 1 set, and else enables or quiesces by bit 0. A write of
another size, at an offset that holds no register, or of IDENT or DEVSTAT, is ignored. A 64-bit write at a multiple of
8 is its two halves, the lower first, and any other access is ignored or reads 0. A read gives what the register holds.
A change of the link is the link's own state alone (R166, R175, R182 to R185, R192). That reads are no rows, and that
the halves of a 64-bit write are rows of their own, is the model's (logs 18 and 23). -/
def Obligations.RegisterWritesAndLinkChanges : Prop :=
  ∀ (s : State) (offset : BitVec 12) (v : Word),
    (offset ∈ ([0x10, 0x14, 0x18, 0x1C, 0x20] : List (BitVec 12)) →
      (s.device = .off → ∃ t, exec (.registerWrite offset .word v) s = .next t ∧ t.readWindow offset = v ∧
        (∀ o, o ≠ offset → t.readWindow o = s.readWindow o) ∧
        t = { s with aqbase := t.aqbase, arbase := t.arbase, qsize := t.qsize }) ∧
      (s.device ≠ .off → exec (.registerWrite offset .word v) s = .next s)) ∧
    (offset ∉ ([0x04, 0x10, 0x14, 0x18, 0x1C, 0x20, 0x40, 0x44, 0x48, 0x4C, 0x50, 0x54, 0x58, 0x5C] :
        List (BitVec 12)) →
      exec (.registerWrite offset .word v) s = .next s) ∧
    exec (.registerWrite offset .other v) s = .next s ∧
    (∃ t, exec (.registerWrite offset .word v) s = .next t) ∧
    (exec (.registerWrite 0x04 .word v) s =
      if v.getLsbD 1 = true then exec (.functionReset (v.getLsbD 0)) s
      else if v.getLsbD 0 = true then exec .enable s
      else exec .quiesce s) ∧
    (∀ q : CqId, exec (.registerWrite (0x40 + 4 * BitVec.ofNat 12 q.val) .word v) s = exec (.producerWrite q v) s) ∧
    (∀ q : RqId,
      exec (.registerWrite (0x50 + 4 * BitVec.ofNat 12 q.val) .word v) s = exec (.consumerWrite q v) s ∧
      exec (.registerWrite (0x58 + 4 * BitVec.ofNat 12 q.val) .word v) s =
        if v.getLsbD 1 = true then exec (.errorFlagClear q (v.getLsbD 0)) s
        else exec (.interruptEnable q (v.getLsbD 0)) s) ∧
    (∀ wide : BitVec 64, offset.toNat % 8 = 0 →
      writeAccess offset 8 wide =
        [.registerWrite offset .word (wide.extractLsb' 0 32),
          .registerWrite (offset + 4) .word (wide.extractLsb' 32 32)] ∧
        s.readAccess offset 8 = s.readWindow (offset + 4) ++ s.readWindow offset) ∧
    (∀ (bytes : Nat) (wide : BitVec 64), bytes ≠ 4 → ¬(bytes = 8 ∧ offset.toNat % 8 = 0) →
      s.readAccess offset bytes = 0 ∧
        ∀ c ∈ writeAccess offset bytes wide, ∀ u : State, exec c u = .next u) ∧
    s.readAccess offset 4 = (s.readWindow offset).setWidth 64 ∧
    (s.readWindow 0x00 = 0x00032460 ∧ s.readWindow 0x04 = (if s.device = .ready then 1 else 0) ∧
      s.readWindow 0x08 =
        (match s.device with
          | .off => 0
          | .ready => 1
          | .quiescing => 2
          | .fatal => 3) +
        (match s.cause with
          | .ok => 0
          | .config => 0x100
          | .replyWrite => 0x200) ∧
      s.readWindow 0x14 ++ s.readWindow 0x10 = s.aqbase ∧ s.readWindow 0x1C ++ s.readWindow 0x18 = s.arbase ∧
      s.readWindow 0x20 = s.qsize ∧
      (∀ q : CqId, s.readWindow (0x40 + 4 * BitVec.ofNat 12 q.val) = BitVec.ofNat 32 (s.queue q).producer) ∧
      (∀ q : RqId, s.readWindow (0x50 + 4 * BitVec.ofNat 12 q.val) = BitVec.ofNat 32 (s.rq q).head ∧
        s.readWindow (0x58 + 4 * BitVec.ofNat 12 q.val) =
          (if (s.rq q).enabled then 1 else 0) + (if (s.rq q).errorFlag then 2 else 0))) ∧
    (offset ∉ ([0x00, 0x04, 0x08, 0x10, 0x14, 0x18, 0x1C, 0x20, 0x40, 0x44, 0x48, 0x4C, 0x50, 0x54, 0x58, 0x5C] :
        List (BitVec 12)) →
      s.readWindow offset = 0) ∧
    (∀ link, exec (.linkConfigurationChange link) s = .next { s with link := link }) ∧
    ∀ up, exec (.linkStateChange up) s = .next { s with linkUp := up }

/-! ## Time (chapters 3 to 5) -/

/-- A WAITING pacer with its target due fires: it emits PACER p, stamped with the tick; with L ticks behind, L divided
by P periods are skipped and counted, saturating; the target moves on from the old target by one period more, and is
not due; remaining falls by as many, stopping at 0, and a pacer whose count is so used up is OFF. With no stream hearing
its event, nothing else changes (R53). -/
def Obligations.WaitingPacerFires : Prop :=
  ∀ (s : State) (p : PacerId), s.Calm → (s.pacer p).state = .waiting →
    (s.timebase - (s.pacer p).target).toNat < 2 ^ 47 → s.Unheard (pacerCode p) →
    let x := s.pacer p
    let skipped := (s.timebase - x.target).toNat / x.period.toNat
    (s.firePacer p).emitted = [{ code := BitVec.ofNat 8 p.val, stamp := s.timebase }] ∧
    ∃ y, exec (.pacerFiring p) s = .next { s with pacers := s.pacers.set p y } ∧
      y.period = x.period ∧ (0 < x.period.toNat → 2 ^ 47 ≤ (s.timebase - y.target).toNat) ∧
      y.target.toNat = (x.target.toNat + (skipped + 1) * x.period.toNat) % 2 ^ 48 ∧
      y.late.toNat = min (2 ^ 32 - 1) (x.late.toNat + skipped) ∧
      y.remaining.toNat = x.remaining.toNat - (skipped + 1) ∧
      y.state = if x.remaining ≠ 0 ∧ x.remaining.toNat ≤ skipped + 1 then .off else .waiting

/-- A DRIVEN pacer with its target due fires, with no stream hearing its event or its RING stream's TERMINAL: the
stream outputs the next entry of its region, counts it, and sets the pacer to the tick plus the entry's delay, below
its limit; at a lap end under BUFFER it outputs nothing and ends its run, its pacer OWNED with target 0 (R58, R118,
R119). -/
def Obligations.DrivenPacerFires : Prop :=
  ∀ (s : State) (p : PacerId) (i : StreamId), s.Calm → (s.pacer p).state = .driven →
    (s.timebase - (s.pacer p).target).toNat < 2 ^ 47 → s.ringOf p = some i → s.Unheard (pacerCode p) →
    s.Unheard (terminalCode i) →
    let st := s.stream i
    let k := st.regionBase + (st.ringPosition - st.regionBase + 1) % st.regionLength
    (¬(st.bufferGoverns = true ∧ k = st.regionBase + st.startOffset) →
      (st.itemLimit = 0 ∨ (st.produced + 1).toNat < st.itemLimit.toNat) →
      exec (.drivenPacerFiring p) s =
        .next { s with
          patternWord := s.patternWord.set st.patternPort (entryWord s.patternMemory k)
          streams := s.streams.set i { st with ringPosition := k, produced := st.produced + 1 }
          pacers := s.pacers.set p
            { s.pacer p with
              target := s.timebase + BitVec.ofNat 48 ((entryDelayCode s.patternMemory k).toNat + 1) } }) ∧
    (st.bufferGoverns = true ∧ k = st.regionBase + st.startOffset →
      ∃ t, exec (.drivenPacerFiring p) s = .next t ∧ (t.stream i).state = .opened ∧
        (t.stream i).pendingStop = none ∧ (t.stream i).ringPosition = st.ringPosition ∧
        (t.stream i).produced = st.produced ∧ t.pacer p = { s.pacer p with state := .owned, target := 0 } ∧
        (∀ n, t.portWord n = if n = st.patternPort then st.park.getD (s.portWord n) else s.portWord n) ∧
        (∀ k, t.entry k = if k ∈ st.stopCommands then none else s.entry k) ∧
        (∀ j, j ≠ i → t.stream j = s.stream j) ∧ (∀ p', p' ≠ p → t.pacer p' = s.pacer p') ∧
        t = { s with
          streams := t.streams
          pacers := t.pacers
          patternWord := t.patternWord
          replyQueues := t.replyQueues
          inflight := t.inflight })

/-- A pacer's event reaches the one stream that names it, whatever the free order of deliveries (log 7). A RUNNING TALLY
stream counts it once; at its target, with reload, it emits its TERMINAL and goes on from 0, and without reload its run
ends with the count at the target and reason TARGET. An ARMED stream that names it as start source enters RUNNING, a
RING stream with its first output, and takes it as nothing else. A RUNNING stream of any kind that names it as stop
source takes it as a stop in its stop-trigger mode, after the advance where it names it so too and still runs: where the
mode's condition holds at once the run ends, its END notice with reason STOP_EVENT under REPORT, and else the stream is
STOPPING with the event-origin mark and no command (R8 to R10, R14, R15, R53, R62, R64, R74 to R76). -/
def Obligations.FiringCountsATally : Prop :=
  (∀ (s : State) (p : PacerId) (i : StreamId), s.FiresTo p i →
    let st := s.stream i
    let u := s.firedAt p
    let counted : Stream := { st with tally := st.tally + 1, produced := st.produced + 1 }
    (st.kind = some .tally → st.state = .running → st.advanceSource = pacerCode p →
      (st.stopSource ≠ pacerCode p → counted.tally.toNat < st.tallyTarget.toNat →
        exec (.pacerFiring p) s = .next { u with streams := s.streams.set i counted }) ∧
      (st.stopSource ≠ pacerCode p → st.tallyTarget.toNat ≤ counted.tally.toNat → st.reload = true →
        s.Unheard (terminalCode i) →
        exec (.pacerFiring p) s = .next { u with streams := s.streams.set i { counted with tally := 0 } }) ∧
      (st.tallyTarget.toNat ≤ counted.tally.toNat → st.reload = false → s.Unheard (terminalCode i) →
        st.pendingStop = none → st.current = none → (st.endReserved = true → (s.rq st.replyQueue).reserved ≠ 0) →
        exec (.pacerFiring p) s = .next (u.endedRun i counted .target))) ∧
    (st.state = .armed → st.startSource = pacerCode p →
      (st.kind ≠ some .ring →
        exec (.pacerFiring p) s = .next { u with streams := s.streams.set i { st with state := .running } }) ∧
      (st.kind = some .ring → st.itemLimit ≠ 1 → st.pacer ≠ p →
        let k := st.regionBase + st.startOffset
        exec (.pacerFiring p) s =
          .next { u with
            streams := s.streams.set i { st with state := .running, ringPosition := k, produced := 1 }
            patternWord := s.patternWord.set st.patternPort (entryWord s.patternMemory k)
            pacers := u.pacers.set st.pacer
              { s.pacer st.pacer with
                state := .driven
                target := s.timebase + BitVec.ofNat 48 ((entryDelayCode s.patternMemory k).toNat + 1) } }))) ∧
  ∀ (s : State) (p : PacerId) (i : StreamId) (m : StopMode) (v : State) (c : Stream), s.FiresTo p i →
    let st := s.stream i
    let u := s.firedAt p
    let advances := st.advanceSource = pacerCode p
    let free := st.scan = none ∧ ∀ n ∈ st.scanList, (s.port n).phase = .idle
    let counted : Stream := { st with tally := st.tally + 1, produced := st.produced + 1 }
    let item := st.completed (leBytes 2 st.sequence.toNat ++ [pacerCode p, 0] ++ leBytes 8 s.timebase.toNat) false
    let holds := m = .now ∨ (m = .item ∧ (c.kind ≠ some .scan ∨ c.scan = none)) ∨
      (m = .buffer ∧ c.current = none ∧
        (c.kind = some .scan ∨ c.kind = some .stamp ∨ (c.kind = some .play ∧ c.fifo = [])))
    st.state = .running → st.stopSource = pacerCode p → st.stopMode = some m → st.pendingStop = none →
    ((st.advancesOn (pacerCode p) = false ∧ v = u ∧ c = st) ∨
      (st.kind = some .tally ∧ advances ∧ counted.tally.toNat < st.tallyTarget.toNat ∧ v = u ∧ c = counted) ∨
      (st.kind = some .tally ∧ advances ∧ st.tallyTarget.toNat ≤ counted.tally.toNat ∧ st.reload = true ∧
        s.Unheard (terminalCode i) ∧ v = u ∧ c = { counted with tally := 0 }) ∨
      (st.kind = some .stamp ∧ pacerCode p ∈ st.advanceSet ∧ s.CanHalt i ∧ item.2 = none ∧ ¬item.1.AtLimit ∧ v = u ∧
        c = item.1) ∨
      (st.kind = some .scan ∧ advances ∧ free ∧
        (∀ n, v.port n =
          if n ∈ st.scanList then
            { s.port n with phase := .waitReady, inForce := (s.port n).timeout, elapsed := 0, shift := 0, bits := 0 }
          else s.port n) ∧
        v = { u with ports := v.ports } ∧
        c =
          { st with
            scan := some { time := s.timebase, slots := List.replicate st.scanList.length .awaited } }) ∨
      (st.kind = some .scan ∧ advances ∧ ¬free ∧ st.strict = false ∧ v = u ∧
        c = { st with overruns := st.overruns + 1 }) ∨
      (st.kind = some .play ∧ advances ∧ (st.itemLimit = 0 ∨ (st.produced + 1).toNat < st.itemLimit.toNat) ∧
        ∃ w rest, st.fifo = w :: rest ∧ v = { u with patternWord := s.patternWord.set st.patternPort w } ∧
          c = ({ st with fifo := rest, produced := st.produced + 1 } : Stream).prefetchTest) ∨
      (st.kind = some .play ∧ advances ∧ st.fifo = [] ∧ st.starveHalt = false ∧ v = u ∧
        c = { st with underflows := st.underflows + 1 })) →
    (¬holds →
      exec (.pacerFiring p) s =
        .next { v with
          streams := s.streams.set i
            { c with state := .stopping, pendingStop := some { mode := m, commands := [], event := true } } }) ∧
    (holds → s.Unheard (terminalCode i) → (∀ g, c.current = some g → g.reserved = true → g.notify = true) →
      (if c.endReserved then 1 else 0) + (if c.current.any Grant.reserved then 1 else 0) ≤
        (s.rq c.replyQueue).reserved →
      exec (.pacerFiring p) s = .next ((v.cutShortNow i c).endedRun i c.runLeft .stopEvent))

/-- In a tick not yet sampled: a change from the qualified level begins a candidate at this tick, and a return to it
removes the candidate. A candidate whose filter has expired with the new level held in this tick's sample gives the
qualified level, and the INPUT event, stamped with the tick, where the edge selection admits the edge (R69, R70). The
pin in State, and its one sample in each tick, are the model's (log 11). -/
def Obligations.InputsQualifyEdges : Prop :=
  ∀ (s : State) (i : InputId),
    let x := s.input i
    (x.sampled = false → x.fresh = false → x.candidate = none →
      exec (.changeSeen i) s =
        .next { s with
          inputs := s.inputs.set i { x with pin := !x.qualified, candidate := some s.timebase, sampled := true } }) ∧
    (x.sampled = false → x.fresh = false →
      exec (.changeReverts i) s =
        .next { s with
          inputs := s.inputs.set i { x with pin := x.qualified, candidate := none, sampled := true } }) ∧
    (∀ t, x.candidate = some t → (x.sampled = true ∨ x.pin ≠ x.qualified) → x.filter.toNat ≤ (s.timebase - t).toNat →
      (s.Calm → s.Unheard (inputCode i) →
        exec (.edgeQualifies i) s =
          .next { s with
            inputs := s.inputs.set i { x with qualified := !x.qualified, candidate := none, sampled := true } }) ∧
      (s.qualifyEdge i).emitted = s.emitted ++
        (if (x.edges = .rising ∧ x.qualified = false) ∨ (x.edges = .falling ∧ x.qualified = true) ∨ x.edges = .both then
          [{ code := BitVec.ofNat 8 (16 + i.val), stamp := s.timebase }]
        else []))

/-- A ready in WAIT_READY begins the shifting, at any elapsed count, and any other ready is ignored. That a ready at
the tick of the expiry, taken before the timeout, begins it too is the model's reading of R81 (log 22). A tick with
nothing left due moves the timebase by one, the elapsed count of each port in WAIT_READY by one, and shifts one serial
bit, the most significant first, into each port in SHIFTING. A pin that no row has sampled at the tick is sampled as it
ends: a change is first seen, or one that waited reverts; then each input is to be sampled again, or at the first tick
after a reset takes its pin's level; nothing else changes (R46, R68, R69, R80, R81). The sampling marks are the model's
(log 11), and so is that a tick comes only after what is due (log 6). -/
def Obligations.ReadyAndTick : Prop :=
  (∀ (s : State) (n : PortId),
    exec (.ready n) s =
      .next
        (if (s.port n).phase = .waitReady then
          { s with ports := s.ports.set n { s.port n with phase := .shifting, shift := 0, bits := 0 } }
        else s)) ∧
    ∀ (s : State) (serial : BitVec 8), s.NothingDue →
      ∃ t, exec (.timebaseTick serial) s = .next t ∧ t.timebase = s.timebase + 1 ∧
        (∀ n, t.port n =
          match (s.port n).phase with
          | .idle => s.port n
          | .waitReady => { s.port n with elapsed := (s.port n).elapsed + 1 }
          | .shifting =>
            if (s.port n).bits < 16 then
              { s.port n with
                shift := (s.port n).shift <<< 1 ||| (if serial.getLsbD n.val then 1 else 0)
                bits := (s.port n).bits + 1 }
            else s.port n) ∧
        (∀ i, t.input i =
          if (s.input i).fresh then
            { s.input i with qualified := (s.input i).pin, candidate := none, sampled := true, fresh := false }
          else
            { s.input i with
              candidate :=
                if (s.input i).sampled then (s.input i).candidate
                else if (s.input i).pin = (s.input i).qualified then none
                else some ((s.input i).candidate.getD s.timebase)
              sampled := false }) ∧
        t = { s with timebase := t.timebase, ports := t.ports, inputs := t.inputs }

/-- A SCAN advance with no scan in flight and every port of the list IDLE strobes each of them and begins a scan at the
tick; any other is an overrun, which is counted, and under STRICT halts the stream (the scan in flight is then gone). A
result and a timeout put the port in IDLE and go into the scan in flight that awaits the port, at its list position, as
the sample or as a timeout mark; while a further position is awaited, nothing else changes (R17, R80 to R82, R85 to
R87). -/
def Obligations.OutcomesFillTheScan : Prop :=
  (∀ (s : State) (p : PacerId) (i : StreamId), s.FiresTo p i →
    let st := s.stream i
    let free := st.scan = none ∧ ∀ n ∈ st.scanList, (s.port n).phase = .idle
    let missed : Stream := { st with overruns := st.overruns + 1 }
    st.kind = some .scan → st.state = .running → st.advanceSource = pacerCode p →
    (free → st.stopSource ≠ pacerCode p →
      ∃ t, exec (.pacerFiring p) s = .next t ∧
        (∀ n, t.port n =
          if n ∈ st.scanList then
            { s.port n with phase := .waitReady, inForce := (s.port n).timeout, elapsed := 0, shift := 0, bits := 0 }
          else s.port n) ∧
        t = { s.firedAt p with
          ports := t.ports
          streams := s.streams.set i
            { st with
              scan := some { time := s.timebase, slots := List.replicate st.scanList.length .awaited } } }) ∧
    (¬free → st.strict = false → st.stopSource ≠ pacerCode p →
      exec (.pacerFiring p) s = .next { s.firedAt p with streams := s.streams.set i missed }) ∧
    (¬free → st.strict = true → s.CanHalt i →
      exec (.pacerFiring p) s = .next ((s.firedAt p).faulted i missed .overrun))) ∧
  ∀ (s : State) (n : PortId) (i : StreamId) (fl : ScanFlight), s.Calm → s.holder n = some i →
    let st := s.stream i
    let x := s.port n
    let k := st.scanList.idxOf n
    let after := fun (o : ScanSlot) => ({ fl with slots := fl.slots.set k o } : ScanFlight)
    st.scan = some fl → fl.slots[k]? = some .awaited → ScanSlot.awaited ∈ fl.slots.eraseIdx k →
    (x.phase = .shifting → x.bits = 16 →
      exec (.result n) s =
        .next { s with
          ports := s.ports.set n (SamplePort.idle x.timeout)
          streams := s.streams.set i { st with scan := some (after (.sample x.shift)) } }) ∧
    (x.phase = .waitReady → x.inForce.toNat ≤ x.elapsed.toNat →
      exec (.timeout n) s =
        .next { s with
          ports := s.ports.set n (SamplePort.idle x.timeout)
          streams := s.streams.set i { st with scan := some (after .timedOut) } })

/-- The last outcome awaited, a result or a timeout, completes the SCAN item, and an event of its advance set a STAMP
item, laid out as R190 gives it. The item is numbered and counted, and then staged in the current grant or in the
promoted head of the waiting queue, lost to backlog, or dropped by starvation; a fault that this brings, or under STRICT
a timeout mark, halts the stream; else at the item limit its run ends; else it goes on (R33, R40, R88, R90 to R95, R98,
R99). -/
def Obligations.LastOutcomeCompletesTheItem : Prop :=
  (∀ (s : State) (n : PortId) (i : StreamId) (fl : ScanFlight) (outcome : ScanSlot) (row : Instr), s.Calm →
    s.holder n = some i →
    let st := s.stream i
    let x := s.port n
    let k := st.scanList.idxOf n
    let slots := fl.slots.set k outcome
    let m := st.scanList.length
    st.kind = some .scan → st.scan = some fl → fl.slots.length = m → m ≤ 8 →
    fl.slots[k]? = some .awaited → ScanSlot.awaited ∉ fl.slots.eraseIdx k → st.state = .running →
    st.pendingStop = none → s.CanHalt i →
    ((row = .result n ∧ x.phase = .shifting ∧ x.bits = 16 ∧ outcome = .sample x.shift) ∨
      (row = .timeout n ∧ x.phase = .waitReady ∧ x.inForce.toNat ≤ x.elapsed.toNat ∧ outcome = .timedOut)) →
    ∃ b : List Byte,
      (let first := if st.timestamp then 12 else 4
      b.length = st.itemSize ∧ b.take 2 = leBytes 2 st.sequence.toNat ∧
        (∃ mask : Byte, (b.drop 2).take 2 = [BitVec.ofNat 8 m, mask] ∧
          ∀ j, mask.getLsbD j = decide (slots[j]? = some .timedOut)) ∧
        (st.timestamp = true → (b.drop 4).take 8 = leBytes 8 fl.time.toNat) ∧
        (∀ j v, slots[j]? = some (.sample v) → (b.drop (first + 2 * j)).take 2 = leBytes 2 v.toNat) ∧
        (∀ j : Nat, slots[j]? = some .timedOut → (b.drop (first + 2 * j)).take 2 = [0, 0]) ∧
        ∀ y ∈ b.drop (first + 2 * m), y = 0) ∧
      (let marks := slots.count .timedOut
      let y :=
        ({ st with scan := none, portTimeouts := st.portTimeouts + BitVec.ofNat 32 marks } : Stream).completed b
          (decide (marks ≠ 0))
      (y.1.AtLimit → (st.staging.length < 4 ∨ st.current = none) ∧ s.Unheard (terminalCode i)) →
      exec row s = .next ({ s with ports := s.ports.set n (SamplePort.idle x.timeout) }.itemTaken i y))) ∧
  ∀ (s : State) (p : PacerId) (i : StreamId), s.FiresTo p i →
    let st := s.stream i
    let b := leBytes 2 st.sequence.toNat ++ [pacerCode p, 0] ++ leBytes 8 s.timebase.toNat
    let y := st.completed b false
    st.kind = some .stamp → st.state = .running → pacerCode p ∈ st.advanceSet →
    (st.stopSource ≠ pacerCode p ∨ y.2 ≠ none ∨ y.1.AtLimit) → st.pendingStop = none → s.CanHalt i →
    (y.1.AtLimit → (st.staging.length < 4 ∨ st.current = none) ∧ s.Unheard (terminalCode i)) →
    exec (.pacerFiring p) s = .next ((s.firedAt p).itemTaken i y)

/-! ## The Transfer Mover (chapter 9) -/

/-- With nothing being sent, the link accepting and a request waiting, an arbitration serves one transfer: the class
and the consecutive stream count as the table of R163; in the stream class that of the first waiting stream after the
last served; in the control class that of the waiting requester of the highest rank, of two waiting reply queues the
one not served last. A stream serves its oldest staged item, in parts, and then its prefetch read; a reply is 16 bytes
at its position, a message 4 bytes of its vector; of status records and loads the earliest accepted is served; a fetch
reads 32 bytes, and a load at most 64 entries up to the next 4 KiB boundary (R113, R130, R150, R161 to R166; with
message-signalled interrupts enabled, R166). That the row stands for one arbitration, and that a queue that waits alone
becomes the last served, is the model's reading (logs 5 and 15). -/
def Obligations.ArbitrationServesByRule : Prop :=
  ∀ s : State, s.Calm → s.sending = none → s.link.busMaster = true → s.linkUp = true → s.link.msiEnable = true →
    (s.streamRequests = true ∨ s.controlRequests = true) →
    let both := s.streamRequests = true ∧ s.controlRequests = true
    let part := fun (a : Addr) (left : Nat) => min left (min 256 (4096 - a.toNat % 4096))
    let read := fun (who : Requester) (a : Addr) (n : Nat) =>
      ({ who := who, isRead := true, address := a, length := n, bytes := [], last := true } : Transfer)
    let write := fun (who : Requester) (a : Addr) (bytes : List Byte) (served : Nat) =>
      let b := a + BitVec.ofNat 64 served
      let n := part b (bytes.length - served)
      ({ who := who
         isRead := false
         address := b
         length := n
         bytes := (bytes.drop served).take n
         last := decide (served + n = bytes.length) } : Transfer)
    ∃ t x, exec .arbitration s = .next t ∧ t.sending = some x ∧
      t = { s with
        sending := t.sending
        streamRun := t.streamRun
        lastStream := t.lastStream
        lastReplyQueue := t.lastReplyQueue
        streams := t.streams
        statusWrites := t.statusWrites
        fetch := t.fetch
        loads := t.loads } ∧
      t.streamRun = (if both ∧ s.streamRun < 4 then s.streamRun + 1 else 0) ∧
      (if s.streamRequests = true ∧ (s.controlRequests = false ∨ s.streamRun < 4) then
        (∃ d : Nat, d < 32 ∧ t.lastStream = Fin.ofNat 32 (s.lastStream.val + 1 + d) ∧
          (s.stream t.lastStream).hasRequest = true ∧
          ∀ d', d' < d → (s.stream (Fin.ofNat 32 (s.lastStream.val + 1 + d'))).hasRequest = false) ∧
        t.lastReplyQueue = s.lastReplyQueue ∧ t.statusWrites = s.statusWrites ∧ t.fetch = s.fetch ∧
        t.loads = s.loads ∧
        (let st := s.stream t.lastStream
        (∃ older y newer, st.staging = older ++ y :: newer ∧ (∀ z ∈ older, z.bytes.length ≤ z.served) ∧
            y.served < y.bytes.length ∧ x = write (.capture t.lastStream) y.address y.bytes y.served ∧
            t.streams = s.streams.set t.lastStream
              { st with staging := older ++ { y with served := y.served + x.length } :: newer }) ∨
          ((∀ z ∈ st.staging, z.bytes.length ≤ z.served) ∧
            ∃ rd, st.read = some rd ∧ rd.served = false ∧
              x = read (.prefetch t.lastStream) rd.address (2 * rd.words) ∧
              t.streams = s.streams.set t.lastStream { st with read := some { rd with served := true } }))
      else
        t.lastStream = s.lastStream ∧ t.streams = s.streams ∧
          (if (s.rq 0).waiting ≠ [] ∨ (s.rq 1).waiting ≠ [] then
            t.statusWrites = s.statusWrites ∧ t.fetch = s.fetch ∧ t.loads = s.loads ∧
              ((s.rq 0).waiting ≠ [] ∧ (s.rq 1).waiting ≠ [] → t.lastReplyQueue ≠ s.lastReplyQueue) ∧
              (let q := t.lastReplyQueue
              let vector := if q = 0 then s.link.vector0 else s.link.vector1
              (∃ position bytes rest, (s.rq q).waiting = .reply position bytes :: rest ∧
                  x =
                    { who := .reply q
                      isRead := false
                      address := (s.rq q).base + BitVec.ofNat 64 (16 * position)
                      length := 16
                      bytes := bytes
                      last := true }) ∨
                ∃ rest, (s.rq q).waiting = .message :: rest ∧
                  x =
                    { who := .message q
                      isRead := false
                      address := vector.address
                      length := 4
                      bytes := leBytes 4 vector.data.toNat
                      last := true })
          else
            t.lastReplyQueue = s.lastReplyQueue ∧
              (if s.statusRequest = true then
                t.fetch = s.fetch ∧ t.loads = s.loads ∧
                  ∃ older w newer, s.statusWrites = older ++ w :: newer ∧ (∀ z ∈ older, z.bytes.length ≤ z.served) ∧
                    w.served < w.bytes.length ∧ x = write (.status w.slot) w.address w.bytes w.served ∧
                    t.statusWrites = s.statusWrites.map fun z =>
                      if z.slot = w.slot then { z with served := z.served + x.length } else z
              else
                t.statusWrites = s.statusWrites ∧
                  (if s.fetchRequest = true then
                    t.loads = s.loads ∧
                      ∃ f, s.fetch = some f ∧ x = read .fetch f.address 32 ∧ t.fetch = some { f with served := true }
                  else
                    t.fetch = s.fetch ∧
                      ∃ older l newer, s.loads = older ++ l :: newer ∧ (∀ z ∈ older, z.served = true) ∧
                        l.served = false ∧
                        (let a := l.address + BitVec.ofNat 64 (4 * l.written)
                        let n := min (l.count - l.written) (min 64 ((4096 - a.toNat % 4096) / 4))
                        x = read (.load l.slot) a (4 * n)) ∧
                        t.loads = s.loads.map fun z => if z.slot = l.slot then { z with served := true } else z))))

/-- A staged item is written by transfers of as many bytes as are left, at most 256 and none across a 4 KiB boundary:
with no control work waiting, an arbitration that comes to a stream serves the next of its oldest item, and counts
its bytes as served; nothing else changes. A capture write that the link refuses at its serving has failed, and so has
one that is still being sent when the link has come to refuse (log 30): the item leaves staging, the stream is HALTED
with BUS_ERROR, or stays HALTED or CLOSING, and only then a FINISHING grant with no item left in staging retires (R17,
R18, R35, R93, R96, R161 to R164, R166, R169). That the row stands for one arbitration is the model's (log 5). -/
def Obligations.StagedItemsAreCutIntoTransfers : Prop :=
  (∀ (s : State) (d : Nat) (y : Staged) (rest : List Staged), s.Calm → s.sending = none → s.link.busMaster = true →
    s.linkUp = true → s.controlRequests = false → d < 32 →
    (∀ d', d' < d → (s.stream (Fin.ofNat 32 (s.lastStream.val + 1 + d'))).hasRequest = false) →
    let i : StreamId := Fin.ofNat 32 (s.lastStream.val + 1 + d)
    let st := s.stream i
    let a := y.address + BitVec.ofNat 64 y.served
    let n := min (y.bytes.length - y.served) (min 256 (4096 - a.toNat % 4096))
    st.staging = y :: rest → y.served < y.bytes.length →
    exec .arbitration s =
      .next { s with
        streamRun := 0
        lastStream := i
        streams := s.streams.set i { st with staging := { y with served := y.served + n } :: rest }
        sending := some
          { who := .capture i
            isRead := false
            address := a
            length := n
            bytes := (y.bytes.drop y.served).take n
            last := decide (y.served + n = y.bytes.length) } }) ∧
  ∀ (s : State) (row : Instr) (d : Nat) (i : StreamId) (y : Staged) (rest : List Staged) (base v : State), s.Calm →
    (s.link.busMaster = false ∨ s.linkUp = false) →
    let st := s.stream i
    let left : Stream := { st with staging := rest }
    (st.kind = some .scan ∨ st.kind = some .stamp) → st.staging = y :: rest →
    ((row = .arbitration ∧ s.sending = none ∧ (s.controlRequests = false ∨ s.streamRun < 4) ∧ d < 32 ∧
        (∀ d', d' < d → (s.stream (Fin.ofNat 32 (s.lastStream.val + 1 + d'))).hasRequest = false) ∧
        i = Fin.ofNat 32 (s.lastStream.val + 1 + d) ∧ y.served < y.bytes.length ∧
        base = { s with streamRun := if s.controlRequests = true then s.streamRun + 1 else 0, lastStream := i }) ∨
      (row = .transferSent ∧ (∃ x, s.sending = some x ∧ x.who = .capture i) ∧ base = { s with sending := none })) →
    (((st.state = .opened ∨ st.state = .armed ∨ st.state = .running ∨ st.state = .stopping) ∧ s.CanHalt i ∧
        v = base.faulted i left .busError) ∨
      ((st.state = .halted ∨ (st.state = .closing ∧ rest ≠ [])) ∧
        v = { base with streams := s.streams.set i left })) →
    ((∀ g, st.finishing.head? = some g → ∃ o ∈ rest, o.grant = g.number) → exec row s = .next v) ∧
    ∀ g more, st.finishing = g :: more → (∀ o ∈ rest, o.grant ≠ g.number) →
      (g.reserved = true → g.notify = true ∧ (v.rq st.replyQueue).reserved ≠ 0) →
      exec row s = .next (v.retired i { v.stream i with finishing := more } g)

/-- A reply that the link refuses begins a fatal stop: at its serving in READY, and in QUIESCING before it has been sent
(log 30). The device is FATAL with cause REPLY_WRITE, every stream is CLOSED and every pacer OFF, every port IDLE, no
command or load is left, CQ1 to CQ3 and RQ1 are ABSENT, CQ0 keeps its positions, and RQ0, frozen with reserved 0, asks
for one vector 0 message; nothing else changes but the words of the ports (R157, R158, R166, R178). The reply queue
field of a queue made ABSENT is the model's (log 31). -/
def Obligations.RefusedReplyIsFatal : Prop :=
  ∀ s : State,
    let stopped := fun t : State =>
      (∀ i, t.stream i = Stream.empty) ∧ (∀ p, t.pacer p = Pacer.zero) ∧ (∀ k, t.entry k = none) ∧
      (∀ n, t.port n = SamplePort.idle (s.port n).timeout ∧ t.holder n = none ∧ t.patHolder n = none) ∧
      (∀ q, q ≠ 0 → t.queue q = CommandQueue.absent) ∧
      t.queue 0 = { s.queue 0 with faultReserved := false, held := none } ∧
      t.rq 0 = { s.rq 0 with reserved := 0, waiting := [.message], sent := true } ∧
      t.rq 1 = ReplyQueue.absent (s.rq 1).enabled (s.rq 1).errorFlag ∧
      t = { s with
        streams := t.streams
        pacers := t.pacers
        ports := t.ports
        portHolder := t.portHolder
        patternHolder := t.patternHolder
        patternWord := t.patternWord
        loads := []
        inflight := t.inflight
        queues := t.queues
        fetch := none
        lastServed := 3
        replyQueues := t.replyQueues
        statusWrites := []
        sending := none
        outstanding := s.outstanding.map fun o => { o with who := .nobody }
        lastStream := 31
        lastReplyQueue := 1
        streamRun := 0
        device := .fatal
        cause := .replyWrite }
    (s.link.busMaster = false ∨ s.linkUp = false) → (s.rq 0).active = true →
    (∀ (position : Nat) (bytes : List Byte) (rest : List WaitItem), s.Calm → s.device = .ready → s.sending = none →
      s.streamRequests = false → (s.rq 0).waiting = .reply position bytes :: rest → (s.rq 1).waiting = [] →
      ∃ t, exec .arbitration s = .next t ∧ stopped t) ∧
    ∀ x : Transfer, s.emitted = [] → (s.queue 0).state ≠ .deleting → s.device = .quiescing → s.sending = some x →
      x.who = .lostReply → ∃ t, exec .transferSent s = .next t ∧ stopped t

/-- While the link accepts transfers, a read that has been sent is outstanding, with its deadline 20,000 ticks on, and a
part of a write that is not its last leaves its request. With its last part sent, a reply leaves its waiting list, and
with the enable set in ARMED its queue asks for its message; a message leaves its list; a capture item leaves staging,
and a grant that was FINISHING for it retires, by its notice and, where it recycles, to the tail of the waiting queue; a
status record makes its QUERY_STREAM reply OK with its values; nothing else changes (R22, R35, R37 to R39, R95, R150,
R154, R162, R166, R167). The tag of a read is the model's (log 21). -/
def Obligations.SentTransfers : Prop :=
  ∀ (s : State) (x : Transfer), s.Calm → s.sending = some x → s.link.busMaster = true → s.linkUp = true →
    (x.isRead = true →
      exec .transferSent s =
        .next { s with
          sending := none
          outstanding := s.outstanding ++
            [{ tag := s.nextTag
               who := x.who
               address := x.address
               length := x.length
               deadline := s.timebase + 20000
               got := [] }]
          nextTag := s.nextTag + 1 }) ∧
    (x.isRead = false → x.last = false → exec .transferSent s = .next { s with sending := none }) ∧
    (x.isRead = false → x.last = true →
      (∀ (q : RqId) (position : Nat) (bytes : List Byte) (rest : List WaitItem),
        x.who = .reply q → (s.rq q).waiting = .reply position bytes :: rest →
        exec .transferSent s =
          .next { s with
            sending := none
            replyQueues := s.replyQueues.set q
              (if (s.rq q).enabled = true ∧ (s.rq q).sent = false then
                { s.rq q with waiting := rest ++ [.message], sent := true }
              else { s.rq q with waiting := rest }) }) ∧
      (∀ (q : RqId) (rest : List WaitItem), x.who = .message q → (s.rq q).waiting = .message :: rest →
        exec .transferSent s =
          .next { s with sending := none, replyQueues := s.replyQueues.set q { s.rq q with waiting := rest } }) ∧
      (∀ (i : StreamId) (y : Staged) (rest : List Staged), x.who = .capture i →
        let st := s.stream i
        let z := s.rq st.replyQueue
        st.staging = y :: rest → st.state ≠ .closing → (st.kind = some .scan ∨ st.kind = some .stamp) →
        ((∀ g, st.finishing.head? = some g → ∃ o ∈ rest, o.grant = g.number) →
          exec .transferSent s =
            .next { s with sending := none, streams := s.streams.set i { st with staging := rest } }) ∧
        (∀ g more, st.finishing = g :: more → (∀ o ∈ rest, o.grant ≠ g.number) →
          (g.reserved = true → g.notify = true ∧ z.reserved ≠ 0) →
          exec .transferSent s =
            .next (State.retired { s with sending := none } i { st with staging := rest, finishing := more } g))) ∧
      ∀ (k : SlotId) (e : Entry) (rec : Record), x.who = .status k → s.entry k = some e → e.record = some rec →
        (s.rq e.replyQueue).reserved ≠ 0 →
        exec .transferSent s =
          .next ({ s with sending := none, statusWrites := s.statusWrites.filter fun w => w.slot != k }.answered k e rec
            .ok e.value1 e.value2))

/-- A part of a read's data that does not complete it is held behind the parts before it. Data, or an error, for a read
that is not outstanding is discarded (R167). The tags, the holding of data short of the length, and the joining of the
parts in the order in which they arrive, are the model's (logs 21, 26 and 34). -/
def Obligations.CompletionPartsAreHeld : Prop :=
  ∀ (s : State) (tag : Nat) (data : List Byte), s.Calm →
    (∀ o, s.readOf tag = some o → o.got.length + data.length < o.length →
      exec (.completionPart tag data) s =
        .next { s with
          outstanding := s.outstanding.map fun p => if p.tag = tag then { p with got := o.got ++ data } else p }) ∧
    ((∀ o ∈ s.outstanding, o.tag ≠ tag) →
      exec (.completionPart tag data) s = .next s ∧ exec (.readCompletion tag data) s = .next s ∧
        exec (.errorCompletion tag) s = .next s)

/-- The words of a prefetch read that is done enter the tail of the FIFO, and the current grant's fill rises by their
number. Below the grant's item count, the prefetch then tests for its next read. At the item count the grant retires
first: by its BUFFER notice, under NOTIFY with a reservation, and then, where it recycles, to the tail of the waiting
queue, with a fresh reservation or one missed notice more. A read that fails gives no words and halts the stream with
BUS_ERROR. A PLAY advance puts the oldest word on the pattern port and counts it, and then, at the item limit, the run
ends, or else the prefetch tests again; with the FIFO empty it is an underflow, which is counted, or with STARVE_HALT
halts the stream; nothing else changes (R10, R15, R17, R35, R37 to R39, R104, R105, R107, R108). That an underflow which
halts the stream is not counted is the model's reading (log 16). -/
def Obligations.PrefetchWordsEnterTheFifo : Prop :=
  (∀ (s : State) (tag : Nat) (o : OutstandingRead) (i : StreamId) (rd : PlayRead),
    s.Calm → s.readOf tag = some o → o.who = .prefetch i →
    let st := s.stream i
    let x := s.rq st.replyQueue
    let u : State := { s with outstanding := s.outstanding.filter fun p => p.tag != tag }
    st.read = some rd →
    (∀ (data : List Byte) (g : Grant), o.got = [] → o.length = data.length → data.length = 2 * rd.words →
      st.current = some g → st.pendingStop = none →
      let h : Grant := { g with fill := g.fill + rd.words }
      let c : Stream := { st with fifo := st.fifo ++ halvesOf data, read := none, current := none }
      (halvesOf data).length = rd.words ∧
      (h.fill < h.count →
        exec (.readCompletion tag data) s =
          .next { u with streams := s.streams.set i ({ c with current := some h } : Stream).prefetchTest }) ∧
      (h.count ≤ h.fill → (g.reserved = true → g.notify = true ∧ x.reserved ≠ 0) →
        exec (.readCompletion tag data) s =
          .next { u.retired i c h with
            streams := s.streams.set i ((u.retired i c h).stream i).prefetchTest })) ∧
    (s.CanHalt i → (st.state = .opened ∨ st.state = .armed ∨ st.state = .running ∨ st.state = .stopping) →
      exec (.errorCompletion tag) s = .next (u.faulted i { st with read := none } .busError))) ∧
  ∀ (s : State) (p : PacerId) (i : StreamId), s.FiresTo p i →
    let st := s.stream i
    let u := s.firedAt p
    st.kind = some .play → st.state = .running → st.advanceSource = pacerCode p → st.pendingStop = none →
    (∀ w rest, st.fifo = w :: rest →
      let v : State := { u with patternWord := s.patternWord.set st.patternPort w }
      let c : Stream := { st with fifo := rest, produced := st.produced + 1 }
      (¬c.AtLimit → st.stopSource ≠ pacerCode p →
        exec (.pacerFiring p) s = .next { v with streams := s.streams.set i c.prefetchTest }) ∧
      (c.AtLimit → s.Unheard (terminalCode i) →
        (∀ g, st.current = some g → g.reserved = true → g.notify = true) →
        (if st.endReserved then 1 else 0) + (if st.current.any Grant.reserved then 1 else 0) ≤
          (s.rq st.replyQueue).reserved →
        exec (.pacerFiring p) s = .next ((v.cutShortNow i c).endedRun i c.runLeft .limit))) ∧
    (st.fifo = [] → st.starveHalt = false → st.stopSource ≠ pacerCode p →
      exec (.pacerFiring p) s =
        .next { u with streams := s.streams.set i { st with underflows := st.underflows + 1 } }) ∧
    (st.fifo = [] → st.starveHalt = true → s.CanHalt i →
      exec (.pacerFiring p) s = .next (u.faulted i st .underflow))

/-- The entries of a pattern-load read that is done are written to pattern memory, byte for byte and no other byte.
While entries are left the load asks for its next read; with its last entry written it leaves the load-region list,
and LOAD_PATTERN replies OK with its count and first entry. A read that fails, by an error completion or at its
deadline, writes nothing and ends the load, which replies BUS_ERROR with the entries written before it and its first
entry (R113, R114, R167). Pattern memory as bytes is the model's (log 12). -/
def Obligations.LoadedEntriesAreWritten : Prop :=
  ∀ (s : State) (tag : Nat) (o : OutstandingRead) (l : Load), s.Calm → s.PatternSound →
    s.readOf tag = some o → o.who = .load l.slot → (s.loads.find? fun m => m.slot == l.slot) = some l →
    let u : State := { s with outstanding := s.outstanding.filter fun p => p.tag != tag }
    let ended : State := { u with loads := s.loads.filter fun m => m.slot != l.slot }
    (∀ data : List Byte, o.got = [] → o.length = data.length →
      let now := l.written + data.length / 4
      let written := fun t : State =>
        ∀ a, memRead t.patternMemory a =
          if 4 * (l.first + l.written) ≤ a ∧ a < 4 * (l.first + l.written) + data.length then
            data.getD (a - 4 * (l.first + l.written)) 0
          else memRead s.patternMemory a
      (now < l.count →
        ∃ t, exec (.readCompletion tag data) s = .next t ∧ written t ∧
          t = { u with
            patternMemory := t.patternMemory
            loads := s.loads.map fun m =>
              if m.slot = l.slot then { l with written := now, served := false } else m }) ∧
      ∀ (e : Entry) (rec : Record), now = l.count → s.entry l.slot = some e → e.record = some rec →
        (s.rq e.replyQueue).reserved ≠ 0 →
        ∃ t, exec (.readCompletion tag data) s = .next t ∧ written t ∧
          t = ({ ended with patternMemory := t.patternMemory }.answered l.slot e rec .ok (BitVec.ofNat 32 l.count)
            (BitVec.ofNat 32 l.first))) ∧
    ∀ (e : Entry) (rec : Record), s.entry l.slot = some e → e.record = some rec →
      (s.rq e.replyQueue).reserved ≠ 0 →
      let t := ended.answered l.slot e rec .busError (BitVec.ofNat 32 l.written) (BitVec.ofNat 32 l.first)
      exec (.errorCompletion tag) s = .next t ∧
        ((s.timebase - o.deadline).toNat < 2 ^ 47 → exec (.readTimeout tag) s = .next t)

/-- A command fetch that ends with an error completion, or at its deadline, fetches nothing: its entry is freed, its
reservation released, the consumer stays, and the ACTIVE queue enters FAULTED with BUS_ERROR and posts its QUEUE
notice on RQ0 (R131, R167, R169). The fetcher's next turn is a row of its own (log 5). -/
def Obligations.FailedFetchFaultsTheQueue : Prop :=
  ∀ (s : State) (q : CqId) (f : Fetch) (e : Entry) (tag : Nat) (o : OutstandingRead), s.Calm → s.Fetching q f e →
    s.readOf tag = some o → o.who = .fetch → (s.queue q).faultReserved = true → 1 < (s.rq 0).reserved →
    let u : State := s.release e.replyQueue
    let t : State := { u with
      outstanding := s.outstanding.filter fun p => p.tag != tag
      fetch := none
      inflight := s.inflight.set f.slot none
      queues := s.queues.set q
        { s.queue q with state := .faulted, fault := some .busError, faultReserved := false }
      replyQueues := u.replyQueues.set 0 ((u.rq 0).submit (queueNotice q .busError (s.queue q).consumer)) }
    exec (.errorCompletion tag) s = .next t ∧
      ((s.timebase - o.deadline).toNat < 2 ^ 47 → exec (.readTimeout tag) s = .next t)

/-! ## What the controller takes by itself -/

/-- A turn with no fetch in progress and a free entry fetches from the first queue, going round from the one after
the last served, that is ACTIVE in a READY device with a record available and none held, and whose reply queue grants
a command claim; the queue's record at its consumer is asked for, and the claim is taken. With a fetch in progress,
or no such queue, nothing changes (R128, R129, R130, R147). That the row stands for one turn, and that the lowest
free entry is taken, is the model's (logs 5 and 24). -/
def Obligations.TurnFetchesRoundRobin : Prop :=
  ∀ s : State,
    let can := fun q : CqId =>
      s.device = .ready ∧ (s.queue q).state = .active ∧
        ((s.queue q).producer + (s.queue q).size - (s.queue q).consumer) % (s.queue q).size ≠ 0 ∧
        (s.queue q).held = none ∧
        (s.rq (s.queue q).replyQueue).occupied + (s.rq (s.queue q).replyQueue).reserved + 1 ≤
          (s.rq (s.queue q).replyQueue).size - 1
    (s.fetch ≠ none ∨ (∀ q, ¬can q) → exec .turn s = .next s) ∧
    ∀ (d : Nat) (k : SlotId), d < 4 → s.fetch = none → s.freeSlot = some k →
      can (Fin.ofNat 4 (s.lastServed.val + 1 + d)) →
      (∀ d', d' < d → ¬can (Fin.ofNat 4 (s.lastServed.val + 1 + d'))) →
      let q : CqId := Fin.ofNat 4 (s.lastServed.val + 1 + d)
      let x := s.queue q
      let y := s.rq x.replyQueue
      s.entry k = none ∧
      exec .turn s =
        .next { s with
          replyQueues := s.replyQueues.set x.replyQueue { y with reserved := y.reserved + 1 }
          inflight := s.inflight.set k (some
            { queue := q
              position := x.consumer
              phase := .fetching
              replyQueue := x.replyQueue
              record := none
              value1 := 0
              value2 := 0 })
          fetch := some
            { queue := q
              slot := k
              address := x.base + BitVec.ofNat 64 (32 * x.consumer)
              served := false }
          lastServed := q }

/-- A held record whose queue has no entry left in WORKING is taken, whatever its command: its queue holds no record any
more, and what follows is what the same record would do on its fetch in the state there is now, its refusal included; a
NOP replies its queue and the consumer. While an entry is in WORKING nothing changes (R136, R137, R139, R141). The row
acts only where it is due (logs 2 and 3). -/
def Obligations.HeldNopIsTaken : Prop :=
  ∀ (s : State) (q : CqId) (k : SlotId) (e : Entry) (op : Opcode) (r : RecordBody),
    let record : Record := ⟨op.code, r⟩
    let v : State :=
      { s with
        queues := s.queues.set q { s.queue q with held := none }
        inflight := s.inflight.set k (some { e with phase := .fetching }) }
    (s.queue q).held = some k → s.entry k = some e → e.record = some record → e.phase = .held →
    (s.hasWorking q = true → exec (.heldRecordTaken q) s = .next s) ∧
    (s.hasWorking q = false → v.Calm → (s.rq e.replyQueue).reserved ≠ 0 →
      (op = .nop → e.queue = q → r.flagsOk = true → r.noFields = true →
        exec (.heldRecordTaken q) s =
          .next (v.answered k e record .ok (BitVec.ofNat 32 q.val) (BitVec.ofNat 32 (s.queue q).consumer))) ∧
      (v.statusOf op q r ≠ .ok →
        exec (.heldRecordTaken q) s =
          .next (v.answered k e record (v.statusOf op q r) 0
            (if op = .loadPattern then BitVec.ofNat 32 (loadFirst r) else 0))) ∧
      ∀ (s' : State) (f : Fetch) (e' : Entry), s'.Takes q r f e' → f.slot = k → s'.withRecord f e' record = v →
        exec (.heldRecordTaken q) s = exec (op.row q r) s')

/-- An active prefetch with no read in progress and a current grant, or a waiting one to promote, asks for a read of
that grant's next words where the room allows: as many as the room, the words left and the words to the next 4 KiB
boundary let it; nothing else changes (R32, R103). The row acts only where it is due (logs 2 and 3). -/
def Obligations.PrefetchAsksForWords : Prop :=
  ∀ (s : State) (i : StreamId) (g : Grant) (rest : List Grant),
    let st := s.stream i
    st.kind = some .play → st.prefetching = true → st.read = none →
    ((st.current = some g ∧ st.waiting = rest) ∨
      (st.current = none ∧ st.waiting = g :: rest ∧ st.fifo.length < 16 ∧ st.bufferGoverns = false)) →
    let room := 16 - st.fifo.length
    let address := g.address + BitVec.ofNat 64 (2 * g.fill)
    let limit := min (g.count - g.fill) ((4096 - address.toNat % 4096) / 2)
    g.fill < g.count → min 8 limit ≤ room →
    exec (.prefetchRead i) s =
      .next { s with
        streams := s.streams.set i
          { st with
            current := some g
            waiting := rest
            read := some
              { grant := g.number
                start := g.fill
                words := min room limit
                address := address
                served := false } } }

/-- The oldest FINISHING grant, with no item of it left in staging, retires: holding a reservation under NOTIFY it
submits its BUFFER notice, and without a reservation none. Full, with RECYCLE, in ARMED or RUNNING, it rejoins the tail
of the waiting queue with fill 0 and no first sequence, under NOTIFY with a fresh reservation, where the reply queue
grants one, and else with one missed notice more, at most 255; a notice has set that count to 0. Every other grant
leaves the stream. With an item of it left in staging nothing changes (R35, R37 to R39, R147). The row acts only where
it is due (logs 2 and 3). -/
def Obligations.FinishedGrantRetires : Prop :=
  ∀ (s : State) (i : StreamId) (g : Grant) (rest : List Grant),
    let st := s.stream i
    let x := s.rq st.replyQueue
    let y := x.submit (bufferNotice i g s.timebase)
    let recycles := g.recycle = true ∧ g.count ≤ g.fill ∧ (st.state = .armed ∨ st.state = .running)
    let left : Stream := { st with finishing := rest }
    let back := fun (w : Grant) => ({ left with waiting := st.waiting ++ [w] } : Stream)
    let fresh := fun (z : ReplyQueue) => z.occupied + z.reserved + 2 ≤ z.size - 1
    st.finishing = g :: rest →
    ((∃ o ∈ st.staging, o.grant = g.number) → exec (.retirement i) s = .next s) ∧
    ((∀ o ∈ st.staging, o.grant ≠ g.number) →
      (g.notify = true → g.reserved = true → x.reserved ≠ 0 →
        exec (.retirement i) s =
          .next
            (if ¬recycles then
              { s with streams := s.streams.set i left, replyQueues := s.replyQueues.set st.replyQueue y }
            else if fresh y then
              { s with
                streams := s.streams.set i (back { g with fill := 0, firstSeq := none, missed := 0 })
                replyQueues := s.replyQueues.set st.replyQueue { y with reserved := y.reserved + 1 } }
            else
              { s with
                streams := s.streams.set i
                  (back { g with fill := 0, firstSeq := none, reserved := false, missed := 1 })
                replyQueues := s.replyQueues.set st.replyQueue y })) ∧
      (g.notify = true → g.reserved = false →
        exec (.retirement i) s =
          .next
            (if ¬recycles then { s with streams := s.streams.set i left }
            else if fresh x then
              { s with
                streams := s.streams.set i (back { g with fill := 0, firstSeq := none, reserved := true })
                replyQueues := s.replyQueues.set st.replyQueue { x with reserved := x.reserved + 1 } }
            else
              { s with
                streams := s.streams.set i
                  (back { g with fill := 0, firstSeq := none, missed := min 255 (g.missed + 1) }) })) ∧
      (g.notify = false → g.reserved = false →
        exec (.retirement i) s =
          .next { s with
            streams := s.streams.set i (if recycles then back { g with fill := 0, firstSeq := none } else left) }))

/-- A CLOSING stream with nothing outstanding passes through its closing steps: it is CLOSED with every field of a
CLOSED stream, its ports have no holder, its park word is on its port, and its CLOSE has ended; with no current grant
its reply carries the count and the grants returned, and with one the replies are left open here; nothing else changes.
With an item in staging it goes on waiting (R21). That a read detached by the end of an earlier run is not waited for is
the model's reading (log 14). The row acts only where it is due (logs 2 and 3). -/
def Obligations.ClosingStepsClose : Prop :=
  ∀ (s : State) (i : StreamId) (c : Closing) (x : Entry), s.Calm →
    let st := s.stream i
    st.state = .closing → st.closing = some c → s.entry c.slot = some x →
    (st.staging ≠ [] → exec (.closingSteps i) s = .next s) ∧
    (st.staging = [] → s.transferOf (.closing i) = false → (∀ n ∈ st.scanList, (s.port n).phase = .idle) →
      ∃ t, exec (.closingSteps i) s = .next t ∧ t.stream i = Stream.empty ∧
        (∀ n, t.holder n = if n ∈ st.scanList ∧ s.holder n = some i then none else s.holder n) ∧
        (∀ n, t.patHolder n = if n = st.patternPort ∧ s.patHolder n = some i then none else s.patHolder n) ∧
        (∀ p, t.pacer p = if st.kind = some .ring ∧ p = st.pacer then Pacer.zero else s.pacer p) ∧
        (∀ n, t.portWord n = if n = st.patternPort then st.park.getD (s.portWord n) else s.portWord n) ∧
        (∀ k, t.entry k = if k = c.slot then none else s.entry k) ∧
        (∀ j, j ≠ i → t.stream j = s.stream j) ∧
        (∀ rec, x.record = some rec → (s.rq x.replyQueue).reserved ≠ 0 → st.current = none →
          t.replyQueues = (s.answered c.slot x rec .ok st.produced (BitVec.ofNat 32 c.reclaimed)).replyQueues) ∧
        t = { s with
          streams := t.streams
          portHolder := t.portHolder
          patternHolder := t.patternHolder
          pacers := t.pacers
          patternWord := t.patternWord
          replyQueues := t.replyQueues
          inflight := t.inflight })

/-- A DELETING queue with no outstanding work becomes ABSENT and its DELETE_CQ replies OK with the values fixed when it
was taken; with outstanding work nothing changes (R125). The reply queue field of an ABSENT queue is the model's (log
31). The row acts only where it is due (logs 2 and 3). -/
def Obligations.DeletionCompletes : Prop :=
  ∀ (s : State) (q : CqId) (k : SlotId) (e : Entry) (rec : Record),
    let v : State := { s with queues := s.queues.set q CommandQueue.absent }
    (s.queue q).state = .deleting →
    (s.outstandingWork q ≠ 0 → exec (.deletingDone q) s = .next s) ∧
    (s.outstandingWork q = 0 → v.Calm → s.deleteEntry q = some k → s.entry k = some e → e.record = some rec →
      (s.rq e.replyQueue).reserved ≠ 0 →
      exec (.deletingDone q) s = .next (v.answered k e rec .ok e.value1 e.value2))
end

