-- ==== Sys2Proof/Laws/State.lean ====
section
/-! SUPPORT. What replacing one element of a table does to every field and every table of the state: one lemma per
field and per table for each update, each true by rfl, and the element lemma of each table. -/

namespace Sys2Proof.Machine

/-- Reading a vector after one element is replaced. -/
theorem vector_get_set {α : Type} {n : Nat} (v : Vector α n) (i j : Fin n) (x : α) :
    (v.set i x).get j = if i = j then x else v.get j := by
  simp only [Vector.get_eq_getElem, Vector.getElem_set, Fin.ext_iff]

/-- Replacing one element twice leaves the second. -/
theorem vector_set_set {α : Type} {n : Nat} (v : Vector α n) (i : Fin n) (x y : α) :
    (v.set i x).set i y = v.set i y := by
  simp

/-- Replacing an element by itself changes nothing. -/
theorem vector_set_self {α : Type} {n : Nat} (v : Vector α n) (i : Fin n) : v.set i (v.get i) = v := by
  simp [Vector.get_eq_getElem]

/-! ## setPacer -/

theorem State.setPacer_pacer (s : State) (k l : PacerId) (x : Pacer) :
    (s.setPacer k x).pacer l = if k = l then x else s.pacer l := vector_get_set _ _ _ _

@[simp] theorem State.setPacer_pacer_self (s : State) (k : PacerId) (x : Pacer) : (s.setPacer k x).pacer k = x := by
  simp [State.setPacer_pacer]

theorem State.setPacer_pacer_ne (s : State) (k l : PacerId) (x : Pacer) (h : k ≠ l) : (s.setPacer k x).pacer l = s.pacer l := by
  simp [State.setPacer_pacer, h]

@[simp] theorem State.setPacer_setPacer (s : State) (k : PacerId) (x y : Pacer) : (s.setPacer k x).setPacer k y = s.setPacer k y := by
  simp [State.setPacer]

@[simp] theorem State.setPacer_input (s : State) (k : PacerId) (x : Pacer) (l : InputId) : (s.setPacer k x).input l = s.input l := rfl
@[simp] theorem State.setPacer_port (s : State) (k : PacerId) (x : Pacer) (l : PortId) : (s.setPacer k x).port l = s.port l := rfl
@[simp] theorem State.setPacer_stream (s : State) (k : PacerId) (x : Pacer) (l : StreamId) : (s.setPacer k x).stream l = s.stream l := rfl
@[simp] theorem State.setPacer_holder (s : State) (k : PacerId) (x : Pacer) (l : PortId) : (s.setPacer k x).holder l = s.holder l := rfl
@[simp] theorem State.setPacer_patHolder (s : State) (k : PacerId) (x : Pacer) (l : PortId) : (s.setPacer k x).patHolder l = s.patHolder l := rfl
@[simp] theorem State.setPacer_portWord (s : State) (k : PacerId) (x : Pacer) (l : PortId) : (s.setPacer k x).portWord l = s.portWord l := rfl
@[simp] theorem State.setPacer_queue (s : State) (k : PacerId) (x : Pacer) (l : CqId) : (s.setPacer k x).queue l = s.queue l := rfl
@[simp] theorem State.setPacer_entry (s : State) (k : PacerId) (x : Pacer) (l : SlotId) : (s.setPacer k x).entry l = s.entry l := rfl
@[simp] theorem State.setPacer_rq (s : State) (k : PacerId) (x : Pacer) (l : RqId) : (s.setPacer k x).rq l = s.rq l := rfl

@[simp] theorem State.setPacer_timebase (s : State) (k : PacerId) (x : Pacer) : (s.setPacer k x).timebase = s.timebase := rfl
@[simp] theorem State.setPacer_inputs (s : State) (k : PacerId) (x : Pacer) : (s.setPacer k x).inputs = s.inputs := rfl
@[simp] theorem State.setPacer_emitted (s : State) (k : PacerId) (x : Pacer) : (s.setPacer k x).emitted = s.emitted := rfl
@[simp] theorem State.setPacer_order (s : State) (k : PacerId) (x : Pacer) : (s.setPacer k x).order = s.order := rfl
@[simp] theorem State.setPacer_ports (s : State) (k : PacerId) (x : Pacer) : (s.setPacer k x).ports = s.ports := rfl
@[simp] theorem State.setPacer_streams (s : State) (k : PacerId) (x : Pacer) : (s.setPacer k x).streams = s.streams := rfl
@[simp] theorem State.setPacer_portHolder (s : State) (k : PacerId) (x : Pacer) : (s.setPacer k x).portHolder = s.portHolder := rfl
@[simp] theorem State.setPacer_patternHolder (s : State) (k : PacerId) (x : Pacer) : (s.setPacer k x).patternHolder = s.patternHolder := rfl
@[simp] theorem State.setPacer_patternWord (s : State) (k : PacerId) (x : Pacer) : (s.setPacer k x).patternWord = s.patternWord := rfl
@[simp] theorem State.setPacer_patternMemory (s : State) (k : PacerId) (x : Pacer) : (s.setPacer k x).patternMemory = s.patternMemory := rfl
@[simp] theorem State.setPacer_loads (s : State) (k : PacerId) (x : Pacer) : (s.setPacer k x).loads = s.loads := rfl
@[simp] theorem State.setPacer_queues (s : State) (k : PacerId) (x : Pacer) : (s.setPacer k x).queues = s.queues := rfl
@[simp] theorem State.setPacer_inflight (s : State) (k : PacerId) (x : Pacer) : (s.setPacer k x).inflight = s.inflight := rfl
@[simp] theorem State.setPacer_fetch (s : State) (k : PacerId) (x : Pacer) : (s.setPacer k x).fetch = s.fetch := rfl
@[simp] theorem State.setPacer_lastServed (s : State) (k : PacerId) (x : Pacer) : (s.setPacer k x).lastServed = s.lastServed := rfl
@[simp] theorem State.setPacer_replyQueues (s : State) (k : PacerId) (x : Pacer) : (s.setPacer k x).replyQueues = s.replyQueues := rfl
@[simp] theorem State.setPacer_statusWrites (s : State) (k : PacerId) (x : Pacer) : (s.setPacer k x).statusWrites = s.statusWrites := rfl
@[simp] theorem State.setPacer_sending (s : State) (k : PacerId) (x : Pacer) : (s.setPacer k x).sending = s.sending := rfl
@[simp] theorem State.setPacer_outstanding (s : State) (k : PacerId) (x : Pacer) : (s.setPacer k x).outstanding = s.outstanding := rfl
@[simp] theorem State.setPacer_lastStream (s : State) (k : PacerId) (x : Pacer) : (s.setPacer k x).lastStream = s.lastStream := rfl
@[simp] theorem State.setPacer_lastReplyQueue (s : State) (k : PacerId) (x : Pacer) : (s.setPacer k x).lastReplyQueue = s.lastReplyQueue := rfl
@[simp] theorem State.setPacer_streamRun (s : State) (k : PacerId) (x : Pacer) : (s.setPacer k x).streamRun = s.streamRun := rfl
@[simp] theorem State.setPacer_nextTag (s : State) (k : PacerId) (x : Pacer) : (s.setPacer k x).nextTag = s.nextTag := rfl
@[simp] theorem State.setPacer_device (s : State) (k : PacerId) (x : Pacer) : (s.setPacer k x).device = s.device := rfl
@[simp] theorem State.setPacer_cause (s : State) (k : PacerId) (x : Pacer) : (s.setPacer k x).cause = s.cause := rfl
@[simp] theorem State.setPacer_aqbase (s : State) (k : PacerId) (x : Pacer) : (s.setPacer k x).aqbase = s.aqbase := rfl
@[simp] theorem State.setPacer_arbase (s : State) (k : PacerId) (x : Pacer) : (s.setPacer k x).arbase = s.arbase := rfl
@[simp] theorem State.setPacer_qsize (s : State) (k : PacerId) (x : Pacer) : (s.setPacer k x).qsize = s.qsize := rfl
@[simp] theorem State.setPacer_link (s : State) (k : PacerId) (x : Pacer) : (s.setPacer k x).link = s.link := rfl
@[simp] theorem State.setPacer_linkUp (s : State) (k : PacerId) (x : Pacer) : (s.setPacer k x).linkUp = s.linkUp := rfl
@[simp] theorem State.setPacer_pending (s : State) (k : PacerId) (x : Pacer) : (s.setPacer k x).pending = s.pending := rfl

/-! ## setInput -/

theorem State.setInput_input (s : State) (k l : InputId) (x : Input) :
    (s.setInput k x).input l = if k = l then x else s.input l := vector_get_set _ _ _ _

@[simp] theorem State.setInput_input_self (s : State) (k : InputId) (x : Input) : (s.setInput k x).input k = x := by
  simp [State.setInput_input]

theorem State.setInput_input_ne (s : State) (k l : InputId) (x : Input) (h : k ≠ l) : (s.setInput k x).input l = s.input l := by
  simp [State.setInput_input, h]

@[simp] theorem State.setInput_setInput (s : State) (k : InputId) (x y : Input) : (s.setInput k x).setInput k y = s.setInput k y := by
  simp [State.setInput]

@[simp] theorem State.setInput_pacer (s : State) (k : InputId) (x : Input) (l : PacerId) : (s.setInput k x).pacer l = s.pacer l := rfl
@[simp] theorem State.setInput_port (s : State) (k : InputId) (x : Input) (l : PortId) : (s.setInput k x).port l = s.port l := rfl
@[simp] theorem State.setInput_stream (s : State) (k : InputId) (x : Input) (l : StreamId) : (s.setInput k x).stream l = s.stream l := rfl
@[simp] theorem State.setInput_holder (s : State) (k : InputId) (x : Input) (l : PortId) : (s.setInput k x).holder l = s.holder l := rfl
@[simp] theorem State.setInput_patHolder (s : State) (k : InputId) (x : Input) (l : PortId) : (s.setInput k x).patHolder l = s.patHolder l := rfl
@[simp] theorem State.setInput_portWord (s : State) (k : InputId) (x : Input) (l : PortId) : (s.setInput k x).portWord l = s.portWord l := rfl
@[simp] theorem State.setInput_queue (s : State) (k : InputId) (x : Input) (l : CqId) : (s.setInput k x).queue l = s.queue l := rfl
@[simp] theorem State.setInput_entry (s : State) (k : InputId) (x : Input) (l : SlotId) : (s.setInput k x).entry l = s.entry l := rfl
@[simp] theorem State.setInput_rq (s : State) (k : InputId) (x : Input) (l : RqId) : (s.setInput k x).rq l = s.rq l := rfl

@[simp] theorem State.setInput_timebase (s : State) (k : InputId) (x : Input) : (s.setInput k x).timebase = s.timebase := rfl
@[simp] theorem State.setInput_pacers (s : State) (k : InputId) (x : Input) : (s.setInput k x).pacers = s.pacers := rfl
@[simp] theorem State.setInput_emitted (s : State) (k : InputId) (x : Input) : (s.setInput k x).emitted = s.emitted := rfl
@[simp] theorem State.setInput_order (s : State) (k : InputId) (x : Input) : (s.setInput k x).order = s.order := rfl
@[simp] theorem State.setInput_ports (s : State) (k : InputId) (x : Input) : (s.setInput k x).ports = s.ports := rfl
@[simp] theorem State.setInput_streams (s : State) (k : InputId) (x : Input) : (s.setInput k x).streams = s.streams := rfl
@[simp] theorem State.setInput_portHolder (s : State) (k : InputId) (x : Input) : (s.setInput k x).portHolder = s.portHolder := rfl
@[simp] theorem State.setInput_patternHolder (s : State) (k : InputId) (x : Input) : (s.setInput k x).patternHolder = s.patternHolder := rfl
@[simp] theorem State.setInput_patternWord (s : State) (k : InputId) (x : Input) : (s.setInput k x).patternWord = s.patternWord := rfl
@[simp] theorem State.setInput_patternMemory (s : State) (k : InputId) (x : Input) : (s.setInput k x).patternMemory = s.patternMemory := rfl
@[simp] theorem State.setInput_loads (s : State) (k : InputId) (x : Input) : (s.setInput k x).loads = s.loads := rfl
@[simp] theorem State.setInput_queues (s : State) (k : InputId) (x : Input) : (s.setInput k x).queues = s.queues := rfl
@[simp] theorem State.setInput_inflight (s : State) (k : InputId) (x : Input) : (s.setInput k x).inflight = s.inflight := rfl
@[simp] theorem State.setInput_fetch (s : State) (k : InputId) (x : Input) : (s.setInput k x).fetch = s.fetch := rfl
@[simp] theorem State.setInput_lastServed (s : State) (k : InputId) (x : Input) : (s.setInput k x).lastServed = s.lastServed := rfl
@[simp] theorem State.setInput_replyQueues (s : State) (k : InputId) (x : Input) : (s.setInput k x).replyQueues = s.replyQueues := rfl
@[simp] theorem State.setInput_statusWrites (s : State) (k : InputId) (x : Input) : (s.setInput k x).statusWrites = s.statusWrites := rfl
@[simp] theorem State.setInput_sending (s : State) (k : InputId) (x : Input) : (s.setInput k x).sending = s.sending := rfl
@[simp] theorem State.setInput_outstanding (s : State) (k : InputId) (x : Input) : (s.setInput k x).outstanding = s.outstanding := rfl
@[simp] theorem State.setInput_lastStream (s : State) (k : InputId) (x : Input) : (s.setInput k x).lastStream = s.lastStream := rfl
@[simp] theorem State.setInput_lastReplyQueue (s : State) (k : InputId) (x : Input) : (s.setInput k x).lastReplyQueue = s.lastReplyQueue := rfl
@[simp] theorem State.setInput_streamRun (s : State) (k : InputId) (x : Input) : (s.setInput k x).streamRun = s.streamRun := rfl
@[simp] theorem State.setInput_nextTag (s : State) (k : InputId) (x : Input) : (s.setInput k x).nextTag = s.nextTag := rfl
@[simp] theorem State.setInput_device (s : State) (k : InputId) (x : Input) : (s.setInput k x).device = s.device := rfl
@[simp] theorem State.setInput_cause (s : State) (k : InputId) (x : Input) : (s.setInput k x).cause = s.cause := rfl
@[simp] theorem State.setInput_aqbase (s : State) (k : InputId) (x : Input) : (s.setInput k x).aqbase = s.aqbase := rfl
@[simp] theorem State.setInput_arbase (s : State) (k : InputId) (x : Input) : (s.setInput k x).arbase = s.arbase := rfl
@[simp] theorem State.setInput_qsize (s : State) (k : InputId) (x : Input) : (s.setInput k x).qsize = s.qsize := rfl
@[simp] theorem State.setInput_link (s : State) (k : InputId) (x : Input) : (s.setInput k x).link = s.link := rfl
@[simp] theorem State.setInput_linkUp (s : State) (k : InputId) (x : Input) : (s.setInput k x).linkUp = s.linkUp := rfl
@[simp] theorem State.setInput_pending (s : State) (k : InputId) (x : Input) : (s.setInput k x).pending = s.pending := rfl

/-! ## setPort -/

theorem State.setPort_port (s : State) (k l : PortId) (x : SamplePort) :
    (s.setPort k x).port l = if k = l then x else s.port l := vector_get_set _ _ _ _

@[simp] theorem State.setPort_port_self (s : State) (k : PortId) (x : SamplePort) : (s.setPort k x).port k = x := by
  simp [State.setPort_port]

theorem State.setPort_port_ne (s : State) (k l : PortId) (x : SamplePort) (h : k ≠ l) : (s.setPort k x).port l = s.port l := by
  simp [State.setPort_port, h]

@[simp] theorem State.setPort_setPort (s : State) (k : PortId) (x y : SamplePort) : (s.setPort k x).setPort k y = s.setPort k y := by
  simp [State.setPort]

@[simp] theorem State.setPort_pacer (s : State) (k : PortId) (x : SamplePort) (l : PacerId) : (s.setPort k x).pacer l = s.pacer l := rfl
@[simp] theorem State.setPort_input (s : State) (k : PortId) (x : SamplePort) (l : InputId) : (s.setPort k x).input l = s.input l := rfl
@[simp] theorem State.setPort_stream (s : State) (k : PortId) (x : SamplePort) (l : StreamId) : (s.setPort k x).stream l = s.stream l := rfl
@[simp] theorem State.setPort_holder (s : State) (k : PortId) (x : SamplePort) (l : PortId) : (s.setPort k x).holder l = s.holder l := rfl
@[simp] theorem State.setPort_patHolder (s : State) (k : PortId) (x : SamplePort) (l : PortId) : (s.setPort k x).patHolder l = s.patHolder l := rfl
@[simp] theorem State.setPort_portWord (s : State) (k : PortId) (x : SamplePort) (l : PortId) : (s.setPort k x).portWord l = s.portWord l := rfl
@[simp] theorem State.setPort_queue (s : State) (k : PortId) (x : SamplePort) (l : CqId) : (s.setPort k x).queue l = s.queue l := rfl
@[simp] theorem State.setPort_entry (s : State) (k : PortId) (x : SamplePort) (l : SlotId) : (s.setPort k x).entry l = s.entry l := rfl
@[simp] theorem State.setPort_rq (s : State) (k : PortId) (x : SamplePort) (l : RqId) : (s.setPort k x).rq l = s.rq l := rfl

@[simp] theorem State.setPort_timebase (s : State) (k : PortId) (x : SamplePort) : (s.setPort k x).timebase = s.timebase := rfl
@[simp] theorem State.setPort_pacers (s : State) (k : PortId) (x : SamplePort) : (s.setPort k x).pacers = s.pacers := rfl
@[simp] theorem State.setPort_inputs (s : State) (k : PortId) (x : SamplePort) : (s.setPort k x).inputs = s.inputs := rfl
@[simp] theorem State.setPort_emitted (s : State) (k : PortId) (x : SamplePort) : (s.setPort k x).emitted = s.emitted := rfl
@[simp] theorem State.setPort_order (s : State) (k : PortId) (x : SamplePort) : (s.setPort k x).order = s.order := rfl
@[simp] theorem State.setPort_streams (s : State) (k : PortId) (x : SamplePort) : (s.setPort k x).streams = s.streams := rfl
@[simp] theorem State.setPort_portHolder (s : State) (k : PortId) (x : SamplePort) : (s.setPort k x).portHolder = s.portHolder := rfl
@[simp] theorem State.setPort_patternHolder (s : State) (k : PortId) (x : SamplePort) : (s.setPort k x).patternHolder = s.patternHolder := rfl
@[simp] theorem State.setPort_patternWord (s : State) (k : PortId) (x : SamplePort) : (s.setPort k x).patternWord = s.patternWord := rfl
@[simp] theorem State.setPort_patternMemory (s : State) (k : PortId) (x : SamplePort) : (s.setPort k x).patternMemory = s.patternMemory := rfl
@[simp] theorem State.setPort_loads (s : State) (k : PortId) (x : SamplePort) : (s.setPort k x).loads = s.loads := rfl
@[simp] theorem State.setPort_queues (s : State) (k : PortId) (x : SamplePort) : (s.setPort k x).queues = s.queues := rfl
@[simp] theorem State.setPort_inflight (s : State) (k : PortId) (x : SamplePort) : (s.setPort k x).inflight = s.inflight := rfl
@[simp] theorem State.setPort_fetch (s : State) (k : PortId) (x : SamplePort) : (s.setPort k x).fetch = s.fetch := rfl
@[simp] theorem State.setPort_lastServed (s : State) (k : PortId) (x : SamplePort) : (s.setPort k x).lastServed = s.lastServed := rfl
@[simp] theorem State.setPort_replyQueues (s : State) (k : PortId) (x : SamplePort) : (s.setPort k x).replyQueues = s.replyQueues := rfl
@[simp] theorem State.setPort_statusWrites (s : State) (k : PortId) (x : SamplePort) : (s.setPort k x).statusWrites = s.statusWrites := rfl
@[simp] theorem State.setPort_sending (s : State) (k : PortId) (x : SamplePort) : (s.setPort k x).sending = s.sending := rfl
@[simp] theorem State.setPort_outstanding (s : State) (k : PortId) (x : SamplePort) : (s.setPort k x).outstanding = s.outstanding := rfl
@[simp] theorem State.setPort_lastStream (s : State) (k : PortId) (x : SamplePort) : (s.setPort k x).lastStream = s.lastStream := rfl
@[simp] theorem State.setPort_lastReplyQueue (s : State) (k : PortId) (x : SamplePort) : (s.setPort k x).lastReplyQueue = s.lastReplyQueue := rfl
@[simp] theorem State.setPort_streamRun (s : State) (k : PortId) (x : SamplePort) : (s.setPort k x).streamRun = s.streamRun := rfl
@[simp] theorem State.setPort_nextTag (s : State) (k : PortId) (x : SamplePort) : (s.setPort k x).nextTag = s.nextTag := rfl
@[simp] theorem State.setPort_device (s : State) (k : PortId) (x : SamplePort) : (s.setPort k x).device = s.device := rfl
@[simp] theorem State.setPort_cause (s : State) (k : PortId) (x : SamplePort) : (s.setPort k x).cause = s.cause := rfl
@[simp] theorem State.setPort_aqbase (s : State) (k : PortId) (x : SamplePort) : (s.setPort k x).aqbase = s.aqbase := rfl
@[simp] theorem State.setPort_arbase (s : State) (k : PortId) (x : SamplePort) : (s.setPort k x).arbase = s.arbase := rfl
@[simp] theorem State.setPort_qsize (s : State) (k : PortId) (x : SamplePort) : (s.setPort k x).qsize = s.qsize := rfl
@[simp] theorem State.setPort_link (s : State) (k : PortId) (x : SamplePort) : (s.setPort k x).link = s.link := rfl
@[simp] theorem State.setPort_linkUp (s : State) (k : PortId) (x : SamplePort) : (s.setPort k x).linkUp = s.linkUp := rfl
@[simp] theorem State.setPort_pending (s : State) (k : PortId) (x : SamplePort) : (s.setPort k x).pending = s.pending := rfl

/-! ## setStream -/

theorem State.setStream_stream (s : State) (k l : StreamId) (x : Stream) :
    (s.setStream k x).stream l = if k = l then x else s.stream l := vector_get_set _ _ _ _

@[simp] theorem State.setStream_stream_self (s : State) (k : StreamId) (x : Stream) : (s.setStream k x).stream k = x := by
  simp [State.setStream_stream]

theorem State.setStream_stream_ne (s : State) (k l : StreamId) (x : Stream) (h : k ≠ l) : (s.setStream k x).stream l = s.stream l := by
  simp [State.setStream_stream, h]

@[simp] theorem State.setStream_setStream (s : State) (k : StreamId) (x y : Stream) : (s.setStream k x).setStream k y = s.setStream k y := by
  simp [State.setStream]

@[simp] theorem State.setStream_pacer (s : State) (k : StreamId) (x : Stream) (l : PacerId) : (s.setStream k x).pacer l = s.pacer l := rfl
@[simp] theorem State.setStream_input (s : State) (k : StreamId) (x : Stream) (l : InputId) : (s.setStream k x).input l = s.input l := rfl
@[simp] theorem State.setStream_port (s : State) (k : StreamId) (x : Stream) (l : PortId) : (s.setStream k x).port l = s.port l := rfl
@[simp] theorem State.setStream_holder (s : State) (k : StreamId) (x : Stream) (l : PortId) : (s.setStream k x).holder l = s.holder l := rfl
@[simp] theorem State.setStream_patHolder (s : State) (k : StreamId) (x : Stream) (l : PortId) : (s.setStream k x).patHolder l = s.patHolder l := rfl
@[simp] theorem State.setStream_portWord (s : State) (k : StreamId) (x : Stream) (l : PortId) : (s.setStream k x).portWord l = s.portWord l := rfl
@[simp] theorem State.setStream_queue (s : State) (k : StreamId) (x : Stream) (l : CqId) : (s.setStream k x).queue l = s.queue l := rfl
@[simp] theorem State.setStream_entry (s : State) (k : StreamId) (x : Stream) (l : SlotId) : (s.setStream k x).entry l = s.entry l := rfl
@[simp] theorem State.setStream_rq (s : State) (k : StreamId) (x : Stream) (l : RqId) : (s.setStream k x).rq l = s.rq l := rfl

@[simp] theorem State.setStream_timebase (s : State) (k : StreamId) (x : Stream) : (s.setStream k x).timebase = s.timebase := rfl
@[simp] theorem State.setStream_pacers (s : State) (k : StreamId) (x : Stream) : (s.setStream k x).pacers = s.pacers := rfl
@[simp] theorem State.setStream_inputs (s : State) (k : StreamId) (x : Stream) : (s.setStream k x).inputs = s.inputs := rfl
@[simp] theorem State.setStream_emitted (s : State) (k : StreamId) (x : Stream) : (s.setStream k x).emitted = s.emitted := rfl
@[simp] theorem State.setStream_order (s : State) (k : StreamId) (x : Stream) : (s.setStream k x).order = s.order := rfl
@[simp] theorem State.setStream_ports (s : State) (k : StreamId) (x : Stream) : (s.setStream k x).ports = s.ports := rfl
@[simp] theorem State.setStream_portHolder (s : State) (k : StreamId) (x : Stream) : (s.setStream k x).portHolder = s.portHolder := rfl
@[simp] theorem State.setStream_patternHolder (s : State) (k : StreamId) (x : Stream) : (s.setStream k x).patternHolder = s.patternHolder := rfl
@[simp] theorem State.setStream_patternWord (s : State) (k : StreamId) (x : Stream) : (s.setStream k x).patternWord = s.patternWord := rfl
@[simp] theorem State.setStream_patternMemory (s : State) (k : StreamId) (x : Stream) : (s.setStream k x).patternMemory = s.patternMemory := rfl
@[simp] theorem State.setStream_loads (s : State) (k : StreamId) (x : Stream) : (s.setStream k x).loads = s.loads := rfl
@[simp] theorem State.setStream_queues (s : State) (k : StreamId) (x : Stream) : (s.setStream k x).queues = s.queues := rfl
@[simp] theorem State.setStream_inflight (s : State) (k : StreamId) (x : Stream) : (s.setStream k x).inflight = s.inflight := rfl
@[simp] theorem State.setStream_fetch (s : State) (k : StreamId) (x : Stream) : (s.setStream k x).fetch = s.fetch := rfl
@[simp] theorem State.setStream_lastServed (s : State) (k : StreamId) (x : Stream) : (s.setStream k x).lastServed = s.lastServed := rfl
@[simp] theorem State.setStream_replyQueues (s : State) (k : StreamId) (x : Stream) : (s.setStream k x).replyQueues = s.replyQueues := rfl
@[simp] theorem State.setStream_statusWrites (s : State) (k : StreamId) (x : Stream) : (s.setStream k x).statusWrites = s.statusWrites := rfl
@[simp] theorem State.setStream_sending (s : State) (k : StreamId) (x : Stream) : (s.setStream k x).sending = s.sending := rfl
@[simp] theorem State.setStream_outstanding (s : State) (k : StreamId) (x : Stream) : (s.setStream k x).outstanding = s.outstanding := rfl
@[simp] theorem State.setStream_lastStream (s : State) (k : StreamId) (x : Stream) : (s.setStream k x).lastStream = s.lastStream := rfl
@[simp] theorem State.setStream_lastReplyQueue (s : State) (k : StreamId) (x : Stream) : (s.setStream k x).lastReplyQueue = s.lastReplyQueue := rfl
@[simp] theorem State.setStream_streamRun (s : State) (k : StreamId) (x : Stream) : (s.setStream k x).streamRun = s.streamRun := rfl
@[simp] theorem State.setStream_nextTag (s : State) (k : StreamId) (x : Stream) : (s.setStream k x).nextTag = s.nextTag := rfl
@[simp] theorem State.setStream_device (s : State) (k : StreamId) (x : Stream) : (s.setStream k x).device = s.device := rfl
@[simp] theorem State.setStream_cause (s : State) (k : StreamId) (x : Stream) : (s.setStream k x).cause = s.cause := rfl
@[simp] theorem State.setStream_aqbase (s : State) (k : StreamId) (x : Stream) : (s.setStream k x).aqbase = s.aqbase := rfl
@[simp] theorem State.setStream_arbase (s : State) (k : StreamId) (x : Stream) : (s.setStream k x).arbase = s.arbase := rfl
@[simp] theorem State.setStream_qsize (s : State) (k : StreamId) (x : Stream) : (s.setStream k x).qsize = s.qsize := rfl
@[simp] theorem State.setStream_link (s : State) (k : StreamId) (x : Stream) : (s.setStream k x).link = s.link := rfl
@[simp] theorem State.setStream_linkUp (s : State) (k : StreamId) (x : Stream) : (s.setStream k x).linkUp = s.linkUp := rfl
@[simp] theorem State.setStream_pending (s : State) (k : StreamId) (x : Stream) : (s.setStream k x).pending = s.pending := rfl

/-! ## setHolder -/

theorem State.setHolder_holder (s : State) (k l : PortId) (x : Option StreamId) :
    (s.setHolder k x).holder l = if k = l then x else s.holder l := vector_get_set _ _ _ _

@[simp] theorem State.setHolder_holder_self (s : State) (k : PortId) (x : Option StreamId) : (s.setHolder k x).holder k = x := by
  simp [State.setHolder_holder]

theorem State.setHolder_holder_ne (s : State) (k l : PortId) (x : Option StreamId) (h : k ≠ l) : (s.setHolder k x).holder l = s.holder l := by
  simp [State.setHolder_holder, h]

@[simp] theorem State.setHolder_setHolder (s : State) (k : PortId) (x y : Option StreamId) : (s.setHolder k x).setHolder k y = s.setHolder k y := by
  simp [State.setHolder]

@[simp] theorem State.setHolder_pacer (s : State) (k : PortId) (x : Option StreamId) (l : PacerId) : (s.setHolder k x).pacer l = s.pacer l := rfl
@[simp] theorem State.setHolder_input (s : State) (k : PortId) (x : Option StreamId) (l : InputId) : (s.setHolder k x).input l = s.input l := rfl
@[simp] theorem State.setHolder_port (s : State) (k : PortId) (x : Option StreamId) (l : PortId) : (s.setHolder k x).port l = s.port l := rfl
@[simp] theorem State.setHolder_stream (s : State) (k : PortId) (x : Option StreamId) (l : StreamId) : (s.setHolder k x).stream l = s.stream l := rfl
@[simp] theorem State.setHolder_patHolder (s : State) (k : PortId) (x : Option StreamId) (l : PortId) : (s.setHolder k x).patHolder l = s.patHolder l := rfl
@[simp] theorem State.setHolder_portWord (s : State) (k : PortId) (x : Option StreamId) (l : PortId) : (s.setHolder k x).portWord l = s.portWord l := rfl
@[simp] theorem State.setHolder_queue (s : State) (k : PortId) (x : Option StreamId) (l : CqId) : (s.setHolder k x).queue l = s.queue l := rfl
@[simp] theorem State.setHolder_entry (s : State) (k : PortId) (x : Option StreamId) (l : SlotId) : (s.setHolder k x).entry l = s.entry l := rfl
@[simp] theorem State.setHolder_rq (s : State) (k : PortId) (x : Option StreamId) (l : RqId) : (s.setHolder k x).rq l = s.rq l := rfl

@[simp] theorem State.setHolder_timebase (s : State) (k : PortId) (x : Option StreamId) : (s.setHolder k x).timebase = s.timebase := rfl
@[simp] theorem State.setHolder_pacers (s : State) (k : PortId) (x : Option StreamId) : (s.setHolder k x).pacers = s.pacers := rfl
@[simp] theorem State.setHolder_inputs (s : State) (k : PortId) (x : Option StreamId) : (s.setHolder k x).inputs = s.inputs := rfl
@[simp] theorem State.setHolder_emitted (s : State) (k : PortId) (x : Option StreamId) : (s.setHolder k x).emitted = s.emitted := rfl
@[simp] theorem State.setHolder_order (s : State) (k : PortId) (x : Option StreamId) : (s.setHolder k x).order = s.order := rfl
@[simp] theorem State.setHolder_ports (s : State) (k : PortId) (x : Option StreamId) : (s.setHolder k x).ports = s.ports := rfl
@[simp] theorem State.setHolder_streams (s : State) (k : PortId) (x : Option StreamId) : (s.setHolder k x).streams = s.streams := rfl
@[simp] theorem State.setHolder_patternHolder (s : State) (k : PortId) (x : Option StreamId) : (s.setHolder k x).patternHolder = s.patternHolder := rfl
@[simp] theorem State.setHolder_patternWord (s : State) (k : PortId) (x : Option StreamId) : (s.setHolder k x).patternWord = s.patternWord := rfl
@[simp] theorem State.setHolder_patternMemory (s : State) (k : PortId) (x : Option StreamId) : (s.setHolder k x).patternMemory = s.patternMemory := rfl
@[simp] theorem State.setHolder_loads (s : State) (k : PortId) (x : Option StreamId) : (s.setHolder k x).loads = s.loads := rfl
@[simp] theorem State.setHolder_queues (s : State) (k : PortId) (x : Option StreamId) : (s.setHolder k x).queues = s.queues := rfl
@[simp] theorem State.setHolder_inflight (s : State) (k : PortId) (x : Option StreamId) : (s.setHolder k x).inflight = s.inflight := rfl
@[simp] theorem State.setHolder_fetch (s : State) (k : PortId) (x : Option StreamId) : (s.setHolder k x).fetch = s.fetch := rfl
@[simp] theorem State.setHolder_lastServed (s : State) (k : PortId) (x : Option StreamId) : (s.setHolder k x).lastServed = s.lastServed := rfl
@[simp] theorem State.setHolder_replyQueues (s : State) (k : PortId) (x : Option StreamId) : (s.setHolder k x).replyQueues = s.replyQueues := rfl
@[simp] theorem State.setHolder_statusWrites (s : State) (k : PortId) (x : Option StreamId) : (s.setHolder k x).statusWrites = s.statusWrites := rfl
@[simp] theorem State.setHolder_sending (s : State) (k : PortId) (x : Option StreamId) : (s.setHolder k x).sending = s.sending := rfl
@[simp] theorem State.setHolder_outstanding (s : State) (k : PortId) (x : Option StreamId) : (s.setHolder k x).outstanding = s.outstanding := rfl
@[simp] theorem State.setHolder_lastStream (s : State) (k : PortId) (x : Option StreamId) : (s.setHolder k x).lastStream = s.lastStream := rfl
@[simp] theorem State.setHolder_lastReplyQueue (s : State) (k : PortId) (x : Option StreamId) : (s.setHolder k x).lastReplyQueue = s.lastReplyQueue := rfl
@[simp] theorem State.setHolder_streamRun (s : State) (k : PortId) (x : Option StreamId) : (s.setHolder k x).streamRun = s.streamRun := rfl
@[simp] theorem State.setHolder_nextTag (s : State) (k : PortId) (x : Option StreamId) : (s.setHolder k x).nextTag = s.nextTag := rfl
@[simp] theorem State.setHolder_device (s : State) (k : PortId) (x : Option StreamId) : (s.setHolder k x).device = s.device := rfl
@[simp] theorem State.setHolder_cause (s : State) (k : PortId) (x : Option StreamId) : (s.setHolder k x).cause = s.cause := rfl
@[simp] theorem State.setHolder_aqbase (s : State) (k : PortId) (x : Option StreamId) : (s.setHolder k x).aqbase = s.aqbase := rfl
@[simp] theorem State.setHolder_arbase (s : State) (k : PortId) (x : Option StreamId) : (s.setHolder k x).arbase = s.arbase := rfl
@[simp] theorem State.setHolder_qsize (s : State) (k : PortId) (x : Option StreamId) : (s.setHolder k x).qsize = s.qsize := rfl
@[simp] theorem State.setHolder_link (s : State) (k : PortId) (x : Option StreamId) : (s.setHolder k x).link = s.link := rfl
@[simp] theorem State.setHolder_linkUp (s : State) (k : PortId) (x : Option StreamId) : (s.setHolder k x).linkUp = s.linkUp := rfl
@[simp] theorem State.setHolder_pending (s : State) (k : PortId) (x : Option StreamId) : (s.setHolder k x).pending = s.pending := rfl

/-! ## setPatHolder -/

theorem State.setPatHolder_patHolder (s : State) (k l : PortId) (x : Option StreamId) :
    (s.setPatHolder k x).patHolder l = if k = l then x else s.patHolder l := vector_get_set _ _ _ _

@[simp] theorem State.setPatHolder_patHolder_self (s : State) (k : PortId) (x : Option StreamId) : (s.setPatHolder k x).patHolder k = x := by
  simp [State.setPatHolder_patHolder]

theorem State.setPatHolder_patHolder_ne (s : State) (k l : PortId) (x : Option StreamId) (h : k ≠ l) : (s.setPatHolder k x).patHolder l = s.patHolder l := by
  simp [State.setPatHolder_patHolder, h]

@[simp] theorem State.setPatHolder_setPatHolder (s : State) (k : PortId) (x y : Option StreamId) : (s.setPatHolder k x).setPatHolder k y = s.setPatHolder k y := by
  simp [State.setPatHolder]

@[simp] theorem State.setPatHolder_pacer (s : State) (k : PortId) (x : Option StreamId) (l : PacerId) : (s.setPatHolder k x).pacer l = s.pacer l := rfl
@[simp] theorem State.setPatHolder_input (s : State) (k : PortId) (x : Option StreamId) (l : InputId) : (s.setPatHolder k x).input l = s.input l := rfl
@[simp] theorem State.setPatHolder_port (s : State) (k : PortId) (x : Option StreamId) (l : PortId) : (s.setPatHolder k x).port l = s.port l := rfl
@[simp] theorem State.setPatHolder_stream (s : State) (k : PortId) (x : Option StreamId) (l : StreamId) : (s.setPatHolder k x).stream l = s.stream l := rfl
@[simp] theorem State.setPatHolder_holder (s : State) (k : PortId) (x : Option StreamId) (l : PortId) : (s.setPatHolder k x).holder l = s.holder l := rfl
@[simp] theorem State.setPatHolder_portWord (s : State) (k : PortId) (x : Option StreamId) (l : PortId) : (s.setPatHolder k x).portWord l = s.portWord l := rfl
@[simp] theorem State.setPatHolder_queue (s : State) (k : PortId) (x : Option StreamId) (l : CqId) : (s.setPatHolder k x).queue l = s.queue l := rfl
@[simp] theorem State.setPatHolder_entry (s : State) (k : PortId) (x : Option StreamId) (l : SlotId) : (s.setPatHolder k x).entry l = s.entry l := rfl
@[simp] theorem State.setPatHolder_rq (s : State) (k : PortId) (x : Option StreamId) (l : RqId) : (s.setPatHolder k x).rq l = s.rq l := rfl

@[simp] theorem State.setPatHolder_timebase (s : State) (k : PortId) (x : Option StreamId) : (s.setPatHolder k x).timebase = s.timebase := rfl
@[simp] theorem State.setPatHolder_pacers (s : State) (k : PortId) (x : Option StreamId) : (s.setPatHolder k x).pacers = s.pacers := rfl
@[simp] theorem State.setPatHolder_inputs (s : State) (k : PortId) (x : Option StreamId) : (s.setPatHolder k x).inputs = s.inputs := rfl
@[simp] theorem State.setPatHolder_emitted (s : State) (k : PortId) (x : Option StreamId) : (s.setPatHolder k x).emitted = s.emitted := rfl
@[simp] theorem State.setPatHolder_order (s : State) (k : PortId) (x : Option StreamId) : (s.setPatHolder k x).order = s.order := rfl
@[simp] theorem State.setPatHolder_ports (s : State) (k : PortId) (x : Option StreamId) : (s.setPatHolder k x).ports = s.ports := rfl
@[simp] theorem State.setPatHolder_streams (s : State) (k : PortId) (x : Option StreamId) : (s.setPatHolder k x).streams = s.streams := rfl
@[simp] theorem State.setPatHolder_portHolder (s : State) (k : PortId) (x : Option StreamId) : (s.setPatHolder k x).portHolder = s.portHolder := rfl
@[simp] theorem State.setPatHolder_patternWord (s : State) (k : PortId) (x : Option StreamId) : (s.setPatHolder k x).patternWord = s.patternWord := rfl
@[simp] theorem State.setPatHolder_patternMemory (s : State) (k : PortId) (x : Option StreamId) : (s.setPatHolder k x).patternMemory = s.patternMemory := rfl
@[simp] theorem State.setPatHolder_loads (s : State) (k : PortId) (x : Option StreamId) : (s.setPatHolder k x).loads = s.loads := rfl
@[simp] theorem State.setPatHolder_queues (s : State) (k : PortId) (x : Option StreamId) : (s.setPatHolder k x).queues = s.queues := rfl
@[simp] theorem State.setPatHolder_inflight (s : State) (k : PortId) (x : Option StreamId) : (s.setPatHolder k x).inflight = s.inflight := rfl
@[simp] theorem State.setPatHolder_fetch (s : State) (k : PortId) (x : Option StreamId) : (s.setPatHolder k x).fetch = s.fetch := rfl
@[simp] theorem State.setPatHolder_lastServed (s : State) (k : PortId) (x : Option StreamId) : (s.setPatHolder k x).lastServed = s.lastServed := rfl
@[simp] theorem State.setPatHolder_replyQueues (s : State) (k : PortId) (x : Option StreamId) : (s.setPatHolder k x).replyQueues = s.replyQueues := rfl
@[simp] theorem State.setPatHolder_statusWrites (s : State) (k : PortId) (x : Option StreamId) : (s.setPatHolder k x).statusWrites = s.statusWrites := rfl
@[simp] theorem State.setPatHolder_sending (s : State) (k : PortId) (x : Option StreamId) : (s.setPatHolder k x).sending = s.sending := rfl
@[simp] theorem State.setPatHolder_outstanding (s : State) (k : PortId) (x : Option StreamId) : (s.setPatHolder k x).outstanding = s.outstanding := rfl
@[simp] theorem State.setPatHolder_lastStream (s : State) (k : PortId) (x : Option StreamId) : (s.setPatHolder k x).lastStream = s.lastStream := rfl
@[simp] theorem State.setPatHolder_lastReplyQueue (s : State) (k : PortId) (x : Option StreamId) : (s.setPatHolder k x).lastReplyQueue = s.lastReplyQueue := rfl
@[simp] theorem State.setPatHolder_streamRun (s : State) (k : PortId) (x : Option StreamId) : (s.setPatHolder k x).streamRun = s.streamRun := rfl
@[simp] theorem State.setPatHolder_nextTag (s : State) (k : PortId) (x : Option StreamId) : (s.setPatHolder k x).nextTag = s.nextTag := rfl
@[simp] theorem State.setPatHolder_device (s : State) (k : PortId) (x : Option StreamId) : (s.setPatHolder k x).device = s.device := rfl
@[simp] theorem State.setPatHolder_cause (s : State) (k : PortId) (x : Option StreamId) : (s.setPatHolder k x).cause = s.cause := rfl
@[simp] theorem State.setPatHolder_aqbase (s : State) (k : PortId) (x : Option StreamId) : (s.setPatHolder k x).aqbase = s.aqbase := rfl
@[simp] theorem State.setPatHolder_arbase (s : State) (k : PortId) (x : Option StreamId) : (s.setPatHolder k x).arbase = s.arbase := rfl
@[simp] theorem State.setPatHolder_qsize (s : State) (k : PortId) (x : Option StreamId) : (s.setPatHolder k x).qsize = s.qsize := rfl
@[simp] theorem State.setPatHolder_link (s : State) (k : PortId) (x : Option StreamId) : (s.setPatHolder k x).link = s.link := rfl
@[simp] theorem State.setPatHolder_linkUp (s : State) (k : PortId) (x : Option StreamId) : (s.setPatHolder k x).linkUp = s.linkUp := rfl
@[simp] theorem State.setPatHolder_pending (s : State) (k : PortId) (x : Option StreamId) : (s.setPatHolder k x).pending = s.pending := rfl

/-! ## setPortWord -/

theorem State.setPortWord_portWord (s : State) (k l : PortId) (x : Half) :
    (s.setPortWord k x).portWord l = if k = l then x else s.portWord l := vector_get_set _ _ _ _

@[simp] theorem State.setPortWord_portWord_self (s : State) (k : PortId) (x : Half) : (s.setPortWord k x).portWord k = x := by
  simp [State.setPortWord_portWord]

theorem State.setPortWord_portWord_ne (s : State) (k l : PortId) (x : Half) (h : k ≠ l) : (s.setPortWord k x).portWord l = s.portWord l := by
  simp [State.setPortWord_portWord, h]

@[simp] theorem State.setPortWord_setPortWord (s : State) (k : PortId) (x y : Half) : (s.setPortWord k x).setPortWord k y = s.setPortWord k y := by
  simp [State.setPortWord]

@[simp] theorem State.setPortWord_pacer (s : State) (k : PortId) (x : Half) (l : PacerId) : (s.setPortWord k x).pacer l = s.pacer l := rfl
@[simp] theorem State.setPortWord_input (s : State) (k : PortId) (x : Half) (l : InputId) : (s.setPortWord k x).input l = s.input l := rfl
@[simp] theorem State.setPortWord_port (s : State) (k : PortId) (x : Half) (l : PortId) : (s.setPortWord k x).port l = s.port l := rfl
@[simp] theorem State.setPortWord_stream (s : State) (k : PortId) (x : Half) (l : StreamId) : (s.setPortWord k x).stream l = s.stream l := rfl
@[simp] theorem State.setPortWord_holder (s : State) (k : PortId) (x : Half) (l : PortId) : (s.setPortWord k x).holder l = s.holder l := rfl
@[simp] theorem State.setPortWord_patHolder (s : State) (k : PortId) (x : Half) (l : PortId) : (s.setPortWord k x).patHolder l = s.patHolder l := rfl
@[simp] theorem State.setPortWord_queue (s : State) (k : PortId) (x : Half) (l : CqId) : (s.setPortWord k x).queue l = s.queue l := rfl
@[simp] theorem State.setPortWord_entry (s : State) (k : PortId) (x : Half) (l : SlotId) : (s.setPortWord k x).entry l = s.entry l := rfl
@[simp] theorem State.setPortWord_rq (s : State) (k : PortId) (x : Half) (l : RqId) : (s.setPortWord k x).rq l = s.rq l := rfl

@[simp] theorem State.setPortWord_timebase (s : State) (k : PortId) (x : Half) : (s.setPortWord k x).timebase = s.timebase := rfl
@[simp] theorem State.setPortWord_pacers (s : State) (k : PortId) (x : Half) : (s.setPortWord k x).pacers = s.pacers := rfl
@[simp] theorem State.setPortWord_inputs (s : State) (k : PortId) (x : Half) : (s.setPortWord k x).inputs = s.inputs := rfl
@[simp] theorem State.setPortWord_emitted (s : State) (k : PortId) (x : Half) : (s.setPortWord k x).emitted = s.emitted := rfl
@[simp] theorem State.setPortWord_order (s : State) (k : PortId) (x : Half) : (s.setPortWord k x).order = s.order := rfl
@[simp] theorem State.setPortWord_ports (s : State) (k : PortId) (x : Half) : (s.setPortWord k x).ports = s.ports := rfl
@[simp] theorem State.setPortWord_streams (s : State) (k : PortId) (x : Half) : (s.setPortWord k x).streams = s.streams := rfl
@[simp] theorem State.setPortWord_portHolder (s : State) (k : PortId) (x : Half) : (s.setPortWord k x).portHolder = s.portHolder := rfl
@[simp] theorem State.setPortWord_patternHolder (s : State) (k : PortId) (x : Half) : (s.setPortWord k x).patternHolder = s.patternHolder := rfl
@[simp] theorem State.setPortWord_patternMemory (s : State) (k : PortId) (x : Half) : (s.setPortWord k x).patternMemory = s.patternMemory := rfl
@[simp] theorem State.setPortWord_loads (s : State) (k : PortId) (x : Half) : (s.setPortWord k x).loads = s.loads := rfl
@[simp] theorem State.setPortWord_queues (s : State) (k : PortId) (x : Half) : (s.setPortWord k x).queues = s.queues := rfl
@[simp] theorem State.setPortWord_inflight (s : State) (k : PortId) (x : Half) : (s.setPortWord k x).inflight = s.inflight := rfl
@[simp] theorem State.setPortWord_fetch (s : State) (k : PortId) (x : Half) : (s.setPortWord k x).fetch = s.fetch := rfl
@[simp] theorem State.setPortWord_lastServed (s : State) (k : PortId) (x : Half) : (s.setPortWord k x).lastServed = s.lastServed := rfl
@[simp] theorem State.setPortWord_replyQueues (s : State) (k : PortId) (x : Half) : (s.setPortWord k x).replyQueues = s.replyQueues := rfl
@[simp] theorem State.setPortWord_statusWrites (s : State) (k : PortId) (x : Half) : (s.setPortWord k x).statusWrites = s.statusWrites := rfl
@[simp] theorem State.setPortWord_sending (s : State) (k : PortId) (x : Half) : (s.setPortWord k x).sending = s.sending := rfl
@[simp] theorem State.setPortWord_outstanding (s : State) (k : PortId) (x : Half) : (s.setPortWord k x).outstanding = s.outstanding := rfl
@[simp] theorem State.setPortWord_lastStream (s : State) (k : PortId) (x : Half) : (s.setPortWord k x).lastStream = s.lastStream := rfl
@[simp] theorem State.setPortWord_lastReplyQueue (s : State) (k : PortId) (x : Half) : (s.setPortWord k x).lastReplyQueue = s.lastReplyQueue := rfl
@[simp] theorem State.setPortWord_streamRun (s : State) (k : PortId) (x : Half) : (s.setPortWord k x).streamRun = s.streamRun := rfl
@[simp] theorem State.setPortWord_nextTag (s : State) (k : PortId) (x : Half) : (s.setPortWord k x).nextTag = s.nextTag := rfl
@[simp] theorem State.setPortWord_device (s : State) (k : PortId) (x : Half) : (s.setPortWord k x).device = s.device := rfl
@[simp] theorem State.setPortWord_cause (s : State) (k : PortId) (x : Half) : (s.setPortWord k x).cause = s.cause := rfl
@[simp] theorem State.setPortWord_aqbase (s : State) (k : PortId) (x : Half) : (s.setPortWord k x).aqbase = s.aqbase := rfl
@[simp] theorem State.setPortWord_arbase (s : State) (k : PortId) (x : Half) : (s.setPortWord k x).arbase = s.arbase := rfl
@[simp] theorem State.setPortWord_qsize (s : State) (k : PortId) (x : Half) : (s.setPortWord k x).qsize = s.qsize := rfl
@[simp] theorem State.setPortWord_link (s : State) (k : PortId) (x : Half) : (s.setPortWord k x).link = s.link := rfl
@[simp] theorem State.setPortWord_linkUp (s : State) (k : PortId) (x : Half) : (s.setPortWord k x).linkUp = s.linkUp := rfl
@[simp] theorem State.setPortWord_pending (s : State) (k : PortId) (x : Half) : (s.setPortWord k x).pending = s.pending := rfl

/-! ## setQueue -/

theorem State.setQueue_queue (s : State) (k l : CqId) (x : CommandQueue) :
    (s.setQueue k x).queue l = if k = l then x else s.queue l := vector_get_set _ _ _ _

@[simp] theorem State.setQueue_queue_self (s : State) (k : CqId) (x : CommandQueue) : (s.setQueue k x).queue k = x := by
  simp [State.setQueue_queue]

theorem State.setQueue_queue_ne (s : State) (k l : CqId) (x : CommandQueue) (h : k ≠ l) : (s.setQueue k x).queue l = s.queue l := by
  simp [State.setQueue_queue, h]

@[simp] theorem State.setQueue_setQueue (s : State) (k : CqId) (x y : CommandQueue) : (s.setQueue k x).setQueue k y = s.setQueue k y := by
  simp [State.setQueue]

@[simp] theorem State.setQueue_pacer (s : State) (k : CqId) (x : CommandQueue) (l : PacerId) : (s.setQueue k x).pacer l = s.pacer l := rfl
@[simp] theorem State.setQueue_input (s : State) (k : CqId) (x : CommandQueue) (l : InputId) : (s.setQueue k x).input l = s.input l := rfl
@[simp] theorem State.setQueue_port (s : State) (k : CqId) (x : CommandQueue) (l : PortId) : (s.setQueue k x).port l = s.port l := rfl
@[simp] theorem State.setQueue_stream (s : State) (k : CqId) (x : CommandQueue) (l : StreamId) : (s.setQueue k x).stream l = s.stream l := rfl
@[simp] theorem State.setQueue_holder (s : State) (k : CqId) (x : CommandQueue) (l : PortId) : (s.setQueue k x).holder l = s.holder l := rfl
@[simp] theorem State.setQueue_patHolder (s : State) (k : CqId) (x : CommandQueue) (l : PortId) : (s.setQueue k x).patHolder l = s.patHolder l := rfl
@[simp] theorem State.setQueue_portWord (s : State) (k : CqId) (x : CommandQueue) (l : PortId) : (s.setQueue k x).portWord l = s.portWord l := rfl
@[simp] theorem State.setQueue_entry (s : State) (k : CqId) (x : CommandQueue) (l : SlotId) : (s.setQueue k x).entry l = s.entry l := rfl
@[simp] theorem State.setQueue_rq (s : State) (k : CqId) (x : CommandQueue) (l : RqId) : (s.setQueue k x).rq l = s.rq l := rfl

@[simp] theorem State.setQueue_timebase (s : State) (k : CqId) (x : CommandQueue) : (s.setQueue k x).timebase = s.timebase := rfl
@[simp] theorem State.setQueue_pacers (s : State) (k : CqId) (x : CommandQueue) : (s.setQueue k x).pacers = s.pacers := rfl
@[simp] theorem State.setQueue_inputs (s : State) (k : CqId) (x : CommandQueue) : (s.setQueue k x).inputs = s.inputs := rfl
@[simp] theorem State.setQueue_emitted (s : State) (k : CqId) (x : CommandQueue) : (s.setQueue k x).emitted = s.emitted := rfl
@[simp] theorem State.setQueue_order (s : State) (k : CqId) (x : CommandQueue) : (s.setQueue k x).order = s.order := rfl
@[simp] theorem State.setQueue_ports (s : State) (k : CqId) (x : CommandQueue) : (s.setQueue k x).ports = s.ports := rfl
@[simp] theorem State.setQueue_streams (s : State) (k : CqId) (x : CommandQueue) : (s.setQueue k x).streams = s.streams := rfl
@[simp] theorem State.setQueue_portHolder (s : State) (k : CqId) (x : CommandQueue) : (s.setQueue k x).portHolder = s.portHolder := rfl
@[simp] theorem State.setQueue_patternHolder (s : State) (k : CqId) (x : CommandQueue) : (s.setQueue k x).patternHolder = s.patternHolder := rfl
@[simp] theorem State.setQueue_patternWord (s : State) (k : CqId) (x : CommandQueue) : (s.setQueue k x).patternWord = s.patternWord := rfl
@[simp] theorem State.setQueue_patternMemory (s : State) (k : CqId) (x : CommandQueue) : (s.setQueue k x).patternMemory = s.patternMemory := rfl
@[simp] theorem State.setQueue_loads (s : State) (k : CqId) (x : CommandQueue) : (s.setQueue k x).loads = s.loads := rfl
@[simp] theorem State.setQueue_inflight (s : State) (k : CqId) (x : CommandQueue) : (s.setQueue k x).inflight = s.inflight := rfl
@[simp] theorem State.setQueue_fetch (s : State) (k : CqId) (x : CommandQueue) : (s.setQueue k x).fetch = s.fetch := rfl
@[simp] theorem State.setQueue_lastServed (s : State) (k : CqId) (x : CommandQueue) : (s.setQueue k x).lastServed = s.lastServed := rfl
@[simp] theorem State.setQueue_replyQueues (s : State) (k : CqId) (x : CommandQueue) : (s.setQueue k x).replyQueues = s.replyQueues := rfl
@[simp] theorem State.setQueue_statusWrites (s : State) (k : CqId) (x : CommandQueue) : (s.setQueue k x).statusWrites = s.statusWrites := rfl
@[simp] theorem State.setQueue_sending (s : State) (k : CqId) (x : CommandQueue) : (s.setQueue k x).sending = s.sending := rfl
@[simp] theorem State.setQueue_outstanding (s : State) (k : CqId) (x : CommandQueue) : (s.setQueue k x).outstanding = s.outstanding := rfl
@[simp] theorem State.setQueue_lastStream (s : State) (k : CqId) (x : CommandQueue) : (s.setQueue k x).lastStream = s.lastStream := rfl
@[simp] theorem State.setQueue_lastReplyQueue (s : State) (k : CqId) (x : CommandQueue) : (s.setQueue k x).lastReplyQueue = s.lastReplyQueue := rfl
@[simp] theorem State.setQueue_streamRun (s : State) (k : CqId) (x : CommandQueue) : (s.setQueue k x).streamRun = s.streamRun := rfl
@[simp] theorem State.setQueue_nextTag (s : State) (k : CqId) (x : CommandQueue) : (s.setQueue k x).nextTag = s.nextTag := rfl
@[simp] theorem State.setQueue_device (s : State) (k : CqId) (x : CommandQueue) : (s.setQueue k x).device = s.device := rfl
@[simp] theorem State.setQueue_cause (s : State) (k : CqId) (x : CommandQueue) : (s.setQueue k x).cause = s.cause := rfl
@[simp] theorem State.setQueue_aqbase (s : State) (k : CqId) (x : CommandQueue) : (s.setQueue k x).aqbase = s.aqbase := rfl
@[simp] theorem State.setQueue_arbase (s : State) (k : CqId) (x : CommandQueue) : (s.setQueue k x).arbase = s.arbase := rfl
@[simp] theorem State.setQueue_qsize (s : State) (k : CqId) (x : CommandQueue) : (s.setQueue k x).qsize = s.qsize := rfl
@[simp] theorem State.setQueue_link (s : State) (k : CqId) (x : CommandQueue) : (s.setQueue k x).link = s.link := rfl
@[simp] theorem State.setQueue_linkUp (s : State) (k : CqId) (x : CommandQueue) : (s.setQueue k x).linkUp = s.linkUp := rfl
@[simp] theorem State.setQueue_pending (s : State) (k : CqId) (x : CommandQueue) : (s.setQueue k x).pending = s.pending := rfl

/-! ## setEntry -/

theorem State.setEntry_entry (s : State) (k l : SlotId) (x : Option Entry) :
    (s.setEntry k x).entry l = if k = l then x else s.entry l := vector_get_set _ _ _ _

@[simp] theorem State.setEntry_entry_self (s : State) (k : SlotId) (x : Option Entry) : (s.setEntry k x).entry k = x := by
  simp [State.setEntry_entry]

theorem State.setEntry_entry_ne (s : State) (k l : SlotId) (x : Option Entry) (h : k ≠ l) : (s.setEntry k x).entry l = s.entry l := by
  simp [State.setEntry_entry, h]

@[simp] theorem State.setEntry_setEntry (s : State) (k : SlotId) (x y : Option Entry) : (s.setEntry k x).setEntry k y = s.setEntry k y := by
  simp [State.setEntry]

@[simp] theorem State.setEntry_pacer (s : State) (k : SlotId) (x : Option Entry) (l : PacerId) : (s.setEntry k x).pacer l = s.pacer l := rfl
@[simp] theorem State.setEntry_input (s : State) (k : SlotId) (x : Option Entry) (l : InputId) : (s.setEntry k x).input l = s.input l := rfl
@[simp] theorem State.setEntry_port (s : State) (k : SlotId) (x : Option Entry) (l : PortId) : (s.setEntry k x).port l = s.port l := rfl
@[simp] theorem State.setEntry_stream (s : State) (k : SlotId) (x : Option Entry) (l : StreamId) : (s.setEntry k x).stream l = s.stream l := rfl
@[simp] theorem State.setEntry_holder (s : State) (k : SlotId) (x : Option Entry) (l : PortId) : (s.setEntry k x).holder l = s.holder l := rfl
@[simp] theorem State.setEntry_patHolder (s : State) (k : SlotId) (x : Option Entry) (l : PortId) : (s.setEntry k x).patHolder l = s.patHolder l := rfl
@[simp] theorem State.setEntry_portWord (s : State) (k : SlotId) (x : Option Entry) (l : PortId) : (s.setEntry k x).portWord l = s.portWord l := rfl
@[simp] theorem State.setEntry_queue (s : State) (k : SlotId) (x : Option Entry) (l : CqId) : (s.setEntry k x).queue l = s.queue l := rfl
@[simp] theorem State.setEntry_rq (s : State) (k : SlotId) (x : Option Entry) (l : RqId) : (s.setEntry k x).rq l = s.rq l := rfl

@[simp] theorem State.setEntry_timebase (s : State) (k : SlotId) (x : Option Entry) : (s.setEntry k x).timebase = s.timebase := rfl
@[simp] theorem State.setEntry_pacers (s : State) (k : SlotId) (x : Option Entry) : (s.setEntry k x).pacers = s.pacers := rfl
@[simp] theorem State.setEntry_inputs (s : State) (k : SlotId) (x : Option Entry) : (s.setEntry k x).inputs = s.inputs := rfl
@[simp] theorem State.setEntry_emitted (s : State) (k : SlotId) (x : Option Entry) : (s.setEntry k x).emitted = s.emitted := rfl
@[simp] theorem State.setEntry_order (s : State) (k : SlotId) (x : Option Entry) : (s.setEntry k x).order = s.order := rfl
@[simp] theorem State.setEntry_ports (s : State) (k : SlotId) (x : Option Entry) : (s.setEntry k x).ports = s.ports := rfl
@[simp] theorem State.setEntry_streams (s : State) (k : SlotId) (x : Option Entry) : (s.setEntry k x).streams = s.streams := rfl
@[simp] theorem State.setEntry_portHolder (s : State) (k : SlotId) (x : Option Entry) : (s.setEntry k x).portHolder = s.portHolder := rfl
@[simp] theorem State.setEntry_patternHolder (s : State) (k : SlotId) (x : Option Entry) : (s.setEntry k x).patternHolder = s.patternHolder := rfl
@[simp] theorem State.setEntry_patternWord (s : State) (k : SlotId) (x : Option Entry) : (s.setEntry k x).patternWord = s.patternWord := rfl
@[simp] theorem State.setEntry_patternMemory (s : State) (k : SlotId) (x : Option Entry) : (s.setEntry k x).patternMemory = s.patternMemory := rfl
@[simp] theorem State.setEntry_loads (s : State) (k : SlotId) (x : Option Entry) : (s.setEntry k x).loads = s.loads := rfl
@[simp] theorem State.setEntry_queues (s : State) (k : SlotId) (x : Option Entry) : (s.setEntry k x).queues = s.queues := rfl
@[simp] theorem State.setEntry_fetch (s : State) (k : SlotId) (x : Option Entry) : (s.setEntry k x).fetch = s.fetch := rfl
@[simp] theorem State.setEntry_lastServed (s : State) (k : SlotId) (x : Option Entry) : (s.setEntry k x).lastServed = s.lastServed := rfl
@[simp] theorem State.setEntry_replyQueues (s : State) (k : SlotId) (x : Option Entry) : (s.setEntry k x).replyQueues = s.replyQueues := rfl
@[simp] theorem State.setEntry_statusWrites (s : State) (k : SlotId) (x : Option Entry) : (s.setEntry k x).statusWrites = s.statusWrites := rfl
@[simp] theorem State.setEntry_sending (s : State) (k : SlotId) (x : Option Entry) : (s.setEntry k x).sending = s.sending := rfl
@[simp] theorem State.setEntry_outstanding (s : State) (k : SlotId) (x : Option Entry) : (s.setEntry k x).outstanding = s.outstanding := rfl
@[simp] theorem State.setEntry_lastStream (s : State) (k : SlotId) (x : Option Entry) : (s.setEntry k x).lastStream = s.lastStream := rfl
@[simp] theorem State.setEntry_lastReplyQueue (s : State) (k : SlotId) (x : Option Entry) : (s.setEntry k x).lastReplyQueue = s.lastReplyQueue := rfl
@[simp] theorem State.setEntry_streamRun (s : State) (k : SlotId) (x : Option Entry) : (s.setEntry k x).streamRun = s.streamRun := rfl
@[simp] theorem State.setEntry_nextTag (s : State) (k : SlotId) (x : Option Entry) : (s.setEntry k x).nextTag = s.nextTag := rfl
@[simp] theorem State.setEntry_device (s : State) (k : SlotId) (x : Option Entry) : (s.setEntry k x).device = s.device := rfl
@[simp] theorem State.setEntry_cause (s : State) (k : SlotId) (x : Option Entry) : (s.setEntry k x).cause = s.cause := rfl
@[simp] theorem State.setEntry_aqbase (s : State) (k : SlotId) (x : Option Entry) : (s.setEntry k x).aqbase = s.aqbase := rfl
@[simp] theorem State.setEntry_arbase (s : State) (k : SlotId) (x : Option Entry) : (s.setEntry k x).arbase = s.arbase := rfl
@[simp] theorem State.setEntry_qsize (s : State) (k : SlotId) (x : Option Entry) : (s.setEntry k x).qsize = s.qsize := rfl
@[simp] theorem State.setEntry_link (s : State) (k : SlotId) (x : Option Entry) : (s.setEntry k x).link = s.link := rfl
@[simp] theorem State.setEntry_linkUp (s : State) (k : SlotId) (x : Option Entry) : (s.setEntry k x).linkUp = s.linkUp := rfl
@[simp] theorem State.setEntry_pending (s : State) (k : SlotId) (x : Option Entry) : (s.setEntry k x).pending = s.pending := rfl

/-! ## setRq -/

theorem State.setRq_rq (s : State) (k l : RqId) (x : ReplyQueue) :
    (s.setRq k x).rq l = if k = l then x else s.rq l := vector_get_set _ _ _ _

@[simp] theorem State.setRq_rq_self (s : State) (k : RqId) (x : ReplyQueue) : (s.setRq k x).rq k = x := by
  simp [State.setRq_rq]

theorem State.setRq_rq_ne (s : State) (k l : RqId) (x : ReplyQueue) (h : k ≠ l) : (s.setRq k x).rq l = s.rq l := by
  simp [State.setRq_rq, h]

@[simp] theorem State.setRq_setRq (s : State) (k : RqId) (x y : ReplyQueue) : (s.setRq k x).setRq k y = s.setRq k y := by
  simp [State.setRq]

@[simp] theorem State.setRq_pacer (s : State) (k : RqId) (x : ReplyQueue) (l : PacerId) : (s.setRq k x).pacer l = s.pacer l := rfl
@[simp] theorem State.setRq_input (s : State) (k : RqId) (x : ReplyQueue) (l : InputId) : (s.setRq k x).input l = s.input l := rfl
@[simp] theorem State.setRq_port (s : State) (k : RqId) (x : ReplyQueue) (l : PortId) : (s.setRq k x).port l = s.port l := rfl
@[simp] theorem State.setRq_stream (s : State) (k : RqId) (x : ReplyQueue) (l : StreamId) : (s.setRq k x).stream l = s.stream l := rfl
@[simp] theorem State.setRq_holder (s : State) (k : RqId) (x : ReplyQueue) (l : PortId) : (s.setRq k x).holder l = s.holder l := rfl
@[simp] theorem State.setRq_patHolder (s : State) (k : RqId) (x : ReplyQueue) (l : PortId) : (s.setRq k x).patHolder l = s.patHolder l := rfl
@[simp] theorem State.setRq_portWord (s : State) (k : RqId) (x : ReplyQueue) (l : PortId) : (s.setRq k x).portWord l = s.portWord l := rfl
@[simp] theorem State.setRq_queue (s : State) (k : RqId) (x : ReplyQueue) (l : CqId) : (s.setRq k x).queue l = s.queue l := rfl
@[simp] theorem State.setRq_entry (s : State) (k : RqId) (x : ReplyQueue) (l : SlotId) : (s.setRq k x).entry l = s.entry l := rfl

@[simp] theorem State.setRq_timebase (s : State) (k : RqId) (x : ReplyQueue) : (s.setRq k x).timebase = s.timebase := rfl
@[simp] theorem State.setRq_pacers (s : State) (k : RqId) (x : ReplyQueue) : (s.setRq k x).pacers = s.pacers := rfl
@[simp] theorem State.setRq_inputs (s : State) (k : RqId) (x : ReplyQueue) : (s.setRq k x).inputs = s.inputs := rfl
@[simp] theorem State.setRq_emitted (s : State) (k : RqId) (x : ReplyQueue) : (s.setRq k x).emitted = s.emitted := rfl
@[simp] theorem State.setRq_order (s : State) (k : RqId) (x : ReplyQueue) : (s.setRq k x).order = s.order := rfl
@[simp] theorem State.setRq_ports (s : State) (k : RqId) (x : ReplyQueue) : (s.setRq k x).ports = s.ports := rfl
@[simp] theorem State.setRq_streams (s : State) (k : RqId) (x : ReplyQueue) : (s.setRq k x).streams = s.streams := rfl
@[simp] theorem State.setRq_portHolder (s : State) (k : RqId) (x : ReplyQueue) : (s.setRq k x).portHolder = s.portHolder := rfl
@[simp] theorem State.setRq_patternHolder (s : State) (k : RqId) (x : ReplyQueue) : (s.setRq k x).patternHolder = s.patternHolder := rfl
@[simp] theorem State.setRq_patternWord (s : State) (k : RqId) (x : ReplyQueue) : (s.setRq k x).patternWord = s.patternWord := rfl
@[simp] theorem State.setRq_patternMemory (s : State) (k : RqId) (x : ReplyQueue) : (s.setRq k x).patternMemory = s.patternMemory := rfl
@[simp] theorem State.setRq_loads (s : State) (k : RqId) (x : ReplyQueue) : (s.setRq k x).loads = s.loads := rfl
@[simp] theorem State.setRq_queues (s : State) (k : RqId) (x : ReplyQueue) : (s.setRq k x).queues = s.queues := rfl
@[simp] theorem State.setRq_inflight (s : State) (k : RqId) (x : ReplyQueue) : (s.setRq k x).inflight = s.inflight := rfl
@[simp] theorem State.setRq_fetch (s : State) (k : RqId) (x : ReplyQueue) : (s.setRq k x).fetch = s.fetch := rfl
@[simp] theorem State.setRq_lastServed (s : State) (k : RqId) (x : ReplyQueue) : (s.setRq k x).lastServed = s.lastServed := rfl
@[simp] theorem State.setRq_statusWrites (s : State) (k : RqId) (x : ReplyQueue) : (s.setRq k x).statusWrites = s.statusWrites := rfl
@[simp] theorem State.setRq_sending (s : State) (k : RqId) (x : ReplyQueue) : (s.setRq k x).sending = s.sending := rfl
@[simp] theorem State.setRq_outstanding (s : State) (k : RqId) (x : ReplyQueue) : (s.setRq k x).outstanding = s.outstanding := rfl
@[simp] theorem State.setRq_lastStream (s : State) (k : RqId) (x : ReplyQueue) : (s.setRq k x).lastStream = s.lastStream := rfl
@[simp] theorem State.setRq_lastReplyQueue (s : State) (k : RqId) (x : ReplyQueue) : (s.setRq k x).lastReplyQueue = s.lastReplyQueue := rfl
@[simp] theorem State.setRq_streamRun (s : State) (k : RqId) (x : ReplyQueue) : (s.setRq k x).streamRun = s.streamRun := rfl
@[simp] theorem State.setRq_nextTag (s : State) (k : RqId) (x : ReplyQueue) : (s.setRq k x).nextTag = s.nextTag := rfl
@[simp] theorem State.setRq_device (s : State) (k : RqId) (x : ReplyQueue) : (s.setRq k x).device = s.device := rfl
@[simp] theorem State.setRq_cause (s : State) (k : RqId) (x : ReplyQueue) : (s.setRq k x).cause = s.cause := rfl
@[simp] theorem State.setRq_aqbase (s : State) (k : RqId) (x : ReplyQueue) : (s.setRq k x).aqbase = s.aqbase := rfl
@[simp] theorem State.setRq_arbase (s : State) (k : RqId) (x : ReplyQueue) : (s.setRq k x).arbase = s.arbase := rfl
@[simp] theorem State.setRq_qsize (s : State) (k : RqId) (x : ReplyQueue) : (s.setRq k x).qsize = s.qsize := rfl
@[simp] theorem State.setRq_link (s : State) (k : RqId) (x : ReplyQueue) : (s.setRq k x).link = s.link := rfl
@[simp] theorem State.setRq_linkUp (s : State) (k : RqId) (x : ReplyQueue) : (s.setRq k x).linkUp = s.linkUp := rfl
@[simp] theorem State.setRq_pending (s : State) (k : RqId) (x : ReplyQueue) : (s.setRq k x).pending = s.pending := rfl

/-! ## emit -/

@[simp] theorem State.emit_emitted (s : State) (c : Byte) :
    (s.emit c).emitted = s.emitted ++ [⟨c, s.timebase⟩] := rfl
@[simp] theorem State.emit_timebase (s : State) (c : Byte) : (s.emit c).timebase = s.timebase := rfl
@[simp] theorem State.emit_pacers (s : State) (c : Byte) : (s.emit c).pacers = s.pacers := rfl
@[simp] theorem State.emit_inputs (s : State) (c : Byte) : (s.emit c).inputs = s.inputs := rfl
@[simp] theorem State.emit_order (s : State) (c : Byte) : (s.emit c).order = s.order := rfl
@[simp] theorem State.emit_ports (s : State) (c : Byte) : (s.emit c).ports = s.ports := rfl
@[simp] theorem State.emit_streams (s : State) (c : Byte) : (s.emit c).streams = s.streams := rfl
@[simp] theorem State.emit_portHolder (s : State) (c : Byte) : (s.emit c).portHolder = s.portHolder := rfl
@[simp] theorem State.emit_patternHolder (s : State) (c : Byte) : (s.emit c).patternHolder = s.patternHolder := rfl
@[simp] theorem State.emit_patternWord (s : State) (c : Byte) : (s.emit c).patternWord = s.patternWord := rfl
@[simp] theorem State.emit_patternMemory (s : State) (c : Byte) : (s.emit c).patternMemory = s.patternMemory := rfl
@[simp] theorem State.emit_loads (s : State) (c : Byte) : (s.emit c).loads = s.loads := rfl
@[simp] theorem State.emit_queues (s : State) (c : Byte) : (s.emit c).queues = s.queues := rfl
@[simp] theorem State.emit_inflight (s : State) (c : Byte) : (s.emit c).inflight = s.inflight := rfl
@[simp] theorem State.emit_fetch (s : State) (c : Byte) : (s.emit c).fetch = s.fetch := rfl
@[simp] theorem State.emit_lastServed (s : State) (c : Byte) : (s.emit c).lastServed = s.lastServed := rfl
@[simp] theorem State.emit_replyQueues (s : State) (c : Byte) : (s.emit c).replyQueues = s.replyQueues := rfl
@[simp] theorem State.emit_statusWrites (s : State) (c : Byte) : (s.emit c).statusWrites = s.statusWrites := rfl
@[simp] theorem State.emit_sending (s : State) (c : Byte) : (s.emit c).sending = s.sending := rfl
@[simp] theorem State.emit_outstanding (s : State) (c : Byte) : (s.emit c).outstanding = s.outstanding := rfl
@[simp] theorem State.emit_lastStream (s : State) (c : Byte) : (s.emit c).lastStream = s.lastStream := rfl
@[simp] theorem State.emit_lastReplyQueue (s : State) (c : Byte) : (s.emit c).lastReplyQueue = s.lastReplyQueue := rfl
@[simp] theorem State.emit_streamRun (s : State) (c : Byte) : (s.emit c).streamRun = s.streamRun := rfl
@[simp] theorem State.emit_nextTag (s : State) (c : Byte) : (s.emit c).nextTag = s.nextTag := rfl
@[simp] theorem State.emit_device (s : State) (c : Byte) : (s.emit c).device = s.device := rfl
@[simp] theorem State.emit_cause (s : State) (c : Byte) : (s.emit c).cause = s.cause := rfl
@[simp] theorem State.emit_aqbase (s : State) (c : Byte) : (s.emit c).aqbase = s.aqbase := rfl
@[simp] theorem State.emit_arbase (s : State) (c : Byte) : (s.emit c).arbase = s.arbase := rfl
@[simp] theorem State.emit_qsize (s : State) (c : Byte) : (s.emit c).qsize = s.qsize := rfl
@[simp] theorem State.emit_link (s : State) (c : Byte) : (s.emit c).link = s.link := rfl
@[simp] theorem State.emit_linkUp (s : State) (c : Byte) : (s.emit c).linkUp = s.linkUp := rfl
@[simp] theorem State.emit_pending (s : State) (c : Byte) : (s.emit c).pending = s.pending := rfl
@[simp] theorem State.emit_pacer (s : State) (c : Byte) (l : PacerId) : (s.emit c).pacer l = s.pacer l := rfl
@[simp] theorem State.emit_input (s : State) (c : Byte) (l : InputId) : (s.emit c).input l = s.input l := rfl
@[simp] theorem State.emit_port (s : State) (c : Byte) (l : PortId) : (s.emit c).port l = s.port l := rfl
@[simp] theorem State.emit_stream (s : State) (c : Byte) (l : StreamId) : (s.emit c).stream l = s.stream l := rfl
@[simp] theorem State.emit_holder (s : State) (c : Byte) (l : PortId) : (s.emit c).holder l = s.holder l := rfl
@[simp] theorem State.emit_patHolder (s : State) (c : Byte) (l : PortId) : (s.emit c).patHolder l = s.patHolder l := rfl
@[simp] theorem State.emit_portWord (s : State) (c : Byte) (l : PortId) : (s.emit c).portWord l = s.portWord l := rfl
@[simp] theorem State.emit_queue (s : State) (c : Byte) (l : CqId) : (s.emit c).queue l = s.queue l := rfl
@[simp] theorem State.emit_entry (s : State) (c : Byte) (l : SlotId) : (s.emit c).entry l = s.entry l := rfl
@[simp] theorem State.emit_rq (s : State) (c : Byte) (l : RqId) : (s.emit c).rq l = s.rq l := rfl

end Sys2Proof.Machine
end

