-- ==== Sys2Proof/Laws/Happening.lean ====
section
/-! SUPPORT. How a happening of a calm machine goes: nothing follows on, a record that arrives is taken, a command that
completes leaves exactly its answer, and an input's pin has one level in a tick. -/

namespace Sys2Proof.Machine

/-! ## Nothing follows on in a calm machine -/

/-- A machine is as calm as another with the same waiting events, command queues and device state. -/
theorem State.Calm.of_eq {s t : State} (h : s.Calm) (he : t.emitted = s.emitted) (hq : t.queues = s.queues)
    (hd : t.device = s.device) : t.Calm := by
  refine ⟨he.trans h.1, fun q => ?_, hd ▸ h.2.2⟩
  have : t.queue q = s.queue q := by simp only [State.queue, hq]
  rw [this]
  exact h.2.1 q

/-- A calm machine stays calm when one queue is replaced by one that neither holds a record nor is being deleted. -/
theorem State.Calm.setQueue {s t : State} (h : s.Calm) (q : CqId) (x : CommandQueue) (he : t.emitted = s.emitted)
    (hq : t.queues = s.queues.set q x) (hd : t.device = s.device) (hx : x.held = none ∧ x.state ≠ .deleting) :
    t.Calm := by
  refine ⟨he.trans h.1, fun p => ?_, hd ▸ h.2.2⟩
  have : t.queue p = if q = p then x else s.queue p := by
    simp only [State.queue, hq, vector_get_set]
  rw [this]
  split
  · exact hx
  · exact h.2.1 p

/-- With no event waiting there is nothing to deliver (R65). -/
theorem deliverEvents_of_none (n : Nat) {s : State} (h : s.emitted = []) : State.deliverEvents n s = s := by
  cases n with
  | zero => simp only [State.deliverEvents, ← h]
  | succ n => simp [State.deliverEvents, h]

/-- Nothing comes due in a calm machine. -/
theorem State.Calm.nextFollowOn {s : State} (h : s.Calm) : s.nextFollowOn = none := by
  have h1 : (List.finRange 4).find? (fun q => s.deletionDue q) = none := by
    rw [List.find?_eq_none]
    intro q _
    simp [State.deletionDue, (h.2.1 q).2]
  have h2 : (List.finRange 4).find? (fun q => s.heldDue q) = none := by
    rw [List.find?_eq_none]
    intro q _
    simp [State.heldDue, (h.2.1 q).1]
  have h3 : s.quiesceDue = false := by
    simp [State.quiesceDue, h.2.2]
  simp [State.nextFollowOn, h1, h2, h3]

/-- The end of a happening changes nothing in a calm machine. -/
theorem State.Calm.finish {s : State} (h : s.Calm) : s.finish = s := by
  simp [State.finish, Config.followOnBound, State.settle, deliverEvents_of_none _ h.1, h.nextFollowOn]

/-! ## Events that no stream hears -/

/-- No stream is reached by an event that none subscribes to. -/
theorem State.Unheard.subscribers {s : State} {c : Byte} (h : s.Unheard c) : s.subscribers c = [] := by
  have : allStreams.filter (fun i => (s.stream i).subscribes c) = [] := by
    rw [List.filter_eq_nil_iff]
    intro i _
    simp [h i]
  simp [State.subscribers, this]

/-- One event that none hears leaves no trace (R60). -/
theorem finish_emit_of_unheard {s : State} {c : Byte} (h : s.Calm) (hc : s.Unheard c) : (s.emit c).finish = s := by
  have he : s.emitted = [] := h.1
  have hu : (s.emit c).emitted = [⟨c, s.timebase⟩] := by simp [he]
  have hs : { s.emit c with emitted := [] } = s := by
    simp only [State.emit, ← he]
  have hn : (State.subscribers (s.emit c) c) = [] := State.Unheard.subscribers (fun i => hc i)
  have hd : State.deliverEvents Config.chainBound (s.emit c) = s := by
    show State.deliverEvents (255 + 1) (s.emit c) = s
    unfold State.deliverEvents
    rw [hu]
    dsimp only
    rw [hn, show (s.emit c).orderAfter [] = (s.emit c).order from rfl]
    simp only [State.deliverAll, hs]
    exact deliverEvents_of_none _ he
  simp [State.finish, Config.followOnBound, State.settle, hd, h.nextFollowOn]

/-! ## A record is taken -/

/-- The arrival of a record that is not held: the record is taken, and the happening ends (R130, R136). -/
theorem recordArrives_of_takes {s : State} {q : CqId} {r : RecordBody} {f : Fetch} {e : Entry}
    (h : s.Takes q r f e) (code : Byte) :
    s.recordArrives q ⟨code, r⟩ =
      ((s.withRecord f e ⟨code, r⟩).takeRecord f.slot q ⟨code, r⟩).finish := by
  obtain ⟨-, ⟨hf, rfl, he, -, -, ha, ho, -⟩, hw⟩ := h
  have hw' : (r.ordered && State.hasWorking { s.fetchReadEnds with fetch := none } f.queue) = false := by
    cases ho : r.ordered
    · rfl
    · exact hw ho
  have hf' : s.fetchReadEnds.fetch = some f := hf
  have he' : State.entry { s.fetchReadEnds with fetch := none } f.slot = some e := he
  have ha' : (State.queue { s.fetchReadEnds with fetch := none } f.queue).state = .active := ha
  simp only [State.recordArrives, hf, ho, and_self, if_true, State.fetchDone, hf', ha', ne_eq,
    not_true_eq_false, if_false, he', hw', Bool.false_eq_true]
  rfl

/-- The state in which a record is taken is calm. -/
theorem State.Takes.calm {s : State} {q : CqId} {r : RecordBody} {f : Fetch} {e : Entry} (h : s.Takes q r f e)
    (rec : Record) : (s.withRecord f e rec).Calm := by
  obtain ⟨hc, ⟨-, rfl, -⟩, -⟩ := h
  exact hc.setQueue f.queue _ rfl rfl rfl (hc.2.1 f.queue)

/-- The entry in which a record is taken keeps the record. -/
theorem withRecord_entry (s : State) (f : Fetch) (e : Entry) (rec : Record) :
    (s.withRecord f e rec).entry f.slot = some { e with record := some rec } := by
  simp [State.withRecord, State.entry, vector_get_set]

/-! ## A command completes -/

/-- A command whose entry and reservation stand completes by its answer and nothing else (R135, R138). -/
theorem complete_eq_answered {s : State} {k : SlotId} {e : Entry} {rec : Record}
    (he : s.entry k = some { e with record := some rec }) (hr : (s.rq e.replyQueue).reserved ≠ 0) (status : Status)
    (a b : Word) : s.complete k status a b = s.answered k e rec status a b := by
  have hr' : ((s.setEntry k none).rq e.replyQueue).reserved ≠ 0 := hr
  unfold State.complete State.answered
  rw [he]
  dsimp only [Option.map_some, Option.getD_some]
  split
  · rfl
  · rw [State.submit, if_neg hr']
    rfl

/-- An answer leaves a calm machine calm. -/
theorem State.Calm.answered {s : State} (h : s.Calm) (k : SlotId) (e : Entry) (rec : Record) (status : Status)
    (a b : Word) : (s.answered k e rec status a b).Calm :=
  h.of_eq rfl rfl rfl

/-- A command that becomes long leaves its entry in WORKING and nothing else (R133). -/
theorem toWorking_eq_atWork {s : State} {k : SlotId} {e : Entry} {rec : Record}
    (he : s.entry k = some { e with record := some rec }) (a b : Word) :
    s.toWorking k a b = s.atWork k e rec a b := by
  unfold State.toWorking
  rw [he]
  rfl

/-- A known command that its queue may carry meets its own checks (R136). -/
theorem takeRecord_known (s : State) (k : SlotId) (q : CqId) (op : Opcode) (r : RecordBody)
    (h : ¬(op.adminOnly = true ∧ q ≠ 0)) : s.takeRecord k q ⟨op.code, r⟩ = s.runOpcode k q op r := by
  have hc : opcodeOf op.code = some op := by cases op <;> rfl
  simp only [State.takeRecord, hc, if_neg h]

/-- An admin-only command from another queue is refused (R136). -/
theorem takeRecord_adminOnly (s : State) (k : SlotId) (q : CqId) (op : Opcode) (r : RecordBody)
    (h : op.adminOnly = true ∧ q ≠ 0) : s.takeRecord k q ⟨op.code, r⟩ = s.refuse k .adminOnly := by
  have hc : opcodeOf op.code = some op := by cases op <;> rfl
  simp only [State.takeRecord, hc, if_pos h]

/-! ## A held record is taken -/

/-- A held record is taken like one fetched just now (R139). -/
theorem takeHeld_eq {s : State} {q : CqId} {k : SlotId} {e : Entry} {rec : Record} (hh : (s.queue q).held = some k)
    (he : s.entry k = some e) (hr : e.record = some rec) :
    s.takeHeld q =
      State.takeRecord
        { s with
          queues := s.queues.set q { s.queue q with held := none }
          inflight := s.inflight.set k (some { e with phase := .fetching }) } k q rec := by
  have he' : (s.setQueue q { s.queue q with held := none }).entry k = some e := he
  unfold State.takeHeld
  dsimp only
  split
  · rename_i h
    rw [hh] at h; cases h
  · rename_i k' h
    rw [hh] at h; cases h
    split
    · rename_i h; rw [he'] at h; cases h
    · rename_i e' h
      rw [he'] at h; cases h
      split
      · rename_i h; rw [hr] at h; cases h
      · rename_i h; rw [hr] at h; cases h
        rfl

/-! ## The level of an input's pin at a tick (R69, R71, R72) -/

/-- Taking the tick's sample keeps the level. -/
theorem Input.sample_level (x : Input) (n : Tick) (h : x.fresh = false) : (x.sample n).level = x.level := by
  unfold Input.sample Input.level
  cases hs : x.sampled <;> cases hq : x.qualified <;> cases hp : x.pin <;> cases hc : x.candidate <;> simp [*]

/-- The first sight of the pin in a tick gives the level. -/
theorem Input.show_level (x : Input) (v : Bool) (n : Tick) (hs : x.sampled = false) (hf : x.fresh = false) :
    (x.show v n).level = v := by
  refine (Input.sample_level { x with pin := v } n hf).trans ?_
  simp [Input.level, hs]

/-- A pin that moves after the tick's sample leaves the level. -/
theorem Input.show_level_of_sampled (x : Input) (v : Bool) (n : Tick) (hs : x.sampled = true) :
    (x.show v n).level = x.level := by
  simp [Input.show, Input.sample, Input.level, hs]

/-- An edge that qualifies takes the level as the qualified one, and keeps it. -/
theorem Input.qualify_level (x : Input) (n : Tick) (h : x.qualifies n = true) :
    x.qualify.level = x.level ∧ x.qualify.qualified = x.level := by
  unfold Input.qualifies at h
  cases hc : x.candidate with
  | none => rw [hc] at h; exact absurd h Bool.false_ne_true
  | some t =>
    rw [hc] at h
    have hl : x.level ≠ x.qualified := by
      simp only [Input.showsNew, Bool.and_eq_true, bne_iff_ne] at h
      exact h.1.2
    have : (!x.qualified) = x.level := by
      revert hl; cases x.level <;> cases x.qualified <;> simp
    exact ⟨by simp [Input.level, Input.qualify] at this ⊢; exact this, this⟩

/-! ## Nothing is due -/

/-- A pin is sampled once in a tick (R69, log 11). -/
theorem Input.sample_sample (x : Input) (n : Tick) : (x.sample n).sample n = x.sample n := by
  unfold Input.sample
  cases hs : x.sampled <;> cases hf : x.fresh <;> cases hq : x.qualified <;> cases hp : x.pin <;>
    cases hc : x.candidate <;> simp [*]

/-- A pin that has been sampled, or has not begun to be, is not sampled again. -/
theorem Input.sample_of_done {x : Input} (h : x.sampled = true ∨ x.fresh = true) (n : Tick) : x.sample n = x := by
  unfold Input.sample
  rw [if_pos (by simpa using h)]

/-- An input after its tick's sample has nothing more to be sampled. -/
theorem Input.sample_done (x : Input) (n : Tick) : (x.sample n).sampled = true ∨ (x.sample n).fresh = true := by
  unfold Input.sample
  split
  · simp_all
  · split
    · exact .inl rfl
    · split <;> exact .inl rfl

/-- The inputs of `s` with each pin sampled at the present tick (R69). -/
def State.sampledInputs (s : State) : Vector Input 4 :=
  Vector.ofFn fun i => (s.input i).sample s.timebase

/-- `s` with each pin sampled at the present tick (R69). -/
def State.allSampled (s : State) : State :=
  { s with inputs := s.sampledInputs }

@[simp] theorem State.allSampled_input (s : State) (i : InputId) :
    s.allSampled.input i = (s.input i).sample s.timebase := by
  simp [State.allSampled, State.input, State.sampledInputs]

/-- With no edge due, the inputs' turn of a round is the sampling of each pin. -/
theorem foldl_inputLast_of_nothingDue {s : State}
    (h : ∀ i, ((s.input i).sample s.timebase).qualifies s.timebase = false) :
    (List.finRange 4).foldl State.inputLast s = s.allSampled := by
  have step : ∀ (v : Vector Input 4) (i : InputId),
      (v.get i).sample s.timebase = (s.input i).sample s.timebase →
      State.inputLast { s with inputs := v } i =
        { s with inputs := v.set i ((s.input i).sample s.timebase) } := by
    intro v i hv
    have e : (State.setInput { s with inputs := v } i ((s.input i).sample s.timebase)).input i =
        (s.input i).sample s.timebase := State.setInput_input_self _ _ _
    unfold State.inputLast
    rw [show State.input { s with inputs := v } i = v.get i from rfl,
      show State.timebase { s with inputs := v } = s.timebase from rfl, hv]
    unfold State.edgeQualifies
    rw [e, State.setInput_timebase, if_neg (by rw [h i]; decide)]
    rfl
  rw [show List.finRange 4 = [0, 1, 2, 3] by decide]
  simp only [List.foldl_cons, List.foldl_nil]
  rw [show s.inputLast 0 = _ from step s.inputs 0 rfl]
  rw [step _ 1 (by rw [vector_get_set]; rfl), step _ 2 (by rw [vector_get_set, vector_get_set]; rfl),
    step _ 3 (by rw [vector_get_set, vector_get_set, vector_get_set]; rfl)]
  unfold State.allSampled State.sampledInputs
  congr 1
  ext k hk
  rcases (by omega : k = 0 ∨ k = 1 ∨ k = 2 ∨ k = 3) with rfl | rfl | rfl | rfl <;>
    simp

/-- A fold of happenings of which none is due changes nothing. -/
theorem foldl_of_fixed {α : Type} {f : State → α → State} {s : State} (l : List α) (h : ∀ x ∈ l, f s x = s) :
    l.foldl f s = s := by
  induction l with
  | nil => rfl
  | cons x l ih =>
    rw [List.foldl_cons, h x List.mem_cons_self, ih fun y hy => h y (List.mem_cons_of_mem _ hy)]

/-- With nothing due a round samples each pin, and takes nothing (R69). -/
theorem takeRound_of_nothingDue {s : State} (h : s.NothingDue) : s.takeRound = s.allSampled := by
  obtain ⟨h1, h2, h3, h4⟩ := h
  unfold State.takeRound
  dsimp only
  have hp : ∀ p ∈ List.finRange 16, (s.allSampled.pacerFires p).drivenFires p = s.allSampled := fun p _ => by
    rw [State.pacerFires, if_neg (by rw [show s.allSampled.firingDue p = false from (h2 p).1]; decide),
      State.drivenFires, if_neg (by rw [show s.allSampled.drivenDue p = false from (h2 p).2]; decide)]
  have hn : ∀ n ∈ List.finRange 8, (s.allSampled.resultArrives n).timeoutExpires n = s.allSampled := fun n _ => by
    rw [State.resultArrives, if_neg (by rw [show s.allSampled.resultDue n = false from (h3 n).1]; decide),
      State.timeoutExpires, if_neg (by rw [show s.allSampled.timeoutDue n = false from (h3 n).2]; decide)]
  have ho : ∀ tag, s.allSampled.deadlineDue tag = false := fun tag => by
    unfold State.deadlineDue
    split
    · exact h4 _ (List.mem_of_find?_eq_some (by assumption))
    · rfl
  rw [foldl_inputLast_of_nothingDue h1, foldl_of_fixed (List.finRange 16) hp,
    foldl_of_fixed (List.finRange 8) hn]
  exact foldl_of_fixed _ fun tag _ => by rw [State.readExpires, if_neg (by rw [ho tag]; decide)]

/-- After the sampling nothing is due where nothing was, and no pin is left to be sampled. -/
theorem anyDue_allSampled {s : State} (h : s.NothingDue) : s.allSampled.anyDue = false := by
  obtain ⟨h1, h2, h3, h4⟩ := h
  rw [Bool.eq_false_iff]
  simp only [State.anyDue, ne_eq, Bool.or_eq_true, List.any_eq_true, not_or, not_exists, not_and]
  refine ⟨⟨⟨fun i _ => ?_, fun p _ => ?_⟩, fun n _ => ?_⟩, fun o ho => ?_⟩
  · rw [State.allSampled_input]
    rcases Input.sample_done (s.input i) s.timebase with h | h <;> simp [h1 i, h, State.allSampled]
  · exact ⟨by rw [show s.allSampled.firingDue p = false from (h2 p).1]; decide,
      by rw [show s.allSampled.drivenDue p = false from (h2 p).2]; decide⟩
  · exact ⟨by rw [show s.allSampled.resultDue n = false from (h3 n).1]; decide,
      by rw [show s.allSampled.timeoutDue n = false from (h3 n).2]; decide⟩
  · rw [show due s.allSampled.timebase o.deadline = false from h4 o ho]; decide

/-- Where every pin has been sampled the sampling changes nothing. -/
theorem allSampled_of_not_anyDue {s : State} (h : s.anyDue = false) : s.allSampled = s := by
  have h1 : ∀ i, (s.input i).sampled = true ∨ (s.input i).fresh = true := by
    intro i
    rw [Bool.eq_false_iff] at h
    simp only [State.anyDue, ne_eq, Bool.or_eq_true, List.any_eq_true, not_or, not_exists, not_and] at h
    have := (h.1.1.1 i (List.mem_finRange i)).1
    cases hs : (s.input i).sampled <;> simp_all
  have : s.sampledInputs = s.inputs := by
    ext k hk : 1
    have e := Input.sample_of_done (h1 ⟨k, hk⟩) s.timebase
    simp only [State.sampledInputs, Vector.getElem_ofFn, e]
    rfl
  simp only [State.allSampled, this]

/-- With nothing due a tick samples the pins that no row has sampled, and takes nothing (R46, R69, log 6). -/
theorem takeDue_of_nothingDue {s : State} (h : s.NothingDue) : s.takeDue = s.allSampled := by
  rw [State.takeDue, show Config.dueRounds = (Config.dueRounds - 2) + 1 + 1 by decide, State.takeRounds]
  cases hd : s.anyDue with
  | false => rw [if_neg (by decide), allSampled_of_not_anyDue hd]
  | true =>
    rw [if_pos rfl, takeRound_of_nothingDue h, State.takeRounds, if_neg (by rw [anyDue_allSampled h]; decide)]

end Sys2Proof.Machine
end

