-- ==== Sys2Proof/Laws/Kept.lean ====
section
/-! SUPPORT. Everything the controller's blocks can do to the state, said once. `State.Kept P` says that a property of
states survives each elementary change; every larger operation then keeps it. -/

namespace Sys2Proof.Machine

/-- Property `P` survives each elementary change the blocks make to the state. -/
structure State.Kept (P : State → Prop) : Prop where
  pacer : ∀ s p x, P s → P (s.setPacer p x)
  input : ∀ s i x, P s → P (s.setInput i x)
  port : ∀ s n x, P s → P (s.setPort n x)
  stream : ∀ s i x, P s → P (s.setStream i x)
  holder : ∀ s n x, P s → P (s.setHolder n x)
  patHolder : ∀ s n x, P s → P (s.setPatHolder n x)
  portWord : ∀ s n x, P s → P (s.setPortWord n x)
  queue : ∀ s q x, P s → P (s.setQueue q x)
  entry : ∀ s k x, P s → P (s.setEntry k x)
  reserve : ∀ s q, s.commandClaim q = true → P s → P (s.reserve q)
  release : ∀ s q, P s → P (s.release q)
  submit : ∀ s q f, P s → P (s.submit q f)
  newRq : ∀ s base size en fl, isQueueSize size = true → P s → P (s.setRq 1 (ReplyQueue.created base size 0 en fl))
  noRq : ∀ s en fl, P s → P (s.setRq 1 (ReplyQueue.absent en fl))
  itemWritten : ∀ s q, P s → P (s.setRq q (s.rq q).itemWritten)
  itemDropped : ∀ s q, P s → P (s.setRq q { s.rq q with waiting := (s.rq q).waiting.tail })
  pattern : ∀ s a data, P s → P { s with patternMemory := memWriteAll s.patternMemory a data }
  quiesceEnd : ∀ s, P s → P s.quiesceEnd
  fatalStop : ∀ s, P s → P s.fatalStop
  raw : ∀ (s : State) emitted order loads fetch lastServed statusWrites sending outstanding lastStream lastReplyQueue
    streamRun nextTag, P s →
      P { s with
        emitted := emitted
        order := order
        loads := loads
        fetch := fetch
        lastServed := lastServed
        statusWrites := statusWrites
        sending := sending
        outstanding := outstanding
        lastStream := lastStream
        lastReplyQueue := lastReplyQueue
        streamRun := streamRun
        nextTag := nextTag }

namespace State.Kept

variable {P : State → Prop}

/-! ## Replies and grants -/

theorem claim_of_stream {s : State} {q : RqId} (h : s.streamClaim q = true) : s.commandClaim q = true := by
  simp only [State.streamClaim, State.commandClaim, ReplyQueue.grants, decide_eq_true_eq] at *
  omega

theorem reserveStream (k : State.Kept P) {s : State} (h : P s) (q : RqId) (hc : s.streamClaim q = true) :
    P (s.reserve q) :=
  k.reserve _ _ (claim_of_stream hc) h

theorem releaseIf (k : State.Kept P) {s : State} (h : P s) (b : Bool) (q : RqId) : P (s.releaseIf b q) := by
  unfold State.releaseIf
  split
  · exact k.release _ _ h
  · exact h

theorem complete (k : State.Kept P) {s : State} (h : P s) (e : SlotId) (st : Status) (a b : Word) :
    P (s.complete e st a b) := by
  unfold State.complete
  split
  · exact h
  · dsimp only
    split
    · exact k.release _ _ (k.entry _ _ _ h)
    · exact k.submit _ _ _ (k.entry _ _ _ h)

theorem refuse (k : State.Kept P) {s : State} (h : P s) (e : SlotId) (st : Status) : P (s.refuse e st) :=
  k.complete h e st 0 0

theorem discard (k : State.Kept P) {s : State} (h : P s) (e : SlotId) : P (s.discard e) := by
  unfold State.discard
  split
  · exact h
  · exact k.release _ _ (k.entry _ _ _ h)

theorem faultQueue (k : State.Kept P) {s : State} (h : P s) (q : CqId) (c : QueueFault) : P (s.faultQueue q c) := by
  unfold State.faultQueue
  dsimp only
  split
  · exact k.submit _ _ _ (k.queue _ _ _ h)
  · exact k.queue _ _ _ h

theorem toWorking (k : State.Kept P) {s : State} (h : P s) (e : SlotId) (a b : Word) : P (s.toWorking e a b) := by
  unfold State.toWorking
  split
  · exact h
  · exact k.entry _ _ _ h

theorem appendWaiting (k : State.Kept P) {s : State} (h : P s) (i : StreamId) (g : Grant) :
    P (s.appendWaiting i g) :=
  k.stream _ _ _ h

theorem rejoin (k : State.Kept P) {s : State} (h : P s) (i : StreamId) (g : Grant) : P (s.rejoin i g) := by
  unfold State.rejoin
  dsimp only
  split
  · split
    · exact k.appendWaiting (k.reserveStream h _ ‹_›) _ _
    · exact k.appendWaiting h _ _
  · exact k.appendWaiting h _ _

theorem retire (k : State.Kept P) {s : State} (h : P s) (i : StreamId) (g : Grant) : P (s.retire i g) := by
  unfold State.retire
  dsimp only
  split
  · have h' := k.submit _ (s.stream i).replyQueue (bufferNotice i g s.timebase) h
    split
    · exact k.rejoin h' _ _
    · exact k.releaseIf h' _ _
  · split
    · exact k.rejoin h _ _
    · exact k.releaseIf h _ _

theorem releaseGrants (k : State.Kept P) {s : State} (h : P s) (q : RqId) (l : List Grant) :
    P (s.releaseGrants q l) := by
  induction l generalizing s with
  | nil => exact h
  | cons g l ih => exact ih (k.releaseIf h _ _)

theorem prefetchTest (k : State.Kept P) {s : State} (h : P s) (i : StreamId) : P (s.prefetchTest i) :=
  k.stream _ _ _ h

theorem retireDue (k : State.Kept P) {s : State} (h : P s) (i : StreamId) : P (s.retireDue i) := by
  unfold State.retireDue
  dsimp only
  split
  · split
    · exact h
    · exact k.retire (k.stream _ _ _ h) _ _
  · split
    · split
      · exact h
      · exact k.prefetchTest (k.retire (k.stream _ _ _ h) _ _) _
    · exact h

/-! ## Streams -/

theorem emit (k : State.Kept P) {s : State} (h : P s) (c : Byte) : P (s.emit c) :=
  k.raw _ _ _ _ _ _ _ _ _ _ _ _ _ h

theorem reassign (k : State.Kept P) {s : State} (h : P s) (a b : Requester) : P (s.reassign a b) :=
  k.raw _ _ _ _ _ _ _ _ _ _ _ _ _ h

theorem stopPrefetch (k : State.Kept P) {s : State} (h : P s) (i : StreamId) (b : Requester) :
    P (s.stopPrefetch i b) := by
  unfold State.stopPrefetch
  dsimp only
  split
  · split
    · exact k.reassign (k.stream _ _ _ h) _ _
    · exact k.stream _ _ _ h
  · exact k.stream _ _ _ h

theorem pacerToOwned (k : State.Kept P) {s : State} (h : P s) (p : PacerId) : P (s.pacerToOwned p) := by
  unfold State.pacerToOwned
  dsimp only
  split
  · exact k.pacer _ _ _ h
  · exact h

theorem windDown (k : State.Kept P) {s : State} (h : P s) (i : StreamId) (b : Requester) : P (s.windDown i b) := by
  unfold State.windDown
  dsimp only
  split
  · exact k.stream _ _ _ h
  · exact k.stopPrefetch h _ _
  · exact k.pacerToOwned h _
  · exact h

theorem drivePark (k : State.Kept P) {s : State} (h : P s) (i : StreamId) : P (s.drivePark i) := by
  unfold State.drivePark
  dsimp only
  split
  · exact k.portWord _ _ _ h
  · exact h

theorem reclaimCurrent (k : State.Kept P) {s : State} (h : P s) (i : StreamId) : P (s.reclaimCurrent i) := by
  unfold State.reclaimCurrent
  dsimp only
  split
  · exact k.releaseIf (k.stream _ _ _ h) _ _
  · exact h

theorem restoreCurrent (k : State.Kept P) {s : State} (h : P s) (i : StreamId) : P (s.restoreCurrent i) := by
  unfold State.restoreCurrent
  dsimp only
  split
  · exact k.stream _ _ _ h
  · exact h

theorem cutShort (k : State.Kept P) {s : State} (h : P s) (i : StreamId) : P (s.cutShort i) := by
  unfold State.cutShort
  dsimp only
  split
  · exact h
  · split
    · exact k.stream _ _ _ h
    · exact k.retire (k.stream _ _ _ h) _ _

theorem replyStops (k : State.Kept P) {s : State} (h : P s) (l : List SlotId) (st : Status) (a : Word) (n : Nat) :
    P (s.replyStops l st a n) := by
  induction l generalizing s n with
  | nil => exact h
  | cons c l ih => exact ih (k.complete h _ _ _ _) _

theorem releaseEnd (k : State.Kept P) {s : State} (h : P s) (i : StreamId) : P (s.releaseEnd i) :=
  k.releaseIf (k.stream _ _ _ h) _ _

theorem postEnd (k : State.Kept P) {s : State} (h : P s) (i : StreamId) (r : EndReason) : P (s.postEnd i r) := by
  unfold State.postEnd
  dsimp only
  split
  · exact k.submit _ _ _ (k.stream _ _ _ h)
  · exact k.stream _ _ _ h

theorem endRun (k : State.Kept P) {s : State} (h : P s) (i : StreamId) (r : EndReason) : P (s.endRun i r) := by
  unfold State.endRun
  dsimp only
  have h1 := k.drivePark (k.windDown (k.stream s i
    { s.stream i with state := .opened, pendingStop := none } h) i .nobody) i
  revert h1
  generalize (State.drivePark _ i) = u
  intro h1
  refine k.emit ?_ _
  have h2 : P (if (((u.stream i).currentUnfilled && !(s.stream i).stopCommands.isEmpty) = true)
      then u.reclaimCurrent i
      else if (u.stream i).currentUnfilled = true then u.restoreCurrent i else u.cutShort i) := by
    split
    · exact k.reclaimCurrent h1 _
    · split
      · exact k.restoreCurrent h1 _
      · exact k.cutShort h1 _
  split
  · exact k.postEnd (k.replyStops h2 _ _ _ _) _ _
  · exact k.releaseEnd (k.replyStops h2 _ _ _ _) _

theorem testStop (k : State.Kept P) {s : State} (h : P s) (i : StreamId) : P (s.testStop i) := by
  unfold State.testStop
  dsimp only
  split
  · exact k.endRun h _ _
  · exact h

theorem stopRunning (k : State.Kept P) {s : State} (h : P s) (i : StreamId) (m : StopMode) (l : List SlotId) :
    P (s.stopRunning i m l) := by
  unfold State.stopRunning
  dsimp only
  split
  · exact k.endRun (k.stream _ _ _ h) _ _
  · exact k.stream _ _ _ h

theorem haltStream (k : State.Kept P) {s : State} (h : P s) (i : StreamId) (c : StreamFault) :
    P (s.haltStream i c) := by
  have h0 : P (if (s.stream i).state.runs = true then s.drivePark i else s) := by
    split
    · exact k.drivePark h _
    · exact h
  unfold State.haltStream
  dsimp only
  split <;> try exact h
  all_goals
    refine k.releaseEnd (k.replyStops ?_ _ _ _ _) _
    split
    · exact k.submit _ _ _ (k.stream _ _ _ h0)
    · exact k.stream _ _ _ h0

theorem foldl {α : Type} {f : State → α → State} (hf : ∀ s a, P s → P (f s a)) {s : State} (h : P s) (l : List α) :
    P (l.foldl f s) := by
  induction l generalizing s with
  | nil => exact h
  | cons a l ih => exact ih (hf _ _ h)

theorem freeResources (k : State.Kept P) {s : State} (h : P s) (i : StreamId) : P (s.freeResources i) := by
  unfold State.freeResources
  dsimp only
  have h1 : P ((s.stream i).scanList.foldl (fun s n => if s.holder n = some i then s.setHolder n none else s) s) := by
    refine foldl (fun s n h => ?_) h _
    split
    · exact k.holder _ _ _ h
    · exact h
  revert h1
  generalize ((s.stream i).scanList.foldl _ s) = u
  intro h1
  have h2 : P (if u.patHolder (s.stream i).patternPort = some i then u.setPatHolder (s.stream i).patternPort none
      else u) := by
    split
    · exact k.patHolder _ _ _ h1
    · exact h1
  split
  · exact k.pacer _ _ _ h2
  · exact h2

theorem closingSteps (k : State.Kept P) {s : State} (h : P s) (i : StreamId) : P (s.closingSteps i) := by
  unfold State.closingSteps
  dsimp only
  have h1 : P (if (s.stream i).currentUnfilled = true then s.reclaimCurrent i else s.cutShort i) := by
    split
    · exact k.reclaimCurrent h _
    · exact k.cutShort h _
  have h2 := k.stream _ i Stream.empty (k.freeResources (k.drivePark h1 i) i)
  split
  · exact k.complete h2 _ _ _ _
  · exact h2

theorem closeIfDrained (k : State.Kept P) {s : State} (h : P s) (i : StreamId) : P (s.closeIfDrained i) := by
  unfold State.closeIfDrained
  split
  · exact k.closingSteps h _
  · exact h

/-! ## Capture -/

theorem stageItem (k : State.Kept P) {s : State} (h : P s) (i : StreamId) (g : Grant) (n : Half) (b : List Byte) :
    P (s.stageItem i g n b) := by
  unfold State.stageItem
  dsimp only
  split <;> split <;> exact k.stream _ _ _ h

theorem loseToBacklog (k : State.Kept P) {s : State} (h : P s) (i : StreamId) : P (s.loseToBacklog i) := by
  unfold State.loseToBacklog
  dsimp only
  split
  · exact k.haltStream (k.stream _ _ _ h) _ _
  · exact k.stream _ _ _ h

theorem starve (k : State.Kept P) {s : State} (h : P s) (i : StreamId) : P (s.starve i) := by
  unfold State.starve
  dsimp only
  split
  · exact k.haltStream (k.stream _ _ _ h) _ _
  · exact k.stream _ _ _ h

theorem placeItem (k : State.Kept P) {s : State} (h : P s) (i : StreamId) (n : Half) (b : List Byte) :
    P (s.placeItem i n b) := by
  unfold State.placeItem
  dsimp only
  split
  · exact k.loseToBacklog h _
  · split
    · exact k.stageItem h _ _ _ _
    · exact k.starve h _
    · split
      · exact k.starve h _
      · exact k.stageItem (k.stream _ _ _ h) _ _ _ _

theorem afterItem (k : State.Kept P) {s : State} (h : P s) (i : StreamId) : P (s.afterItem i) := by
  unfold State.afterItem
  split
  · exact k.endRun h _ _
  · exact k.testStop h _

theorem completeItem (k : State.Kept P) {s : State} (h : P s) (i : StreamId) (f : Half → List Byte) (b : Bool) :
    P (s.completeItem i f b) := by
  unfold State.completeItem
  dsimp only
  have h1 := k.placeItem (k.stream s i
    { s.stream i with sequence := (s.stream i).sequence + 1, produced := (s.stream i).produced + 1 } h) i
    (s.stream i).sequence (f (s.stream i).sequence)
  split
  · exact h1
  · split
    · exact k.haltStream h1 _ _
    · exact k.afterItem h1 _

theorem strobeAll (k : State.Kept P) {s : State} (h : P s) (l : List PortId) : P (s.strobeAll l) := by
  induction l generalizing s with
  | nil => exact h
  | cons n l ih => exact ih (k.port _ _ _ h)

theorem scanAdvance (k : State.Kept P) {s : State} (h : P s) (i : StreamId) (t : Tick) : P (s.scanAdvance i t) := by
  unfold State.scanAdvance
  dsimp only
  split
  · exact k.stream _ _ _ (k.strobeAll h _)
  · split
    · exact k.haltStream (k.stream _ _ _ h) _ _
    · exact k.stream _ _ _ h

theorem completeScan (k : State.Kept P) {s : State} (h : P s) (i : StreamId) (f : ScanFlight) :
    P (s.completeScan i f) :=
  k.completeItem (k.stream _ _ _ h) _ _ _

theorem takeOutcome (k : State.Kept P) {s : State} (h : P s) (i : StreamId) (f : ScanFlight) (n : Nat)
    (o : ScanSlot) : P (s.takeOutcome i f n o) := by
  unfold State.takeOutcome
  dsimp only
  split
  · exact k.stream _ _ _ h
  · exact k.completeScan h _ _

theorem portOutcome (k : State.Kept P) {s : State} (h : P s) (n : PortId) (o : ScanSlot) : P (s.portOutcome n o) := by
  unfold State.portOutcome
  split
  · exact h
  · dsimp only
    split
    · split
      · exact k.takeOutcome h _ _ _ _
      · exact h
    · exact k.closeIfDrained h _

theorem itemDealt (k : State.Kept P) {s : State} (h : P s) (i : StreamId) : P (s.itemDealt i) :=
  k.closeIfDrained (k.retireDue (k.stream _ _ _ h) _) _

theorem itemFailed (k : State.Kept P) {s : State} (h : P s) (i : StreamId) : P (s.itemFailed i) :=
  k.closeIfDrained (k.retireDue (k.haltStream (k.stream _ _ _ h) _ _) _) _

/-! ## Playback and events -/

theorem underflow (k : State.Kept P) {s : State} (h : P s) (i : StreamId) : P (s.underflow i) := by
  unfold State.underflow
  dsimp only
  split
  · exact k.haltStream h _ _
  · exact k.testStop (k.stream _ _ _ h) _

theorem playAdvance (k : State.Kept P) {s : State} (h : P s) (i : StreamId) : P (s.playAdvance i) := by
  unfold State.playAdvance
  dsimp only
  split
  · exact k.underflow h _
  · have h1 := fun x => k.afterItem (k.stream _ i x (k.portWord s (s.stream i).patternPort ‹Half› h)) i
    split
    · exact k.prefetchTest (h1 _) _
    · exact h1 _

theorem prefetchDone (k : State.Kept P) {s : State} (h : P s) (i : StreamId) (d : List Byte) :
    P (s.prefetchDone i d) := by
  unfold State.prefetchDone
  dsimp only
  split
  · exact h
  · split
    · exact k.stream _ _ _ h
    · refine k.prefetchTest (k.testStop ?_ _) _
      split
      · exact k.stream _ _ _ h
      · exact k.retire (k.stream _ _ _ h) _ _

theorem prefetchFailed (k : State.Kept P) {s : State} (h : P s) (i : StreamId) : P (s.prefetchFailed i) :=
  k.haltStream (k.stream _ _ _ h) _ _

theorem outputEntry (k : State.Kept P) {s : State} (h : P s) (i : StreamId) (n : Nat) (a : Word) (t : Tick) :
    P (s.outputEntry i n a t) :=
  k.pacer _ _ _ (k.stream _ _ _ (k.portWord _ _ _ h))

theorem ringLimit (k : State.Kept P) {s : State} (h : P s) (i : StreamId) : P (s.ringLimit i) := by
  unfold State.ringLimit
  split
  · exact k.endRun h _ _
  · exact h

theorem startRun (k : State.Kept P) {s : State} (h : P s) (i : StreamId) (t : Tick) : P (s.startRun i t) := by
  unfold State.startRun
  dsimp only
  split
  · exact k.ringLimit (k.outputEntry (k.stream _ _ _ h) _ _ _ _) _
  · exact k.stream _ _ _ h

theorem ringFiring (k : State.Kept P) {s : State} (h : P s) (i : StreamId) (t : Tick) : P (s.ringFiring i t) := by
  unfold State.ringFiring
  dsimp only
  split
  · exact k.endRun h _ _
  · exact k.ringLimit (k.outputEntry h _ _ _ _) _

theorem tallyAdvance (k : State.Kept P) {s : State} (h : P s) (i : StreamId) : P (s.tallyAdvance i) := by
  unfold State.tallyAdvance
  dsimp only
  split
  · exact k.stream _ _ _ h
  · split
    · split
      · exact k.endRun (k.stream _ _ _ h) _ _
      · exact k.emit (k.stream _ _ _ h) _
    · exact k.endRun (k.stream _ _ _ h) _ _

theorem advance (k : State.Kept P) {s : State} (h : P s) (i : StreamId) (e : Event) : P (s.advance i e) := by
  unfold State.advance
  split
  · exact k.scanAdvance h _ _
  · exact k.completeItem h _ _ _
  · exact k.playAdvance h _
  · exact k.tallyAdvance h _
  · exact h
  · exact h

theorem stopRole (k : State.Kept P) {s : State} (h : P s) (i : StreamId) (e : Event) : P (s.stopRole i e) := by
  unfold State.stopRole
  dsimp only
  split
  · split
    · exact k.stopRunning h _ _ _
    · exact h
  · exact h

theorem deliver (k : State.Kept P) {s : State} (h : P s) (i : StreamId) (e : Event) : P (s.deliver i e) := by
  unfold State.deliver
  dsimp only
  split
  · split
    · exact k.startRun h _ _
    · exact h
  · refine k.stopRole ?_ _ _
    split
    · exact k.advance h _ _
    · exact h
  · split
    · exact k.advance h _ _
    · exact h
  all_goals exact h

theorem deliverAll (k : State.Kept P) {s : State} (h : P s) (e : Event) (l : List StreamId) :
    P (s.deliverAll e l) := by
  induction l generalizing s with
  | nil => exact h
  | cons i l ih => exact ih (k.deliver h _ _)

theorem deliverEvents (k : State.Kept P) (n : Nat) {s : State} (h : P s) : P (State.deliverEvents n s) := by
  induction n generalizing s with
  | zero => exact k.raw _ _ _ _ _ _ _ _ _ _ _ _ _ h
  | succ n ih =>
    unfold State.deliverEvents
    split
    · exact h
    · exact ih (k.deliverAll (k.raw _ _ _ _ _ _ _ _ _ _ _ _ _ h) _ _)

/-! ## The commands -/

theorem takeOpen (k : State.Kept P) {s : State} (h : P s) (e : SlotId) (r : RecordBody) : P (s.takeOpen e r) := by
  unfold State.takeOpen
  split
  case h_1 hc =>
    have hq : s.streamClaim (openedStream r).replyQueue = true := by
      unfold State.openCheck at hc
      dsimp only at hc
      repeat' split at hc
      all_goals first
        | exact absurd hc (by decide)
        | simpa [openedStream] using ‹¬(!s.streamClaim (rqOf r.byte6)) = true›
    refine k.complete (k.stream _ _ _ ?_) _ _ _ _
    have h1 := k.reserveStream h _ hq
    unfold State.claimResources
    dsimp only
    have h2 : P ((openedStream r).scanList.foldl (fun s n => s.setHolder n (some (streamOf r)))
        (s.reserve (openedStream r).replyQueue)) :=
      foldl (fun s n h => k.holder _ _ _ h) h1 _
    split
    · exact k.patHolder _ _ _ h2
    · exact k.pacer _ _ _ (k.patHolder _ _ _ h2)
    · exact h2
  · exact k.refuse h _ _

theorem takeArm (k : State.Kept P) {s : State} (h : P s) (e : SlotId) (r : RecordBody) : P (s.takeArm e r) := by
  unfold State.takeArm
  split
  case h_1 hc =>
    dsimp only
    refine k.complete ?_ _ _ _ _
    have h1 : P (if (armedStream (s.stream (streamOf r)) r).endReserved = true
        then s.reserve (armedStream (s.stream (streamOf r)) r).replyQueue else s) := by
      split
      case isTrue he =>
        refine k.reserveStream h _ ?_
        have hp : policyOf r.policyField = some .report := by simpa [armedStream] using he
        unfold State.armCheck at hc
        dsimp only at hc
        repeat' split at hc
        all_goals first
          | exact absurd hc (by decide)
          | (simp_all [armedStream])
      case isFalse => exact h
    have h2 := k.prefetchTest (k.stream _ (streamOf r) (armedStream (s.stream (streamOf r)) r) h1) (streamOf r)
    split
    · exact k.startRun h2 _ _
    · exact h2
  · exact k.refuse h _ _

theorem stopArmed (k : State.Kept P) {s : State} (h : P s) (i : StreamId) (e : SlotId) : P (s.stopArmed i e) := by
  unfold State.stopArmed
  dsimp only
  refine k.complete (k.releaseEnd ?_ _) _ _ _ _
  have h0 := k.stream s i { s.stream i with state := .opened } h
  revert h0
  generalize s.setStream i _ = u
  intro h0
  have h1 : P (if ((u.stream i).kind == some Kind.play) = true then u.stopPrefetch i .nobody else u) := by
    split
    · exact k.stopPrefetch h0 _ _
    · exact h0
  revert h1
  generalize (if ((u.stream i).kind == some Kind.play) = true then u.stopPrefetch i .nobody else u) = v
  intro h1
  split
  · exact k.reclaimCurrent h1 _
  · split
    · exact k.cutShort h1 _
    · exact h1

theorem stopAgain (k : State.Kept P) {s : State} (h : P s) (i : StreamId) (m : StopMode) (e : SlotId) :
    P (s.stopAgain i m e) := by
  unfold State.stopAgain
  dsimp only
  split
  · exact h
  · split
    · exact k.testStop (k.stream _ _ _ h) _
    · exact k.stream _ _ _ h

theorem takeStop (k : State.Kept P) {s : State} (h : P s) (e : SlotId) (r : RecordBody) : P (s.takeStop e r) := by
  unfold State.takeStop
  split
  · dsimp only
    split
    · exact k.stopArmed h _ _
    · exact k.stopRunning (k.toWorking h _ _ _) _ _ _
    · exact k.stopAgain (k.toWorking h _ _ _) _ _ _
  · exact k.refuse h _ _

theorem takeResume (k : State.Kept P) {s : State} (h : P s) (e : SlotId) (r : RecordBody) :
    P (s.takeResume e r) := by
  unfold State.takeResume
  split
  case h_1 hc =>
    refine k.complete (k.stream _ _ _ (k.reserveStream h _ ?_)) _ _ _ _
    unfold State.resumeCheck at hc
    dsimp only at hc
    repeat' split at hc
    all_goals first
      | exact absurd hc (by decide)
      | simp_all
  · exact k.refuse h _ _

theorem beginClose (k : State.Kept P) {s : State} (h : P s) (i : StreamId) (e : SlotId) : P (s.beginClose i e) :=
  k.replyStops (k.stream _ _ _ (k.releaseIf (k.releaseIf (k.releaseGrants
    (k.drivePark (k.windDown h _ _) _) _ _) _ _) _ _)) _ _ _ _

theorem takeClose (k : State.Kept P) {s : State} (h : P s) (e : SlotId) (r : RecordBody) : P (s.takeClose e r) := by
  unfold State.takeClose
  split
  · exact k.closeIfDrained (k.beginClose (k.toWorking h _ _ _) _ _) _
  · exact k.refuse h _ _

theorem takeQuery (k : State.Kept P) {s : State} (h : P s) (e : SlotId) (r : RecordBody) : P (s.takeQuery e r) := by
  unfold State.takeQuery
  split
  · exact k.raw _ _ _ _ _ _ _ _ _ _ _ _ _ (k.toWorking h _ _ _)
  · exact k.refuse h _ _

theorem takeGrant (k : State.Kept P) {s : State} (h : P s) (e : SlotId) (r : RecordBody) : P (s.takeGrant e r) := by
  unfold State.takeGrant
  split
  case h_1 hc =>
    dsimp only
    refine k.complete (k.prefetchTest (k.appendWaiting ?_ _ _) _) _ _ _ _
    split
    case isTrue hn =>
      refine k.reserveStream h _ ?_
      unfold State.grantCheck at hc
      dsimp only at hc
      repeat' split at hc
      all_goals first
        | exact absurd hc (by decide)
        | simp_all
    case isFalse => exact h
  · exact k.refuse h _ _

theorem takeReclaim (k : State.Kept P) {s : State} (h : P s) (e : SlotId) (r : RecordBody) :
    P (s.takeReclaim e r) := by
  unfold State.takeReclaim
  split
  · exact k.complete (k.releaseGrants (k.stream _ _ _ h) _ _) _ _ _ _
  · exact k.refuse h _ _

theorem takeLoad (k : State.Kept P) {s : State} (h : P s) (e : SlotId) (r : RecordBody) : P (s.takeLoad e r) := by
  unfold State.takeLoad
  split
  · exact k.raw _ _ _ _ _ _ _ _ _ _ _ _ _ (k.toWorking h _ _ _)
  · exact k.complete h _ _ _ _

theorem takeCreateCq (k : State.Kept P) {s : State} (h : P s) (e : SlotId) (r : RecordBody) :
    P (s.takeCreateCq e r) := by
  unfold State.takeCreateCq
  split
  case h_1 hc =>
    refine k.complete (k.queue _ _ _ (k.reserveStream h _ ?_)) _ _ _ _
    unfold State.createCqCheck at hc
    repeat' split at hc
    all_goals first
      | exact absurd hc (by decide)
      | simp_all
  · exact k.refuse h _ _

theorem abortHeld (k : State.Kept P) {s : State} (h : P s) (e : SlotId) : P (s.abortHeld e) := by
  unfold State.abortHeld
  split
  · exact k.complete h _ _ _ _
  · exact k.complete h _ _ _ _

theorem takeDeleteCq (k : State.Kept P) {s : State} (h : P s) (e : SlotId) (r : RecordBody) :
    P (s.takeDeleteCq e r) := by
  unfold State.takeDeleteCq
  split
  · dsimp only
    have h1 : P (match (s.queue (cqOf r)).held with
      | some h => s.abortHeld h
      | none => s) := by
      split
      · exact k.abortHeld h _
      · exact h
    have h2 := k.releaseIf h1 (s.queue (cqOf r)).faultReserved 0
    revert h2
    generalize State.releaseIf _ (s.queue (cqOf r)).faultReserved 0 = v
    intro h2
    split
    · exact k.complete (k.queue _ _ _ h2) _ _ _ _
    · exact k.toWorking (k.queue _ _ _ h2) _ _ _
  · exact k.refuse h _ _

theorem takeCreateRq (k : State.Kept P) {s : State} (h : P s) (e : SlotId) (r : RecordBody) :
    P (s.takeCreateRq e r) := by
  unfold State.takeCreateRq
  split
  case h_1 hc =>
    refine k.complete (k.newRq _ _ _ _ _ ?_ h) _ _ _ _
    unfold State.createRqCheck at hc
    repeat' split at hc
    all_goals first
      | exact absurd hc (by decide)
      | simp_all [createRqParamsOk, ringOk]
  · exact k.refuse h _ _

theorem takeDeleteRq (k : State.Kept P) {s : State} (h : P s) (e : SlotId) (r : RecordBody) :
    P (s.takeDeleteRq e r) := by
  unfold State.takeDeleteRq
  split
  · exact k.complete (k.noRq _ _ _ h) _ _ _ _
  · exact k.refuse h _ _

theorem runOpcode (k : State.Kept P) {s : State} (h : P s) (e : SlotId) (q : CqId) (op : Opcode) (r : RecordBody) :
    P (s.runOpcode e q op r) := by
  cases op with
  | nop =>
    show P (s.takeNop e q r)
    unfold State.takeNop
    split
    · exact k.complete h _ _ _ _
    · exact k.refuse h _ _
  | readTime =>
    show P (s.takeReadTime e r)
    unfold State.takeReadTime
    split
    · exact k.complete h _ _ _ _
    · exact k.refuse h _ _
  | openStream => exact k.takeOpen h _ _
  | arm => exact k.takeArm h _ _
  | stop => exact k.takeStop h _ _
  | resume => exact k.takeResume h _ _
  | close => exact k.takeClose h _ _
  | queryStream => exact k.takeQuery h _ _
  | grant => exact k.takeGrant h _ _
  | reclaim => exact k.takeReclaim h _ _
  | setPacer =>
    show P (s.takeSetPacer e r)
    unfold State.takeSetPacer
    split
    · exact k.complete (k.pacer _ _ _ h) _ _ _ _
    · exact k.refuse h _ _
  | haltPacer =>
    show P (s.takeHaltPacer e r)
    unfold State.takeHaltPacer
    split
    · exact k.complete (k.pacer _ _ _ h) _ _ _ _
    · exact k.refuse h _ _
  | loadPattern => exact k.takeLoad h _ _
  | createCq => exact k.takeCreateCq h _ _
  | deleteCq => exact k.takeDeleteCq h _ _
  | createRq => exact k.takeCreateRq h _ _
  | deleteRq => exact k.takeDeleteRq h _ _
  | configInput =>
    show P (s.takeConfigInput e r)
    unfold State.takeConfigInput
    split
    · exact k.complete (k.input _ _ _ h) _ _ _ _
    · exact k.refuse h _ _
  | configPort =>
    show P (s.takeConfigPort e r)
    unfold State.takeConfigPort
    split
    · exact k.complete (k.port _ _ _ h) _ _ _ _
    · exact k.refuse h _ _

theorem takeRecord (k : State.Kept P) {s : State} (h : P s) (e : SlotId) (q : CqId) (rec : Record) :
    P (s.takeRecord e q rec) := by
  unfold State.takeRecord
  split
  · exact k.refuse h _ _
  · split
    · exact k.refuse h _ _
    · exact k.runOpcode h _ _ _ _

/-! ## Happenings -/

theorem letIn (k : State.Kept P) {s : State} (h : P s) (q : CqId) (n : SlotId) (e : Entry) (rec : Record) :
    P (s.letIn q n e rec) :=
  k.entry _ _ _ (k.queue _ _ _ h)

theorem holdRecord (k : State.Kept P) {s : State} (h : P s) (q : CqId) (n : SlotId) : P (s.holdRecord q n) := by
  unfold State.holdRecord
  split
  · exact h
  · exact k.entry _ _ _ (k.queue _ _ _ h)

theorem fetchDone (k : State.Kept P) {s : State} (h : P s) (rec : Record) : P (s.fetchDone rec) := by
  unfold State.fetchDone
  split
  · exact h
  · rename_i f _
    have h1 : P { s with fetch := none } := k.raw _ _ _ _ _ _ _ _ _ _ _ _ _ h
    dsimp only
    split
    · exact k.discard h1 _
    · split
      · exact h1
      · split
        · exact k.holdRecord (k.letIn h1 _ _ _ _) _ _
        · exact k.takeRecord (k.letIn h1 _ _ _ _) _ _ _

theorem fetchFailed (k : State.Kept P) {s : State} (h : P s) : P s.fetchFailed := by
  unfold State.fetchFailed
  split
  · exact h
  · dsimp only
    have h1 := fun e => k.discard (e := e)
      (show P { s with fetch := none } from k.raw _ _ _ _ _ _ _ _ _ _ _ _ _ h)
    split
    · exact k.faultQueue (h1 _) _ _
    · exact h1 _

theorem takeHeld (k : State.Kept P) {s : State} (h : P s) (q : CqId) : P (s.takeHeld q) := by
  unfold State.takeHeld
  dsimp only
  split
  · exact h
  · have h1 := k.queue s q { s.queue q with held := none } h
    split
    · exact h1
    · split
      · exact k.discard h1 _
      · exact k.takeRecord (k.entry _ _ _ h1) _ _ _

theorem deletingDone (k : State.Kept P) {s : State} (h : P s) (q : CqId) : P (s.deletingDone q) := by
  unfold State.deletingDone
  dsimp only
  split
  · split
    · exact k.complete (k.queue _ _ _ h) _ _ _ _
    · exact k.queue _ _ _ h
  · exact k.queue _ _ _ h

theorem settle (k : State.Kept P) (n : Nat) {s : State} (h : P s) : P (State.settle n s) := by
  induction n generalizing s with
  | zero => exact k.raw _ _ _ _ _ _ _ _ _ _ _ _ _ h
  | succ n ih =>
    unfold State.settle
    dsimp only
    have h1 := k.deliverEvents Config.chainBound h
    split
    · exact h1
    · refine ih ?_
      rename_i f _
      cases f with
      | deletion q => exact k.deletingDone h1 _
      | held q => exact k.takeHeld h1 _
      | quiesce => exact k.quiesceEnd _ h1

theorem finish (k : State.Kept P) {s : State} (h : P s) : P s.finish :=
  k.settle _ h

theorem recordArrives (k : State.Kept P) {s : State} (h : P s) (q : CqId) (rec : Record) :
    P (s.recordArrives q rec) := by
  unfold State.recordArrives
  split
  · exact h
  · split
    · exact k.finish (k.fetchDone (k.raw _ _ _ _ _ _ _ _ _ _ _ _ _ h) _)
    · exact h

/-! ## The Transfer Mover -/

theorem completeWith (k : State.Kept P) {s : State} (h : P s) (e : SlotId) (st : Status) :
    P (s.completeWith e st) := by
  unfold State.completeWith
  split
  · exact k.complete h _ _ _ _
  · exact h

theorem statusDone (k : State.Kept P) {s : State} (h : P s) (e : SlotId) (st : Status) : P (s.statusDone e st) :=
  k.completeWith (k.raw _ _ _ _ _ _ _ _ _ _ _ _ _ h) _ _

theorem loadEnds (k : State.Kept P) {s : State} (h : P s) (l : Load) (st : Status) : P (s.loadEnds l st) :=
  k.complete (k.raw _ _ _ _ _ _ _ _ _ _ _ _ _ h) _ _ _ _

theorem loadReadDone (k : State.Kept P) {s : State} (h : P s) (e : SlotId) (d : List Byte) :
    P (s.loadReadDone e d) := by
  unfold State.loadReadDone
  split
  · exact h
  · dsimp only
    have h1 := fun a => k.pattern s a d h
    split
    · exact k.loadEnds (h1 _) _ _
    · exact k.raw _ _ _ _ _ _ _ _ _ _ _ _ _ (h1 _)

theorem loadReadFailed (k : State.Kept P) {s : State} (h : P s) (e : SlotId) : P (s.loadReadFailed e) := by
  unfold State.loadReadFailed
  split
  · exact h
  · exact k.loadEnds h _ _

theorem replyItemFailed (k : State.Kept P) {s : State} (h : P s) (q : RqId) : P (s.replyItemFailed q) :=
  k.fatalStop _ (k.itemDropped _ _ h)

theorem reportDone (k : State.Kept P) {s : State} (h : P s) (w : Requester) (d : List Byte) :
    P (s.reportDone w d) := by
  cases w with
  | capture i => exact k.itemDealt h _
  | prefetch i => exact k.prefetchDone h _ _
  | closing i => exact k.closeIfDrained h _
  | reply q => exact k.itemWritten _ _ h
  | message q => exact k.itemWritten _ _ h
  | status e => exact k.statusDone h _ _
  | fetch => exact k.fetchDone h _
  | load e => exact k.loadReadDone h _ _
  | lostReply => exact h
  | nobody => exact h

theorem reportFailed (k : State.Kept P) {s : State} (h : P s) (w : Requester) : P (s.reportFailed w) := by
  cases w with
  | capture i => exact k.itemFailed h _
  | prefetch i => exact k.prefetchFailed h _
  | closing i => exact k.closeIfDrained h _
  | reply q => exact k.replyItemFailed h _
  | message q => exact k.replyItemFailed h _
  | status e => exact k.statusDone h _ _
  | fetch => exact k.fetchFailed h
  | load e => exact k.loadReadFailed h _
  | lostReply => exact k.fatalStop _ h
  | nobody => exact h

theorem serve (k : State.Kept P) {s : State} (h : P s) (t : Transfer) : P (s.serve t) := by
  unfold State.serve
  split
  · exact k.raw _ _ _ _ _ _ _ _ _ _ _ _ _ h
  · exact k.reportFailed h _

theorem serveStream (k : State.Kept P) {s : State} (h : P s) (i : StreamId) : P (s.serveStream i) := by
  unfold State.serveStream
  dsimp only
  split
  · exact k.serve (k.stream _ _ _ h) _
  · split
    · exact k.serve (k.stream _ _ _ h) _
    · exact h

theorem serveReply (k : State.Kept P) {s : State} (h : P s) (q : RqId) : P (s.serveReply q) := by
  have h1 : P { s with lastReplyQueue := q } := k.raw _ _ _ _ _ _ _ _ _ _ _ _ _ h
  unfold State.serveReply
  dsimp only
  split
  · exact h1
  · split
    · exact k.serve h1 _
    · exact k.itemWritten _ _ h1
  · exact k.serve h1 _

theorem serveControl (k : State.Kept P) {s : State} (h : P s) : P s.serveControl := by
  unfold State.serveControl
  split
  · exact k.serveReply h _
  · split
    · unfold State.serveStatus
      split
      · exact h
      · exact k.serve (k.raw _ _ _ _ _ _ _ _ _ _ _ _ _ h) _
    · split
      · unfold State.serveFetch
        split
        · exact h
        · exact k.serve (k.raw _ _ _ _ _ _ _ _ _ _ _ _ _ h) _
      · unfold State.serveLoad
        split
        · exact h
        · exact k.serve (k.raw _ _ _ _ _ _ _ _ _ _ _ _ _ h) _

theorem serveStreamClass (k : State.Kept P) {s : State} (h : P s) : P s.serveStreamClass := by
  unfold State.serveStreamClass
  split
  · exact k.serveStream (k.raw _ _ _ _ _ _ _ _ _ _ _ _ _ h) _
  · exact h

theorem arbitrate (k : State.Kept P) {s : State} (h : P s) : P s.arbitrate := by
  unfold State.arbitrate
  split
  · exact h
  · dsimp only
    split
    · exact k.serveStreamClass (k.raw _ _ _ _ _ _ _ _ _ _ _ _ _ h)
    · exact k.serveControl (k.raw _ _ _ _ _ _ _ _ _ _ _ _ _ h)

theorem sent (k : State.Kept P) {s : State} (h : P s) : P s.sent := by
  unfold State.sent
  split
  · exact h
  · dsimp only
    split
    · exact k.reportFailed (k.raw _ _ _ _ _ _ _ _ _ _ _ _ _ h) _
    · split
      · exact k.raw _ _ _ _ _ _ _ _ _ _ _ _ _ h
      · split
        · exact k.reportDone (k.raw _ _ _ _ _ _ _ _ _ _ _ _ _ h) _ _
        · exact k.raw _ _ _ _ _ _ _ _ _ _ _ _ _ h

theorem dataReturned (k : State.Kept P) {s : State} (h : P s) (tag : Nat) (d : List Byte) :
    P (s.dataReturned tag d) := by
  unfold State.dataReturned
  split
  · exact h
  · dsimp only
    split
    · exact k.raw _ _ _ _ _ _ _ _ _ _ _ _ _ h
    · exact k.reportDone (k.raw _ _ _ _ _ _ _ _ _ _ _ _ _ h) _ _

theorem readFailed (k : State.Kept P) {s : State} (h : P s) (tag : Nat) : P (s.readFailed tag) := by
  unfold State.readFailed
  split
  · exact h
  · exact k.reportFailed (k.raw _ _ _ _ _ _ _ _ _ _ _ _ _ h) _

theorem takeTurn (k : State.Kept P) {s : State} (h : P s) : P s.takeTurn := by
  unfold State.takeTurn
  split
  · split
    case h_1 q hq =>
      have hc : s.commandClaim (s.queue q).replyQueue = true := by
        have := List.find?_some hq
        simp only [State.eligible, Bool.and_eq_true] at this
        exact this.2
      exact k.raw _ _ _ _ _ _ _ _ _ _ _ _ _ (k.entry _ _ _ (k.reserve _ _ hc h))
    · exact h
  · exact h

/-! ## Time -/

theorem pacerFires (k : State.Kept P) {s : State} (h : P s) (p : PacerId) : P (s.pacerFires p) := by
  unfold State.pacerFires
  split
  · exact k.finish (k.emit (k.pacer _ _ _ h) _)
  · exact h

theorem drivenFires (k : State.Kept P) {s : State} (h : P s) (p : PacerId) : P (s.drivenFires p) := by
  unfold State.drivenFires
  split
  · refine k.finish ?_
    unfold State.fireDriven
    dsimp only
    split
    · exact k.ringFiring (k.emit h _) _ _
    · exact k.emit h _
  · exact h

theorem edgeQualifies (k : State.Kept P) {s : State} (h : P s) (i : InputId) : P (s.edgeQualifies i) := by
  unfold State.edgeQualifies
  split
  · refine k.finish ?_
    unfold State.qualifyEdge
    dsimp only
    split
    · exact k.emit (k.input _ _ _ h) _
    · exact k.input _ _ _ h
  · exact h

theorem ready (k : State.Kept P) {s : State} (h : P s) (n : PortId) : P (s.ready n) := by
  unfold State.ready
  dsimp only
  split
  · exact k.port _ _ _ h
  · exact h

theorem resultArrives (k : State.Kept P) {s : State} (h : P s) (n : PortId) : P (s.resultArrives n) := by
  unfold State.resultArrives
  split
  · exact k.finish (k.portOutcome (k.port _ _ _ h) _ _)
  · exact h

theorem timeoutExpires (k : State.Kept P) {s : State} (h : P s) (n : PortId) : P (s.timeoutExpires n) := by
  unfold State.timeoutExpires
  split
  · exact k.finish (k.portOutcome (k.port _ _ _ h) _ _)
  · exact h

theorem readExpires (k : State.Kept P) {s : State} (h : P s) (tag : Nat) : P (s.readExpires tag) := by
  unfold State.readExpires
  split
  · exact k.finish (k.readFailed h _)
  · exact h

theorem inputLast (k : State.Kept P) {s : State} (h : P s) (i : InputId) : P (s.inputLast i) :=
  k.edgeQualifies (k.input _ _ _ h) _

theorem takeRound (k : State.Kept P) {s : State} (h : P s) : P s.takeRound := by
  unfold State.takeRound
  have h1 := foldl (P := P) (f := State.inputLast) (fun s a h => k.inputLast h a) h (List.finRange 4)
  have h2 := foldl (P := P) (f := fun s p => (s.pacerFires p).drivenFires p)
    (fun s a h => k.drivenFires (k.pacerFires h a) a) h1 (List.finRange 16)
  have h3 := foldl (P := P) (f := fun s n => (s.resultArrives n).timeoutExpires n)
    (fun s a h => k.timeoutExpires (k.resultArrives h a) a) h2 (List.finRange 8)
  exact foldl (P := P) (f := State.readExpires) (fun s a h => k.readExpires h a) h3 _

theorem takeRounds (k : State.Kept P) (n : Nat) {s : State} (h : P s) : P (State.takeRounds n s) := by
  induction n generalizing s with
  | zero => exact h
  | succ n ih =>
    unfold State.takeRounds
    split
    · exact ih (k.takeRound h)
    · exact h

theorem takeDue (k : State.Kept P) {s : State} (h : P s) : P s.takeDue :=
  k.takeRounds _ h

end State.Kept

end Sys2Proof.Machine
end

