-- ==== Sys2Proof/Laws/Operations.lean ====
section
/-! SUPPORT. For each shared operation, once, what it can change: replies and reservations, grants, park words, the end
of a run, a fault, the closing steps, the fatal stop, and the quiesce. -/

namespace Sys2Proof.Machine

/-! ## Replies and reservations touch the reply queues and the in-flight table alone -/

/-- State `t` is `s` but for its reply queues and in-flight table. -/
def State.RepliesOnly (s t : State) : Prop :=
  t = { s with replyQueues := t.replyQueues, inflight := t.inflight }

namespace State.RepliesOnly

theorem refl (s : State) : s.RepliesOnly s := rfl

theorem trans {s t u : State} (h : s.RepliesOnly t) (g : t.RepliesOnly u) : s.RepliesOnly u := by
  unfold State.RepliesOnly at *
  rw [g, h]

theorem stream {s t : State} (h : s.RepliesOnly t) (i : StreamId) : t.stream i = s.stream i := by
  unfold State.RepliesOnly at h
  rw [h]
  rfl

theorem setRq (s : State) (q : RqId) (x : ReplyQueue) : s.RepliesOnly (s.setRq q x) := rfl

theorem setEntry (s : State) (k : SlotId) (x : Option Entry) : s.RepliesOnly (s.setEntry k x) := rfl

theorem reserve (s : State) (q : RqId) : s.RepliesOnly (s.reserve q) := rfl

theorem release (s : State) (q : RqId) : s.RepliesOnly (s.release q) := rfl

theorem releaseIf (s : State) (b : Bool) (q : RqId) : s.RepliesOnly (s.releaseIf b q) := by
  unfold State.releaseIf
  split <;> rfl

theorem submit (s : State) (q : RqId) (f : Bool → List Byte) : s.RepliesOnly (s.submit q f) := by
  unfold State.submit
  split <;> rfl

theorem complete (s : State) (k : SlotId) (st : Status) (a b : Word) : s.RepliesOnly (s.complete k st a b) := by
  unfold State.complete
  split
  · rfl
  · dsimp only
    split
    · rfl
    · exact (setEntry _ _ _).trans (submit _ _ _)

theorem toWorking (s : State) (k : SlotId) (a b : Word) : s.RepliesOnly (s.toWorking k a b) := by
  unfold State.toWorking
  split <;> rfl

theorem replyStops (l : List SlotId) (s : State) (st : Status) (a : Word) (n : Nat) :
    s.RepliesOnly (s.replyStops l st a n) := by
  induction l generalizing s n with
  | nil => rfl
  | cons c cs ih => exact (complete _ _ _ _ _).trans (ih _ _)

theorem releaseGrants (q : RqId) (l : List Grant) (s : State) : s.RepliesOnly (s.releaseGrants q l) := by
  induction l generalizing s with
  | nil => rfl
  | cons c cs ih => exact (releaseIf _ _ _).trans (ih _)

/-- A grant that retires where nothing recycles touches replies alone (R35, R38). -/
theorem retire (s : State) (i : StreamId) (g : Grant) (h : (s.stream i).state.recycles = false) :
    s.RepliesOnly (s.retire i g) := by
  unfold State.retire
  simp only [h, Bool.and_false, Bool.false_eq_true, if_false]
  refine trans ?_ (releaseIf _ _ _)
  split
  · exact submit _ _ _
  · rfl

theorem setStream {s t : State} (h : s.RepliesOnly t) (i : StreamId) (x : Stream) :
    (s.setStream i x).RepliesOnly (t.setStream i x) := by
  unfold State.RepliesOnly at h ⊢
  rw [h]
  rfl

/-- The same machine but for replies is as calm. -/
theorem calm {s t : State} (h : s.RepliesOnly t) (hc : s.Calm) : t.Calm := by
  unfold State.RepliesOnly at h
  exact hc.of_eq (by rw [h]) (by rw [h]) (by rw [h])

end State.RepliesOnly

/-- A completed command's entry is free (R133). -/
theorem complete_entry_self (s : State) (k : SlotId) (st : Status) (a b : Word) :
    (s.complete k st a b).entry k = none := by
  unfold State.complete
  cases h : s.entry k with
  | none => exact h
  | some e =>
    dsimp only
    split
    · simp [State.release, State.entry, State.setEntry, State.setRq, vector_get_set]
    · unfold State.submit
      split <;> simp [State.entry, State.setEntry, State.setRq, vector_get_set]

/-- A completed command frees no entry but its own. -/
theorem complete_entry_of_ne (s : State) (k j : SlotId) (st : Status) (a b : Word) (h : k ≠ j) :
    (s.complete k st a b).entry j = s.entry j := by
  unfold State.complete
  cases hk : s.entry k with
  | none => rfl
  | some e =>
    dsimp only
    split
    · simp [State.release, State.entry, State.setEntry, State.setRq, vector_get_set, h]
    · unfold State.submit
      split <;> simp [State.entry, State.setEntry, State.setRq, vector_get_set, h]

/-- Pending STOPs that reply free their own entries (R10). -/
theorem replyStops_entry_of_not_mem (l : List SlotId) (s : State) (j : SlotId) (st : Status) (a : Word) (n : Nat)
    (h : j ∉ l) : (s.replyStops l st a n).entry j = s.entry j := by
  induction l generalizing s n with
  | nil => rfl
  | cons c cs ih =>
    rw [List.mem_cons, not_or] at h
    rw [State.replyStops, ih _ _ h.2, complete_entry_of_ne _ _ _ _ _ _ (Ne.symm h.1)]

/-- Every pending STOP that replies is at its end (R10). -/
theorem replyStops_entry_of_mem (l : List SlotId) (s : State) (j : SlotId) (st : Status) (a : Word) (n : Nat)
    (h : j ∈ l) : (s.replyStops l st a n).entry j = none := by
  induction l generalizing s n with
  | nil => exact absurd h List.not_mem_nil
  | cons c cs ih =>
    rw [State.replyStops]
    by_cases hj : j ∈ cs
    · exact ih _ _ hj
    · rw [List.mem_cons, or_iff_left hj] at h
      rw [replyStops_entry_of_not_mem _ _ _ _ _ _ hj, h]
      exact complete_entry_self _ _ _ _ _

theorem setRq_self (s : State) (q : RqId) : s.setRq q (s.rq q) = s := by
  cases s
  simp only [State.setRq, State.rq, vector_set_self]

/-- Released grants give back a reservation for each that holds one (R30). -/
theorem releaseGrants_eq (q : RqId) (l : List Grant) (s : State) :
    s.releaseGrants q l =
      s.setRq q { s.rq q with reserved := (s.rq q).reserved - l.countP fun g => g.reserved } := by
  induction l generalizing s with
  | nil => exact (setRq_self s q).symm
  | cons g gs ih =>
    rw [State.releaseGrants, ih]
    cases hg : g.reserved
    · simp [State.releaseIf, hg]
    · simp only [State.releaseIf, if_true, State.release, State.setRq, State.rq, vector_get_set, vector_set_set,
        List.countP_cons, hg]
      congr 3
      omega

/-! ## Operations on one stream -/

theorem setStream_self (s : State) (i : StreamId) : s.setStream i (s.stream i) = s := by
  cases s
  simp only [State.setStream, State.stream, vector_set_self]

theorem stream_setStream (s : State) (i j : StreamId) (x : Stream) :
    (s.setStream i x).stream j = if i = j then x else s.stream j := by
  simp only [State.stream, State.setStream, vector_get_set]

theorem setStream_setStream (s : State) (i : StreamId) (x y : Stream) :
    (s.setStream i x).setStream i y = s.setStream i y := by
  simp only [State.setStream, vector_set_set]

/-- Two changes of one stream, each with replies only beside it, are one. -/
theorem State.RepliesOnly.stream_trans {s t u : State} {i : StreamId} {x y : Stream}
    (h : (s.setStream i x).RepliesOnly t) (g : (t.setStream i y).RepliesOnly u) : (s.setStream i y).RepliesOnly u := by
  have := (h.setStream i y).trans g
  rwa [setStream_setStream] at this

/-- A current grant given back leaves the stream (R36). -/
theorem reclaimCurrent_spec (s : State) (i : StreamId) :
    (s.setStream i { s.stream i with current := none }).RepliesOnly (s.reclaimCurrent i) := by
  unfold State.reclaimCurrent
  dsimp only
  cases hc : (s.stream i).current with
  | none =>
    rw [show ({ s.stream i with current := none } : Stream) = s.stream i by rw [← hc], setStream_self]
    exact State.RepliesOnly.refl s
  | some g => exact State.RepliesOnly.releaseIf _ _ _

/-- The finishing grants once the current grant is cut short: it joins them where an item of it is in staging (R36). -/
def Stream.cutFinishing (st : Stream) : List Grant :=
  match st.current with
  | some g => if st.hasStaged g.number then st.finishing ++ [g] else st.finishing
  | none => st.finishing

/-- A current grant cut short leaves its place, and joins the finishing grants or retires (R36). -/
theorem cutShort_spec (s : State) (i : StreamId) (h : (s.stream i).state.recycles = false) :
    (s.setStream i { s.stream i with current := none, finishing := (s.stream i).cutFinishing }).RepliesOnly
      (s.cutShort i) := by
  unfold State.cutShort Stream.cutFinishing
  dsimp only
  cases hc : (s.stream i).current with
  | none =>
    rw [show ({ s.stream i with current := none, finishing := (s.stream i).finishing } : Stream) = s.stream i by
      rw [← hc], setStream_self]
    exact State.RepliesOnly.refl s
  | some g =>
    dsimp only
    split
    · exact State.RepliesOnly.refl _
    · refine State.RepliesOnly.retire _ _ _ ?_
      rw [stream_setStream, if_pos rfl]
      exact h

/-- The waiting grants once the current grant is put back at their head (R36). -/
def Stream.restoredWaiting (st : Stream) : List Grant :=
  match st.current with
  | some g => { g with firstSeq := none } :: st.waiting
  | none => st.waiting

/-- A current grant of fill 0 goes back to the head of the waiting queue (R36). -/
theorem restoreCurrent_spec (s : State) (i : StreamId) :
    s.restoreCurrent i =
      s.setStream i { s.stream i with current := none, waiting := (s.stream i).restoredWaiting } := by
  unfold State.restoreCurrent Stream.restoredWaiting
  dsimp only
  cases hc : (s.stream i).current with
  | none =>
    rw [show ({ s.stream i with current := none, waiting := (s.stream i).waiting } : Stream) = s.stream i by
      rw [← hc], setStream_self]
  | some g => rfl

/-- A park word is driven on the stream's own pattern port, where it has one (R23). -/
theorem drivePark_eq (s : State) (i : StreamId) :
    s.drivePark i =
      s.setPortWord (s.stream i).patternPort ((s.stream i).park.getD (s.portWord (s.stream i).patternPort)) := by
  unfold State.drivePark
  dsimp only
  cases h : (s.stream i).park with
  | none =>
    cases s
    simp only [State.setPortWord, State.portWord, Option.getD_none, vector_set_self]
  | some w => rfl

/-! ## The end of a run, and of a stream -/

/-- The stream whose timed work has been wound down (R10, step 2). -/
def Stream.woundDown (st : Stream) : Stream :=
  match st.kind with
  | some .scan => { st with scan := none }
  | some .play => { st with fifo := [], prefetching := false, read := none }
  | _ => st

/-- The pacers after the timed work of stream `i` has been wound down (R10, R59). -/
def State.pacersWoundDown (s : State) (i : StreamId) : Vector Pacer 16 :=
  if (s.stream i).kind = some .ring then (s.pacerToOwned (s.stream i).pacer).pacers else s.pacers

theorem pacerToOwned_spec (s : State) (p : PacerId) :
    s.pacerToOwned p = { s with pacers := (s.pacerToOwned p).pacers } := by
  unfold State.pacerToOwned
  dsimp only
  split <;> rfl

/-- Winding down touches the stream, its pacer and the transfers it lets go of (R10, R102, R106). -/
theorem windDown_spec (s : State) (i : StreamId) (heir : Requester) :
    ∃ sending outstanding, s.windDown i heir = { s.setStream i (s.stream i).woundDown with
      pacers := s.pacersWoundDown i
      sending := sending
      outstanding := outstanding } := by
  have other : s.windDown i heir = s → (s.stream i).woundDown = s.stream i → s.pacersWoundDown i = s.pacers →
      ∃ sending outstanding, s.windDown i heir = { s.setStream i (s.stream i).woundDown with
        pacers := s.pacersWoundDown i
        sending := sending
        outstanding := outstanding } := by
    intro h1 h2 h3
    refine ⟨s.sending, s.outstanding, ?_⟩
    rw [h1, h2, h3, setStream_self]
  match hk : (s.stream i).kind with
  | none =>
    exact other (by simp [State.windDown, hk]) (by simp [Stream.woundDown, hk]) (by simp [State.pacersWoundDown, hk])
  | some .stamp =>
    exact other (by simp [State.windDown, hk]) (by simp [Stream.woundDown, hk]) (by simp [State.pacersWoundDown, hk])
  | some .tally =>
    exact other (by simp [State.windDown, hk]) (by simp [Stream.woundDown, hk]) (by simp [State.pacersWoundDown, hk])
  | some .scan =>
    refine ⟨s.sending, s.outstanding, ?_⟩
    simp only [State.windDown, Stream.woundDown, State.pacersWoundDown, hk]
    rfl
  | some .ring =>
    refine ⟨s.sending, s.outstanding, ?_⟩
    simp only [State.windDown, Stream.woundDown, State.pacersWoundDown, hk, if_true, setStream_self]
    exact pacerToOwned_spec _ _
  | some .play =>
    have hw : (s.stream i).woundDown = { s.stream i with fifo := [], prefetching := false, read := none } := by
      simp [Stream.woundDown, hk]
    have hp : s.pacersWoundDown i = s.pacers := by simp [State.pacersWoundDown, hk]
    have hd : s.windDown i heir = s.stopPrefetch i heir := by simp [State.windDown, hk]
    rw [hw, hp, hd]
    unfold State.stopPrefetch
    dsimp only
    split
    · split
      · exact ⟨_, _, rfl⟩
      · exact ⟨s.sending, s.outstanding, rfl⟩
    · exact ⟨s.sending, s.outstanding, rfl⟩

/-- The stream whose current grant has left its place at the end of a run (R10 and R36): given back as reclaimed where
it is of fill 0 and STOP commands are pending, put back where none is, and else cut short. -/
def Stream.currentLeft (st : Stream) (commands : Bool) : Stream :=
  { st with
    current := none
    waiting := if st.currentUnfilled && !commands then st.restoredWaiting else st.waiting
    finishing := if st.currentUnfilled then st.finishing else st.cutFinishing }

theorem Stream.currentLeft_woundDown (st : Stream) (commands : Bool) :
    st.woundDown.currentLeft commands = (st.currentLeft commands).woundDown := by
  unfold Stream.woundDown
  rw [show (st.currentLeft commands).kind = st.kind from rfl]
  split <;> rfl

/-- The current grant at the end of a run (R10, step 2, and R36): it leaves its place. -/
theorem currentLeaves_spec (s : State) (i : StreamId) (h : (s.stream i).state.recycles = false) (commands : Bool) :
    (s.setStream i ((s.stream i).currentLeft commands)).RepliesOnly
      (if (s.stream i).currentUnfilled && commands then s.reclaimCurrent i
        else if (s.stream i).currentUnfilled then s.restoreCurrent i else s.cutShort i) := by
  unfold Stream.currentLeft
  cases hu : (s.stream i).currentUnfilled with
  | false => exact cutShort_spec s i h
  | true =>
    cases commands with
    | true => exact reclaimCurrent_spec s i
    | false => exact (restoreCurrent_spec s i) ▸ State.RepliesOnly.refl _

/-- The end-notice reservation goes, by its notice or without (R3, R10). -/
theorem endNotice_spec (s : State) (i : StreamId) (reason : EndReason) (commands : Bool) :
    (s.setStream i { s.stream i with endReserved := false }).RepliesOnly
      (if commands then s.postEnd i reason else s.releaseEnd i) := by
  split
  · unfold State.postEnd
    dsimp only
    split
    · exact State.RepliesOnly.submit _ _ _
    · exact State.RepliesOnly.refl _
  · exact State.RepliesOnly.releaseIf _ _ _

/-- The end of a run, once (R10): what becomes of the stream, its pacer, its port and its event; the rest of what it
changes is replies and in-flight entries, and the transfers it lets go of. -/
theorem endRun_spec (s : State) (i : StreamId) (reason : EndReason) :
    ∃ sending outstanding replyQueues inflight, s.endRun i reason =
      { s.setStream i { ((s.stream i).currentLeft !(s.stream i).stopCommands.isEmpty).woundDown with
          state := .opened
          pendingStop := none
          endReserved := false } with
        pacers := s.pacersWoundDown i
        patternWord := (s.drivePark i).patternWord
        emitted := s.emitted ++ [⟨terminalCode i, s.timebase⟩]
        sending := sending
        outstanding := outstanding
        replyQueues := replyQueues
        inflight := inflight } := by
  generalize hst : s.stream i = st
  have h1 : (s.setStream i { st with state := .opened, pendingStop := none }).stream i =
      { st with state := .opened, pendingStop := none } := by
    rw [stream_setStream, if_pos rfl]
  obtain ⟨snd, out, h2⟩ := windDown_spec (s.setStream i { st with state := .opened, pendingStop := none }) i .nobody
  rw [h1, setStream_setStream] at h2
  unfold State.endRun
  dsimp only
  rw [hst, h2, drivePark_eq]
  clear h2
  generalize hs3 :
    State.setPortWord ({ s.setStream i _ with pacers := _, sending := _, outstanding := _ } : State) _ _ = s3
  have h3 : s3.stream i = ({ st with state := .opened, pendingStop := none } : Stream).woundDown := by
    rw [← hs3]
    exact (stream_setStream s i i _).trans (if_pos rfl)
  have hr : (s3.stream i).state.recycles = false := by
    rw [h3]
    simp only [Stream.woundDown]
    split <;> rfl
  have h4 := currentLeaves_spec s3 i hr (!st.stopCommands.isEmpty)
  generalize hs4 : (if (s3.stream i).currentUnfilled && !st.stopCommands.isEmpty then s3.reclaimCurrent i
    else if (s3.stream i).currentUnfilled then s3.restoreCurrent i else s3.cutShort i) = s4 at *
  generalize hn : (if ((s3.stream i).currentUnfilled && !st.stopCommands.isEmpty) = true then 1 else 0) = n
  have h5 := State.RepliesOnly.replyStops st.stopCommands s4 .ok st.produced n
  generalize s4.replyStops st.stopCommands .ok st.produced n = s5 at *
  have h6 := endNotice_spec s5 i reason st.stopCommands.isEmpty
  generalize hs6 : (if st.stopCommands.isEmpty = true then s5.postEnd i reason else s5.releaseEnd i) = s6 at *
  have h7 := (h4.trans h5).stream_trans h6
  rw [(h4.trans h5).stream, stream_setStream, if_pos rfl, h3] at h7
  unfold State.RepliesOnly at h7
  refine ⟨snd, out, s6.replyQueues, s6.inflight, ?_⟩
  rw [h7]
  have hw : ({ st with state := .opened, pendingStop := none } : Stream).woundDown =
      { st.woundDown with state := .opened, pendingStop := none } := by
    simp only [Stream.woundDown]
    split <;> rfl
  have hl : (({ st with state := .opened, pendingStop := none } : Stream).woundDown).currentLeft
      (!st.stopCommands.isEmpty) =
      { (st.currentLeft !st.stopCommands.isEmpty).woundDown with state := .opened, pendingStop := none } := by
    rw [hw]
    exact congrArg (fun x : Stream => { x with state := .opened, pendingStop := none })
      (st.currentLeft_woundDown _)
  have hp : (s.setStream i { st with state := .opened, pendingStop := none }).pacersWoundDown i =
      s.pacersWoundDown i := by
    unfold State.pacersWoundDown
    rw [stream_setStream, if_pos rfl, hst]
    dsimp only
    split
    · unfold State.pacerToOwned
      dsimp only [State.setStream, State.pacer]
      split <;> rfl
    · rfl
  have hpark : st.woundDown.park = st.park ∧ st.woundDown.patternPort = st.patternPort := by
    simp only [Stream.woundDown]
    split <;> exact ⟨rfl, rfl⟩
  have hpw : s3.patternWord = (s.drivePark i).patternWord := by
    rw [← hs3, drivePark_eq s, hst]
    simp only [hw, State.stream, State.setStream, vector_get_set, if_true, hpark.1, hpark.2]
    rfl
  have hpc : s3.pacers = s.pacersWoundDown i := by
    rw [← hs3]
    exact hp
  rw [← hpw, ← hpc, ← hs3]
  simp only [hl, State.emit, State.setStream, State.setPortWord, vector_set_set]

theorem releaseEnd_entry (s : State) (i : StreamId) (k : SlotId) : (s.releaseEnd i).entry k = s.entry k := by
  unfold State.releaseEnd State.releaseIf
  dsimp only
  split <;> rfl

/-- The pending STOPs of a run that ends have replied (R10). -/
theorem endRun_entry_of_mem (s : State) (i : StreamId) (reason : EndReason) (k : SlotId)
    (h : k ∈ (s.stream i).stopCommands) : (s.endRun i reason).entry k = none := by
  have hne : (s.stream i).stopCommands.isEmpty = false := by
    cases hl : (s.stream i).stopCommands with
    | nil => rw [hl] at h; exact absurd h List.not_mem_nil
    | cons c cs => rfl
  unfold State.endRun
  dsimp only
  rw [State.emit_entry, if_neg (by simp [hne]), releaseEnd_entry]
  exact replyStops_entry_of_mem _ _ _ _ _ _ h

/-! ## The closing steps -/

/-- The resources of stream `i` after they are freed (R21, step 3). -/
theorem freeResources_spec (s : State) (i : StreamId) :
    ∃ portHolder patternHolder pacers, s.freeResources i =
        { s with portHolder := portHolder, patternHolder := patternHolder, pacers := pacers } ∧
      (∀ n, portHolder.get n = if n ∈ (s.stream i).scanList ∧ s.holder n = some i then none else s.holder n) ∧
      (∀ n, patternHolder.get n =
        if n = (s.stream i).patternPort ∧ s.patHolder n = some i then none else s.patHolder n) ∧
      (∀ p, pacers.get p =
        if (s.stream i).kind = some .ring ∧ p = (s.stream i).pacer then Pacer.zero else s.pacer p) := by
  have fold : ∀ (l : List PortId) (u : State),
      ∃ h, l.foldl (fun s n => if s.holder n = some i then s.setHolder n none else s) u =
          { u with portHolder := h } ∧
        ∀ n, h.get n = if n ∈ l ∧ u.holder n = some i then none else u.holder n := by
    intro l
    induction l with
    | nil => exact fun u => ⟨u.portHolder, rfl, fun n => by simp [State.holder]⟩
    | cons c cs ih =>
      intro u
      by_cases hc : u.holder c = some i
      · obtain ⟨h, h1, h2⟩ := ih (u.setHolder c none)
        refine ⟨h, ?_, fun n => ?_⟩
        · rw [List.foldl_cons, if_pos hc, h1]
          rfl
        · rw [h2]
          simp only [State.holder, State.setHolder, vector_get_set, List.mem_cons] at hc ⊢
          by_cases hn : c = n
          · subst hn
            simp [hc]
          · simp [hn, Ne.symm hn]
      · obtain ⟨h, h1, h2⟩ := ih u
        refine ⟨h, ?_, fun n => ?_⟩
        · rw [List.foldl_cons, if_neg hc, h1]
        · rw [h2]
          by_cases hn : n = c
          · subst hn
            simp [hc]
          · simp [hn]
  obtain ⟨h, h1, h2⟩ := fold (s.stream i).scanList s
  unfold State.freeResources
  dsimp only
  rw [h1]
  have hp : State.patHolder { s with portHolder := h } (s.stream i).patternPort =
      s.patHolder (s.stream i).patternPort := rfl
  rw [hp]
  have hq : ∃ v, (if s.patHolder (s.stream i).patternPort = some i then
        State.setPatHolder { s with portHolder := h } (s.stream i).patternPort none
        else { s with portHolder := h }) = { s with portHolder := h, patternHolder := v } ∧
      ∀ n, v.get n = if n = (s.stream i).patternPort ∧ s.patHolder n = some i then none else s.patHolder n := by
    by_cases hc : s.patHolder (s.stream i).patternPort = some i
    · rw [if_pos hc]
      refine ⟨_, rfl, fun n => ?_⟩
      rw [vector_get_set]
      by_cases hn : (s.stream i).patternPort = n
      · subst hn
        simp [hc]
      · simp [hn, Ne.symm hn, State.patHolder]
    · rw [if_neg hc]
      refine ⟨s.patternHolder, rfl, fun n => ?_⟩
      by_cases hn : n = (s.stream i).patternPort
      · subst hn
        simp only [hc, and_false, if_false]
        rfl
      · simp only [hn, false_and, if_false]
        rfl
  obtain ⟨v, h3, h4⟩ := hq
  rw [h3]
  by_cases hk : (s.stream i).kind = some .ring
  · rw [if_pos hk]
    refine ⟨h, v, _, rfl, h2, h4, fun p => ?_⟩
    simp only [vector_get_set, hk, true_and, eq_comm, State.pacer]
  · rw [if_neg hk]
    exact ⟨h, v, s.pacers, rfl, h2, h4, fun p => by simp only [hk, false_and, if_false]; rfl⟩

/-- The closing steps, once (R21): the stream is CLOSED with every field of a CLOSED stream, its holders and its RING
pacer are let go, its park word is driven, and its CLOSE has ended; the rest of what they change is replies. -/
theorem closingSteps_spec (s : State) (i : StreamId) (h : (s.stream i).state.recycles = false) :
    ∃ portHolder patternHolder pacers replyQueues inflight, s.closingSteps i =
        { s.setStream i Stream.empty with
          patternWord := (s.drivePark i).patternWord
          portHolder := portHolder
          patternHolder := patternHolder
          pacers := pacers
          replyQueues := replyQueues
          inflight := inflight } ∧
      (∀ n, portHolder.get n = if n ∈ (s.stream i).scanList ∧ s.holder n = some i then none else s.holder n) ∧
      (∀ n, patternHolder.get n =
        if n = (s.stream i).patternPort ∧ s.patHolder n = some i then none else s.patHolder n) ∧
      (∀ p, pacers.get p =
        if (s.stream i).kind = some .ring ∧ p = (s.stream i).pacer then Pacer.zero else s.pacer p) ∧
      ∀ c, (s.stream i).closing = some c → (s.closingSteps i).entry c.slot = none := by
  generalize hst : s.stream i = st at *
  have h1 : ∃ finishing, (s.setStream i { st with current := none, finishing := finishing }).RepliesOnly
      (if st.currentUnfilled then s.reclaimCurrent i else s.cutShort i) := by
    split
    · exact ⟨st.finishing, hst ▸ reclaimCurrent_spec s i⟩
    · exact ⟨_, hst ▸ cutShort_spec s i (hst ▸ h)⟩
  obtain ⟨f, h1⟩ := h1
  generalize hu : (if st.currentUnfilled then s.reclaimCurrent i else s.cutShort i) = u at *
  have hui : u.stream i = { st with current := none, finishing := f } := by
    rw [h1.stream, stream_setStream, if_pos rfl]
  unfold State.RepliesOnly at h1
  obtain ⟨ph, qh, pc, h2, h3, h4, h5⟩ := freeResources_spec (u.drivePark i) i
  have hd : (u.drivePark i).stream i = { st with current := none, finishing := f } := by
    rw [drivePark_eq]
    exact hui
  rw [hd] at h3 h4 h5
  have hw : (u.drivePark i).patternWord = (s.drivePark i).patternWord := by
    rw [drivePark_eq, drivePark_eq, hui, hst, h1]
    rfl
  have hv : State.setStream { u.drivePark i with portHolder := ph, patternHolder := qh, pacers := pc } i Stream.empty =
      { s.setStream i Stream.empty with
        patternWord := (s.drivePark i).patternWord
        portHolder := ph
        patternHolder := qh
        pacers := pc
        replyQueues := u.replyQueues
        inflight := u.inflight } := by
    rw [← hw, drivePark_eq, hui, h1]
    simp only [State.setStream, State.setPortWord, vector_set_set]
  have hh : ∀ n, (u.drivePark i).holder n = s.holder n := by
    intro n
    rw [drivePark_eq, h1]
    rfl
  have hp : ∀ n, (u.drivePark i).patHolder n = s.patHolder n := by
    intro n
    rw [drivePark_eq, h1]
    rfl
  have hc : ∀ n, (u.drivePark i).pacer n = s.pacer n := by
    intro n
    rw [drivePark_eq, h1]
    rfl
  simp only [hh] at h3
  simp only [hp] at h4
  simp only [hc] at h5
  unfold State.closingSteps
  dsimp only
  rw [hst, hu, h2, hv]
  cases hcl : st.closing with
  | none => exact ⟨ph, qh, pc, _, _, rfl, h3, h4, h5, fun c hc => nomatch hc⟩
  | some c =>
    refine ⟨ph, qh, pc, _, _, State.RepliesOnly.complete _ c.slot _ _ _, h3, h4, h5, ?_⟩
    rintro _ ⟨⟩
    exact complete_entry_self _ _ _ _ _

/-! ## The fatal stop -/

/-- Driving the park words changes the words of the ports alone (R23). -/
theorem driveParks_spec (s : State) : ∃ w, s.driveParks = { s with patternWord := w } := by
  unfold State.driveParks
  generalize allStreams = l
  induction l generalizing s with
  | nil => exact ⟨_, rfl⟩
  | cons i l ih =>
    rw [List.foldl_cons]
    obtain ⟨w, h⟩ := ih (s.drivePark i)
    refine ⟨w, h.trans ?_⟩
    unfold State.drivePark
    dsimp only
    split <;> rfl

/-- Idling the sample ports changes the ports alone (R83). -/
theorem idlePorts_spec (s : State) : ∃ p, s.idlePorts = { s with ports := p } := by
  unfold State.idlePorts
  generalize List.finRange 8 = l
  induction l generalizing s with
  | nil => exact ⟨_, rfl⟩
  | cons i l ih =>
    rw [List.foldl_cons]
    obtain ⟨w, h⟩ := ih (s.setPort i (SamplePort.idle (s.port i).timeout))
    exact ⟨w, h.trans rfl⟩

/-- A fatal stop from READY or QUIESCING leaves the device FATAL with cause REPLY_WRITE, and RQ0, where it is ACTIVE,
frozen and asking for its message (R158, R178). -/
theorem fatalStop_spec (s : State) (h : s.device = .ready ∨ s.device = .quiescing) (ha : (s.rq 0).active = true) :
    s.fatalStop.device = .fatal ∧ s.fatalStop.cause = .replyWrite ∧
      s.fatalStop.rq 0 = { s.rq 0 with reserved := 0, waiting := [.message], sent := true } := by
  obtain ⟨w, hw⟩ := driveParks_spec s
  obtain ⟨p, hp⟩ := idlePorts_spec s.driveParks
  have hrq : s.driveParks.idlePorts.replyQueues = s.replyQueues := by rw [hp, hw]
  have hq : s.shutdown.rq 0 = { s.rq 0 with reserved := 0, waiting := [] } := by
    simp only [State.shutdown, State.dropReplies, State.dropQueues, State.rq, State.setRq, hrq, vector_get_set]
    simp
  unfold State.fatalStop
  rcases h with h | h
  all_goals
    rw [h]
    dsimp only
    have h0 : (({ s.shutdown with device := .fatal, cause := .replyWrite } : State).rq 0) =
        { s.rq 0 with reserved := 0, waiting := [] } := by
      simp only [State.rq] at hq ⊢
      exact hq
    simp only [State.askVector0, h0, ha, if_true, ReplyQueue.askMessage]
    refine ⟨rfl, rfl, ?_⟩
    simp only [State.rq, State.setRq, vector_get_set, if_true, List.nil_append]
/-! ## A quiesce (R176, R177) -/

/-- Where every stream is CLOSED, events reach none and leave no trace (R60, R62). -/
theorem deliverEvents_of_closed (n : Nat) {s : State} (h : ∀ i, s.stream i = Stream.empty) :
    State.deliverEvents n s = { s with emitted := [] } := by
  induction n generalizing s with
  | zero => rfl
  | succ n ih =>
    have hsub : ∀ c, s.subscribers c = [] :=
      fun c => State.Unheard.subscribers fun i => by rw [h i]; rfl
    unfold State.deliverEvents
    split
    · rename_i he
      rw [← he]
    · rename_i e rest he
      rw [hsub]
      exact ih (s := { s with emitted := rest, order := s.orderAfter [] }) h

/-- The queues that a shutdown leaves (R121, R122). -/
theorem shutdown_queue (s : State) (k : CqId) :
    s.shutdown.queue k =
      if k = 0 then { s.queue 0 with faultReserved := false, held := none } else CommandQueue.absent := by
  obtain ⟨w, hw⟩ := driveParks_spec s
  obtain ⟨p, hp⟩ := idlePorts_spec s.driveParks
  have : s.shutdown.queues =
      (Vector.replicate 4 CommandQueue.absent).set 0 { s.queue 0 with faultReserved := false, held := none } := by
    show ((s.driveParks.idlePorts).dropQueues).queues = _
    rw [State.dropQueues, hp, hw]
    rfl
  unfold State.queue at this ⊢
  rw [this]
  match k with
  | 0 => rfl
  | 1 => rfl
  | 2 => rfl
  | 3 => rfl

/-- A happening that leaves a QUIESCING device with no work but the mover's: a CQ0 in DELETING, which no run has, is
gone, and the quiesce ends at once where the mover is drained (R177). -/
theorem finish_quiescing {z : State} {x : CommandQueue} (hcl : ∀ i, z.stream i = Stream.empty)
    (hent : ∀ k, z.entry k = none) (hq : ∀ k, z.queue k = if k = 0 then x else CommandQueue.absent)
    (hx : x.held = none) (hd : z.device = .quiescing) :
    let t : State := { z with emitted := [] }
    let u : State := if x.state = .deleting then t.setQueue 0 CommandQueue.absent else t
    z.finish = if u.drained then u.quiesceEnd else u := by
  intro t u
  have hent : ∀ k, t.entry k = none := hent
  have hq : ∀ k, t.queue k = if k = 0 then x else CommandQueue.absent := hq
  have hwork : ∀ k, t.outstandingWork k = 0 := by
    intro k
    have : ∀ ph, t.countPhase k ph = 0 := by
      intro ph
      simp [State.countPhase, hent]
    simp [State.outstandingWork, this]
  have hwork' : ∀ v : State, v.inflight = t.inflight → ∀ k, v.outstandingWork k = 0 := by
    intro v h k
    have := hwork k
    simpa only [State.outstandingWork, State.countPhase, State.entry, h] using this
  have hdel : ∀ v : State, (∀ k, v.outstandingWork k = 0) → (∀ k, k ≠ 0 → (v.queue k).state ≠ .deleting) →
      ((List.finRange 4).find? fun q => v.deletionDue q) = if (v.queue 0).state = .deleting then some 0 else none := by
    intro v h1 h2
    have e : ∀ k, k ≠ 0 → v.deletionDue k = false := fun k hk => by simp [State.deletionDue, h2 k hk]
    have e0 : v.deletionDue 0 = decide ((v.queue 0).state = .deleting) := by
      simp [State.deletionDue, h1]
      cases (v.queue 0).state <;> rfl
    show List.find? (fun q => v.deletionDue q) [0, 1, 2, 3] = _
    rw [List.find?_cons, List.find?_cons, List.find?_cons, List.find?_cons, e0, e 1 (by decide), e 2 (by decide),
      e 3 (by decide)]
    by_cases h0 : (v.queue 0).state = .deleting <;> simp [h0]
  have hheld : ∀ v : State, (∀ k, (v.queue k).held = none) → ((List.finRange 4).find? fun q => v.heldDue q) = none := by
    intro v h
    simp [State.heldDue, h]
  have huq : ∀ k, u.queue k = if k = 0 then
        (if x.state = .deleting then CommandQueue.absent else x) else CommandQueue.absent := by
    intro k
    simp only [u]
    split
    · have : State.queue (t.setQueue 0 CommandQueue.absent) k = if 0 = k then CommandQueue.absent else t.queue k := by
        simp only [State.queue, State.setQueue, vector_get_set]
      rw [this, hq]
      by_cases hk : k = 0
      · subst hk; simp
      · have hk' : ¬(0 : CqId) = k := fun e => hk e.symm
        simp [hk, hk']
    · rw [hq]
  have hu : u.device = .quiescing ∧ u.emitted = [] ∧ (∀ k, u.outstandingWork k = 0) := by
    simp only [u]
    split
    · exact ⟨hd, rfl, hwork' _ rfl⟩
    · exact ⟨hd, rfl, hwork⟩
  have hucalm : (∀ k, (u.queue k).held = none) ∧ ∀ k, (u.queue k).state ≠ .deleting := by
    constructor <;> intro k <;> rw [huq] <;> split
    · split
      · rfl
      · exact hx
    · rfl
    · split
      · decide
      · assumption
    · decide
  have hnext : u.nextFollowOn = if u.drained then some .quiesce else none := by
    have h1 : ((List.finRange 4).find? fun q => u.deletionDue q) = none := by
      rw [hdel u hu.2.2 (fun k _ => hucalm.2 k), if_neg (hucalm.2 0)]
    have h2 := hheld u hucalm.1
    simp only [State.nextFollowOn, h1, h2, State.quiesceDue, hu.1, beq_self_eq_true, Bool.true_and]
  have hend : ∀ n, State.settle (n + 1) u.quiesceEnd = u.quiesceEnd := by
    intro n
    have hc : u.quiesceEnd.Calm := by
      refine ⟨hu.2.1, fun k => ?_, by simp [State.quiesceEnd]⟩
      have : u.quiesceEnd.queue k = if 0 = k then CommandQueue.absent else u.queue k := by
        simp only [State.quiesceEnd, State.queue, State.setQueue, State.setRq, vector_get_set]
      rw [this]
      split
      · exact ⟨rfl, by decide⟩
      · exact ⟨hucalm.1 k, hucalm.2 k⟩
    rw [State.settle, deliverEvents_of_none _ hc.1, hc.nextFollowOn]
  have hunext : ∀ n, State.settle (n + 2) u = if u.drained then u.quiesceEnd else u := by
    intro n
    rw [State.settle, deliverEvents_of_none _ hu.2.1, hnext]
    cases u.drained
    · rfl
    · exact hend n
  rw [State.finish, show Config.followOnBound = 15 + 1 from rfl, State.settle, deliverEvents_of_closed _ hcl]
  have hfirst : t.nextFollowOn = if x.state = .deleting then some (.deletion 0)
      else u.nextFollowOn := by
    by_cases h0 : x.state = .deleting
    · rw [if_pos h0]
      have : ((List.finRange 4).find? fun q => t.deletionDue q) = some 0 := by
        rw [hdel t hwork, hq, if_pos (by rw [if_pos rfl]; exact h0)]
        intro k hk
        rw [hq, if_neg hk]; decide
      simp only [State.nextFollowOn, this]
    · rw [if_neg h0]
      simp only [u, if_neg h0]
  show (match t.nextFollowOn with | none => t | some f => State.settle 15 (t.takeFollowOn f)) = _
  rw [hfirst]
  by_cases h0 : x.state = .deleting
  · rw [if_pos h0]
    have hde : t.deleteEntry 0 = none := by
      simp [State.deleteEntry, hent]
    have : t.takeFollowOn (.deletion 0) = u := by
      simp only [State.takeFollowOn, State.deletingDone, hde, u, if_pos h0]
    show State.settle 15 (t.takeFollowOn (.deletion 0)) = _
    rw [this]
    exact hunext 13
  · have htu : t = u := by simp only [u, if_neg h0]
    rw [if_neg h0, hnext, htu]
    cases u.drained
    · rfl
    · exact hend 14

end Sys2Proof.Machine
end

