-- ==== Sys2Proof/Laws/PatternMemory.lean ====
section
/-! SUPPORT. The laws of pattern memory (R111): a read after a write, and the canonical form kept. -/

namespace Sys2Proof.Machine

/-- Every listed address is above `a`, in rising order, and no listed byte is 0. -/
def Memory.From (a : Nat) : List Host.Cell → Prop
  | [] => True
  | (x, y) :: m => a ≤ x ∧ y ≠ 0 ∧ Memory.From (x + 1) m

/-- The canonical form, from address 0 on. -/
theorem wf_iff_from (m : List Host.Cell) : Memory.wf m = true ↔ Memory.From 0 m := by
  have key : ∀ (m : List Host.Cell) (c : Host.Cell),
      Memory.wf (c :: m) = true ↔ c.2 ≠ 0 ∧ Memory.From (c.1 + 1) m := by
    intro m
    induction m with
    | nil => intro c; simp [Memory.wf, Memory.From]
    | cons d m ih =>
      intro c
      simp only [Memory.wf, Bool.and_eq_true, bne_iff_ne, decide_eq_true_eq, ih, Memory.From, Nat.succ_le_iff]
      exact and_assoc
  cases m with
  | nil => simp [Memory.wf, Memory.From]
  | cons c m => simp only [key, Memory.From, Nat.zero_le, true_and]

theorem Memory.From.mono {a b : Nat} {m : List Host.Cell} (h : Memory.From b m) (hab : a ≤ b) : Memory.From a m := by
  cases m with
  | nil => trivial
  | cons c m => exact ⟨Nat.le_trans hab h.1, h.2⟩

/-- An address below every listed one reads 0. -/
theorem memRead_below {a b : Nat} {m : List Host.Cell} (h : Memory.From b m) (hab : a < b) : memRead m a = 0 := by
  induction m generalizing b with
  | nil => rfl
  | cons c m ih =>
    obtain ⟨h1, -, h3⟩ := h
    rw [memRead, if_neg (by omega)]
    exact ih h3 (by omega)

/-- A write keeps the canonical form. -/
theorem memWrite_from {a k : Nat} {m : List Host.Cell} (h : Memory.From k m) (hk : k ≤ a) (b : Byte) :
    Memory.From k (memWrite m a b) := by
  induction m generalizing k with
  | nil =>
    unfold memWrite
    split
    · trivial
    · exact ⟨hk, ‹_›, trivial⟩
  | cons c m ih =>
    obtain ⟨x, y⟩ := c
    obtain ⟨h1, h2, h3⟩ := h
    unfold memWrite
    split
    · split
      · exact ⟨h1, h2, h3⟩
      · exact ⟨hk, ‹_›, by omega, h2, h3⟩
    · split
      · split
        · exact h3.mono (by omega)
        · subst_vars
          exact ⟨hk, ‹_›, h3⟩
      · exact ⟨h1, h2, ih h3 (by omega)⟩

/-- A read after a write gives the byte written, and every other address reads as before. -/
theorem memRead_memWrite {k : Nat} {m : List Host.Cell} (h : Memory.From k m) (a x : Nat) (b : Byte) :
    memRead (memWrite m a b) x = if x = a then b else memRead m x := by
  induction m generalizing k with
  | nil =>
    unfold memWrite
    split
    · split <;> simp [memRead, *]
    · simp only [memRead, eq_comm]
  | cons c m ih =>
    obtain ⟨y, z⟩ := c
    obtain ⟨h1, h2, h3⟩ := h
    unfold memWrite
    split
    · split
      · by_cases hx : x = a
        · rw [if_pos hx, memRead_below (b := y) (m := (y, z) :: m) ⟨Nat.le_refl _, h2, h3⟩ (by omega)]
          exact Eq.symm ‹_›
        · rw [if_neg hx]
      · rw [memRead]
        by_cases hx : x = a
        · rw [if_pos hx.symm, if_pos hx]
        · rw [if_neg (Ne.symm hx), if_neg hx]
    · split
      · subst_vars
        split
        · by_cases hx : x = y
          · rw [if_pos hx, memRead_below h3 (by omega)]
            exact Eq.symm ‹_›
          · rw [if_neg hx, memRead, if_neg (Ne.symm hx)]
        · rw [memRead, memRead]
          by_cases hx : x = y
          · rw [if_pos hx.symm, if_pos hx]
          · rw [if_neg (Ne.symm hx), if_neg hx, if_neg (Ne.symm hx)]
      · rw [memRead, memRead, ih h3]
        by_cases hx : y = x
        · rw [if_pos hx, if_pos hx, if_neg (by omega)]
        · rw [if_neg hx, if_neg hx]

/-- Writing a run of bytes keeps the canonical form. -/
theorem memWriteAll_from {m : List Host.Cell} (h : Memory.From 0 m) (a : Nat) (data : List Byte) :
    Memory.From 0 (memWriteAll m a data) := by
  induction data generalizing m a with
  | nil => exact h
  | cons b bs ih => exact ih (memWrite_from h (Nat.zero_le _) b) _

/-- Writing a run of bytes keeps the canonical form. -/
theorem memWriteAll_wf {m : List Host.Cell} (h : Memory.wf m = true) (a : Nat) (data : List Byte) :
    Memory.wf (memWriteAll m a data) = true :=
  (wf_iff_from _).2 (memWriteAll_from ((wf_iff_from _).1 h) a data)

/-- A run of bytes written reads back byte for byte, and every other address reads as before. -/
theorem memRead_memWriteAll {m : List Host.Cell} (h : Memory.wf m = true) (a x : Nat) (data : List Byte) :
    memRead (memWriteAll m a data) x =
      if a ≤ x ∧ x < a + data.length then data.getD (x - a) 0 else memRead m x := by
  rw [wf_iff_from] at h
  induction data generalizing m a with
  | nil => simp [memWriteAll, Nat.not_lt.2]
  | cons b bs ih =>
    rw [memWriteAll, ih (memWrite_from h (Nat.zero_le _) b), memRead_memWrite h, List.length_cons]
    by_cases h1 : x = a
    · subst h1
      rw [if_neg (by omega), if_pos rfl, if_pos (by omega)]
      simp
    · rw [if_neg h1]
      by_cases h2 : a + 1 ≤ x ∧ x < a + 1 + bs.length
      · rw [if_pos h2, if_pos (by omega), show x - a = (x - (a + 1)) + 1 by omega]
        rfl
      · rw [if_neg h2, if_neg (by omega)]

/-- Pattern memory at reset has the canonical form. -/
theorem reset_patternMemory_wf : Memory.wf State.reset.patternMemory = true := rfl

end Sys2Proof.Machine
end

