-- ==== Sys2Proof/Laws/Streams.lean ====
section
/-! SUPPORT. What a fault, the end of a run, a retirement and a completed item make of a stream, once each: for a
stream with no STOP command waiting they are `State.faulted`, `State.endedRun`, `State.retired` and
`State.itemTaken`. -/

namespace Sys2Proof.Machine

/-! ## Small facts -/

/-- Replacing one stream leaves the others, and is read back. -/
theorem stream_setStream_self (s : State) (i : StreamId) (x : Stream) : (s.setStream i x).stream i = x := by
  rw [stream_setStream, if_pos rfl]

/-- A submission from a reservation that is there (R149). -/
theorem submit_of_reserved {s : State} {q : RqId} (h : (s.rq q).reserved ≠ 0) (f : Bool → List Byte) :
    s.submit q f = s.setRq q ((s.rq q).submit f) := by
  rw [State.submit, if_neg h]

/-- The park word of a stream goes to its port, and nothing else changes (R23). -/
theorem drivePark_eq_parked (s : State) (i : StreamId) :
    s.drivePark i = { s with patternWord := s.parkedWords (s.stream i) } := by
  unfold State.drivePark State.parkedWords
  dsimp only
  cases (s.stream i).park <;> rfl

/-! ## A fault (R17) -/

/-- A stream that meets a fault with no STOP command waiting (R17). -/
theorem haltStream_eq_faulted {s : State} {i : StreamId} (cause : StreamFault)
    (hs : (s.stream i).state = .opened ∨ (s.stream i).state = .armed ∨ (s.stream i).state = .running ∨
      (s.stream i).state = .stopping) (h : s.CanHalt i) : s.haltStream i cause = s.faulted i (s.stream i) cause := by
  obtain ⟨hc, hf, hr⟩ := h
  generalize hst : s.stream i = st at *
  have hpark : (if st.state.runs = true then s.drivePark i else s) =
      { s with
        patternWord := if st.state = .running ∨ st.state = .stopping then s.parkedWords st else s.patternWord } := by
    rw [drivePark_eq_parked, hst]
    rcases hs with h | h | h | h <;> simp [h, StreamState.runs]
  have key : s.haltStream i cause =
      (let v : State :=
        { s with
          patternWord := if st.state = .running ∨ st.state = .stopping then s.parkedWords st else s.patternWord }
      let u := v.setStream i
        { st with
          state := .halted
          fault := some cause
          scan := none
          prefetching := false
          pendingStop := none
          faultReserved := false }
      (u.submit st.replyQueue (faultNotice i cause st.produced s.timebase)).releaseEnd i) := by
    unfold State.haltStream
    dsimp only
    rw [hst]
    rcases hs with h | h | h | h <;> rw [h] <;> dsimp only <;>
      rw [hc, hf, if_pos rfl, State.replyStops] <;> rw [h] at hpark <;> rw [hpark]
    all_goals (simp only [State.setStream_timebase])
  rw [key]
  dsimp only
  rw [submit_of_reserved (by exact hr)]
  unfold State.releaseEnd State.releaseIf State.release State.faulted
  cases st.endReserved <;>
    simp [State.stream, State.setStream, State.setRq, State.rq, vector_get_set]

/-! ## The end of a run (R10, R15) -/

/-- An item of grant `n` is in staging. -/
theorem hasStaged_iff {st : Stream} {n : Nat} : st.hasStaged n = true ↔ ∃ y ∈ st.staging, y.grant = n := by
  simp [Stream.hasStaged]

/-- The current grant at the end of a run with no STOP command waiting (R10, R36). -/
theorem cut_eq {s : State} {i : StreamId} {st : Stream} (hs : st.state = .opened)
    (hg : ∀ g, st.current = some g → g.fill ≠ 0 → (¬∃ y ∈ st.staging, y.grant = g.number) → g.reserved = true →
      g.notify = true ∧ (s.rq st.replyQueue).reserved ≠ 0) :
    (if st.currentUnfilled then (s.setStream i st).restoreCurrent i else (s.setStream i st).cutShort i) =
      { s with
        streams := s.streams.set i
          { st with current := none, waiting := st.runLeft.waiting, finishing := st.runLeft.finishing }
        replyQueues := (s.cutShortNow i st).replyQueues } := by
  unfold State.restoreCurrent State.cutShort Stream.currentUnfilled Stream.runLeft State.cutShortNow
  dsimp only
  rw [stream_setStream_self]
  have hq : ∀ c : Prop, [Decidable c] → (if c then s.reassign (.prefetch i) .nobody else s).replyQueues =
      s.replyQueues := fun c _ => by split <;> rfl
  cases hc : st.current with
  | none =>
    rw [hq]
    obtain ⟨st⟩ := st
    subst hc
    rfl
  | some g =>
    dsimp only
    have hg := hg g hc
    by_cases h0 : g.fill = 0
    · simp [h0, State.setStream, hq]
    · simp only [beq_iff_eq, h0, if_false, ne_eq, not_false_eq_true, true_and]
      by_cases hst : ∃ y ∈ st.staging, y.grant = g.number
      · rw [if_pos (hasStaged_iff.2 hst), if_pos hst, if_neg (fun h => h.1 hst), hq]
        simp only [State.setStream, vector_set_set]
      · rw [if_neg (fun h => hst (hasStaged_iff.1 h)), if_neg hst]
        unfold State.retire
        dsimp only
        simp only [State.setStream, vector_set_set, State.stream, vector_get_set, if_true, hs]
        cases hr : g.reserved with
        | false => simp [StreamState.recycles, State.releaseIf, hr, hq]
        | true =>
          obtain ⟨hn, hne⟩ := hg h0 hst hr
          simp only [hn, StreamState.recycles, Bool.and_self, if_true, Bool.and_false, Bool.false_eq_true, if_false]
          rw [submit_of_reserved (by exact hne), if_pos ⟨hst, trivial, trivial⟩]
          rfl
/-- The winding down of the timed work of a stream at the end of its run (R10, R102, R106). -/
theorem windDown_eq (s : State) (i : StreamId) (st : Stream) :
    (s.setStream i { st with state := .opened, pendingStop := none }).windDown i .nobody =
      { (if st.kind = some .play ∧ st.read.any PlayRead.served then s.reassign (.prefetch i) .nobody else s) with
        streams := s.streams.set i
          { st with
            state := .opened
            pendingStop := none
            scan := st.runLeft.scan
            fifo := st.runLeft.fifo
            prefetching := st.runLeft.prefetching
            read := st.runLeft.read }
        pacers :=
          if st.kind = some .ring ∧ (s.pacer st.pacer).state = .driven then
            s.pacers.set st.pacer { s.pacer st.pacer with state := .owned, target := 0 }
          else s.pacers } := by
  unfold State.windDown
  dsimp only
  rw [stream_setStream_self]
  match hkind : st.kind with
  | none => simp [Stream.runLeft, hkind]; rfl
  | some .stamp => simp [Stream.runLeft, hkind]; rfl
  | some .tally => simp [Stream.runLeft, hkind]; rfl
  | some .scan => simp [Stream.runLeft, hkind]; rfl
  | some .ring =>
    simp only [Stream.runLeft, hkind, State.pacerToOwned, true_and]
    have hp : ∀ x : Stream, (s.setStream i x).pacer st.pacer = s.pacer st.pacer := fun _ => rfl
    rw [hp]
    simp
    split <;> rfl
  | some .play =>
    simp only [Stream.runLeft, hkind, State.stopPrefetch]
    rw [stream_setStream_self]
    dsimp only
    cases hr : st.read with
    | none => simp; rfl
    | some r => 
      simp
      cases hs : r.served <;> simp <;> rfl

/-- What the end of a run does before its END notice is in the reply queues and the transfers alone. -/
theorem State.cutShortNow_eq (s : State) (i : StreamId) (st : Stream) :
    s.cutShortNow i st =
      { (if st.kind = some .play ∧ st.read.any PlayRead.served then s.reassign (.prefetch i) .nobody else s) with
        replyQueues := (s.cutShortNow i st).replyQueues } := by
  unfold State.cutShortNow
  dsimp only
  split
  · split <;> rfl
  · rfl

/-- A stream with no STOP command waiting ends its run (R10, R15, R36). -/
theorem endRun_eq_runLeft {s : State} {i : StreamId} (reason : EndReason) (hc : (s.stream i).stopCommands = [])
    (hg : ∀ g, (s.stream i).current = some g → g.fill ≠ 0 → (¬∃ y ∈ (s.stream i).staging, y.grant = g.number) →
      g.reserved = true → g.notify = true ∧ (s.rq (s.stream i).replyQueue).reserved ≠ 0)
    (hr : (s.stream i).endReserved = true →
      ((s.cutShortNow i (s.stream i)).rq (s.stream i).replyQueue).reserved ≠ 0) :
    s.endRun i reason =
      ((s.cutShortNow i (s.stream i)).endedRun i (s.stream i).runLeft reason).emit (terminalCode i) := by
  generalize hst : s.stream i = st at *
  unfold State.endRun
  dsimp only
  rw [hst, hc, windDown_eq, drivePark_eq_parked]
  simp only [List.isEmpty_nil, Bool.not_true, Bool.and_false, Bool.false_eq_true, if_false, if_true, State.replyStops]
  generalize hu : (if st.kind = some .play ∧ st.read.any PlayRead.served then s.reassign (.prefetch i) .nobody
    else s) = u
  have hus : u.streams = s.streams := by rw [← hu]; split <;> rfl
  generalize hpac : (if st.kind = some .ring ∧ (s.pacer st.pacer).state = .driven then
    s.pacers.set st.pacer { s.pacer st.pacer with state := .owned, target := 0 } else s.pacers) = pacers
  generalize hx : ({ st with
      state := .opened
      pendingStop := none
      scan := st.runLeft.scan
      fifo := st.runLeft.fifo
      prefetching := st.runLeft.prefetching
      read := st.runLeft.read } : Stream) = x
  let w : State := { u with pacers := pacers, patternWord := s.parkedWords st }
  have hw : ({ ({ u with streams := s.streams.set i x, pacers := pacers } : State) with
      patternWord := State.parkedWords { u with streams := s.streams.set i x, pacers := pacers }
        (State.stream { u with streams := s.streams.set i x, pacers := pacers } i) } : State) = w.setStream i x := by
    have e : State.stream { u with streams := s.streams.set i x, pacers := pacers } i = x := stream_setStream_self s i x
    have hp : State.parkedWords { u with streams := s.streams.set i x, pacers := pacers } x = s.parkedWords st := by
      subst hx hu; unfold State.parkedWords; dsimp only; split <;> split <;> rfl
    rw [e, hp]
    simp only [w, State.setStream, hus]
  rw [hw, stream_setStream_self]
  have hxs : x.state = .opened := by subst hx; rfl
  have hxc : x.current = st.current := by subst hx; rfl
  have hxq : x.replyQueue = st.replyQueue := by subst hx; rfl
  have hwq : ∀ q, w.rq q = s.rq q := by subst hu; intro q; simp only [w]; split <;> rfl
  have hwt : w.timebase = s.timebase := by subst hu; simp only [w]; split <;> rfl
  have hxg : x.staging = st.staging := by subst hx; rfl
  rw [cut_eq hxs (by
    intro g hgc h0 hst hgr
    rw [hxc] at hgc
    rw [hxg] at hst
    rw [hxq, hwq]
    exact hg g hgc h0 hst hgr)]
  have hq : (w.cutShortNow i x).replyQueues = (s.cutShortNow i st).replyQueues := by
    have hwr : w.replyQueues = s.replyQueues := by subst hu; simp only [w]; split <;> rfl
    have hif : ∀ (t : State) (c : Prop) [Decidable c] (a : Requester),
        (if c then t.reassign a .nobody else t).replyQueues = t.replyQueues := fun t c _ a => by split <;> rfl
    unfold State.cutShortNow
    dsimp only
    rw [hxc]
    cases hcur : st.current with
    | none => simp only [hif, hwr]
    | some g => simp only [hxg, hxq, hwq, hwt, hwr]; split <;> simp only [hif, hwr]
  rw [hq]
  have hcq : (s.cutShortNow i st) = { u with replyQueues := (s.cutShortNow i st).replyQueues } := by
    subst hu; exact State.cutShortNow_eq s i st
  generalize (s.cutShortNow i st).replyQueues = r at *
  rw [hcq] at hr ⊢
  have hup : u.pacers = s.pacers := by subst hu; split <;> rfl
  have huw : u.patternWord = s.patternWord := by subst hu; split <;> rfl
  have hut : u.timebase = s.timebase := by subst hu; split <;> rfl
  unfold State.postEnd State.endedRun
  dsimp only
  have hpk : ∀ y : Stream, y.park = st.park → y.patternPort = st.patternPort →
      State.parkedWords { u with replyQueues := r } y = s.parkedWords st := by
    intro y h1 h2
    simp only [State.parkedWords, h1, h2, huw]
  rw [hpk st.runLeft rfl rfl]
  have hpa : (if st.runLeft.kind = some .ring ∧
      (State.pacer { u with replyQueues := r } st.runLeft.pacer).state = .driven then
      u.pacers.set st.runLeft.pacer
        { State.pacer { u with replyQueues := r } st.runLeft.pacer with state := .owned, target := 0 }
      else u.pacers) = pacers := by
    rw [hup, ← hpac]
    simp only [State.pacer]
    rfl
  rw [hpa]
  subst hx
  simp only [State.stream, vector_get_set, if_true, State.setStream, vector_set_set]
  cases he : st.endReserved with
  | false =>
    have he' : st.runLeft.endReserved = false := he
    simp only [he', Bool.false_eq_true, if_false, State.emit, w, hus]
    rfl
  | true =>
    have he' : st.runLeft.endReserved = true := he
    simp only [he', if_true]
    rw [submit_of_reserved (by exact hr he)]
    simp only [State.emit, w, hus]
    rfl

/-- The reservations left for the END notice once a current grant that retires has used up its own. -/
theorem cutShortNow_reserved {s : State} {i : StreamId} {st : Stream}
    (hr : (if st.endReserved then 1 else 0) + (if st.current.any Grant.reserved then 1 else 0) ≤
      (s.rq st.replyQueue).reserved) (he : st.endReserved = true) :
    ((s.cutShortNow i st).rq st.replyQueue).reserved ≠ 0 := by
  rw [he] at hr
  have hif : ∀ (t : State) (c : Prop) [Decidable c] (a : Requester) (q : RqId),
      (if c then t.reassign a .nobody else t).rq q = t.rq q := fun t c _ a q => by split <;> rfl
  unfold State.cutShortNow
  dsimp only
  cases hcur : st.current with
  | none =>
    rw [hif]
    simp only [if_true] at hr
    omega
  | some g =>
    dsimp only
    split
    · rename_i h
      simp only [hcur, Option.any_some, h.2.2.2, if_true] at hr
      simp only [State.rq, vector_get_set, if_true, ReplyQueue.submit]
      simp only [State.rq] at hr
      omega
    · rw [hif]
      simp only [if_true] at hr
      omega

/-- A stream that is no PLAY stream, with no STOP command waiting and no scan in flight, ends its run: a current grant
with its last item still in staging becomes FINISHING (R10, R36). -/
theorem endRun_eq_endedRun {s : State} {i : StreamId} (reason : EndReason) (hc : (s.stream i).stopCommands = [])
    (hk : (s.stream i).kind ≠ some .play) (hscan : (s.stream i).kind = some .scan → (s.stream i).scan = none)
    (hg : ∀ g, (s.stream i).current = some g → g.fill ≠ 0 ∧ (s.stream i).hasStaged g.number = true)
    (hr : (s.stream i).endReserved = true → (s.rq (s.stream i).replyQueue).reserved ≠ 0) :
    s.endRun i reason = (s.endedRun i (s.stream i).currentFinishes reason).emit (terminalCode i) := by
  have hcut : s.cutShortNow i (s.stream i) = s := by
    unfold State.cutShortNow
    dsimp only
    rw [if_neg fun h => hk h.1]
    cases hcur : (s.stream i).current with
    | none => rfl
    | some g => exact if_neg fun h => h.2.1 (hasStaged_iff.1 (hg g hcur).2)
  have hleft : (s.stream i).runLeft = (s.stream i).currentFinishes := by
    generalize s.stream i = st at *
    have hs : (if st.kind = some .scan then none else st.scan) = st.scan := by
      split
      · rename_i h; exact (hscan h).symm
      · rfl
    unfold Stream.runLeft Stream.currentFinishes
    simp only [hs, if_neg hk]
    cases hcur : st.current with
    | none =>
      cases st
      cases hcur
      rfl
    | some g => simp only [if_neg (hg g hcur).1, if_pos (And.intro (hg g hcur).1 (hasStaged_iff.1 (hg g hcur).2))]
  rw [endRun_eq_runLeft reason hc (fun g hcur _ hst => absurd (hasStaged_iff.1 (hg g hcur).2) hst)
    (by rw [hcut]; exact hr), hcut, hleft]

/-! ## A grant retires (R35, R37 to R39) -/

/-- A grant that has left its list of stream context `st` retires (R35, R37 to R39). -/
theorem retire_eq_retired {s : State} {i : StreamId} {st : Stream} {g : Grant}
    (h : g.reserved = true → g.notify = true ∧ (s.rq st.replyQueue).reserved ≠ 0) :
    (s.setStream i st).retire i g = s.retired i st g := by
  have hrec : ∀ b : Grant, b.recycle = g.recycle → b.fill = g.fill → b.count = g.count →
      ((b.recycle && !b.isPartial && st.state.recycles) = true ↔
        (g.recycle = true ∧ g.count ≤ g.fill ∧ (st.state = .armed ∨ st.state = .running))) := by
    intro b h1 h2 h3
    rw [Grant.isPartial, h1, h2, h3]
    cases g.recycle <;> cases st.state <;> simp [StreamState.recycles]
  unfold State.retire State.retired
  dsimp only
  rw [stream_setStream_self]
  have hset : s.replyQueues.set st.replyQueue (s.rq st.replyQueue) = s.replyQueues := vector_set_self _ _
  cases hr : g.reserved with
  | false =>
    simp only [Bool.and_false, Bool.false_eq_true, if_false, and_false]
    rw [if_congr (hrec g rfl rfl rfl) rfl rfl]
    split
    · unfold State.rejoin State.appendWaiting State.streamClaim
      dsimp only
      rw [stream_setStream_self]
      cases hn : g.notify with
      | false => simp [State.setStream, hr]
      | true =>
        simp only [State.setStream, State.stream, vector_get_set, if_true, ReplyQueue.grants,
          State.reserve, State.setRq, vector_set_set, Bool.true_eq_false, if_false]
        have : State.rq { s with streams := s.streams.set i st } st.replyQueue = s.rq st.replyQueue := rfl
        simp only [this]
        by_cases hf : (s.rq st.replyQueue).occupied + (s.rq st.replyQueue).reserved + 2 ≤
            (s.rq st.replyQueue).size - 1
        · rw [if_pos (decide_eq_true hf), if_pos hf]
        · rw [if_neg (fun h => hf (of_decide_eq_true h)), if_neg hf, hset]
    · simp [State.releaseIf, State.setStream, hset, hr]
  | true =>
    obtain ⟨hn, hne⟩ := h hr
    rw [hn]
    simp only [Bool.and_self, if_true, and_self, Bool.true_eq_false, if_false]
    rw [submit_of_reserved (by exact hne),
      if_congr (hrec { g with notify := true, reserved := false, missed := 0 } rfl rfl rfl) rfl rfl]
    split
    · unfold State.rejoin State.appendWaiting State.streamClaim
      simp only [if_true, State.setStream, State.setRq, State.stream, vector_get_set, ReplyQueue.grants,
        State.reserve, vector_set_set, State.rq]
      by_cases hf : ((s.replyQueues.get st.replyQueue).submit (bufferNotice i g s.timebase)).occupied +
          ((s.replyQueues.get st.replyQueue).submit (bufferNotice i g s.timebase)).reserved + 2 ≤
            ((s.replyQueues.get st.replyQueue).submit (bufferNotice i g s.timebase)).size - 1
      · exact (if_pos (decide_eq_true hf)).trans (if_pos hf).symm
      · exact (if_neg (fun h => hf (of_decide_eq_true h))).trans (if_neg hf).symm
    · simp [State.releaseIf, State.setStream, State.setRq, State.rq]
/-- What a retirement can change beside the reply queues: the stream, whose state and staging stay (R35). -/
theorem retired_frame (s : State) (i : StreamId) (st : Stream) (g : Grant) :
    ∃ a b, s.retired i st g = { s with streams := s.streams.set i a, replyQueues := b } ∧ a.state = st.state ∧
      a.staging = st.staging := by
  unfold State.retired
  dsimp only
  by_cases h1 : g.recycle = true ∧ g.count ≤ g.fill ∧ (st.state = .armed ∨ st.state = .running)
  · rw [if_pos h1]
    by_cases h2 : g.notify = false
    · rw [if_pos h2]
      exact ⟨_, s.replyQueues, rfl, rfl, rfl⟩
    · rw [if_neg h2]
      generalize (if g.notify = true ∧ g.reserved = true then
        (s.rq st.replyQueue).submit (bufferNotice i g s.timebase) else s.rq st.replyQueue) = y
      by_cases h3 : y.occupied + y.reserved + 2 ≤ y.size - 1
      · rw [if_pos h3]
        exact ⟨_, _, rfl, rfl, rfl⟩
      · rw [if_neg h3]
        exact ⟨_, _, rfl, rfl, rfl⟩
  · rw [if_neg h1]
    exact ⟨_, _, rfl, rfl, rfl⟩

/-- The oldest FINISHING grant retires once no item of it is left in staging (R35). -/
theorem retireDue_of_finishing {s : State} {i : StreamId} {g : Grant} {more : List Grant}
    (h : (s.stream i).finishing = g :: more) (hn : ∀ o ∈ (s.stream i).staging, o.grant ≠ g.number) :
    s.retireDue i = (s.setStream i { s.stream i with finishing := more }).retire i g := by
  unfold State.retireDue
  dsimp only
  rw [h]
  dsimp only
  rw [if_neg]
  intro hs
  obtain ⟨o, ho, e⟩ := hasStaged_iff.1 hs
  exact hn o ho e

/-- While an item of the oldest FINISHING grant is in staging, nothing of a capture stream retires (R35). -/
theorem retireDue_of_staged {s : State} {i : StreamId} (hk : (s.stream i).kind ≠ some .play)
    (hn : ∀ g, (s.stream i).finishing.head? = some g → ∃ o ∈ (s.stream i).staging, o.grant = g.number) :
    s.retireDue i = s := by
  unfold State.retireDue
  dsimp only
  split
  · rename_i g more h
    rw [if_pos]
    exact hasStaged_iff.2 (hn g (by rw [h]; rfl))
  · split
    · rename_i h _
      exact absurd h hk
    · rfl

/-- A stream that is not CLOSING, or has an item in staging, does not close (R20). -/
theorem closeIfDrained_of_staged {s : State} {i : StreamId}
    (h : (s.stream i).state = .closing → (s.stream i).staging ≠ []) : s.closeIfDrained i = s := by
  unfold State.closeIfDrained
  rw [if_neg]
  rintro ⟨h1, h2⟩
  have := h h1
  unfold State.hasOutstanding at h2
  simp [this] at h2

/-! ## An event that reaches one stream (R62, R63) -/

/-- A list of one value, without repeats. -/
theorem eraseDups_of_all_eq {α : Type} [BEq α] [LawfulBEq α] {l : List α} {i : α} (h : ∀ x ∈ l, x = i) :
    l.eraseDups = [] ∨ l.eraseDups = [i] := by
  cases l with
  | nil => exact .inl rfl
  | cons a l =>
    right
    have ha : a = i := h a List.mem_cons_self
    subst ha
    have : l.filter (fun b => !b == a) = [] := by
      rw [List.filter_eq_nil_iff]
      intro x hx
      simp [h x (List.mem_cons_of_mem _ hx)]
    rw [List.eraseDups_cons, this]
    rfl

/-- An event that one stream alone takes reaches that stream, whatever the free order (R62, R63). -/
theorem subscribers_of_only {s : State} {c : Byte} {i : StreamId} (h : (s.stream i).subscribes c = true)
    (hne : ∀ j, j ≠ i → (s.stream j).subscribes c = false) : s.subscribers c = [i] := by
  have hall : allStreams.filter (fun j => (s.stream j).subscribes c) = [i] := by
    have : (fun j => (s.stream j).subscribes c) = fun j => j == i := by
      funext j
      by_cases hj : j = i
      · simp [hj, h]
      · simp [hj, hne j hj]
    rw [this]
    clear this h hne
    revert i
    decide
  unfold State.subscribers
  dsimp only
  rw [hall]
  have hl : ∀ x ∈ (s.order.take 32).filter (fun j => [i].contains j), x = i := by
    intro x hx
    simpa using (List.mem_filter.1 hx).2
  rcases eraseDups_of_all_eq hl with h0 | h0 <;> rw [h0] <;> simp

/-- A happening that leaves one event, which stream `i` alone takes: the event is delivered to it (R62, R65). -/
theorem finish_emit_to {s : State} {c : Byte} {i : StreamId} (he : s.emitted = [])
    (h : (s.stream i).subscribes c = true) (hne : ∀ j, j ≠ i → (s.stream j).subscribes c = false)
    {t : State} (ht : t.Calm)
    (hd : s.deliver i ⟨c, s.timebase⟩ = t ∨ ∃ d, t.Unheard d ∧ s.deliver i ⟨c, s.timebase⟩ = t.emit d) :
    (s.emit c).finish = t := by
  have hu : (s.emit c).emitted = [⟨c, s.timebase⟩] := by simp [he]
  have hs : { s.emit c with emitted := [] } = s := by
    simp only [State.emit, ← he]
  have hsub : State.subscribers (s.emit c) c = [i] := subscribers_of_only h hne
  have hd' : State.deliverEvents Config.chainBound (s.emit c) =
      State.deliverEvents 255 (s.deliver i ⟨c, s.timebase⟩) := by
    show State.deliverEvents (255 + 1) (s.emit c) = _
    unfold State.deliverEvents
    rw [hu]
    dsimp only
    rw [hsub, show (s.emit c).orderAfter [i] = (s.emit c).order from rfl]
    simp only [State.deliverAll, hs]
    rfl
  have h2 : State.deliverEvents 255 (s.deliver i ⟨c, s.timebase⟩) = t := by
    rcases hd with hd | ⟨d, hun, hd⟩
    · rw [hd]; exact deliverEvents_of_none _ ht.1
    · rw [hd]
      have hu : (t.emit d).emitted = [⟨d, t.timebase⟩] := by simp [ht.1]
      have hs : { t.emit d with emitted := [] } = t := by
        simp only [State.emit, ← ht.1]
      have hn : (State.subscribers (t.emit d) d) = [] := State.Unheard.subscribers (fun i => hun i)
      show State.deliverEvents (254 + 1) (t.emit d) = t
      unfold State.deliverEvents
      rw [hu]
      dsimp only
      rw [hn, show (t.emit d).orderAfter [] = (t.emit d).order from rfl]
      simp only [State.deliverAll, hs]
      exact deliverEvents_of_none _ ht.1
  simp [State.finish, Config.followOnBound, State.settle, hd', h2, ht.nextFollowOn]

/-- A WAITING pacer that is due fires, and its event goes to the one stream that takes it (R53, R62). -/
theorem pacerFires_to {s : State} {p : PacerId} {i : StreamId} (h : s.FiresTo p i)
    (hsub : (s.stream i).subscribes (pacerCode p) = true) {t : State} (ht : t.Calm)
    (hd : (s.firedAt p).deliver i ⟨pacerCode p, s.timebase⟩ = t ∨
      ∃ d, t.Unheard d ∧ (s.firedAt p).deliver i ⟨pacerCode p, s.timebase⟩ = t.emit d) :
    s.pacerFires p = t := by
  obtain ⟨hc, hw, hdue, hne⟩ := h
  have : s.firingDue p = true := by
    simpa only [State.firingDue, hw, due, beq_self_eq_true, Bool.true_and, decide_eq_true_eq] using hdue
  rw [State.pacerFires, if_pos this]
  exact finish_emit_to (s := s.firedAt p) hc.1 hsub hne ht hd

/-! ## Roles (R62 to R64) -/

/-- A RUNNING stream takes an event that it names as an advance, and then in the stop role (R62, R64). -/
theorem deliver_of_running {s : State} {i : StreamId} {e : Event} (h : (s.stream i).state = .running)
    (ha : (s.stream i).advancesOn e.code = true) : s.deliver i e = (s.advance i e).stopRole i e := by
  simp only [State.deliver, h, ha, if_true]

/-- An ARMED stream takes its start source as its start alone (R8, R62). -/
theorem deliver_of_armed {s : State} {i : StreamId} {e : Event} (h : (s.stream i).state = .armed)
    (ha : (s.stream i).startSource = e.code) : s.deliver i e = s.startRun i e.stamp := by
  simp only [State.deliver, h, ha, if_true]

/-- An event that is not the stop source of a stream has no stop effect (R14). -/
theorem stopRole_of_ne {s : State} {i : StreamId} {e : Event} (h : (s.stream i).stopSource ≠ e.code) :
    s.stopRole i e = s := by
  unfold State.stopRole
  dsimp only
  split
  · rw [if_neg h]
  · rfl

/-- A stream that no longer runs takes no stop effect (R14). -/
theorem stopRole_of_state {s : State} {i : StreamId} {e : Event} (h : (s.stream i).state ≠ .running) :
    s.stopRole i e = s := by
  unfold State.stopRole
  dsimp only
  split
  · rename_i h' _
    exact absurd h' h
  · rfl

/-- Where a stream that takes an event is ARMED or RUNNING, it subscribes to it (R61, R62). -/
theorem subscribes_of_running {st : Stream} {c : Byte} (h : st.state = .running) (ha : st.advancesOn c = true) :
    st.subscribes c = true := by
  simp only [Stream.subscribes, h, ha, Bool.true_or]

theorem subscribes_of_armed {st : Stream} {c : Byte} (h : st.state = .armed) (ha : st.startSource = c) :
    st.subscribes c = true := by
  simp only [Stream.subscribes, h, ha, beq_self_eq_true]

/-! ## An item completes (R91 to R94) -/

/-- A fault leaves nothing of the context it replaces. -/
theorem faulted_setStream (s : State) (i : StreamId) (x st : Stream) (c : StreamFault) :
    (s.setStream i x).faulted i st c = s.faulted i st c := by
  simp only [State.faulted, State.setStream, vector_set_set]; rfl

/-- The end of a run leaves nothing of the context it replaces. -/
theorem endedRun_setStream (s : State) (i : StreamId) (x st : Stream) (r : EndReason) :
    (s.setStream i x).endedRun i st r = s.endedRun i st r := by
  simp only [State.endedRun, State.setStream, vector_set_set]; rfl

/-- What an item leaves holds nothing of the context it replaces. -/
theorem itemTaken_setStream (s : State) (i : StreamId) (x : Stream) (y : Stream × Option StreamFault) :
    (s.setStream i x).itemTaken i y = s.itemTaken i y := by
  unfold State.itemTaken
  split
  · exact faulted_setStream _ _ _ _ _
  · split
    · exact endedRun_setStream _ _ _ _ _
    · simp only [State.setStream, vector_set_set]

/-- The context that the end of a run replaces does not show in what it does beside the stream. -/
theorem cutShortNow_setStream (s : State) (i : StreamId) (x st : Stream) :
    (s.setStream i x).cutShortNow i st = (s.cutShortNow i st).setStream i x := by
  unfold State.cutShortNow
  dsimp only
  split
  · split <;> split <;> rfl
  · split <;> rfl

/-- A RUNNING stream takes its stop event (R9, R14): where the condition of its stop-trigger mode holds, its run ends,
and else it is STOPPING with the event-origin mark. -/
theorem stopRole_spec {v : State} {i : StreamId} {c : Stream} {m : StopMode} {e : Event} (hs : c.state = .running)
    (hm : c.stopMode = some m) (hsrc : c.stopSource = e.code) :
    let holds := m = .now ∨ (m = .item ∧ (c.kind ≠ some .scan ∨ c.scan = none)) ∨
      (m = .buffer ∧ c.current = none ∧
        (c.kind = some .scan ∨ c.kind = some .stamp ∨ (c.kind = some .play ∧ c.fifo = [])))
    (¬holds → (v.setStream i c).stopRole i e =
      v.setStream i { c with state := .stopping, pendingStop := some { mode := m, commands := [], event := true } }) ∧
    (holds → (∀ g, c.current = some g → g.reserved = true → g.notify = true) →
      (if c.endReserved then 1 else 0) + (if c.current.any Grant.reserved then 1 else 0) ≤
        (v.rq c.replyQueue).reserved →
      (v.setStream i c).stopRole i e =
        ((v.cutShortNow i c).endedRun i c.runLeft .stopEvent).emit (terminalCode i)) := by
  intro holds
  have h1 : (v.setStream i c).stopRole i e = (v.setStream i c).stopRunning i m [] := by
    unfold State.stopRole
    dsimp only
    rw [stream_setStream_self, hs, hm]
    dsimp only
    rw [if_pos hsrc]
  let c' : Stream := { c with pendingStop := some { mode := m, commands := [], event := true } }
  have hh : c'.stopConditionHolds = true ↔ holds := by
    simp only [c', holds, Stream.stopConditionHolds]
    cases m <;> cases hk : c.kind <;> (try rename_i k; cases k) <;> simp [and_comm]
  rw [h1]
  unfold State.stopRunning
  dsimp only
  rw [stream_setStream_self]
  refine ⟨fun hn => ?_, fun hy hg hr => ?_⟩
  · refine (if_neg (fun h => hn (hh.1 h))).trans ?_
    rw [setStream_setStream]
    rfl
  · refine (if_pos (hh.2 hy)).trans ?_
    rw [setStream_setStream]
    show (v.setStream i c').endRun i .stopEvent = _
    have e := stream_setStream_self v i c'
    rw [endRun_eq_runLeft .stopEvent (by rw [e]; rfl) (by
        intro g hc h0 h1 h2
        rw [e] at hc h1 ⊢
        refine ⟨hg g hc h2, ?_⟩
        have hc : c.current = some g := hc
        rw [hc] at hr
        simp only [Option.any_some, h2, if_true] at hr
        show (v.rq c.replyQueue).reserved ≠ 0
        omega) (by
        intro he
        rw [e] at he ⊢
        exact cutShortNow_reserved (s := v.setStream i c') (st := c') hr he), e, cutShortNow_setStream,
      endedRun_setStream]
    rfl

/-- A fault of a running stream whose context a happening has just replaced. -/
theorem haltStream_setStream {s : State} {i : StreamId} {x : Stream} (cause : StreamFault) (hs : x.state = .running)
    (h1 : x.stopCommands = []) (h2 : x.faultReserved = true) (h3 : (s.rq x.replyQueue).reserved ≠ 0) :
    (s.setStream i x).haltStream i cause = s.faulted i x cause := by
  have e := stream_setStream_self s i x
  rw [haltStream_eq_faulted cause (by rw [e]; exact .inr (.inr (.inl hs)))
    ⟨by rw [e]; exact h1, by rw [e]; exact h2, by rw [e]; exact h3⟩, e,
    faulted_setStream]

/-- Without a pending stop no stop condition holds (R9). -/
theorem stopConditionHolds_of_none {st : Stream} (h : st.pendingStop = none) : st.stopConditionHolds = false := by
  simp only [Stream.stopConditionHolds, h]

/-- What follows the placement of an item, at a stream that is still RUNNING with no stop pending (R92, steps 2
to 4). -/
theorem afterPlacement {s : State} {i : StreamId} {x : Stream} (late : Bool) {strict : Bool} (hb : x.strict = strict)
    (hs : x.state = .running)
    (hp : x.pendingStop = none) (h2 : x.faultReserved = true) (h3 : (s.rq x.replyQueue).reserved ≠ 0)
    (hk : x.kind ≠ some .play) (hscan : x.kind = some .scan → x.scan = none)
    (hg : x.AtLimit → ∀ g, x.current = some g → g.fill ≠ 0 ∧ x.hasStaged g.number = true) :
    let y : Stream × Option StreamFault := (x, if strict && late then some .portTimeout else none)
    let u := s.setStream i x
    let v := if (u.stream i).state = .halted then u
      else if late && strict then u.haltStream i .portTimeout else u.afterItem i
    v = s.itemTaken i y ∨ (y.1.AtLimit ∧ y.2 = none ∧ v = (s.itemTaken i y).emit (terminalCode i)) := by
  have hc : x.stopCommands = [] := by simp only [Stream.stopCommands, hp]
  dsimp only
  rw [stream_setStream_self, hs, if_neg (by decide)]
  subst hb
  cases hl : (x.strict && late) with
  | true =>
    left
    rw [Bool.and_comm] at hl
    rw [hl, if_pos rfl, haltStream_setStream _ hs hc h2 h3]
    rfl
  | false =>
    rw [Bool.and_comm] at hl
    rw [hl, if_neg (by decide), if_neg (by decide)]
    unfold State.afterItem
    rw [stream_setStream_self]
    by_cases hlim : x.AtLimit
    · right
      refine ⟨hlim, rfl, ?_⟩
      have : x.limitReached = true := by
        simpa [Stream.limitReached, BitVec.le_def, Stream.AtLimit] using hlim
      have e := stream_setStream_self s i x
      rw [if_pos this, endRun_eq_endedRun .limit (by rw [e]; exact hc) (by rw [e]; exact hk)
        (by rw [e]; exact hscan)
        (by rw [e]; exact hg hlim) (by rw [e]; exact fun _ => h3), e, endedRun_setStream]
      simp only [State.itemTaken, if_pos hlim]
    · left
      have : x.limitReached = false := by
        rw [Bool.eq_false_iff]
        intro h
        exact hlim (by simpa [Stream.limitReached, BitVec.le_def, Stream.AtLimit] using h)
      rw [this, if_neg (by decide)]
      unfold State.testStop
      dsimp only
      rw [stream_setStream_self, stopConditionHolds_of_none hp, Bool.and_false, if_neg (by decide)]
      simp only [State.itemTaken, if_neg hlim]
      rfl

/-- The item placed in a grant is what `Stream.placed` says (R33). -/
theorem stageItem_eq (s : State) (i : StreamId) (g : Grant) (n : Half) (b : List Byte) :
    s.stageItem i g n b = s.setStream i ((s.stream i).placed g n b) := by
  unfold State.stageItem Stream.placed Grant.isPartial
  dsimp only
  split <;> rename_i h
  · rw [decide_eq_true_eq] at h
    rw [if_pos h]
  · rw [decide_eq_true_eq] at h
    rw [if_neg h]

/-- What placing an item can change of the stream (R33). -/
theorem placed_frame (st : Stream) (g : Grant) (n : Half) (b : List Byte) :
    ∃ staging current finishing, st.placed g n b =
      { st with staging := staging, current := current, finishing := finishing } ∧
      ∀ h, current = some h → h.fill ≠ 0 ∧ (staging.any fun x => x.grant == h.number) = true := by
  unfold Stream.placed
  dsimp only
  split
  · refine ⟨_, _, _, rfl, ?_⟩
    intro h hh
    cases hh
    simp
  · exact ⟨_, _, _, rfl, fun h hh => by cases hh⟩

/-- A completed item of a RUNNING capture stream with no stop pending and no scan in flight (R91 to R94, R40). -/
theorem completeItem_spec {s : State} {i : StreamId} (bytes : Half → List Byte) (late : Bool)
    (hs : (s.stream i).state = .running) (hp : (s.stream i).pendingStop = none) (hcan : s.CanHalt i)
    (hk : (s.stream i).kind ≠ some .play) (hscan : (s.stream i).kind = some .scan → (s.stream i).scan = none) :
    let y := (s.stream i).completed (bytes (s.stream i).sequence) late
    (y.1.AtLimit → (s.stream i).staging.length < 4 ∨ (s.stream i).current = none) →
    s.completeItem i bytes late = s.itemTaken i y ∨
      (y.1.AtLimit ∧ y.2 = none ∧ s.completeItem i bytes late = (s.itemTaken i y).emit (terminalCode i)) := by
  obtain ⟨hc, hf, hr⟩ := hcan
  generalize hst : s.stream i = st at *
  intro y hy
  have e : ∀ x, (s.setStream i x).stream i = x := stream_setStream_self s i
  unfold State.completeItem
  dsimp only
  rw [hst]
  generalize hc1 : ({ st with sequence := st.sequence + 1, produced := st.produced + 1 } : Stream) = c
  have f1 : c.state = .running := by rw [← hc1]; exact hs
  have f2 : c.pendingStop = none := by rw [← hc1]; exact hp
  have f3 : c.faultReserved = true := by rw [← hc1]; exact hf
  have f4 : (s.rq c.replyQueue).reserved ≠ 0 := by rw [← hc1]; exact hr
  have f5 : c.kind ≠ some .play := by rw [← hc1]; exact hk
  have f6 : c.kind = some .scan → c.scan = none := by rw [← hc1]; exact hscan
  have f7 : c.strict = st.strict := by rw [← hc1]
  have f8 : c.starveHalt = st.starveHalt := by rw [← hc1]
  have f9 : c.staging = st.staging := by rw [← hc1]
  have f10 : c.current = st.current := by rw [← hc1]
  have f11 : c.waiting = st.waiting := by rw [← hc1]
  have f12 : c.bufferGoverns = false := by simp only [Stream.bufferGoverns, f2]
  have f13 : c.stopCommands = [] := by simp only [Stream.stopCommands, f2]
  have f14 : c.backlogLosses = st.backlogLosses := by rw [← hc1]
  have f15 : c.dropped = st.dropped := by rw [← hc1]
  have hplace : ∀ (d : Stream) (g : Grant), d.state = .running → d.pendingStop = none → d.faultReserved = true →
      (s.rq d.replyQueue).reserved ≠ 0 → d.kind ≠ some .play → (d.kind = some .scan → d.scan = none) →
      d.strict = st.strict →
      let z := (d.placed g st.sequence (bytes st.sequence), if st.strict && late then some .portTimeout else none)
      let u := s.setStream i (d.placed g st.sequence (bytes st.sequence))
      let v := if (u.stream i).state = .halted then u
        else if late && st.strict then u.haltStream i .portTimeout else u.afterItem i
      v = s.itemTaken i z ∨ (z.1.AtLimit ∧ z.2 = none ∧ v = (s.itemTaken i z).emit (terminalCode i)) := by
    intro d g h1 h2 h3 h4 h5 h6 h7
    obtain ⟨a, b, f, hpl, hh⟩ := placed_frame d g st.sequence (bytes st.sequence)
    rw [hpl]
    exact afterPlacement (s := s) (i := i) (x := { d with staging := a, current := b, finishing := f }) late h7
      h1 h2 h3 h4 h5 h6 (fun _ => hh)
  by_cases hfull : 4 ≤ st.staging.length
  · have hyv : y = ({ c with backlogLosses := st.backlogLosses + 1 }, if st.strict then some .backlog else none) := by
      subst hc1; simp only [y, Stream.completed, if_pos hfull]
    have hpl : (s.setStream i c).placeItem i st.sequence (bytes st.sequence) =
        (let u := s.setStream i { c with backlogLosses := st.backlogLosses + 1 }
        if st.strict then u.haltStream i .backlog else u) := by
      unfold State.placeItem State.loseToBacklog
      dsimp only
      rw [e, if_pos (by rw [f9]; exact hfull), setStream_setStream, f7, f14]
    rw [hpl]
    dsimp only
    cases hstr : st.strict with
    | true =>
      left
      rw [if_pos rfl, haltStream_setStream (x := { c with backlogLosses := st.backlogLosses + 1 }) _ f1 f13 f3 f4]
      have : (State.stream (s.faulted i { c with backlogLosses := st.backlogLosses + 1 } .backlog) i).state =
          .halted := by
        simp only [State.faulted, State.stream, vector_get_set, if_true]
      rw [if_pos this, hyv, hstr]
      rfl
    | false =>
      have := afterPlacement (s := s) (i := i) (x := { c with backlogLosses := st.backlogLosses + 1 }) late
        (f7.trans hstr) f1 f2 f3 f4 f5 f6
        (fun hl g hg => by
          rcases hy (by rw [hyv]; exact hl) with h | h
          · omega
          · exact absurd (f10.symm.trans hg) (by rw [h]; exact fun h => by cases h))
      rw [hyv, hstr]
      simpa using this
  · have hfull' : ¬ Config.stagingDepth ≤ c.staging.length := by rw [f9]; exact hfull
    cases hcur : st.current with
    | some g =>
      have hyv : y = (c.placed g st.sequence (bytes st.sequence),
          if st.strict && late then some .portTimeout else none) := by
        subst hc1; simp only [y, Stream.completed, if_neg hfull, hcur]
      have hpl : (s.setStream i c).placeItem i st.sequence (bytes st.sequence) =
          s.setStream i (c.placed g st.sequence (bytes st.sequence)) := by
        unfold State.placeItem
        dsimp only
        rw [e, if_neg hfull']
        simp only [f10.trans hcur, stageItem_eq, e, setStream_setStream]
      rw [hyv, hpl]
      exact hplace c g f1 f2 f3 f4 f5 f6 f7
    | none =>
      cases hwait : st.waiting with
      | cons g rest =>
        have hyv : y = (({ c with waiting := rest } : Stream).placed g st.sequence (bytes st.sequence),
            if st.strict && late then some .portTimeout else none) := by
          subst hc1; simp only [y, Stream.completed, if_neg hfull, hcur, hwait]
        have hpl : (s.setStream i c).placeItem i st.sequence (bytes st.sequence) =
            s.setStream i (({ c with waiting := rest } : Stream).placed g st.sequence (bytes st.sequence)) := by
          unfold State.placeItem
          dsimp only
          rw [e, if_neg hfull']
          simp only [f10.trans hcur, f11.trans hwait, f12, stageItem_eq, e, setStream_setStream, Bool.false_eq_true,
            if_false]
        rw [hyv, hpl]
        exact hplace { c with waiting := rest } g f1 f2 f3 f4 f5 f6 f7
      | nil =>
        have hpl : (s.setStream i c).placeItem i st.sequence (bytes st.sequence) =
            (let u := s.setStream i { c with dropped := st.dropped + 1 }
            if st.starveHalt then u.haltStream i .starved else u) := by
          have h0 : (s.setStream i c).placeItem i st.sequence (bytes st.sequence) = (s.setStream i c).starve i := by
            unfold State.placeItem
            dsimp only
            rw [e, if_neg hfull']
            simp only [f10.trans hcur, f11.trans hwait]
          rw [h0, ← f8, ← f15]
          unfold State.starve
          dsimp only
          rw [e, setStream_setStream]
        rw [hpl]
        dsimp only
        cases hst' : st.starveHalt with
        | true =>
          have hyv : y = ({ c with dropped := st.dropped + 1 }, some .starved) := by
            subst hc1; simp only [y, Stream.completed, if_neg hfull, hcur, hwait, hst', if_true]
          left
          rw [if_pos rfl, haltStream_setStream (x := { c with dropped := st.dropped + 1 }) _ f1 f13 f3 f4]
          have : (State.stream (s.faulted i { c with dropped := st.dropped + 1 } .starved) i).state = .halted := by
            simp only [State.faulted, State.stream, vector_get_set, if_true]
          rw [if_pos this, hyv]
          rfl
        | false =>
          have hyv : y = ({ c with dropped := st.dropped + 1 },
              if st.strict && late then some .portTimeout else none) := by
            subst hc1; simp [y, Stream.completed, if_neg hfull, hcur, hwait, hst']
          have := afterPlacement (s := s) (i := i) (x := { c with dropped := st.dropped + 1 }) late f7 f1 f2 f3 f4 f5 f6
            (fun hl g hg => absurd (f10.symm.trans hg) (by rw [hcur]; exact fun h => by cases h))
          rw [hyv]
          simpa using this

end Sys2Proof.Machine
end

