-- ==== Sys2Proof/Tests/Slice0.lean ====
section
/-! SUPPORT. Small tests: ill-formed rows, figures worked out in the spec, and, for each statement with hypotheses, a
state and operands that meet them together. -/

namespace Sys2Proof.Tests

open Sys2Proof.Machine

/-! ## Records and small states -/

/-- A value at byte `k` of a record. -/
def put (k v : Nat) : BitVec 192 := BitVec.ofNat 192 (v * 2 ^ (8 * (k - 8)))

/-- A record body with tag 7 and no flags. -/
def body (id byte5 : Byte) (bytes6to7 : Half) (params : BitVec 192) : RecordBody :=
  { flags := 0, tag := 7, id := id, byte5 := byte5, bytes6to7 := bytes6to7, params := params }

theorem body_ordered (id byte5 : Byte) (bytes6to7 : Half) (params : BitVec 192) :
    (body id byte5 bytes6to7 params).ordered = false := by
  show BitVec.getLsbD (0 : Byte) 0 = false
  decide

/-- A READY machine with CQ0 and RQ0 ACTIVE and four reservations at RQ0. -/
def up : State :=
  { State.reset with
    device := .ready
    queues := State.reset.queues.set 0 { CommandQueue.created 0x10000 16 0 with producer := 2 }
    replyQueues := State.reset.replyQueues.set 0 (ReplyQueue.created 0x20000 16 4 false false)
    link := { busMaster := true, msiEnable := true, vector0 := ⟨0xFEE00000, 1⟩, vector1 := ⟨0xFEE00000, 2⟩ } }

/-- The fetch of CQ0's record at position 0. -/
def theFetch : Fetch := { queue := 0, slot := 0, address := 0x10000, served := true }

/-- Its in-flight entry. -/
def theEntry : Entry :=
  { queue := 0, position := 0, phase := .fetching, replyQueue := 0, record := none, value1 := 0, value2 := 0 }

/-- Its outstanding read. -/
def theRead : OutstandingRead :=
  { tag := 0, who := .fetch, address := 0x10000, length := 32, deadline := 20000, got := [] }

/-- The machine whose fetch of CQ0 is outstanding. -/
def taking : State :=
  { up with
    fetch := some theFetch
    inflight := up.inflight.set 0 (some theEntry)
    outstanding := [theRead] }

/-- `taking` with stream 3. -/
def having (st : Stream) : State := taking.setStream 3 st

/-- A state with the fetch of `taking` takes each record of CQ0 that is not ordered. -/
theorem takes_of {s : State} {r : RecordBody} (he : s.emitted = []) (hq : ∀ q, s.queue q = taking.queue q)
    (hd : s.device = .ready) (hf : s.fetch = some theFetch) (hi : s.entry 0 = some theEntry)
    (ho : (s.outstanding.any fun o => o.who == Requester.fetch) = true) (hr : (s.rq 0).reserved ≠ 0)
    (h : r.ordered = false) : s.Takes 0 r theFetch theEntry := by
  refine ⟨⟨he, fun q => ?_, by rw [hd]; decide⟩, ⟨hf, rfl, hi, rfl, rfl, ?_, ho, hr⟩, fun h' => ?_⟩
  · rw [hq]
    revert q
    decide
  · rw [hq]
    rfl
  · rw [h] at h'
    cases h'

/-- `taking` with a context for stream 3 takes each record of CQ0 that is not ordered. -/
theorem takes_having (st : Stream) (r : RecordBody) (h : r.ordered = false) :
    (having st).Takes 0 r theFetch theEntry :=
  takes_of rfl (fun _ => rfl) rfl rfl rfl rfl (show (taking.rq 0).reserved ≠ 0 by decide) h

/-- `up` is calm, and so is every state with its events, queues and device state. -/
theorem calm_of {s : State} (he : s.emitted = []) (hq : ∀ q, s.queue q = up.queue q) (hd : s.device = .ready) :
    s.Calm := by
  refine ⟨he, fun q => ?_, by rw [hd]; decide⟩
  rw [hq]
  revert q
  decide

/-- An OPEN stream of kind `k`. -/
def opened (k : Kind) : Stream := { Stream.empty with state := .opened, kind := some k, faultReserved := true }

/-- A SCAN stream on sample port 2 in state `x`. -/
def scanner (x : StreamState) : Stream := { opened .scan with state := x, scanList := [2], advanceSource := 1 }

/-- A grant of two words or items. -/
def grant2 : Grant :=
  { number := 0
    address := 0x10000000
    count := 2
    tag := 0x00A0
    notify := true
    recycle := false
    reserved := true
    fill := 0
    firstSeq := none
    missed := 0 }

/-- A staged item of 8 bytes. -/
def item : Staged := { grant := 0, address := 0x20000FF8, bytes := List.replicate 20 1, served := 0 }

/-! ## Ill-formed rows: one for each check of `wellFormed` -/

theorem test_wellFormed_flags :
    Instr.wellFormed (.nop 0 { body 0 0 0 0 with flags := 4 }) = false ∧
      Instr.wellFormed (.nop 0 { body 0 0 0 0 with flags := 3 }) = true := by decide

theorem test_wellFormed_plain :
    Instr.wellFormed (.nop 0 (body 1 0 0 0)) = false ∧ Instr.wellFormed (.readTime 0 (body 0 0 0 (put 31 1))) = false := by
  decide

theorem test_wellFormed_stream :
    Instr.wellFormed (.openStream 0 (body 3 1 0x2000 0)) = false ∧
      Instr.wellFormed (.openStream 0 (body 3 1 0 (put 24 1))) = false ∧
      Instr.wellFormed (.arm 0 (body 3 0 0x0400 0)) = false ∧ Instr.wellFormed (.arm 0 (body 3 0 0 (put 12 1))) = false ∧
      Instr.wellFormed (.stop 0 (body 3 1 1 0)) = false ∧ Instr.wellFormed (.resume 0 (body 3 1 0 0)) = false ∧
      Instr.wellFormed (.close 0 (body 3 0 0 (put 8 1))) = false ∧
      Instr.wellFormed (.queryStream 0 (body 3 0 0 (put 16 1))) = false := by decide

theorem test_wellFormed_grants :
    Instr.wellFormed (.grant 0 (body 3 4 0 0)) = false ∧ Instr.wellFormed (.grant 0 (body 3 0 0 (put 18 1))) = false ∧
      Instr.wellFormed (.reclaim 0 (body 3 0 1 0)) = false := by decide

theorem test_wellFormed_units :
    Instr.wellFormed (.setPacer 0 (body 3 2 0 0)) = false ∧ Instr.wellFormed (.haltPacer 0 (body 3 1 0 0)) = false ∧
      Instr.wellFormed (.loadPattern 0 (body 1 0 0 0)) = false ∧
      Instr.wellFormed (.configInput 0 (body 3 0 0 (put 8 1))) = false ∧
      Instr.wellFormed (.configPort 0 (body 3 0 0 (put 12 1))) = false := by decide

theorem test_wellFormed_queues :
    Instr.wellFormed (.createCq 0 (body 1 0 16 (put 16 1))) = false ∧
      Instr.wellFormed (.deleteCq 0 (body 1 0 16 0)) = false ∧ Instr.wellFormed (.createRq 0 (body 1 1 16 0)) = false ∧
      Instr.wellFormed (.deleteRq 0 (body 1 0 16 0)) = false := by decide

theorem test_wellFormed_window :
    Instr.wellFormed (.registerWrite 0x12 .word 0) = false ∧ Instr.wellFormed (.registerWrite 0x10 .other 0) = false ∧
      Instr.wellFormed (.registerWrite 0x10 .word 0) = true ∧ Instr.wellFormed (.readCompletion 0 []) = false ∧
      Instr.wellFormed (.completionPart 0 []) = false := by decide

/-! ## Figures of the spec -/

/-- No word of the table spells a row. -/
theorem test_no_word : decodeTableWord 32 0 = none := rfl

/-- Section 12.1, position 2: OPEN of SCAN stream 0 on ports 0 and 1, advance source 1, written out as 32 bytes by the
layout of section 11.2. -/
theorem test_record_layout :
    decodeRecord ([0x10, 0, 7, 0, 0, 1, 0, 0, 2, 1, 0, 0, 0, 0, 0, 0, 0, 1] ++ List.replicate 14 0) =
      ⟨0x10, body 0 1 0 (put 8 2 ||| put 9 1 ||| put 17 1)⟩ := by decide

/-- Section 3.4: pacer 3 with target 49,000, period 300 and count 5 fires at tick 50,000. -/
theorem test_pacer_past_target :
    (Pacer.mk .waiting 49000 300 5 0).fired 50000 = Pacer.mk .waiting 50200 300 1 3 ∧
      (Pacer.mk .waiting 50200 300 1 3).fired 50200 = Pacer.mk .off 50500 300 0 3 := by decide

/-- Section 4.7: filter 2, a candidate of tick 104 qualifies at tick 106 and not at 105. -/
theorem test_edge_qualifies :
    (Input.mk .rising 2 false (some 104) true true false).qualifies 105 = false ∧
      (Input.mk .rising 2 false (some 104) true true false).qualifies 106 = true ∧
      (Input.mk .rising 2 false none false false false).show true 104 =
        Input.mk .rising 2 false (some 104) true true false ∧
      (Input.mk .rising 2 false (some 101) true false false).show false 103 =
        Input.mk .rising 2 false none false true false := by decide

/-- Section 5.7: the item of three ports with timestamp, the last of them timed out, is 20 bytes long. -/
theorem test_scan_item :
    scanItem true { time := 1000, slots := [.sample 0x0412, .sample 0x7FF0, .timedOut] } 0 =
      [0, 0, 3, 4, 0xE8, 3, 0, 0, 0, 0, 0, 0, 0x12, 0x04, 0xF0, 0x7F, 0, 0, 0, 0] := by decide

/-- Section 9.1: an item of 20 bytes at 0x20000FF8 becomes 8 bytes there and 12 bytes at 0x20001000. -/
theorem test_item_is_cut :
    (nextWrite (.capture 3) 0x20000FF8 (List.replicate 20 1) 0).length = 8 ∧
      (nextWrite (.capture 3) 0x20000FF8 (List.replicate 20 1) 0).last = false ∧
      (nextWrite (.capture 3) 0x20000FF8 (List.replicate 20 1) 8).address = 0x20001000 ∧
      (nextWrite (.capture 3) 0x20000FF8 (List.replicate 20 1) 8).length = 12 ∧
      (nextWrite (.capture 3) 0x20000FF8 (List.replicate 20 1) 8).last = true := by decide

/-- Section 9.8: arbitrations 1, 2 and 6. -/
theorem test_class_choice :
    chooseClass true false 0 = (true, 0) ∧ chooseClass true true 0 = (true, 1) ∧ chooseClass true true 4 = (false, 0) ∧
      chooseClass false true 1 = (false, 0) := by decide

/-- Section 12.5: stream-side and command claims at a queue of capacity 15. -/
theorem test_claims :
    ({ ReplyQueue.created 0 16 2 false false with occupied := 11 } : ReplyQueue).grants 2 = true ∧
      ({ ReplyQueue.created 0 16 2 false false with occupied := 12 } : ReplyQueue).grants 2 = false ∧
      ({ ReplyQueue.created 0 16 1 false false with occupied := 13 } : ReplyQueue).grants 1 = true := by decide

/-- Section 8.9: the tail wraps and the phase inverts, and a consumer write of 15 frees three entries. -/
theorem test_reply_ring :
    let x : ReplyQueue := { ReplyQueue.created 0 16 3 true false with head := 12, tail := 15, occupied := 3, sent := true }
    (x.consume 15).head = 15 ∧ (x.consume 15).occupied = 0 ∧ (x.consume 15).sent = false ∧
      (x.submit fun _ => []).tail = 0 ∧ (x.submit fun _ => []).phase = false ∧ (x.consume 16).errorFlag = true := by
  decide

/-- Section 6.6: the prefetch asks for 10 words, and then for 4 with room 6. -/
theorem test_prefetch :
    let g : Grant := { grant2 with address := 0x30000000, count := 10 }
    let st : Stream := { opened .play with prefetching := true, waiting := [g] }
    let later : Stream := { opened .play with
      prefetching := true
      fifo := List.replicate 10 0
      waiting := [{ g with address := 0x30000100, count := 4 }] }
    (st.prefetchTest.read.map PlayRead.words) = some 10 ∧ (later.prefetchTest.read.map PlayRead.words) = some 4 := by
  decide

/-- Section 6.6: a load of 200 entries 128 bytes below a boundary reads 32 entries first, then 64. -/
theorem test_load_reads :
    (Load.mk 0 0x40000F80 0 200 0 false).nextEntries = 32 ∧ (Load.mk 0 0x40000F80 0 200 32 false).nextEntries = 64 := by
  decide

/-- Section 12.3: the RING stream of four entries goes round. -/
theorem test_ring_goes_round :
    ({ opened .ring with regionLength := 4 } : Stream).nextEntry 3 = 0 ∧
      ({ opened .ring with regionBase := 100, regionLength := 3 } : Stream).nextEntry 100 = 101 := by decide

/-- Section 10.7: ARBASE 0x00090020 is refused, 0x00090000 is good. -/
theorem test_enable :
    ({ State.reset with aqbase := 0x80000, arbase := 0x90020, qsize := 0x606 } : State).configGood = false ∧
      ({ State.reset with aqbase := 0x80000, arbase := 0x90000, qsize := 0x606 } : State).configGood = true := by decide

/-- Section 11.7: the identification register reads 0x00032460. -/
theorem test_ident : State.reset.readWindow 0 = 0x00032460 := rfl

/-- Sections 12.1 and 5.7: item sizes of 2 ports, and of 3 ports with timestamp. -/
theorem test_item_sizes : scanItemSize 2 false = 8 ∧ scanItemSize 3 true = 20 ∧ scanItemSize 3 false = 12 := by decide

/-! ## Witnesses: the machine as a whole -/

theorem test_StepTakesTheFrontRow_witness : State.reset.pending = [] := rfl

theorem test_CommandRowsAreReadCompletions_witness :
    taking.fetch = some theFetch ∧ theFetch.queue = 0 ∧ theRead ∈ taking.outstanding ∧ theRead.who = .fetch ∧
      theRead.length = 32 ∧ theRead.got = [] ∧
      ∀ p ∈ taking.outstanding, p.tag = theRead.tag ∨ p.who = .fetch → p = theRead := by
  refine ⟨rfl, rfl, List.mem_cons_self, rfl, rfl, rfl, fun p hp _ => ?_⟩
  simpa [taking] using hp

/-- The NOP of `taking` is about to be taken. -/
def steps : State := { taking with pending := [.nop 0 (body 0 0 0 0)] }

theorem test_RepliesStaySound_witness : steps.RepliesSound ∧ ∃ t, step steps = .next t := by
  refine ⟨?_, _, rfl⟩
  unfold State.RepliesSound ReplyQueue.Sound
  decide

/-- A load of two entries at entry 4094 whose read is outstanding. -/
def loading : State :=
  { up with
    loads := [{ slot := 1, address := 0x40000000, first := 4093, count := 3, written := 1, served := true }]
    patternMemory := [(4, 9)]
    outstanding :=
      [{ tag := 5, who := .load 1, address := 0x40000004, length := 4, deadline := 20000, got := [] }] }

theorem test_PatternMemoryStaysCanonical_witness :
    let s : State := { loading with pending := [.readCompletion 5 [1, 0, 0, 0]] }
    s.PatternSound ∧ ∃ t, step s = .next t :=
  ⟨rfl, _, rfl⟩

theorem test_OnlyTicksMoveTime_witness :
    (∃ t, exec (.timebaseTick 0) State.reset = .next t) ∧ (∃ t, exec (.powerOnReset LinkConfig.zero) up = .next t) ∧
      ∃ t, exec .turn up = .next t :=
  ⟨⟨_, rfl⟩, ⟨_, rfl⟩, ⟨_, rfl⟩⟩

/-! ## Witnesses: records -/

theorem test_RefusedCommandsChangeNothing_witness :
    taking.Takes 0 (body 32 0 0 0) theFetch theEntry ∧
      (taking.withRecord theFetch theEntry ⟨Opcode.close.code, body 32 0 0 0⟩).statusOf .close 0 (body 32 0 0 0) ≠ .ok ∧
      (taking.withRecord theFetch theEntry ⟨Opcode.loadPattern.code, body 32 0 0 0⟩).statusOf .loadPattern 0
        (body 32 0 0 0) ≠ .ok :=
  ⟨takes_of rfl (fun _ => rfl) rfl rfl rfl rfl (by decide) rfl, by decide, by decide⟩

theorem test_UnknownCodesAreRefused_witness :
    taking.Takes 0 (body 0 0 0 0) theFetch theEntry ∧ opcodeOf 0xFF = none ∧ theRead ∈ taking.outstanding ∧
      theRead.who = .fetch ∧ theRead.length = 32 ∧ theRead.got = [] ∧
      ∀ p ∈ taking.outstanding, p.tag = theRead.tag ∨ p.who = .fetch → p = theRead :=
  ⟨takes_of rfl (fun _ => rfl) rfl rfl rfl rfl (by decide) rfl, rfl,
    test_CommandRowsAreReadCompletions_witness.2.2⟩

/-- `taking` with a QUERY_STREAM of CQ0 in WORKING. -/
def busy : State :=
  { taking with inflight := taking.inflight.set 1 (some { theEntry with phase := .working, position := 15 }) }

theorem test_OrderedRecordsAreHeld_witness :
    busy.Calm ∧ busy.Fetching 0 theFetch theEntry ∧ ({ body 0 0 0 0 with flags := 1 } : RecordBody).ordered = true ∧
      busy.hasWorking 0 = true :=
  ⟨calm_of rfl (fun _ => rfl) rfl, ⟨rfl, rfl, rfl, rfl, rfl, rfl, rfl, by decide⟩, rfl, by decide⟩

/-- Every record of CQ0 that is not ordered is taken at `taking`. -/
theorem test_takes_witness (r : RecordBody) (h : r.ordered = false) : taking.Takes 0 r theFetch theEntry :=
  takes_of rfl (fun _ => rfl) rfl rfl rfl rfl (by decide) h

theorem test_NopAndReadTimeReply_witness :
    taking.Takes 0 (body 0 0 0 0) theFetch theEntry ∧ (body 0 0 0 0).flagsOk = true ∧ (body 0 0 0 0).noFields = true ∧
      taking.Takes 0 (body 1 0 0 0) theFetch theEntry ∧ (body 1 0 0 0).noFields = false ∧
      taking.Takes 0 { body 0 0 0 0 with flags := 4 } theFetch theEntry ∧
      ({ body 0 0 0 0 with flags := 4 } : RecordBody).flagsOk = false :=
  ⟨test_takes_witness _ rfl, by decide, by decide, test_takes_witness _ rfl, by decide, test_takes_witness _ rfl,
    by decide⟩

/-! ## Witnesses: streams -/

/-- Every stream of `up` is CLOSED. -/
theorem closed_hears_nothing (i : StreamId) (c : Byte) : (up.stream i).subscribes c = false := by
  have h : ∀ i, (up.stream i).state = .closed := by decide
  simp only [Stream.subscribes, h]

/-- In `having st` no stream hears event `c`, where `st` does not. -/
theorem unheard_having {st : Stream} {c : Byte} (h : st.subscribes c = false) : (having st).Unheard c := by
  intro i
  have : (having st).stream i = if 3 = i then st else taking.stream i := by
    simp only [State.stream, having, State.setStream, vector_get_set]
  rw [this]
  split
  · exact h
  · exact closed_hears_nothing i c

theorem test_OpenTakesTheStream_witness :
    (having Stream.empty).Takes 0 (body 3 1 0 (put 8 1 ||| put 9 1 ||| put 16 2)) theFetch theEntry ∧
      (having Stream.empty).openCheck (body 3 1 0 (put 8 1 ||| put 9 1 ||| put 16 2)) = .ok ∧
      (having Stream.empty).openCheck (body 3 4 0x0800 (put 10 7 ||| put 11 15 ||| put 12 9 ||| put 18 4096 ||| put 20 4095)) =
        .ok :=
  ⟨takes_having _ _ rfl, by decide, by decide⟩

/-- ARM of stream 3 with start source `b`, stop source NONE, mode ITEM, policy REPORT. -/
def armBody (b : Byte) : RecordBody := body 3 b 0x12FF (put 8 2)

theorem test_ArmSetsTheRun_witness :
    (having (opened .ring)).Takes 0 (armBody 0) theFetch theEntry ∧ (having (opened .ring)).armCheck (armBody 0) = .ok ∧
      (armBody 0).byte5 ≠ 254 ∧ (having (opened .play)).Takes 0 (armBody 254) theFetch theEntry ∧
      (having (opened .play)).armCheck (armBody 254) = .ok ∧
      ((having (opened .play)).stream (streamOf (armBody 254))).kind ≠ some .ring :=
  ⟨takes_having _ _ rfl, by decide, by decide, takes_having _ _ rfl, by decide, by decide⟩

/-- IMMEDIATE ARM of stream 3 with item limit `n`, policy REPORT. -/
def limitBody (n : Nat) : RecordBody := body 3 254 0x12FF (put 8 n)

theorem test_RingStartsAtItsOffset_witness :
    let s := having (opened .ring)
    s.Takes 0 (limitBody 2) theFetch theEntry ∧ s.armCheck (limitBody 2) = .ok ∧ (limitBody 2).byte5 = 254 ∧
      (s.stream (streamOf (limitBody 2))).kind = some .ring ∧ (limitBody 2).wordAt 8 ≠ 1 ∧
      s.Takes 0 (limitBody 1) theFetch theEntry ∧ s.armCheck (limitBody 1) = .ok ∧ (limitBody 1).wordAt 8 = 1 ∧
      s.Unheard (terminalCode (streamOf (limitBody 1))) ∧ (s.stream (streamOf (limitBody 1))).current = none ∧
      (s.stream (streamOf (limitBody 1))).pendingStop = none :=
  ⟨takes_having _ _ rfl, by decide, by decide, by decide, by decide, takes_having _ _ rfl, by decide, by decide,
    unheard_having (by decide), by decide, by decide⟩

/-- STOP of stream 3 in mode `b`. -/
def stopBody (b : Byte) : RecordBody := body 3 b 0 0

theorem test_StopOfArmedStreamCancels_witness :
    let play := having { opened .play with state := .armed, current := some grant2 }
    let scan := having { scanner .armed with endReserved := true }
    play.Takes 0 (stopBody 3) theFetch theEntry ∧ play.stopCheck (stopBody 3) = .ok ∧
      (play.stream 3).state = .armed ∧ (play.stream 3).kind = some .play ∧
      scan.Takes 0 (stopBody 1) theFetch theEntry ∧ scan.stopCheck (stopBody 1) = .ok ∧
      (scan.stream 3).state = .armed ∧ (scan.stream 3).kind ≠ some .play ∧ 1 < (scan.rq theEntry.replyQueue).reserved :=
  ⟨takes_having _ _ rfl, by decide, by decide, by decide, takes_having _ _ rfl, by decide, by decide, by decide,
    by decide⟩

theorem test_StopWaitsForItsCondition_witness :
    let st : Stream := { scanner .running with scan := some { time := 0, slots := [.awaited] } }
    let held (m : StopMode) (l : List SlotId) : Stream :=
      { st with state := .stopping, pendingStop := some { mode := m, commands := l, event := true } }
    (having st).Takes 0 (stopBody 2) theFetch theEntry ∧ (having st).stopCheck (stopBody 2) = .ok ∧
      ((having st).stream 3).state = .running ∧ stopModeOf (stopBody 2).byte5 = some .item ∧
      ({ st with pendingStop := some { mode := .item, commands := [theFetch.slot], event := false } } : Stream
        ).stopConditionHolds = false ∧
      (having (held .item [5])).Takes 0 (stopBody 3) theFetch theEntry ∧
      (having (held .item [5])).stopCheck (stopBody 3) = .ok ∧ (having (held .item [5])).stopCheck (stopBody 2) = .ok ∧
      stopModeOf (stopBody 3).byte5 = some .buffer ∧ ((having (held .item [5])).stream 3).state = .stopping ∧
      ((having (held .item [5])).stream 3).pendingStop = some { mode := .item, commands := [5], event := true } ∧
      (having (held .buffer [])).Takes 0 (stopBody 2) theFetch theEntry ∧
      (having (held .buffer [])).stopCheck (stopBody 2) = .ok ∧
      (held .item [theFetch.slot]).stopConditionHolds = false :=
  ⟨takes_having _ _ rfl, by decide, by decide, by decide, by decide, takes_having _ _ rfl, by decide, by decide,
    by decide, by decide, by decide, takes_having _ _ rfl, by decide, by decide⟩

theorem test_StopNowEndsTheRun_witness :
    let s := having { scanner .running with scan := some { time := 0, slots := [.awaited] }, park := some 5 }
    s.Takes 0 (stopBody 1) theFetch theEntry ∧ s.stopCheck (stopBody 1) = .ok ∧ (s.stream 3).state = .running ∧
      (stopBody 1).byte5 = 1 ∧ s.Unheard (terminalCode (streamOf (stopBody 1))) ∧ (s.stream 3).current = none ∧
      (s.stream 3).endReserved = false :=
  ⟨takes_having _ _ rfl, by decide, by decide, by decide, unheard_having (by decide), by decide, by decide⟩

theorem test_StopNowReclaims_witness :
    let g : Grant := { grant2 with fill := 0, reserved := false }
    let s := having { scanner .running with current := some g }
    s.Takes 0 (stopBody 1) theFetch theEntry ∧ s.stopCheck (stopBody 1) = .ok ∧ (s.stream 3).state = .running ∧
      (stopBody 1).byte5 = 1 ∧ s.Unheard (terminalCode (streamOf (stopBody 1))) ∧ (s.stream 3).current = some g ∧
      g.fill = 0 ∧ g.reserved = false ∧ (s.stream 3).endReserved = false :=
  ⟨takes_having _ _ rfl, by decide, by decide, by decide, unheard_having (by decide), by decide, by decide, by decide,
    by decide⟩

theorem test_ResumeReopens_witness :
    let s := having { opened .play with state := .halted, fault := some .starved, faultReserved := false }
    s.Takes 0 (body 3 0 0 0) theFetch theEntry ∧ s.resumeCheck (body 3 0 0 0) = .ok :=
  ⟨takes_having _ _ rfl, by decide⟩

theorem test_CloseWithNothingOutstanding_witness :
    let s := having { scanner .opened with waiting := [grant2] }
    s.Takes 0 (body 3 0 0 0) theFetch theEntry ∧ s.closeCheck (body 3 0 0 0) = .ok ∧ (s.stream 3).staging = [] ∧
      s.transferOf (.closing 3) = false ∧ (∀ x, (s.stream 3).read = some x → x.served = false) ∧
      (∀ n ∈ (s.stream 3).scanList, (s.port n).phase = .idle) ∧ (s.stream 3).current = none ∧
      (s.stream 3).pendingStop = none ∧
      (s.stream 3).waiting.countP (fun g => g.reserved) + 1 + 0 < (s.rq (s.stream 3).replyQueue).reserved :=
  ⟨takes_having _ _ rfl, by decide, rfl, by decide, (fun x hx => by cases hx), by decide, rfl, rfl, by decide⟩

/-- A served read of two words. -/
def playRead : PlayRead := { grant := 0, start := 0, words := 2, address := 0x10000000, served := true }

theorem test_CloseWaitsForItsWork_witness :
    let scan := having { scanner .running with staging := [item] }
    let play : State := { having { opened .play with state := .running, read := some playRead } with
      outstanding :=
        [theRead, { tag := 1, who := .prefetch 3, address := 0x10000000, length := 4, deadline := 20000, got := [] }] }
    let shift : State := scan.setPort 2 { SamplePort.idle 5 with phase := .shifting }
    scan.Takes 0 (body 3 0 0 0) theFetch theEntry ∧ scan.closeCheck (body 3 0 0 0) = .ok ∧
      theFetch.slot ∉ (scan.stream 3).stopCommands ∧ (scan.stream 3).kind = some .scan ∧ (scan.stream 3).staging ≠ [] ∧
      (∃ n ∈ (shift.stream 3).scanList, (shift.port n).phase ≠ .idle) ∧
      play.Takes 0 (body 3 0 0 0) theFetch theEntry ∧ play.closeCheck (body 3 0 0 0) = .ok ∧
      theFetch.slot ∉ (play.stream 3).stopCommands ∧ (play.stream 3).kind = some .play ∧
      (∃ y, (play.stream 3).read = some y ∧ y.served = true) ∧ play.transferOf (.prefetch 3) = true :=
  ⟨takes_having _ _ rfl, by decide, by decide, by decide, by decide, by decide,
    takes_of rfl (fun _ => rfl) rfl rfl rfl rfl (by decide) rfl, by decide, by decide, by decide,
    ⟨playRead, rfl, rfl⟩, by decide⟩

theorem test_CloseOfHaltedStream_witness :
    let s := having { scanner .halted with fault := some .busError, faultReserved := false, staging := [item] }
    s.Takes 0 (body 3 0 0 0) theFetch theEntry ∧ s.closeCheck (body 3 0 0 0) = .ok ∧
      theFetch.slot ∉ (s.stream 3).stopCommands ∧ (s.stream 3).kind = some .scan ∧ (s.stream 3).staging ≠ [] :=
  ⟨takes_having _ _ rfl, by decide, by decide, by decide, by decide⟩

theorem test_QuerySnapshotsTheStream_witness :
    taking.Takes 0 (body 31 0 0 (put 8 (2 ^ 64 - 64))) theFetch theEntry ∧
      queryCheck (body 31 0 0 (put 8 (2 ^ 64 - 64))) = .ok :=
  ⟨test_takes_witness _ rfl, by decide⟩

/-! ## Witnesses: grants, pattern memory, queues -/

theorem test_GrantJoinsTheTail_witness :
    let s := having { opened .play with state := .armed, prefetching := true }
    s.Takes 0 (body 3 1 0xA0 (put 8 0x10000000 ||| put 16 1)) theFetch theEntry ∧
      s.grantCheck (body 3 1 0xA0 (put 8 0x10000000 ||| put 16 1)) = .ok :=
  ⟨takes_having _ _ rfl, by decide⟩

theorem test_ReclaimReturnsWaitingGrants_witness :
    let s := having { scanner .running with waiting := [grant2] }
    s.Takes 0 (body 3 0 0 0) theFetch theEntry ∧ s.reclaimCheck (body 3 0 0 0) = .ok ∧
      (s.stream 3).waiting.countP (fun g => g.reserved) < (s.rq (s.stream 3).replyQueue).reserved :=
  ⟨takes_having _ _ rfl, by decide, by decide⟩

/-! ### Pacers, inputs and ports: each branch at its bounds -/

/-- `taking` with pacer 3 in state `x`. -/
def pacing (x : PacerState) : State := taking.setPacer 3 { Pacer.zero with state := x }

theorem takes_pacing (x : PacerState) (r : RecordBody) (h : r.ordered = false) :
    (pacing x).Takes 0 r theFetch theEntry :=
  takes_of rfl (fun _ => rfl) rfl rfl rfl rfl (show (taking.rq 0).reserved ≠ 0 by decide) h

/-- SET_PACER of pacer `id` with REL `rel`, target `n` and period `p`. -/
def pacerBody (id rel : Byte) (n p : Nat) : RecordBody := body id rel 0 (put 8 n ||| put 16 p)

theorem test_SetPacerPrograms_witness :
    (∀ x id rel n p, (pacing x).Takes 0 (pacerBody id rel n p) theFetch theEntry) ∧
      16 ≤ (pacerBody 16 0 0 1).id.toNat ∧ ¬16 ≤ (pacerBody 15 0 0 1).id.toNat ∧
      (pacerBody 3 0 0 0).wordAt 16 = 0 ∧ (pacerBody 3 0 0 1).wordAt 16 ≠ 0 ∧
      (pacerBody 3 2 0 1).setPacerReserved = false ∧ (pacerBody 3 1 0 1).setPacerReserved = true ∧
      (pacerBody 3 1 (2 ^ 47 - 1) 1).byte5.getLsbD 0 = true ∧
      ¬2 ^ 47 ≤ ((pacerBody 3 1 (2 ^ 47 - 1) 1).addrAt 8).toNat ∧
      2 ^ 47 ≤ ((pacerBody 3 1 (2 ^ 47) 1).addrAt 8).toNat ∧
      (pacerBody 3 0 (2 ^ 48 - 1) 1).byte5.getLsbD 0 = false ∧
      ¬2 ^ 48 ≤ ((pacerBody 3 0 (2 ^ 48 - 1) 1).addrAt 8).toNat ∧
      2 ^ 48 ≤ ((pacerBody 3 0 (2 ^ 48) 1).addrAt 8).toNat ∧ ((pacing .owned).pacer 3).state = .owned ∧
      ((pacing .driven).pacer 3).state = .driven ∧ ((pacing .waiting).pacer 3).state = .waiting :=
  ⟨fun _ _ _ _ _ => takes_pacing _ _ (body_ordered _ _ _ _), by decide, by decide, by decide, by decide, by decide,
    by decide, by decide, by decide, by decide, by decide, by decide, by decide, by decide, by decide, by decide⟩

/-- CQ1 holds a SET_PACER of pacer 0 with target 49,000, the present tick, behind a LOAD_PATTERN whose read is due to
fail at this tick. -/
def heldPacer : State :=
  { up with
    timebase := 49000
    queues := up.queues.set 1 { CommandQueue.created 0x40000 16 0 with producer := 2, held := some 4 }
    inflight :=
      (up.inflight.set 4 (some
        { theEntry with
          queue := 1
          phase := .held
          record := some ⟨0x20, { pacerBody 0 0 49000 300 with flags := 1 }⟩ })).set 1 (some { theEntry with queue := 1, phase := .working, record := some ⟨0x28, body 0 0 0 0⟩ })
    loads := [Load.mk 1 0x40000000 0 2 0 true]
    outstanding := [{ tag := 5, who := .load 1, address := 0x40000000, length := 8, deadline := 49000, got := [] }] }

/-- R51, R53, R139: a held SET_PACER that is taken as a tick ends, its target due, fires within that tick, at skip 0. -/
theorem test_held_pacer_fires_at_its_tick :
    (heldPacer.takeDue.pacer 0).target = 49300 ∧ (heldPacer.takeDue.pacer 0).late = 0 ∧
      heldPacer.takeDue.timebase = 49000 := by
  decide +kernel

/-- R124, R189: a discarded STOP gives the items produced of the stream it names. -/
theorem test_aborted_stop_carries_items :
    (having { scanner .running with produced := 9 }).abortedValues ⟨Opcode.stop.code, stopBody 1⟩ = (9, 0) := by decide

theorem test_HaltPacerHalts_witness :
    (∀ x id b, (pacing x).Takes 0 (body id b 0 0) theFetch theEntry) ∧ 16 ≤ (body 16 0 0 0).id.toNat ∧
      ¬16 ≤ (body 15 0 0 0).id.toNat ∧ (body 3 1 0 0).onlyId = false ∧ (body 3 0 0 0).onlyId = true ∧
      ∀ x, ((pacing x).pacer 3).state = x :=
  ⟨fun _ _ _ => takes_pacing _ _ (body_ordered _ _ _ _), by decide, by decide, by decide, by decide,
    fun x => by cases x <;> decide⟩

/-- The machine whose fetch of CQ1 is outstanding. -/
def takingOne : State :=
  { up with
    queues := up.queues.set 1 { CommandQueue.created 0x40000 16 0 with producer := 2 }
    fetch := some { theFetch with queue := 1 }
    inflight := up.inflight.set 0 (some { theEntry with queue := 1 })
    outstanding := [theRead] }

theorem takes_one (r : RecordBody) (h : r.ordered = false) :
    takingOne.Takes 1 r { theFetch with queue := 1 } { theEntry with queue := 1 } :=
  ⟨⟨rfl, by decide, by decide⟩, ⟨rfl, rfl, rfl, rfl, rfl, rfl, rfl, by decide⟩, fun h' => by rw [h] at h'; cases h'⟩

theorem test_ConfigInputRestartsQualification_witness :
    (∀ id b n, takingOne.Takes 1 (body id b n 0) { theFetch with queue := 1 } { theEntry with queue := 1 }) ∧
      (∀ id b n, taking.Takes 0 (body id b n 0) theFetch theEntry) ∧ 4 ≤ (body 4 0 0 0).id.toNat ∧
      ¬4 ≤ (body 3 0 0 0).id.toNat ∧ 255 < (body 3 3 256 0).bytes6to7.toNat ∧
      ¬255 < (body 3 3 255 0).bytes6to7.toNat ∧ edgesOf (body 3 3 255 0).byte5 = some .both ∧
      edgesOf (body 3 4 255 0).byte5 = none ∧ (body 3 3 255 0).flagsOk = true ∧
      (body 3 3 255 0).zeroBytes 8 24 = true ∧
      ∀ x : Input, (taking.setInput 3 x).Takes 0 (body 3 3 255 0) theFetch theEntry :=
  ⟨fun _ _ _ => takes_one _ (body_ordered _ _ _ _), fun _ _ _ => test_takes_witness _ (body_ordered _ _ _ _),
    by decide, by decide, by decide, by decide, by decide, by decide, by decide, by decide,
    fun _ => takes_of rfl (fun _ => rfl) rfl rfl rfl rfl (show (taking.rq 0).reserved ≠ 0 by decide)
      (body_ordered _ _ _ _)⟩

theorem test_ConfigPortSetsTheTimeout_witness :
    let r (id : Byte) (n : Nat) := body id 0 0 (put 8 n)
    let used := taking.setHolder 7 (some 3)
    (∀ id n, takingOne.Takes 1 (r id n) { theFetch with queue := 1 } { theEntry with queue := 1 }) ∧
      (∀ id n, taking.Takes 0 (r id n) theFetch theEntry) ∧ (∀ id n, used.Takes 0 (r id n) theFetch theEntry) ∧
      8 ≤ (r 8 1).id.toNat ∧ ¬8 ≤ (r 7 1).id.toNat ∧ (r 7 0).wordAt 8 = 0 ∧ 65535 < ((r 7 65536).wordAt 8).toNat ∧
      ¬65535 < ((r 7 65535).wordAt 8).toNat ∧ used.holder 7 ≠ none ∧ taking.holder 7 = none ∧
      (r 7 65535).flagsOk = true ∧ (r 7 65535).configPortReserved = true :=
  ⟨fun _ _ => takes_one _ (body_ordered _ _ _ _), fun _ _ => test_takes_witness _ (body_ordered _ _ _ _),
    fun _ _ => takes_of rfl (fun _ => rfl) rfl rfl rfl rfl (show (taking.rq 0).reserved ≠ 0 by decide)
      (body_ordered _ _ _ _),
    by decide, by decide, by decide, by decide, by decide, by decide, by decide, by decide, by decide⟩

theorem test_LoadPatternBegins_witness :
    taking.Takes 0 (body 0 0 0 (put 8 0x40000000 ||| put 16 4095 ||| put 18 1)) theFetch theEntry ∧
      taking.loadCheck (body 0 0 0 (put 8 0x40000000 ||| put 16 4095 ||| put 18 1)) = .ok :=
  ⟨test_takes_witness _ rfl, by decide⟩

theorem test_CreateCqCreates_witness :
    taking.Takes 0 (body 1 0 16 (put 8 0x40000)) theFetch theEntry ∧
      taking.createCqCheck (body 1 0 16 (put 8 0x40000)) = .ok :=
  ⟨test_takes_witness _ rfl, by decide⟩

/-- `taking` with CQ1 ACTIVE. -/
def twoQueues : State :=
  { taking with
    queues := taking.queues.set 1 { CommandQueue.created 0x40000 16 0 with producer := 15 } }

theorem test_DeleteCqRemoves_witness :
    let worked : State := { twoQueues with
      inflight := twoQueues.inflight.set 2 (some { theEntry with queue := 1, phase := .working }) }
    twoQueues.Takes 0 (body 1 0 0 0) theFetch theEntry ∧ twoQueues.deleteCqCheck (body 1 0 0 0) = .ok ∧
      1 < (twoQueues.rq 0).reserved ∧ twoQueues.countPhase 1 .working + twoQueues.countPhase 1 .fetching = 0 ∧
      worked.Takes 0 (body 1 0 0 0) theFetch theEntry ∧ worked.deleteCqCheck (body 1 0 0 0) = .ok ∧
      1 < (worked.rq 0).reserved ∧ worked.countPhase 1 .working + worked.countPhase 1 .fetching ≠ 0 := by
  have h : ∀ s : State, s.emitted = [] → s.queues = twoQueues.queues → s.device = .ready → s.fetch = some theFetch →
      s.entry 0 = some theEntry → s.outstanding = [theRead] → s.replyQueues = twoQueues.replyQueues →
      s.Takes 0 (body 1 0 0 0) theFetch theEntry := by
    intro s he hq hd hf hi ho hr
    have hq' : ∀ q, s.queue q = twoQueues.queue q := fun q => by simp only [State.queue, hq]
    refine ⟨⟨he, fun q => ?_, by rw [hd]; decide⟩, ⟨hf, rfl, hi, rfl, rfl, ?_, by rw [ho]; rfl, ?_⟩, fun h' => by cases h'⟩
    · rw [hq']
      revert q
      decide
    · rw [hq']
      rfl
    · simp only [State.rq, hr]
      decide
  exact ⟨h _ rfl rfl rfl rfl rfl rfl rfl, by decide, by decide, by decide, h _ rfl rfl rfl rfl rfl rfl rfl, by decide,
    by decide, by decide⟩

theorem test_ReplyQueueOneComesAndGoes_witness :
    let s : State := { taking with replyQueues := taking.replyQueues.set 1 (ReplyQueue.created 0x50000 16 0 true false) }
    taking.Takes 0 (body 1 0 16 (put 8 0x50000)) theFetch theEntry ∧ theEntry.replyQueue = 0 ∧
      taking.createRqCheck (body 1 0 16 (put 8 0x50000)) = .ok ∧ s.Takes 0 (body 1 0 0 0) theFetch theEntry ∧
      (s.withRecord theFetch theEntry ⟨0x33, body 1 0 0 0⟩).deleteRqCheck (body 1 0 0 0) = .ok :=
  ⟨test_takes_witness _ rfl, rfl, by decide, takes_of rfl (fun _ => rfl) rfl rfl rfl rfl (by decide) rfl, by decide⟩

/-! ## Witnesses: the device and the registers -/

theorem test_QuiesceDropsTheWork_witness :
    State.reset.device ≠ .ready ∧ up.device = .ready ∧ up.Calm ∧ up.sending = none ∧ up.outstanding = [] ∧
      taking.device = .ready ∧ taking.Calm ∧ taking.outstanding ≠ [] ∧
      ({ up with device := .quiescing } : State).drained = true ∧
      ((up.setStream 3 { opened .play with park := some 7, patternPort := 2 }).stream 3).park = some 7 :=
  ⟨by decide, rfl, calm_of rfl (fun _ => rfl) rfl, rfl, rfl, rfl, calm_of rfl (fun _ => rfl) rfl, by decide, by decide,
    by decide⟩

theorem test_ProducerWriteMovesOrFaults_witness :
    State.reset.device ≠ .ready ∧ (up.queue 1).state ≠ .active ∧ up.device = .ready ∧ (up.queue 0).state = .active ∧
      (15 : Word).toNat < (up.queue 0).size ∧ (up.queue 0).size ≤ (16 : Word).toNat ∧
      (up.queue 0).faultReserved = true ∧ (up.rq 0).reserved ≠ 0 := by decide

theorem test_RegisterWritesAndLinkChanges_witness :
    (0x10 : BitVec 12) ∈ ([0x10, 0x14, 0x18, 0x1C, 0x20] : List (BitVec 12)) ∧ State.reset.device = .off ∧
      up.device ≠ .off ∧
      (∀ o ∈ ([0x00, 0x08, 0x11, 0x24, 0x60, 0xFFC] : List (BitVec 12)),
        o ∉ ([0x04, 0x10, 0x14, 0x18, 0x1C, 0x20, 0x40, 0x44, 0x48, 0x4C, 0x50, 0x54, 0x58, 0x5C] :
          List (BitVec 12))) ∧
      (0x40 + 4 * BitVec.ofNat 12 (3 : CqId).val : BitVec 12) = 0x4C ∧
      (0x50 + 4 * BitVec.ofNat 12 (1 : RqId).val : BitVec 12) = 0x54 ∧
      (0x58 + 4 * BitVec.ofNat 12 (1 : RqId).val : BitVec 12) = 0x5C ∧ (0xFF8 : BitVec 12).toNat % 8 = 0 ∧
      (2 : Nat) ≠ 4 ∧ ¬((8 : Nat) = 8 ∧ (0x14 : BitVec 12).toNat % 8 = 0) := by decide

/-- R182: a 64-bit access of AQBASE is its two halves, the lower first, and one at 0x14 is ignored and reads 0. -/
theorem test_wide_access :
    writeAccess 0x10 8 0x1122334455667788 =
        [.registerWrite 0x10 .word 0x55667788, .registerWrite 0x14 .word 0x11223344] ∧
      writeAccess 0x14 8 0x1122334455667788 = [.registerWrite 0x14 .other 0x55667788] ∧
      ({ State.reset with aqbase := 0x1122334455667788 } : State).readAccess 0x10 8 = 0x1122334455667788 ∧
      ({ State.reset with aqbase := 0x1122334455667788 } : State).readAccess 0x14 4 = 0x11223344 ∧
      ({ State.reset with aqbase := 0x1122334455667788 } : State).readAccess 0x14 8 = 0 ∧
      ({ State.reset with aqbase := 0x1122334455667788 } : State).readAccess 0x10 2 = 0 := by decide

/-! ## Witnesses: time -/

/-- `up` with pacer 3 in state `x`, target 49,000 and period 300, at tick `n`. -/
def paced (x : PacerState) (n : Tick) (st : Stream) : State :=
  { (up.setPacer 3 { state := x, target := 49000, period := 300, remaining := 5, late := 0 }).setStream 3 st with
    timebase := n }

theorem unheard_paced {x : PacerState} {n : Tick} {st : Stream} {c : Byte} (h : st.subscribes c = false) :
    (paced x n st).Unheard c := by
  intro i
  have : (paced x n st).stream i = if 3 = i then st else up.stream i := by
    simp only [State.stream, paced, State.setStream, State.setPacer, vector_get_set]
  rw [this]
  split
  · exact h
  · exact closed_hears_nothing i c

/-- Fourteen entries of sixteen are occupied: an advance of 14 is valid, one of 15 and a value of 16 are not. -/
theorem test_InterruptRegisterWrites_witness :
    let x : ReplyQueue := { ReplyQueue.created 0x20000 16 0 false true with occupied := 14 }
    let s := up.setRq 0 x
    let advance (v : Word) := (v.toNat + (s.rq 0).size - (s.rq 0).head) % (s.rq 0).size
    s.device = .ready ∧ (s.rq 0).active = true ∧ (s.rq 0).occupied < advance 15 ∧ (s.rq 0).size ≤ (16 : Word).toNat ∧
      (14 : Word).toNat < (s.rq 0).size ∧ advance 14 ≤ (s.rq 0).occupied := by decide

theorem test_WaitingPacerFires_witness :
    let s := paced .waiting 50000 Stream.empty
    let last := paced .waiting (49000 + (2 ^ 47 - 1)) Stream.empty
    s.Calm ∧ (s.pacer 3).state = .waiting ∧ (s.timebase - (s.pacer 3).target).toNat < 2 ^ 47 ∧
      s.Unheard (pacerCode 3) ∧ last.Calm ∧ (last.timebase - (last.pacer 3).target).toNat < 2 ^ 47 ∧
      last.Unheard (pacerCode 3) ∧ 0 < (last.pacer 3).period.toNat :=
  ⟨calm_of rfl (fun _ => rfl) rfl, by decide, by decide, unheard_paced rfl, calm_of rfl (fun _ => rfl) rfl, by decide,
    unheard_paced rfl, by decide⟩

/-- A RING stream on pacer 3 at the last entry of a region of two. -/
def ring : Stream :=
  { opened .ring with state := .running, pacer := 3, regionBase := 4094, regionLength := 2, ringPosition := 4095 }

theorem test_DrivenPacerFires_witness :
    let s := paced .driven 49000 ring
    let stop := paced .driven 49000
      { ring with state := .stopping, pendingStop := some { mode := .buffer, commands := [2], event := false } }
    s.Calm ∧ (s.pacer 3).state = .driven ∧ (s.timebase - (s.pacer 3).target).toNat < 2 ^ 47 ∧ s.ringOf 3 = some 3 ∧
      s.Unheard (pacerCode 3) ∧ s.Unheard (terminalCode 3) ∧ ring.bufferGoverns = false ∧ ring.itemLimit = 0 ∧
      stop.Calm ∧ (stop.pacer 3).state = .driven ∧ stop.ringOf 3 = some 3 ∧ stop.Unheard (pacerCode 3) ∧
      stop.Unheard (terminalCode 3) ∧ (stop.stream 3).bufferGoverns = true ∧
      ring.regionBase + (ring.ringPosition - ring.regionBase + 1) % ring.regionLength =
        ring.regionBase + ring.startOffset :=
  ⟨calm_of rfl (fun _ => rfl) rfl, by decide, by decide, by decide, unheard_paced rfl, unheard_paced rfl, rfl, rfl,
    calm_of rfl (fun _ => rfl) rfl, by decide, by decide, unheard_paced rfl, unheard_paced rfl, by decide, by decide⟩

/-- In `paced .waiting` the event of pacer 3 can reach stream 3 alone. -/
theorem paced_fires (n : Tick) (st : Stream) (h : (n - 49000).toNat < 2 ^ 47) : (paced .waiting n st).FiresTo 3 3 := by
  refine ⟨calm_of rfl (fun _ => rfl) rfl, rfl, h, fun j hj => ?_⟩
  have : (paced .waiting n st).stream j = up.stream j := by
    simp only [State.stream, paced, State.setStream, State.setPacer, vector_get_set]
    rw [if_neg fun h => hj h.symm]
  rw [this]
  exact closed_hears_nothing j _

theorem test_FiringCountsATally_witness :
    let st : Stream :=
      { opened .tally with state := .running, advanceSource := pacerCode 3, stopSource := 255, tallyTarget := 2 }
    let reach (again ending : Bool) : Stream := { st with tally := 1, reload := again, endReserved := ending }
    let waits (k : Kind) : Stream := { opened k with state := .armed, startSource := pacerCode 3, pacer := 4 }
    (∀ x, (paced .waiting 49000 x).FiresTo 3 3) ∧ st.kind = some .tally ∧ st.state = .running ∧
      st.advanceSource = pacerCode 3 ∧ st.stopSource ≠ pacerCode 3 ∧ (st.tally + 1).toNat < st.tallyTarget.toNat ∧
      (∀ a b, (reach a b).tallyTarget.toNat ≤ ((reach a b).tally + 1).toNat ∧ (reach a b).reload = a ∧
        (paced .waiting 49000 (reach a b)).Unheard (terminalCode 3) ∧ (reach a b).pendingStop = none ∧
        (reach a b).current = none ∧ ((paced .waiting 49000 (reach a b)).rq (reach a b).replyQueue).reserved ≠ 0) ∧
      (∀ k, (waits k).state = .armed ∧ (waits k).startSource = pacerCode 3 ∧ (waits k).kind = some k) ∧
      (waits .ring).itemLimit ≠ 1 ∧ (waits .ring).pacer ≠ 3 :=
  ⟨fun _ => paced_fires _ _ (by decide), by decide, by decide, by decide, by decide, by decide,
    fun a b => ⟨by revert a b; decide, rfl, unheard_paced (by revert a b; decide), rfl, rfl, by revert a b; decide⟩,
    fun k => ⟨rfl, rfl, rfl⟩, by decide, by decide⟩

/-- A RUNNING stream that names pacer 3 as its advance and its stop source, under REPORT, with a current grant. -/
def stoppable (k : Kind) (m : StopMode) : Stream :=
  { opened k with
    state := .running
    pacer := 4
    advanceSource := pacerCode 3
    advanceSet := [pacerCode 3]
    stopSource := pacerCode 3
    stopMode := some m
    endReserved := true
    current := some grant2 }

theorem test_StopEvent_witness :
    let tally (m : StopMode) (n : Word) (b : Bool) : Stream := { stoppable .tally m with tallyTarget := n, reload := b }
    let scan (m : StopMode) (f : Option ScanFlight) : Stream := { stoppable .scan m with scan := f, scanList := [2] }
    let play (m : StopMode) (l : List Half) : Stream := { stoppable .play m with fifo := l, itemLimit := 2 }
    let stamp (m : StopMode) := (stoppable .stamp m).completed (List.replicate 12 0) false
    (∀ x, (paced .waiting 49000 x).FiresTo 3 3 ∧ (x.subscribes (terminalCode 3) = false →
        (paced .waiting 49000 x).Unheard (terminalCode 3))) ∧
      (∀ k m, (stoppable k m).state = .running ∧ (stoppable k m).stopSource = pacerCode 3 ∧
        (stoppable k m).stopMode = some m ∧ (stoppable k m).pendingStop = none ∧
        (stoppable k m).subscribes (terminalCode 3) = false ∧
        (stoppable k m).current = some grant2 ∧ grant2.notify = true ∧
        (paced .waiting 49000 (stoppable k m)).CanHalt 3 ∧ 1 + 1 ≤ (up.rq (stoppable k m).replyQueue).reserved) ∧
      (∀ m, (stoppable .ring m).advancesOn (pacerCode 3) = false ∧
        ((tally m 2 false).tally + 1).toNat < (tally m 2 false).tallyTarget.toNat ∧
        (tally m 1 true).tallyTarget.toNat ≤ ((tally m 1 true).tally + 1).toNat ∧ (tally m 1 true).reload = true ∧
        (stamp m).2 = none ∧ ¬(stamp m).1.AtLimit ∧ (scan m none).scan = none ∧
        (∀ n ∈ (scan m none).scanList, (up.port n).phase = .idle) ∧ (scan m (some ⟨9, [.awaited]⟩)).scan ≠ none ∧
        (scan m none).strict = false ∧ ((play m [7]).produced + 1).toNat < (play m [7]).itemLimit.toNat ∧
        (play m []).starveHalt = false) := by
  refine ⟨fun x => ⟨paced_fires _ _ (by decide), unheard_paced⟩, fun k m => ?_, fun m => ?_⟩
  · refine ⟨rfl, rfl, rfl, rfl, by cases k <;> cases m <;> decide, rfl, rfl, ⟨rfl, rfl, ?_⟩, ?_⟩
    · exact show (up.rq 0).reserved ≠ 0 by decide
    · exact show 1 + 1 ≤ (up.rq 0).reserved by decide
  · unfold Stream.AtLimit
    cases m <;> decide

/-- R14: a stop event in mode NOW ends the run of a RING stream at once; in mode BUFFER the stream is STOPPING with the
event-origin mark. -/
theorem test_stop_event :
    ((paced .waiting 49000 (stoppable .ring .now)).stopRole 3 ⟨pacerCode 3, 9⟩).stream 3 =
        { stoppable .ring .now with
          state := .opened
          endReserved := false
          current := none
          waiting := [{ grant2 with firstSeq := none }] } ∧
      ((paced .waiting 49000 (stoppable .ring .buffer)).stopRole 3 ⟨pacerCode 3, 9⟩).stream 3 =
        { stoppable .ring .buffer with
          state := .stopping
          pendingStop := some { mode := .buffer, commands := [], event := true } } := by decide

theorem test_InputsQualifyEdges_witness :
    let s := up.setInput 1 (Input.mk .rising 2 false none false false false)
    let at106 (x : Input) : State := { up.setInput 1 x with timebase := 106 }
    let late := at106 (Input.mk .rising 2 false (some 104) true false false)
    let seen := at106 (Input.mk .both 0 true (some 106) true true false)
    (s.input 1).sampled = false ∧ (s.input 1).fresh = false ∧ (s.input 1).candidate = none ∧
      (late.input 1).candidate = some 104 ∧ (late.input 1).pin ≠ (late.input 1).qualified ∧
      (late.input 1).filter.toNat ≤ (late.timebase - 104).toNat ∧ late.Calm ∧ late.Unheard (inputCode 1) ∧
      (seen.input 1).candidate = some 106 ∧ (seen.input 1).sampled = true ∧
      (seen.input 1).filter.toNat ≤ (seen.timebase - 106).toNat ∧ seen.Calm ∧ seen.Unheard (inputCode 1) :=
  ⟨by decide, by decide, by decide, by decide, by decide, by decide, calm_of rfl (fun _ => rfl) rfl,
    fun i => by revert i; decide, by decide, by decide, by decide, calm_of rfl (fun _ => rfl) rfl,
    fun i => by revert i; decide⟩

/-- R69: with filter 0 a change seen at tick 100, gone again in the same tick, qualifies as that tick ends. -/
theorem test_seen_change_qualifies :
    let x := ((Input.mk .rising 0 false none false false false).show true 100).show false 100
    x.candidate = some 100 ∧ x.qualifies 100 = true ∧ x.qualify.qualified = true := by decide

/-- R71: CONFIG_INPUT takes the level that the tick's one sample showed, also where the pin has moved since. -/
theorem test_config_input_takes_the_sample :
    let s := taking.setInput 3 (((Input.mk .both 9 false none false false false).show true 100).show false 100)
    (s.input 3).pin = false ∧ ((s.takeConfigInput 0 (body 3 3 255 0)).input 3).qualified = true := by decide

/-- R72: taken after the qualification of an edge at one tick, CONFIG_INPUT keeps the level that has qualified. -/
theorem test_config_input_after_qualification :
    let s := taking.setInput 3 (((Input.mk .both 0 false none false false false).show true 100).qualify.show false 100)
    (s.input 3).pin = false ∧ ((s.takeConfigInput 0 (body 3 3 255 0)).input 3).qualified = true := by decide

/-- `taking` at tick 104, no pin sampled: at rest, changing, changing since tick 100, and back from a change. -/
def unsampled (filter : Byte) : State :=
  { taking with
    timebase := 104
    inputs :=
      #v[Input.mk .both 0 false none false false false, Input.mk .both filter false none true false false,
        Input.mk .both filter false (some 100) true false false, Input.mk .both 0 true (some 100) true false false] }

theorem test_ReadyAndTick_witness :
    State.reset.NothingDue ∧ taking.NothingDue ∧ (unsampled 5).NothingDue ∧
      (((unsampled 4).input 2).sample 104).qualifies 104 = true := by
  refine ⟨?_, ?_, ?_, by decide⟩ <;> unfold State.NothingDue <;> decide

/-- R69: a tick that ends with no row having shown the pins begins a candidate at a changed pin, keeps one that waits,
and removes one whose pin is back. -/
theorem test_tick_samples_unseen_pins :
    (unsampled 5).allSampled.inputs.toList.map Input.candidate = [none, some 104, some 100, none] := by decide

/-- Stream 3 holds ports 2 and 5 and awaits them. -/
def scanning (slots : List ScanSlot) (x : SamplePort) (st : Stream) : State :=
  ((up.setStream 3 { st with scanList := [2, 5], scan := some { time := 9, slots := slots } }).setHolder 2 (some 3)).setPort
    2 x

/-- A port that holds its complete sample. -/
def ported : SamplePort := { SamplePort.idle 900 with phase := .shifting, shift := 0x1234, bits := 16 }

/-- In `scanning` no stream hears event `c`, where its stream 3 does not. -/
theorem unheard_scanning (slots : List ScanSlot) (x : SamplePort) {st : Stream} {c : Byte}
    (h : st.subscribes c = false) : (scanning slots x st).Unheard c := by
  intro i
  have : (scanning slots x st).stream i =
      if 3 = i then { st with scanList := [2, 5], scan := some { time := 9, slots := slots } } else up.stream i := by
    simp only [State.stream, scanning, State.setStream, State.setHolder, State.setPort, vector_get_set]
  rw [this]
  split
  · exact h
  · exact closed_hears_nothing i c

theorem test_OutcomesFillTheScan_witness :
    let s := scanning [.awaited, .awaited] ported (scanner .running)
    let late := scanning [.awaited, .awaited]
      { SamplePort.idle 900 with phase := .waitReady, inForce := 900, elapsed := 900 } (scanner .running)
    s.Calm ∧ s.holder 2 = some 3 ∧ (s.stream 3).scan = some { time := 9, slots := [.awaited, .awaited] } ∧
      [ScanSlot.awaited, .awaited][(s.stream 3).scanList.idxOf 2]? = some .awaited ∧
      ScanSlot.awaited ∈ [ScanSlot.awaited, .awaited].eraseIdx ((s.stream 3).scanList.idxOf 2) ∧
      (s.port 2).phase = .shifting ∧ (s.port 2).bits = 16 ∧ late.Calm ∧ (late.port 2).phase = .waitReady ∧
      (late.port 2).inForce.toNat ≤ (late.port 2).elapsed.toNat :=
  ⟨calm_of rfl (fun _ => rfl) rfl, by decide, by decide, by decide, by decide, by decide, by decide,
    calm_of rfl (fun _ => rfl) rfl, by decide, by decide⟩

theorem test_ScanAdvance_witness :
    let free := paced .waiting 49000 { scanner .running with advanceSource := pacerCode 3, stopSource := 255 }
    let again (b : Bool) := paced .waiting 49000
      { scanner .running with
        advanceSource := pacerCode 3
        stopSource := 255
        strict := b
        scan := some { time := 9, slots := [.awaited] } }
    let busy := free.setPort 2 ported
    free.FiresTo 3 3 ∧ (free.stream 3).kind = some .scan ∧ (free.stream 3).state = .running ∧
      (free.stream 3).advanceSource = pacerCode 3 ∧ (free.stream 3).stopSource ≠ pacerCode 3 ∧
      (free.stream 3).scan = none ∧ (∀ n ∈ (free.stream 3).scanList, (free.port n).phase = .idle) ∧
      (∃ n ∈ (busy.stream 3).scanList, (busy.port n).phase ≠ .idle) ∧
      ∀ b, (again b).FiresTo 3 3 ∧ ((again b).stream 3).scan ≠ none ∧ ((again b).stream 3).strict = b ∧
        (again b).CanHalt 3 :=
  ⟨paced_fires _ _ (by decide), by decide, by decide, by decide, by decide, by decide, by decide, by decide,
    fun b => ⟨paced_fires _ _ (by decide), by revert b; decide, by revert b; decide,
      ⟨by revert b; decide, by revert b; decide, by revert b; decide⟩⟩⟩

theorem test_LastOutcomeCompletesTheItem_witness :
    let late : SamplePort := { SamplePort.idle 900 with phase := .waitReady, inForce := 900, elapsed := 900 }
    let bases : List Stream :=
      [{ scanner .running with current := some grant2 },
        { scanner .running with current := some { grant2 with fill := 1 }, strict := true },
        { scanner .running with waiting := [grant2], itemLimit := 1 }, { scanner .running with starveHalt := true },
        { scanner .running with staging := [item, item, item, item], strict := true }]
    [ScanSlot.awaited, .timedOut][[(2 : PortId), 5].idxOf 2]? = some .awaited ∧
      ScanSlot.awaited ∉ [ScanSlot.awaited, .timedOut].eraseIdx ([(2 : PortId), 5].idxOf 2) ∧
      ported.phase = .shifting ∧ ported.bits = 16 ∧ late.phase = .waitReady ∧ late.inForce.toNat ≤ late.elapsed.toNat ∧
      ∀ st ∈ bases, ∀ x ∈ [ported, late],
        let s := scanning [.awaited, .timedOut] x st
        s.Calm ∧ s.holder 2 = some 3 ∧ s.port 2 = x ∧ (s.stream 3).kind = some .scan ∧
          (s.stream 3).scan = some { time := 9, slots := [.awaited, .timedOut] } ∧ (s.stream 3).scanList = [2, 5] ∧
          (s.stream 3).state = .running ∧ (s.stream 3).pendingStop = none ∧ s.CanHalt 3 ∧
          ((s.stream 3).staging.length < 4 ∨ (s.stream 3).current = none) ∧ s.Unheard (terminalCode 3) := by
  refine ⟨by decide, by decide, by decide, by decide, by decide, by decide, fun st hst x hx => ?_⟩
  simp only [List.mem_cons, List.not_mem_nil, or_false] at hst hx
  rcases hst with rfl | rfl | rfl | rfl | rfl <;> rcases hx with rfl | rfl <;>
    exact ⟨calm_of rfl (fun _ => rfl) rfl, by decide, by decide, by decide, by decide, by decide, by decide, by decide,
      ⟨by decide, by decide, by decide⟩, by decide, unheard_scanning _ _ (by decide)⟩

theorem test_StampItem_witness :
    let st : Stream :=
      { opened .stamp with
        state := .running
        advanceSet := [pacerCode 3, 200]
        stopSource := 255
        current := some grant2
        itemLimit := 1 }
    let s := paced .waiting 49000 st
    s.FiresTo 3 3 ∧ st.kind = some .stamp ∧ pacerCode 3 ∈ st.advanceSet ∧ st.stopSource ≠ pacerCode 3 ∧
      st.pendingStop = none ∧ s.CanHalt 3 ∧ (st.completed (List.replicate 12 0) false).1.AtLimit ∧
      st.staging.length < 4 ∧ s.Unheard (terminalCode 3) :=
  ⟨paced_fires _ _ (by decide), by decide, by decide, by decide, by decide, ⟨by decide, by decide, by decide⟩,
    by unfold Stream.AtLimit; decide, by decide, unheard_paced (by decide)⟩

/-! ## Witnesses: the Transfer Mover -/

/-- `up` with an item of stream 3 in staging. -/
def staged : State := up.setStream 3 { scanner .running with staging := [item] }

/-- `up` with a reply waiting at RQ0. -/
def replying : State :=
  { up with
    replyQueues :=
      up.replyQueues.set 0 { up.rq 0 with occupied := 1, tail := 1, waiting := [.reply 0 (List.replicate 16 1)] } }

theorem test_ArbitrationServesByRule_witness :
    let message : State := { up with replyQueues := up.replyQueues.set 1 { up.rq 1 with waiting := [.message] } }
    let write : StatusWrite := { slot := 1, address := 0x20000FF8, bytes := List.replicate 64 1, served := 8 }
    let status : State := { up with statusWrites := [{ write with slot := 2, served := 64 }, write] }
    let fetching : State := { taking with fetch := some { theFetch with served := false } }
    let load : State := { up with loads := [Load.mk 1 0x40000F80 0 200 0 false] }
    let both (n : Nat) : State := { replying with streams := staged.streams, streamRun := n }
    let play := up.setStream 3 { opened .play with read := some { playRead with served := false } }
    (∀ s ∈ [staged, replying, message, status, load, play, both 3, both 4],
        s.sending = none ∧ s.link.busMaster = true ∧ s.linkUp = true ∧ s.link.msiEnable = true ∧
          (s.streamRequests = true ∨ s.controlRequests = true)) ∧
      staged.Calm ∧ replying.Calm ∧ message.Calm ∧ status.Calm ∧ fetching.Calm ∧ load.Calm ∧ play.Calm ∧
      (∀ n, (both n).Calm) ∧ fetching.sending = none ∧ fetching.fetchRequest = true ∧ staged.streamRequests = true ∧
      play.streamRequests = true ∧ replying.controlRequests = true ∧ (message.rq 1).waiting ≠ [] ∧
      status.statusRequest = true ∧ load.loadRequest = true ∧ (both 3).streamRequests = true ∧
      (both 3).controlRequests = true ∧ (both 3).streamRun < 4 ∧ ¬(both 4).streamRun < 4 := by
  refine ⟨by decide, calm_of rfl (fun _ => rfl) rfl, calm_of rfl (fun _ => rfl) rfl, calm_of rfl (fun _ => rfl) rfl,
    calm_of rfl (fun _ => rfl) rfl, calm_of rfl (fun _ => rfl) rfl, calm_of rfl (fun _ => rfl) rfl,
    calm_of rfl (fun _ => rfl) rfl, fun _ => calm_of rfl (fun _ => rfl) rfl, ?_⟩
  decide

theorem test_StagedItemsAreCutIntoTransfers_witness :
    staged.Calm ∧ staged.sending = none ∧ staged.controlRequests = false ∧
      (∀ d', d' < 3 → (staged.stream (Fin.ofNat 32 (staged.lastStream.val + 1 + d'))).hasRequest = false) ∧
      (Fin.ofNat 32 (staged.lastStream.val + 1 + 3) : StreamId) = 3 ∧ (staged.stream 3).staging = [item] ∧
      item.served < item.bytes.length :=
  ⟨calm_of rfl (fun _ => rfl) rfl, rfl, by decide, by decide, by decide, by decide, by decide⟩

/-- The link is down in a machine whose stream 3, in state `x` and with grants `l` FINISHING, has items in staging. -/
def refusing (x : StreamState) (rest : List Staged) (l : List Grant) : State :=
  { up.setStream 3 { scanner x with staging := item :: rest, finishing := l } with linkUp := false }

theorem test_RefusedWrite_witness :
    let other : Staged := { item with grant := 7 }
    (∀ x rest l, (refusing x rest l).Calm ∧ (refusing x rest l).CanHalt 3 ∧ (refusing x rest l).linkUp = false ∧
        (refusing x rest l).sending = none ∧ ((refusing x rest l).stream 3).kind = some .scan ∧
        ((refusing x rest l).stream 3).staging = item :: rest ∧ ((refusing x rest l).stream 3).state = x ∧
        ((refusing x rest l).stream 3).finishing = l ∧
        (((refusing x rest l).faulted 3 { scanner x with staging := rest } .busError).rq 0).reserved = 3) ∧
      (refusing .running [] [grant2]).controlRequests = false ∧
      (∀ d', d' < 3 → ((refusing .running [] [grant2]).stream
        (Fin.ofNat 32 ((refusing .running [] [grant2]).lastStream.val + 1 + d'))).hasRequest = false) ∧
      (nextWrite (.capture 3) item.address item.bytes 0).who = .capture 3 ∧ [other] ≠ [] ∧
      other.grant ≠ grant2.number ∧ item.served < item.bytes.length ∧ grant2.notify = true :=
  ⟨fun _ _ _ => ⟨calm_of rfl (fun _ => rfl) rfl, ⟨rfl, rfl, show (up.rq 0).reserved ≠ 0 by decide⟩, rfl, rfl, rfl, rfl,
    rfl, rfl, rfl⟩, by decide, by decide, rfl, by decide, by decide, by decide, rfl⟩

/-- R96, R169: a capture write refused at its serving leaves staging, and its stream is HALTED with BUS_ERROR. -/
theorem test_refused_write :
    let t := (refusing .running [] []).arbitrate
    (t.stream 3).staging = [] ∧ (t.stream 3).state = .halted ∧ (t.stream 3).fault = some .busError ∧
      t.sending = none := by decide

/-- A quiesce has begun in `replying` with its reply being sent; the link then goes down. -/
def shuttingDown : State :=
  { replying with
    device := .quiescing
    sending := some { (up.rq 0).replyTransfer 0 0 (List.replicate 16 1) with who := .lostReply }
    linkUp := false }

theorem test_RefusedReplyIsFatal_witness :
    let s : State := { replying with linkUp := false }
    let u : State := shuttingDown
    s.linkUp = false ∧ (s.rq 0).active = true ∧ s.Calm ∧ s.device = .ready ∧ s.sending = none ∧
      s.streamRequests = false ∧ (s.rq 0).waiting = [.reply 0 (List.replicate 16 1)] ∧ (s.rq 1).waiting = [] ∧
      u.linkUp = false ∧ (u.rq 0).active = true ∧ u.emitted = [] ∧ (u.queue 0).state ≠ .deleting ∧
      u.device = .quiescing ∧ (u.sending.map Transfer.who) = some .lostReply :=
  ⟨rfl, by decide, calm_of rfl (fun _ => rfl) rfl, rfl, rfl, by decide, by decide, by decide, rfl, by decide, rfl,
    by decide, rfl, rfl⟩

/-- Section 10.7: a served reply write refused during QUIESCING makes the device FATAL with RQ0 still ACTIVE. -/
theorem test_refused_reply_in_quiescing :
    (shuttingDown.reportFailed .lostReply).device = .fatal ∧ (shuttingDown.reportFailed .lostReply).cause = .replyWrite ∧
      (shuttingDown.reportFailed .lostReply).rq 0 =
        { shuttingDown.rq 0 with reserved := 0, waiting := [.message], sent := true } := by
  simp only [State.reportFailed]
  exact fatalStop_spec _ (.inr rfl) (by decide)

/-- The command fetch's read. -/
def fetchTransfer : Transfer := oneRead .fetch 0x10000 32

theorem test_SentTransfers_witness :
    let read : State := { up with sending := some fetchTransfer }
    let reply : State := { replying with sending := some ((up.rq 0).replyTransfer 0 0 (List.replicate 16 1)) }
    read.link.busMaster = true ∧ read.linkUp = true ∧ reply.link.busMaster = true ∧ reply.linkUp = true ∧ read.Calm ∧
      read.sending = some fetchTransfer ∧ fetchTransfer.isRead = true ∧ reply.Calm ∧
      reply.sending = some ((up.rq 0).replyTransfer 0 0 (List.replicate 16 1)) ∧
      ((up.rq 0).replyTransfer 0 0 (List.replicate 16 1)).isRead = false ∧
      ((up.rq 0).replyTransfer 0 0 (List.replicate 16 1)).last = true ∧
      ((up.rq 0).replyTransfer 0 0 (List.replicate 16 1)).who = .reply 0 ∧
      (reply.rq 0).waiting = [.reply 0 (List.replicate 16 1)] :=
  ⟨rfl, rfl, rfl, rfl, calm_of rfl (fun _ => rfl) rfl, rfl, rfl, calm_of rfl (fun _ => rfl) rfl, rfl, rfl, rfl, rfl,
    by decide⟩

/-- `up` sending the last part of the only staged item of stream 3, with grant `g` FINISHING. -/
def sendingItem (g : Grant) : State :=
  { up.setStream 3 { scanner .running with staging := [item], finishing := [g] } with
    sending := some (nextWrite (.capture 3) item.address item.bytes 8) }

theorem test_SentWrites_witness :
    let text : State :=
      { up with
        sending := some (up.messageTransfer 0)
        replyQueues := up.replyQueues.set 0 { up.rq 0 with waiting := [.message] } }
    let x : Entry := { theEntry with phase := .working, record := some ⟨0x15, body 3 0 0 0⟩, value1 := 2 }
    let status : State :=
      { up with
        sending := some (nextWrite (.status 6) 0x1000 (List.replicate 64 1) 0)
        inflight := up.inflight.set 6 (some x) }
    text.Calm ∧ (up.messageTransfer 0).isRead = false ∧ (up.messageTransfer 0).last = true ∧
      (up.messageTransfer 0).who = .message 0 ∧ (text.rq 0).waiting = [.message] ∧
      (nextWrite (.capture 3) item.address item.bytes 0).last = false ∧
      (nextWrite (.capture 3) item.address item.bytes 8).last = true ∧
      (∀ g, (sendingItem g).Calm ∧ ((sendingItem g).stream 3).staging = [item] ∧
        ((sendingItem g).stream 3).finishing = [g] ∧ ((sendingItem g).stream 3).state = .running ∧
        ((sendingItem g).stream 3).kind = some .scan ∧ ((sendingItem g).rq 0).reserved ≠ 0) ∧
      grant2.notify = true ∧ grant2.reserved = true ∧ grant2.recycle = false ∧
      (staged.stream 3).finishing.head? = none ∧ status.Calm ∧
      (nextWrite (.status 6) 0x1000 (List.replicate 64 1) 0).last = true ∧ status.entry 6 = some x ∧
      (status.rq x.replyQueue).reserved ≠ 0 :=
  ⟨calm_of rfl (fun _ => rfl) rfl, rfl, rfl, rfl, by decide, by decide, by decide,
    fun g => ⟨calm_of rfl (fun _ => rfl) rfl, rfl, rfl, rfl, rfl, show (up.rq 0).reserved ≠ 0 by decide⟩, rfl, rfl,
    rfl, by decide, calm_of rfl (fun _ => rfl) rfl, by decide, by decide, by decide⟩

theorem test_CompletionPartsAreHeld_witness :
    taking.Calm ∧ taking.readOf 0 = some theRead ∧ theRead.got.length + [(1 : Byte)].length < theRead.length ∧
      ∀ o ∈ taking.outstanding, o.tag ≠ 8 :=
  ⟨calm_of rfl (fun _ => rfl) rfl, by decide, by decide, by decide⟩

/-- The read of `playRead`. -/
def prefetchRead : OutstandingRead :=
  { tag := 1, who := .prefetch 3, address := 0x10000000, length := 4, deadline := 20000, got := [] }

/-- Stream 3 plays from grant `g`, its read of two words outstanding. -/
def reading (x : StreamState) (g : Grant) : State :=
  { up.setStream 3
      { opened .play with state := x, read := some playRead, current := some g, prefetching := true } with
    outstanding := [prefetchRead] }

theorem test_PrefetchWordsEnterTheFifo_witness :
    let loop : Grant := { grant2 with notify := false, reserved := false, recycle := true }
    (∀ x g, (reading x g).Calm ∧ (reading x g).readOf 1 = some prefetchRead ∧
        ((reading x g).stream 3).read = some playRead ∧ ((reading x g).stream 3).current = some g ∧
        ((reading x g).stream 3).pendingStop = none ∧ ((reading x g).stream 3).state = x ∧ (reading x g).CanHalt 3) ∧
      prefetchRead.who = .prefetch 3 ∧ prefetchRead.got = [] ∧
      prefetchRead.length = [(1 : Byte), 0, 2, 0].length ∧ [(1 : Byte), 0, 2, 0].length = 2 * playRead.words ∧
      ({ grant2 with count := 3 } : Grant).fill + playRead.words < ({ grant2 with count := 3 } : Grant).count ∧
      grant2.count ≤ grant2.fill + playRead.words ∧ grant2.notify = true ∧ grant2.reserved = true ∧
      grant2.recycle = false ∧ ((reading .running grant2).rq 0).reserved ≠ 0 ∧ loop.notify = false ∧
      loop.recycle = true ∧ loop.count ≤ loop.fill + playRead.words :=
  ⟨fun x g => ⟨calm_of rfl (fun _ => rfl) rfl, rfl, rfl, rfl, rfl, rfl,
      ⟨rfl, rfl, show (up.rq 0).reserved ≠ 0 by decide⟩⟩,
    rfl, rfl, rfl, rfl, by decide, by decide, rfl, rfl, rfl, by decide, rfl, rfl, by decide⟩

theorem test_PlayAdvance_witness :
    let st (l : List Half) (b : Bool) : Stream :=
      { opened .play with
        state := .running
        advanceSource := pacerCode 3
        stopSource := 255
        fifo := l
        itemLimit := 2
        starveHalt := b
        current := some grant2 }
    let count (n : Word) : Stream := { st [] false with produced := n }
    (∀ l b, (paced .waiting 49000 (st l b)).FiresTo 3 3 ∧ (paced .waiting 49000 (st l b)).CanHalt 3 ∧
        (st l b).kind = some .play ∧ (st l b).state = .running ∧ (st l b).advanceSource = pacerCode 3 ∧
        (st l b).pendingStop = none ∧ (st l b).fifo = l ∧ (st l b).starveHalt = b) ∧
      (st [7] false).stopSource ≠ pacerCode 3 ∧ ¬(count 1).AtLimit ∧ (count 2).AtLimit ∧
      (∀ n, (paced .waiting 49000 { count n with fifo := [7] }).FiresTo 3 3 ∧
        (paced .waiting 49000 { count n with fifo := [7] }).Unheard (terminalCode 3)) ∧
      (st [7] false).current = some grant2 ∧ grant2.notify = true ∧ (st [7] false).endReserved = false ∧
      1 ≤ (up.rq 0).reserved :=
  ⟨fun _ _ => ⟨paced_fires _ _ (by decide), ⟨rfl, rfl, show (up.rq 0).reserved ≠ 0 by decide⟩, rfl, rfl, rfl, rfl,
      rfl, rfl⟩, by decide, by unfold Stream.AtLimit; decide, by unfold Stream.AtLimit; decide,
    fun n => ⟨paced_fires _ _ (by decide), unheard_paced rfl⟩, rfl, rfl, rfl,
    by decide⟩

theorem test_LoadedEntriesAreWritten_witness :
    let l : Load := { slot := 1, address := 0x40000000, first := 4093, count := 3, written := 1, served := true }
    let o : OutstandingRead :=
      { tag := 5, who := .load 1, address := 0x40000004, length := 4, deadline := 20000, got := [] }
    let x : Entry := { theEntry with phase := .working, record := some ⟨0x28, body 0 0 0 0⟩ }
    let last : State := { loading with loads := [{ l with count := 2 }], inflight := up.inflight.set 1 (some x) }
    loading.Calm ∧ loading.PatternSound ∧ loading.readOf 5 = some o ∧ o.who = .load l.slot ∧ o.got = [] ∧
      o.length = [(1 : Byte), 0, 0, 0].length ∧ (loading.loads.find? fun m => m.slot == l.slot) = some l ∧
      l.written + [(1 : Byte), 0, 0, 0].length / 4 < l.count ∧ last.Calm ∧ last.PatternSound ∧
      last.readOf 5 = some o ∧ (last.loads.find? fun m => m.slot == l.slot) = some { l with count := 2 } ∧
      l.written + [(1 : Byte), 0, 0, 0].length / 4 = ({ l with count := 2 } : Load).count ∧ last.entry 1 = some x ∧
      (last.rq x.replyQueue).reserved ≠ 0 ∧
      (({ last with timebase := 20000 } : State).timebase - o.deadline).toNat < 2 ^ 47 :=
  ⟨calm_of rfl (fun _ => rfl) rfl, rfl, by decide, rfl, rfl, rfl, by decide, by decide, calm_of rfl (fun _ => rfl) rfl,
    rfl, by decide, by decide, by decide, by decide, by decide, by decide⟩

theorem test_FailedFetchFaultsTheQueue_witness :
    let late : State := { taking with timebase := 20000 }
    taking.Calm ∧ taking.Fetching 0 theFetch theEntry ∧ taking.readOf 0 = some theRead ∧ theRead.who = .fetch ∧
      (taking.queue 0).faultReserved = true ∧ 1 < (taking.rq 0).reserved ∧ late.Calm ∧
      late.Fetching 0 theFetch theEntry ∧ (late.timebase - theRead.deadline).toNat < 2 ^ 47 :=
  ⟨calm_of rfl (fun _ => rfl) rfl, ⟨rfl, rfl, rfl, rfl, rfl, rfl, rfl, by decide⟩, by decide, rfl, by decide, by decide,
    calm_of rfl (fun _ => rfl) rfl, ⟨rfl, rfl, rfl, rfl, rfl, rfl, rfl, by decide⟩, by decide⟩

/-! ## Witnesses: what the controller takes by itself -/

theorem test_TurnFetchesRoundRobin_witness :
    taking.fetch ≠ none ∧ State.reset.device ≠ .ready ∧ up.fetch = none ∧ up.freeSlot = some 0 ∧ up.device = .ready ∧
      (Fin.ofNat 4 (up.lastServed.val + 1 + 0) : CqId) = 0 ∧ (up.queue 0).state = .active ∧
      ((up.queue 0).producer + (up.queue 0).size - (up.queue 0).consumer) % (up.queue 0).size ≠ 0 ∧
      (up.queue 0).held = none ∧
      (up.rq (up.queue 0).replyQueue).occupied + (up.rq (up.queue 0).replyQueue).reserved + 1 ≤
        (up.rq (up.queue 0).replyQueue).size - 1 := by decide

/-- A NOP of CQ0 held behind entry 1. -/
def holding (x : Phase) : State :=
  { up with
    queues := up.queues.set 0 { up.queue 0 with held := some 4 }
    inflight :=
      (up.inflight.set 4 (some { theEntry with phase := .held, record := some ⟨0x01, body 0 0 0 0⟩ })).set 1
        (some { theEntry with phase := x }) }

/-- The state in which the held record of `holding` is taken. -/
def heldTaken (rec : Record) : State :=
  { holding .fetching with
    queues := (holding .fetching).queues.set 0 { (holding .fetching).queue 0 with held := none }
    inflight := (holding .fetching).inflight.set 4 (some { theEntry with phase := .fetching, record := some rec }) }

/-- A machine at which the record of `holding` is fetched just now, and taken in the state `heldTaken`. -/
def fetchedNow (rec : Record) : State :=
  { heldTaken rec with
    fetch := some { theFetch with slot := 4 }
    outstanding := [theRead]
    queues := (heldTaken rec).queues.set 0 { (heldTaken rec).queue 0 with consumer := 15 } }

theorem test_HeldNopIsTaken_witness :
    let nop : Record := ⟨Opcode.nop.code, body 0 0 0 0⟩
    ((holding .working).queue 0).held = some 4 ∧ (holding .working).hasWorking 0 = true ∧
      ((holding .fetching).queue 0).held = some 4 ∧
      (holding .fetching).entry 4 = some { theEntry with phase := .held, record := some nop } ∧
      (holding .fetching).hasWorking 0 = false ∧ (heldTaken nop).Calm ∧ ((holding .fetching).rq 0).reserved ≠ 0 ∧
      (body 0 0 0 0).flagsOk = true ∧ (body 0 0 0 0).noFields = true ∧
      (heldTaken ⟨Opcode.close.code, body 32 0 0 0⟩).Calm ∧
      (heldTaken ⟨Opcode.close.code, body 32 0 0 0⟩).statusOf .close 0 (body 32 0 0 0) ≠ .ok ∧
      (fetchedNow nop).Takes 0 (body 0 0 0 0) { theFetch with slot := 4 }
        { theEntry with phase := .fetching, record := some nop } ∧
      (fetchedNow nop).withRecord { theFetch with slot := 4 } { theEntry with phase := .fetching, record := some nop }
        nop = heldTaken nop := by
  refine ⟨by decide, by decide, by decide, by decide, by decide, ⟨rfl, ?_, ?_⟩, by decide, by decide, by decide,
    ⟨rfl, ?_, ?_⟩, by decide,
    ⟨⟨rfl, ?_, ?_⟩, ⟨rfl, rfl, rfl, rfl, rfl, rfl, rfl, by decide⟩, fun h => by cases h⟩, ?_⟩ <;>
    decide

theorem test_PrefetchAsksForWords_witness :
    let s := up.setStream 3 { opened .play with prefetching := true, current := some grant2, waiting := [] }
    let u := up.setStream 3 { opened .play with prefetching := true, waiting := [grant2] }
    (s.stream 3).kind = some .play ∧ (s.stream 3).prefetching = true ∧ (s.stream 3).read = none ∧
      (s.stream 3).current = some grant2 ∧ (s.stream 3).waiting = [] ∧ (u.stream 3).current = none ∧
      (u.stream 3).waiting = [grant2] ∧ (u.stream 3).fifo.length < 16 ∧ (u.stream 3).bufferGoverns = false ∧
      grant2.fill < grant2.count ∧
      min 8 (min (grant2.count - grant2.fill) ((4096 - grant2.address.toNat % 4096) / 2)) ≤
        16 - (u.stream 3).fifo.length := by decide

/-- Grant `g` of stream 3 is FINISHING in a machine whose RQ0, of 16 entries, has `n` occupied and 4 reserved. -/
def ending (g : Grant) (n : Nat) : State :=
  let s := up.setStream 3 { scanner .running with finishing := [g] }
  s.setRq 0 { s.rq 0 with occupied := n }

theorem test_FinishedGrantRetires_witness :
    let full : Grant := { grant2 with fill := 2, recycle := true }
    let u := up.setStream 3 { scanner .running with finishing := [grant2], staging := [item] }
    let fresh (x : ReplyQueue) := x.occupied + x.reserved + 2 ≤ x.size - 1
    let noticed (n : Nat) := ((ending full n).rq 0).submit (bufferNotice 3 full 0)
    (∀ g n, ((ending g n).stream 3).finishing = [g] ∧ ((ending g n).stream 3).staging = [] ∧
        ((ending g n).stream 3).state = .running ∧ ((ending g n).rq 0).reserved ≠ 0) ∧
      (u.stream 3).finishing = [grant2] ∧ (∃ o ∈ (u.stream 3).staging, o.grant = grant2.number) ∧
      grant2.notify = true ∧ grant2.reserved = true ∧ grant2.recycle = false ∧ full.recycle = true ∧
      full.count ≤ full.fill ∧ fresh (noticed 9) ∧ ¬fresh (noticed 10) ∧ fresh ((ending full 9).rq 0) ∧
      ¬fresh ((ending full 10).rq 0) := by
  refine ⟨fun g n => ⟨rfl, rfl, rfl, show (up.rq 0).reserved ≠ 0 by decide⟩, ?_⟩
  decide

/-- R39, R147: a recycled NOTIFY grant denied a fresh reservation counts a missed notice, at most 255. -/
theorem test_missed_notice :
    let full : Grant := { grant2 with fill := 2, recycle := true }
    (((ending full 10).retireDue 3).stream 3).waiting = [{ full with fill := 0, reserved := false, missed := 1 }] ∧
      (((ending { full with reserved := false, missed := 255 } 10).retireDue 3).stream 3).waiting =
        [{ full with fill := 0, reserved := false, missed := 255 }] ∧
      (((ending full 9).retireDue 3).stream 3).waiting = [{ full with fill := 0 }] := by decide

theorem test_ClosingStepsClose_witness :
    let st : Stream := { scanner .closing with closing := some { slot := 6, reclaimed := 1 } }
    let x : Entry := { theEntry with phase := .working, record := some ⟨0x14, body 3 0 0 0⟩ }
    let s : State := { up.setStream 3 st with inflight := up.inflight.set 6 (some x) }
    let u : State := { up.setStream 3 { st with staging := [item] } with inflight := up.inflight.set 6 (some x) }
    s.Calm ∧ (s.stream 3).state = .closing ∧ (s.stream 3).closing = some { slot := 6, reclaimed := 1 } ∧
      s.entry 6 = some x ∧ (s.stream 3).staging = [] ∧ s.transferOf (.closing 3) = false ∧
      (∀ n ∈ (s.stream 3).scanList, (s.port n).phase = .idle) ∧ (s.rq x.replyQueue).reserved ≠ 0 ∧
      (s.stream 3).current = none ∧ u.Calm ∧ (u.stream 3).state = .closing ∧ (u.stream 3).staging ≠ [] ∧
      u.entry 6 = some x :=
  ⟨calm_of rfl (fun _ => rfl) rfl, by decide, by decide, by decide, by decide, by decide, by decide, by decide,
    by decide, calm_of rfl (fun _ => rfl) rfl, by decide, by decide, by decide⟩

theorem test_DeletionCompletes_witness :
    let x : Entry := { theEntry with phase := .working, record := some ⟨0x31, body 1 0 0 0⟩, value1 := 15, value2 := 1 }
    let s : State := { up with
      queues := up.queues.set 1 { CommandQueue.created 0x40000 16 0 with state := .deleting }
      inflight := up.inflight.set 6 (some x) }
    let u : State := { s with inflight := s.inflight.set 7 (some { theEntry with queue := 1, phase := .working }) }
    (s.queue 1).state = .deleting ∧ s.outstandingWork 1 = 0 ∧
      State.Calm { s with queues := s.queues.set 1 CommandQueue.absent } ∧ s.deleteEntry 1 = some 6 ∧
      s.entry 6 = some x ∧ x.record = some ⟨0x31, body 1 0 0 0⟩ ∧ (s.rq x.replyQueue).reserved ≠ 0 ∧
      (u.queue 1).state = .deleting ∧ u.outstandingWork 1 ≠ 0 := by
  refine ⟨by decide, by decide, ⟨rfl, ?_, ?_⟩, by decide, by decide, by decide, by decide, by decide, by decide⟩ <;>
    decide

end Sys2Proof.Tests
end

section
/-! How a command record that arrives and is accepted goes: the row is the taking of the record, and a command that
completes at once leaves exactly its answer (R130, R133, R136). -/

namespace Sys2Proof.Machine

variable {s u : State} {q : CqId} {r : RecordBody} {f : Fetch} {e : Entry} {op : Opcode}

/-! ## A command row is the taking of its record -/

/-- The row of a command that any queue may carry takes its record, and the happening ends (R130, R136). -/
theorem exec_row_of_takes (h : s.Takes q r f e) (hop : op.adminOnly = false) :
    exec (op.row q r) s = .next ((s.withRecord f e ⟨op.code, r⟩).runOpcode f.slot q op r).finish := by
  have hrow : exec (op.row q r) s = .next (s.recordArrives q ⟨op.code, r⟩) := by cases op <;> rfl
  rw [hrow, recordArrives_of_takes h, takeRecord_known _ _ _ _ _ (by simp [hop])]

/-- The command reservation of the record taken is still held (R128, R130). -/
theorem State.Takes.reserved (h : s.Takes q r f e) : (s.rq e.replyQueue).reserved ≠ 0 := by
  obtain ⟨-, ⟨-, -, -, -, -, -, -, hr⟩, -⟩ := h
  exact hr

/-- A command that completes at once leaves its answer on top of what it did before it replied, where that brought
nothing due (R133, R135). -/
theorem exec_of_completes {status : Status} {a b : Word} (h : s.Takes q r f e) (hop : op.adminOnly = false)
    (hrun : (s.withRecord f e ⟨op.code, r⟩).runOpcode f.slot q op r = u.complete f.slot status a b)
    (hr : (u.rq e.replyQueue).reserved ≠ 0) (hi : u.inflight = (s.withRecord f e ⟨op.code, r⟩).inflight)
    (he : u.emitted = s.emitted) (hq : u.queues = (s.withRecord f e ⟨op.code, r⟩).queues) (hd : u.device = s.device) :
    exec (op.row q r) s = .next (u.answered f.slot e ⟨op.code, r⟩ status a b) := by
  have hentry : u.entry f.slot = some { e with record := some ⟨op.code, r⟩ } := by
    rw [State.entry, hi]
    exact withRecord_entry s f e _
  have hcalm : u.Calm := (h.calm ⟨op.code, r⟩).of_eq he hq hd
  rw [exec_row_of_takes h hop, hrun, complete_eq_answered hentry hr, (hcalm.answered ..).finish]

/-- A further reservation takes none away (R147). -/
theorem reserve_reserved_ne_zero {p : RqId} (hr : (s.rq p).reserved ≠ 0) (p' : RqId) :
    ((s.reserve p').rq p).reserved ≠ 0 := by
  simp only [State.reserve, State.rq, State.setRq, vector_get_set] at *
  split
  · exact Nat.succ_ne_zero _
  · exact hr

/-- A reservation just made is there (R147). -/
theorem reserve_reserved_self (s : State) (p : RqId) : ((s.reserve p).rq p).reserved ≠ 0 := by
  simp [State.reserve]

/-! ## RESUME (R19) -/

/-- Settles O19: the new reservation, the reopened context and the answer are the whole effect of a RESUME. -/
theorem resumeReopens : Obligations.ResumeReopens := by
  intro s q r f e h hok st u
  have hok' : (s.withRecord f e ⟨0x13, r⟩).resumeCheck r = .ok := hok
  have hrun : (s.withRecord f e ⟨0x13, r⟩).runOpcode f.slot q .resume r =
      (u.setStream (streamOf r) { st with state := .opened, fault := none, faultReserved := true }).complete f.slot
        .ok 0 0 := by
    simp only [State.runOpcode, State.takeResume, hok']
    rfl
  exact exec_of_completes (op := .resume) h rfl hrun (reserve_reserved_ne_zero h.reserved _) rfl rfl rfl rfl

end Sys2Proof.Machine
end

section
/-! OPEN (R5): the bytes of the record that section 11.2 gives each field, the resources claimed, and what an accepted
OPEN leaves. -/

namespace Sys2Proof.Machine

/-! ## Fields of the record as bytes (section 11.2, R186) -/

/-- Byte 6 as a part of bytes 6 to 7. -/
theorem byte6_toNat (r : RecordBody) : r.byte6.toNat = r.bytes6to7.toNat % 256 := by
  simp [RecordBody.byte6]

/-- A bit of byte 7 as a bit of bytes 6 to 7. -/
theorem byte7_getLsbD (r : RecordBody) (n : Nat) (h : n < 8) :
    r.byte7.getLsbD n = r.bytes6to7.getLsbD (8 + n) := by
  simp [RecordBody.byte7, h]

/-- A little-endian half is its two bytes (R186). -/
theorem halfAt_eq_append (r : RecordBody) (k : Nat) (h : 8 ≤ k) : r.halfAt k = r.byteAt (k + 1) ++ r.byteAt k := by
  refine BitVec.eq_of_getLsbD_eq fun n hn => ?_
  simp only [RecordBody.halfAt, RecordBody.byteAt, BitVec.getLsbD_append, BitVec.getLsbD_extractLsb', hn]
  by_cases h8 : n < 8
  · simp [h8]
  · have e : 8 * (k - 7) + (n - 8) = 8 * (k - 8) + n := by omega
    have hn8 : n - 8 < 8 := by omega
    simp [h8, e, hn8]

/-- A little-endian word is its two halves (R186). -/
theorem wordAt_eq_append (r : RecordBody) (k : Nat) (h : 8 ≤ k) : r.wordAt k = r.halfAt (k + 2) ++ r.halfAt k := by
  refine BitVec.eq_of_getLsbD_eq fun n hn => ?_
  simp only [RecordBody.halfAt, RecordBody.wordAt, BitVec.getLsbD_append, BitVec.getLsbD_extractLsb', hn]
  by_cases h16 : n < 16
  · simp [h16]
  · have e : 8 * (k - 6) + (n - 16) = 8 * (k - 8) + n := by omega
    have hn16 : n - 16 < 16 := by omega
    simp [h16, e, hn16]

/-! ## The resources claimed (R5, R56) -/

/-- Making stream `i` the holder of each port of a list changes the holders of those ports alone (R5). -/
theorem foldl_setHolder (i : StreamId) (l : List PortId) (s : State) :
    ∃ h, l.foldl (fun s n => s.setHolder n (some i)) s = { s with portHolder := h } ∧
      ∀ n, h.get n = if n ∈ l then some i else s.holder n := by
  induction l generalizing s with
  | nil => exact ⟨s.portHolder, rfl, fun n => by simp [State.holder]⟩
  | cons c cs ih =>
    obtain ⟨h, h1, h2⟩ := ih (s.setHolder c (some i))
    refine ⟨h, h1, fun n => ?_⟩
    rw [h2, State.holder, State.setHolder, vector_get_set]
    by_cases hn : c = n
    · simp [hn]
    · simp [hn, Ne.symm hn, State.holder]

/-- What an OPEN of context `st` claims for stream `i` (R5, R56): its ports, its pattern port and its pacer, and nothing
else. -/
theorem claimResources_spec (s : State) (i : StreamId) (st : Stream) :
    ∃ portHolder patternHolder pacers, s.claimResources i st =
        { s with portHolder := portHolder, patternHolder := patternHolder, pacers := pacers } ∧
      (∀ n, portHolder.get n = if n ∈ st.scanList then some i else s.holder n) ∧
      (∀ n, patternHolder.get n =
        if (st.kind = some .play ∨ st.kind = some .ring) ∧ n = st.patternPort then some i else s.patHolder n) ∧
      ∀ p, pacers.get p =
        if st.kind = some .ring ∧ p = st.pacer then { Pacer.zero with state := .owned } else s.pacer p := by
  obtain ⟨h, h1, h2⟩ := foldl_setHolder i st.scanList s
  unfold State.claimResources
  dsimp only
  rw [h1]
  match hk : st.kind with
  | some .play =>
    refine ⟨h, _, s.pacers, rfl, h2, fun n => ?_, fun p => ?_⟩
    · rw [vector_get_set]
      simp [eq_comm, State.patHolder]
    · simp [State.pacer]
  | some .ring =>
    refine ⟨h, _, _, rfl, h2, fun n => ?_, fun p => (vector_get_set ..).trans ?_⟩
    · simp [State.setPatHolder, vector_get_set, eq_comm, State.patHolder]
    · simp [eq_comm, State.pacer]
  | none | some .scan | some .stamp | some .tally =>
    exact ⟨h, s.patternHolder, s.pacers, rfl, h2, fun n => by simp [State.patHolder], fun p => by simp [State.pacer]⟩

/-! ## OPEN accepted (R5) -/

/-- An accepted OPEN names a kind (R4). -/
theorem kindOf_isSome_of_openCheck {s : State} {r : RecordBody} (h : s.openCheck r = .ok) :
    (kindOf r.byte5).isSome = true := by
  cases hk : kindOf r.byte5 with
  | some k => rfl
  | none =>
    have hbad : s.openParamsOk (streamOf r) r = false := by simp [State.openParamsOk, hk]
    simp only [State.openCheck, hbad] at h
    split at h
    · cases h
    · split at h
      · cases h
      · cases h

/-- The kind codes of an OPEN (R188). -/
theorem kindOf_eq_some {b : Byte} {k : Kind} (h : kindOf b = some k) :
    (b = 1 ∧ k = .scan) ∨ (b = 2 ∧ k = .stamp) ∨ (b = 3 ∧ k = .play) ∨ (b = 4 ∧ k = .ring) ∨ (b = 5 ∧ k = .tally) := by
  unfold kindOf at h
  split_ifs at h with h1 h2 h3 h4 h5 <;> cases h <;> simp [*]

/-- OPEN taken where its checks pass (R5). -/
theorem takeOpen_of_ok {s : State} {k : SlotId} {r : RecordBody} (h : s.openCheck r = .ok) :
    s.takeOpen k r =
      (((s.reserve (rqOf r.byte6)).claimResources (streamOf r) (openedStream r)).setStream (streamOf r)
        (openedStream r)).complete k .ok 0 0 := by
  simp only [State.takeOpen, h]
  rfl

/-- Settles O13: the parameters of the kind at their bytes, and the resources claimed, are what an OPEN leaves beside
its reservation and its answer. -/
theorem openTakesTheStream : Obligations.OpenTakesTheStream := by
  intro s q r f e h hok i scan stamp play ring tally rq list ports port pacer u
  obtain ⟨kind, hkind⟩ := Option.isSome_iff_exists.1 (kindOf_isSome_of_openCheck hok)
  have hk := kindOf_eq_some hkind
  have hrq : rqOf r.byte6 = rq := by simp only [rqOf, byte6_toNat, rq]
  have hopen : openKind r = kind := by simp only [openKind, hkind, Option.getD_some]
  have hparts : (openedStream r).scanList = ports ∧ (openedStream r).patternPort = port ∧
      (openedStream r).pacer = pacer ∧
      ((openedStream r).kind = some .play ∨ (openedStream r).kind = some .ring ↔ play ∨ ring) ∧
      ((openedStream r).kind = some .ring ↔ ring) := by
    rcases hk with ⟨hb, rfl⟩ | ⟨hb, rfl⟩ | ⟨hb, rfl⟩ | ⟨hb, rfl⟩ | ⟨hb, rfl⟩ <;>
      simp [openedStream, hopen, play, ring, scan, ports, port, pacer, list, hb, scanListOf, patternPortOf, openPacerOf,
        RecordBody.listBytes]
  obtain ⟨hsl, hpp, hpa, hplays, hring⟩ := hparts
  obtain ⟨ph, qh, pc, hclaim, hph, hqh, hpc⟩ := claimResources_spec (u.reserve rq) i (openedStream r)
  have hrun : u.runOpcode f.slot q .openStream r =
      State.complete { u.reserve rq with
        portHolder := ph
        patternHolder := qh
        pacers := pc
        streams := s.streams.set i (openedStream r) } f.slot .ok 0 0 := by
    have hok' : u.openCheck r = .ok := hok
    rw [State.runOpcode, takeOpen_of_ok hok', hrq, show streamOf r = i from rfl, hclaim]
    rfl
  refine ⟨_, kind, exec_of_completes (op := .openStream) h rfl hrun
      (reserve_reserved_ne_zero (s := u) h.reserved rq) rfl rfl rfl rfl, hk,
    congrArg (fun x => s.streams.set i x) ?_,
    fun n => (hph n).trans (if_congr (by rw [hsl]) rfl rfl),
    fun n => (hqh n).trans (if_congr (by rw [hplays, hpp]) rfl rfl),
    fun p => (hpc p).trans (if_congr (by rw [hring, hpa]) rfl rfl), rfl⟩
  simp only [openedStream, hopen, hrq, RecordBody.optTimestamp, RecordBody.optPark, RecordBody.optStrict,
    RecordBody.optStarveHalt, RecordBody.optReload, RecordBody.parkWord,
    byte7_getLsbD r 0 (by decide), byte7_getLsbD r 1 (by decide), byte7_getLsbD r 2 (by decide),
    byte7_getLsbD r 3 (by decide), byte7_getLsbD r 4 (by decide), wordAt_eq_append r 16 (by decide),
    halfAt_eq_append r 12 (by decide), halfAt_eq_append r 16 (by decide), halfAt_eq_append r 18 (by decide),
    halfAt_eq_append r 20 (by decide)]
  rcases hk with ⟨hb, rfl⟩ | ⟨hb, rfl⟩ | ⟨hb, rfl⟩ | ⟨hb, rfl⟩ | ⟨hb, rfl⟩ <;>
    simp [scan, stamp, play, ring, tally, ports, port, pacer, list, hb, scanListOf, patternPortOf, openPacerOf,
      RecordBody.listBytes]

end Sys2Proof.Machine
end

section
/-! QUERY_STREAM (R22) and the stream status record byte by byte (R191). -/

namespace Sys2Proof.Machine

/-- A command that stays in WORKING leaves what it did and its entry, where that brought nothing due (R133). -/
theorem exec_of_works {s u : State} {q : CqId} {r : RecordBody} {f : Fetch} {e : Entry} {op : Opcode}
    (h : s.Takes q r f e) (hop : op.adminOnly = false)
    (hrun : (s.withRecord f e ⟨op.code, r⟩).runOpcode f.slot q op r = u)
    (he : u.emitted = s.emitted) (hq : u.queues = (s.withRecord f e ⟨op.code, r⟩).queues) (hd : u.device = s.device) :
    exec (op.row q r) s = .next u := by
  have hcalm : u.Calm := (h.calm ⟨op.code, r⟩).of_eq he hq hd
  rw [exec_row_of_takes h hop, hrun, hcalm.finish]

/-- The entry of the record taken passes to WORKING (R133). -/
theorem withRecord_toWorking (s : State) (f : Fetch) (e : Entry) (rec : Record) (a b : Word) :
    (s.withRecord f e rec).toWorking f.slot a b = (s.withRecord f e rec).atWork f.slot e rec a b :=
  toWorking_eq_atWork (withRecord_entry ..) a b

/-- A status record has 64 bytes (R22). -/
theorem length_statusRecord (i : StreamId) (st : Stream) (t : Tick) : (statusRecord i st t).length = 64 := by
  simp [statusRecord, leBytes]

/-- Byte 43 of the status record (R191). -/
theorem statusPending_eq (st : Stream) :
    st.statusPending =
      (st.pendingStop.map fun p => p.mode.code.toNat + if p.event then 128 else 0).getD 0 := by
  unfold Stream.statusPending
  cases st.pendingStop <;> rfl

/-- Byte 44 of the status record counts the STOP commands that wait (R191). -/
theorem length_stopCommands (st : Stream) :
    st.stopCommands.length = (st.pendingStop.map fun p => p.commands.length).getD 0 := by
  unfold Stream.stopCommands
  cases st.pendingStop <;> rfl

/-- QUERY_STREAM taken where its checks pass (R22). -/
theorem takeQuery_of_ok {s : State} {k : SlotId} {r : RecordBody} (h : queryCheck r = .ok) :
    s.takeQuery k r =
      { s.toWorking k ((s.stream (streamOf r)).state.code.setWidth 32) (tickLow s.timebase) with
        statusWrites := (s.toWorking k ((s.stream (streamOf r)).state.code.setWidth 32)
          (tickLow s.timebase)).statusWrites ++
            [{ slot := k
               address := r.addrAt 8
               bytes := statusRecord (streamOf r) (s.stream (streamOf r)) s.timebase
               served := 0 }] } := by
  simp only [State.takeQuery, h]

/-- Settles O22: the bytes handed over are `statusRecord`, whose fields stand at the bytes of R191. -/
theorem querySnapshotsTheStream : Obligations.QuerySnapshotsTheStream := by
  intro s q r f e h hok st bit
  refine ⟨statusRecord (streamOf r) st s.timebase, length_statusRecord .., ?_, ?_⟩
  · intro field number
    simp [number, field, bit, statusRecord, leBytes, Stream.statusModes, Stream.statusFlags, statusPending_eq,
      length_stopCommands, Stream.grantsHeld]
  · refine exec_of_works (op := .queryStream) h rfl ?_ rfl rfl rfl
    rw [State.runOpcode, takeQuery_of_ok hok, withRecord_toWorking]
    rfl

end Sys2Proof.Machine
end

section
/-! ARM (R7, R8): the armed context, its passage to RUNNING with IMMEDIATE, and the first output of a RING stream. -/

namespace Sys2Proof.Machine

variable {s : State} {i : StreamId} {r : RecordBody}

/-- The prefetch test moves the head of the waiting queue to the current grant, or asks for a read, and touches nothing
else of the stream (R103). -/
theorem prefetchTest_frame (st : Stream) :
    ∃ current waiting read, st.prefetchTest = { st with current := current, waiting := waiting, read := read } := by
  have hpromote : ∃ c w, st.promoteForRead = { st with current := c, waiting := w } := by
    unfold Stream.promoteForRead
    split
    · split
      · exact ⟨_, _, rfl⟩
      · exact ⟨_, _, rfl⟩
    · exact ⟨_, _, rfl⟩
  have hask : ∀ x : Stream, ∃ rd, x.askRead = { x with read := rd } := by
    intro x
    unfold Stream.askRead
    dsimp only
    split
    · exact ⟨_, rfl⟩
    · split <;> exact ⟨_, rfl⟩
  unfold Stream.prefetchTest
  split
  · obtain ⟨c, w, h1⟩ := hpromote
    obtain ⟨rd, h2⟩ := hask st.promoteForRead
    exact ⟨c, w, rd, by rw [h2, h1]⟩
  · exact ⟨_, _, _, rfl⟩

/-- Only a PLAY stream prefetches (R103). -/
theorem prefetchTest_of_ne_play {st : Stream} (h : st.kind ≠ some .play) : st.prefetchTest = st :=
  if_neg fun hc => h hc.1

theorem setStream_prefetchTest (s : State) (i : StreamId) (x : Stream) :
    (s.setStream i x).prefetchTest i = s.setStream i x.prefetchTest := by
  rw [State.prefetchTest, stream_setStream_self, setStream_setStream]

/-- ARM claims the end-notice reservation where its end policy is REPORT (R7). -/
def State.armReserved (s : State) (r : RecordBody) : State :=
  if policyOf r.policyField = some .report then s.reserve (s.stream (streamOf r)).replyQueue else s

/-- The claim of ARM is in the reply queues alone. -/
theorem State.armReserved_eq (s : State) (r : RecordBody) :
    s.armReserved r =
      { s with
        replyQueues :=
          if policyOf r.policyField = some .report then (s.reserve (s.stream (streamOf r)).replyQueue).replyQueues
          else s.replyQueues } := by
  unfold State.armReserved
  split <;> rfl

/-- The claim of ARM takes no reservation away (R147). -/
theorem armReserved_reserved_ne_zero {p : RqId} (h : (s.rq p).reserved ≠ 0) (r : RecordBody) :
    ((s.armReserved r).rq p).reserved ≠ 0 := by
  unfold State.armReserved
  split
  · exact reserve_reserved_ne_zero h _
  · exact h

/-- ARM taken where its checks pass (R7). -/
theorem takeArm_of_ok (k : SlotId) (h : s.armCheck r = .ok) :
    s.takeArm k r =
      State.complete
        (let u := (s.armReserved r).setStream (streamOf r) (armedStream (s.stream (streamOf r)) r).prefetchTest
        if r.byte5 = immediateCode then u.startRun (streamOf r) s.timebase else u) k .ok 0 0 := by
  have hres : (if (armedStream (s.stream (streamOf r)) r).endReserved then
      s.reserve (armedStream (s.stream (streamOf r)) r).replyQueue else s) = s.armReserved r :=
    if_congr beq_iff_eq rfl rfl
  have htime : (s.armReserved r).timebase = s.timebase := by rw [s.armReserved_eq r]
  simp only [State.takeArm, h, hres, setStream_prefetchTest, State.setStream_timebase, htime]

/-- The context that ARM leaves, as R7 gives its fields. -/
theorem armedStream_eq (st : Stream) (r : RecordBody) :
    armedStream st r =
      { st with
        state := .armed
        startSource := r.byte5
        stopSource := r.byte6
        stopMode := triggerModeOf r.modeField
        endPolicy := policyOf r.policyField
        itemLimit := r.wordAt 8
        produced := 0
        dropped := 0
        overruns := 0
        backlogLosses := 0
        portTimeouts := 0
        underflows := 0
        tally := 0
        sequence := 0
        endReserved := decide (policyOf r.policyField = some .report)
        prefetching := st.kind == some .play } := by
  have : (policyOf r.policyField == some .report) = decide (policyOf r.policyField = some .report) := by
    rw [Bool.eq_iff_iff, beq_iff_eq, decide_eq_true_iff]
  rw [armedStream, this]

/-- A stream that is no RING stream enters RUNNING and does nothing more (R8). -/
theorem startRun_of_ne_ring (t : Tick) (h : (s.stream i).kind ≠ some .ring) :
    s.startRun i t = s.setStream i { s.stream i with state := .running } :=
  if_neg h

/-- Settles O14: the claim and the armed context, its prefetch begun, are what ARM leaves beside its answer. -/
theorem armSetsTheRun : Obligations.ArmSetsTheRun := by
  intro s q r f e h hok hring st report a u
  have hok' : u.armCheck r = .ok := hok
  have ha : armedStream (u.stream (streamOf r)) r = a := armedStream_eq st r
  obtain ⟨c, w, rd, hpre⟩ := prefetchTest_frame a
  have hrun : u.runOpcode f.slot q .arm r =
      State.complete ((u.armReserved r).setStream (streamOf r)
        { a.prefetchTest with state := if r.byte5 = 254 then .running else .armed }) f.slot .ok 0 0 := by
    rw [State.runOpcode, takeArm_of_ok _ hok', ha]
    dsimp only
    rw [show immediateCode = 254 from rfl]
    split
    · rw [startRun_of_ne_ring, stream_setStream_self, setStream_setStream]
      rw [stream_setStream_self, hpre]
      exact hring.resolve_left (absurd ‹_›)
    · rw [hpre]
  rw [State.armReserved_eq] at hrun
  refine exec_of_completes (op := .arm) h rfl hrun ?_ rfl rfl rfl rfl
  have := armReserved_reserved_ne_zero (s := u) h.reserved r
  rwa [State.armReserved_eq] at this

end Sys2Proof.Machine
end

section
/-! The start of a RING stream (R8, R57, R118), by ARM with IMMEDIATE and, with item limit 1, to the end of its run. -/

namespace Sys2Proof.Machine

variable {s u : State} {i : StreamId} {st : Stream} {c : Byte}

/-! ## Events that a happening leaves unheard -/

/-- A submission and an event do not touch each other. -/
theorem submit_emit (s : State) (c : Byte) (q : RqId) (g : Bool → List Byte) :
    (s.emit c).submit q g = (s.submit q g).emit c := by
  by_cases h : (s.rq q).reserved = 0
  · rw [State.submit, if_pos (show ((s.emit c).rq q).reserved = 0 from h), State.submit, if_pos h]
  · rw [submit_of_reserved (show ((s.emit c).rq q).reserved ≠ 0 from h), submit_of_reserved h]
    rfl

/-- Completing a command and emitting an event do not touch each other. -/
theorem complete_emit (s : State) (c : Byte) (k : SlotId) (status : Status) (a b : Word) :
    (s.emit c).complete k status a b = (s.complete k status a b).emit c := by
  unfold State.complete
  rw [State.emit_entry]
  split
  · rfl
  · dsimp only
    split
    · rfl
    · exact submit_emit (s.setEntry k none) ..

/-- An event that no stream hears is heard by none once the one stream that changed takes no events (R62). -/
theorem State.Unheard.of_stream {t : State} (h : s.Unheard c) (hne : ∀ j, j ≠ i → t.stream j = s.stream j)
    (hi : (t.stream i).subscribes c = false) : t.Unheard c := by
  intro j
  by_cases hj : j = i
  · rw [hj, hi]
  · rw [hne j hj, h j]

/-- A stream in OPEN takes no event (R62). -/
theorem subscribes_of_opened (h : st.state = .opened) (c : Byte) : st.subscribes c = false := by
  simp only [Stream.subscribes, h]

/-- After the end of its run a stream takes no event, so what none heard before none hears now (R62). -/
theorem endedRun_unheard (h : s.Unheard c) (hne : ∀ j, j ≠ i → u.stream j = s.stream j) (reason : EndReason) :
    (u.endedRun i st reason).Unheard c := by
  refine h.of_stream (i := i) (fun j hj => ?_) (subscribes_of_opened ?_ c)
  · exact ((vector_get_set ..).trans (if_neg hj.symm)).trans (hne j hj)
  · exact congrArg Stream.state ((vector_get_set ..).trans (if_pos rfl))

/-- A command that completes after an event that no stream hears leaves its answer on top of what it did (R65, R133). -/
theorem exec_of_completes_unheard {q : CqId} {r : RecordBody} {f : Fetch} {e : Entry} {op : Opcode} {status : Status}
    {a b : Word} (h : s.Takes q r f e) (hop : op.adminOnly = false)
    (hrun : (s.withRecord f e ⟨op.code, r⟩).runOpcode f.slot q op r = (u.emit c).complete f.slot status a b)
    (hr : (u.rq e.replyQueue).reserved ≠ 0) (hi : u.inflight = (s.withRecord f e ⟨op.code, r⟩).inflight)
    (he : u.emitted = s.emitted) (hq : u.queues = (s.withRecord f e ⟨op.code, r⟩).queues) (hd : u.device = s.device)
    (hun : u.Unheard c) : exec (op.row q r) s = .next (u.answered f.slot e ⟨op.code, r⟩ status a b) := by
  have hentry : u.entry f.slot = some { e with record := some ⟨op.code, r⟩ } := by
    rw [State.entry, hi]
    exact withRecord_entry s f e _
  have hcalm : u.Calm := (h.calm ⟨op.code, r⟩).of_eq he hq hd
  rw [exec_row_of_takes h hop, hrun, complete_emit, complete_eq_answered hentry hr,
    finish_emit_of_unheard (hcalm.answered ..) (fun j => hun j)]

/-! ## The first output (R57, R118) -/

/-- RING stream `i`, its context `st`, has entered RUNNING at tick `t` with its first output (R8, R57, R118). -/
def State.ringStarted (s : State) (i : StreamId) (st : Stream) (t : Tick) : State :=
  let k := st.regionBase + st.startOffset
  { s with
    streams := s.streams.set i { st with state := .running, ringPosition := k, produced := 1 }
    patternWord := s.patternWord.set st.patternPort (entryWord s.patternMemory k)
    pacers := s.pacers.set st.pacer
      { s.pacer st.pacer with
        state := .driven
        target := t + BitVec.ofNat 48 ((entryDelayCode s.patternMemory k).toNat + 1) } }

theorem ringStarted_stream (s : State) (i : StreamId) (st : Stream) (t : Tick) :
    (s.ringStarted i st t).stream i =
      { st with state := .running, ringPosition := st.regionBase + st.startOffset, produced := 1 } :=
  (vector_get_set ..).trans (if_pos rfl)

/-- The item limit is reached as R15 says it. -/
theorem limitReached_iff {st : Stream} : st.limitReached = true ↔ st.AtLimit := by
  simp [Stream.limitReached, BitVec.le_def, Stream.AtLimit]

/-- One item reaches a limit of 1 and no other (R15). -/
theorem atLimit_iff_of_produced_one (h : st.produced = 1) : st.AtLimit ↔ st.itemLimit = 1 := by
  rw [Stream.AtLimit, h]
  constructor
  · rintro ⟨h0, h1⟩
    have h0' : st.itemLimit.toNat ≠ 0 := fun h => h0 (BitVec.eq_of_toNat_eq h)
    exact BitVec.eq_of_toNat_eq (le_antisymm h1 (Nat.one_le_iff_ne_zero.2 h0'))
  · rintro h1
    rw [h1]
    decide

/-- A RING stream that enters RUNNING outputs its start entry, and a limit of 1 ends its run at once (R8, R15). -/
theorem startRun_of_ring (t : Tick) (h : st.kind = some .ring) :
    (s.setStream i st).startRun i t =
      if st.itemLimit = 1 then (s.ringStarted i st t).endRun i .limit else s.ringStarted i st t := by
  have hout : (s.setStream i { st with state := .running }).outputEntry i st.startEntry 1 t = s.ringStarted i st t := by
    unfold State.outputEntry
    dsimp only
    rw [stream_setStream_self]
    simp only [State.ringStarted, State.setStream, State.setPortWord, State.setPacer, vector_set_set]
    rfl
  unfold State.startRun
  dsimp only
  rw [stream_setStream_self, setStream_setStream, if_pos h]
  refine (congrArg (fun x => State.ringLimit x i) hout).trans ?_
  have hlim : ((s.ringStarted i st t).stream i).limitReached = true ↔ st.itemLimit = 1 := by
    rw [limitReached_iff, ringStarted_stream]
    exact atLimit_iff_of_produced_one rfl
  exact if_congr hlim rfl rfl

/-- Without a current grant there is none to become FINISHING (R36). -/
theorem currentFinishes_of_none (h : st.current = none) : st.currentFinishes = st := by
  simp only [Stream.currentFinishes, h]

/-! ## ARM of a RING stream with IMMEDIATE (R7, R57) -/

/-- The reservations after the end of a run (R10): its END notice uses up the end-notice reservation alone. -/
theorem endedRun_rq (s : State) (i : StreamId) (st : Stream) (reason : EndReason) (p : RqId) :
    (s.endedRun i st reason).rq p =
      if st.endReserved = true ∧ st.replyQueue = p then
        (s.rq st.replyQueue).submit (endNotice i reason st.produced s.timebase)
      else s.rq p := by
  cases h : st.endReserved <;> simp [State.endedRun, State.rq, h, vector_get_set]

/-- Settles O15: the claim of ARM, the first output, and with item limit 1 the end of the run it reaches. -/
theorem ringStartsAtItsOffset : Obligations.RingStartsAtItsOffset := by
  intro s q r f e h hok himm hring st k report x y a u
  let w := s.withRecord f e ⟨0x11, r⟩
  have hok' : w.armCheck r = .ok := hok
  let b := armedStream st r
  have hpre : b.prefetchTest = b := prefetchTest_of_ne_play (by rw [show b.kind = st.kind from rfl, hring]; decide)
  have hstart : (w.armReserved r).ringStarted (streamOf r) b s.timebase = u := by
    have hb : ({ b with state := .running, ringPosition := k, produced := 1 } : Stream) = a := by
      have hplay : (st.kind == some .play) = false := by rw [show st.kind = some .ring from hring]; rfl
      simp only [b, armedStream_eq, hplay]
      rfl
    rw [State.armReserved_eq]
    exact congrArg (fun z => ({ u with streams := s.streams.set (streamOf r) z } : State)) hb
  have hrun : w.runOpcode f.slot q .arm r =
      State.complete (if r.wordAt 8 = 1 then u.endRun (streamOf r) .limit else u) f.slot .ok 0 0 := by
    rw [State.runOpcode, takeArm_of_ok _ hok', show w.stream (streamOf r) = st from rfl, hpre]
    dsimp only
    rw [if_pos (show r.byte5 = immediateCode from himm), startRun_of_ring (st := b) _ hring,
      show w.timebase = s.timebase from rfl, hstart]
    rfl
  have hreserved : (u.rq e.replyQueue).reserved ≠ 0 := by
    rw [← hstart]
    exact armReserved_reserved_ne_zero (s := w) h.reserved r
  refine ⟨fun hl => ?_, fun hl hun hcur hpend => ?_⟩
  · rw [if_neg hl] at hrun
    exact exec_of_completes (op := .arm) h rfl hrun hreserved rfl rfl rfl rfl
  · rw [if_pos hl] at hrun
    have hui : u.stream (streamOf r) = a := stream_setStream_self s (streamOf r) a
    have hclaimed : a.endReserved = true → (u.rq st.replyQueue).reserved = x.reserved + 1 := by
      intro ha
      have : u.replyQueues = s.replyQueues.set st.replyQueue { x with reserved := x.reserved + 1 } :=
        if_pos (of_decide_eq_true ha)
      rw [State.rq, this, vector_get_set, if_pos rfl]
    have hend : u.endRun (streamOf r) .limit =
        (u.endedRun (streamOf r) a .limit).emit (terminalCode (streamOf r)) := by
      have hkind : a.kind = some .ring := hring
      rw [endRun_eq_endedRun] <;> rw [hui]
      · rw [currentFinishes_of_none (st := a) hcur]
      · simp only [Stream.stopCommands, show a.pendingStop = none from hpend]
      · rw [hkind]; decide
      · rw [hkind]; exact fun hk => nomatch hk
      · exact fun g hg => nomatch hcur.symm.trans hg
      · intro ha
        rw [hclaimed ha]
        exact Nat.succ_ne_zero _
    rw [hend] at hrun
    refine exec_of_completes_unheard (op := .arm) h rfl hrun ?_ rfl rfl rfl rfl ?_
    · rw [endedRun_rq]
      split
      · rename_i ha
        have hq : e.replyQueue = st.replyQueue := ha.2.symm
        have hx : x.reserved ≠ 0 := by
          rw [show x = s.rq e.replyQueue by rw [hq]]
          exact h.reserved
        show (u.rq st.replyQueue).reserved - 1 ≠ 0
        rw [hclaimed ha.1]
        exact hx
      · exact hreserved
    · exact endedRun_unheard (u := u) (st := a) hun (fun j hj => (stream_setStream s ..).trans (if_neg hj.symm)) .limit

end Sys2Proof.Machine
end

section
/-! A STOP that waits for its condition (R9, R12, R13). -/

namespace Sys2Proof.Machine

variable {s : State} {i : StreamId} {k : SlotId} {r : RecordBody} {m : StopMode}

/-- STOP of a RUNNING stream, where its checks pass (R12). -/
theorem takeStop_of_running (h : s.stopCheck r = .ok) (hm : stopModeOf r.byte5 = some m)
    (hs : (s.stream (streamOf r)).state = .running) :
    s.takeStop k r = (s.toWorking k 0 0).stopRunning (streamOf r) m [k] := by
  simp only [State.takeStop, h, hs, hm, Option.getD_some]

/-- STOP of a STOPPING stream, where its checks pass (R13). -/
theorem takeStop_of_stopping (h : s.stopCheck r = .ok) (hm : stopModeOf r.byte5 = some m)
    (hs : (s.stream (streamOf r)).state = .stopping) :
    s.takeStop k r = (s.toWorking k 0 0).stopAgain (streamOf r) m k := by
  simp only [State.takeStop, h, hs, hm, Option.getD_some]

/-- STOP of an ARMED stream, where its checks pass (R11). -/
theorem takeStop_of_armed (h : s.stopCheck r = .ok) (hs : (s.stream (streamOf r)).state = .armed) :
    s.takeStop k r = s.stopArmed (streamOf r) k := by
  simp only [State.takeStop, h, hs]

/-- A stop of a RUNNING stream whose condition does not hold leaves it in STOPPING (R12, R14). -/
theorem stopRunning_of_waits {commands : List SlotId}
    (h : ({ s.stream i with pendingStop := some { mode := m, commands := commands, event := commands.isEmpty } } :
      Stream).stopConditionHolds = false) :
    s.stopRunning i m commands =
      s.setStream i
        { s.stream i with
          state := .stopping
          pendingStop := some { mode := m, commands := commands, event := commands.isEmpty } } := by
  simp only [State.stopRunning, h, Bool.false_eq_true, if_false]

/-- The order of the stop modes (R9). -/
theorem strength_lt_iff (a b : StopMode) :
    a.strength < b.strength ↔ (b = .now ∧ a ≠ .now) ∨ (b = .item ∧ a = .buffer) := by
  cases a <;> cases b <;> decide

/-- Where the stop condition does not hold the test changes nothing (R9). -/
theorem testStop_of_waits (h : (s.stream i).stopConditionHolds = false) : s.testStop i = s := by
  simp only [State.testStop, h, Bool.and_false, Bool.false_eq_true, if_false]

/-- A STOP of a STOPPING stream joins the pending list, and where it does not bring a stronger mode whose condition
holds, that is all (R13). -/
theorem stopAgain_of_waits {p : PendingStop} (hp : (s.stream i).pendingStop = some p) {p' : PendingStop}
    (hp' : p' = { p with
      mode := if p.mode.strength < m.strength then m else p.mode
      commands := p.commands ++ [k] })
    (h : p.mode.strength < m.strength →
      ({ s.stream i with pendingStop := some p' } : Stream).stopConditionHolds = false) :
    s.stopAgain i m k = s.setStream i { s.stream i with pendingStop := some p' } := by
  unfold State.stopAgain
  dsimp only
  rw [hp]
  by_cases hlt : p.mode.strength < m.strength
  · simp only [hlt, if_true, decide_true] at hp' ⊢
    rw [← hp', testStop_of_waits]
    rw [stream_setStream_self]
    exact h hlt
  · simp only [hlt, if_false, decide_false, Bool.false_eq_true] at hp' ⊢
    rw [← hp']

/-- Settles O17: the STOP is at work on the pending list, and the stream waits in STOPPING. -/
theorem stopWaitsForItsCondition : Obligations.StopWaitsForItsCondition := by
  intro s q r f e m h hok hm st waits
  let u := s.withRecord f e ⟨0x12, r⟩
  have hok' : u.stopCheck r = .ok := hok
  have hwork : u.toWorking f.slot 0 0 = u.atWork f.slot e ⟨0x12, r⟩ 0 0 := withRecord_toWorking ..
  have key : ∀ x, u.takeStop f.slot r = (u.atWork f.slot e ⟨0x12, r⟩ 0 0).setStream (streamOf r) x → waits x :=
    fun x hx => exec_of_works (op := .stop) h rfl hx rfl rfl rfl
  constructor
  · intro hs p hwait
    refine key _ ?_
    rw [takeStop_of_running hok' hm hs, hwork]
    exact stopRunning_of_waits hwait
  · intro p hs hp stronger p' hwait
    refine key _ ?_
    rw [takeStop_of_stopping hok' hm hs, hwork]
    have hlt : p.mode.strength < m.strength ↔ stronger := strength_lt_iff _ _
    refine stopAgain_of_waits (s := u.atWork f.slot e ⟨0x12, r⟩ 0 0) hp ?_ (fun hl => hwait (hlt.1 hl))
    exact congrArg (fun x => ({ p with mode := x, commands := p.commands ++ [f.slot] } : PendingStop))
      (if_congr hlt.symm rfl rfl)

end Sys2Proof.Machine
end

section
/-! What the shared operations leave of the in-flight table and the reply queues, and what the end of a run and a driven
park word make of one entry, one pacer and one port. -/

namespace Sys2Proof.Machine

variable {s t : State} {i : StreamId} {q : RqId}

/-! ## Replies and grants leave the in-flight table (R35, R36, R149) -/

theorem submit_inflight (s : State) (q : RqId) (g : Bool → List Byte) : (s.submit q g).inflight = s.inflight := by
  unfold State.submit
  split <;> rfl

theorem releaseIf_inflight (s : State) (b : Bool) (q : RqId) : (s.releaseIf b q).inflight = s.inflight := by
  unfold State.releaseIf
  split <;> rfl

theorem rejoin_inflight (s : State) (i : StreamId) (g : Grant) : (s.rejoin i g).inflight = s.inflight := by
  unfold State.rejoin
  dsimp only
  split
  · split <;> rfl
  · rfl

theorem retire_inflight (s : State) (i : StreamId) (g : Grant) : (s.retire i g).inflight = s.inflight := by
  unfold State.retire
  dsimp only
  generalize hu : (if (g.notify && g.reserved) = true then
    s.submit (s.stream i).replyQueue (bufferNotice i g s.timebase) else s) = u
  have hui : u.inflight = s.inflight := by
    rw [← hu]
    split
    · exact submit_inflight ..
    · rfl
  generalize (if (g.notify && g.reserved) = true then ({ g with reserved := false, missed := 0 } : Grant) else g) = g'
  rw [← hui]
  split
  · exact rejoin_inflight ..
  · exact releaseIf_inflight ..

theorem reclaimCurrent_inflight (s : State) (i : StreamId) : (s.reclaimCurrent i).inflight = s.inflight := by
  unfold State.reclaimCurrent
  dsimp only
  split
  · exact releaseIf_inflight ..
  · rfl

theorem restoreCurrent_inflight (s : State) (i : StreamId) : (s.restoreCurrent i).inflight = s.inflight := by
  rw [restoreCurrent_spec]
  rfl

theorem cutShort_inflight (s : State) (i : StreamId) : (s.cutShort i).inflight = s.inflight := by
  unfold State.cutShort
  dsimp only
  split
  · rfl
  · split
    · rfl
    · exact retire_inflight ..

theorem releaseEnd_inflight (s : State) (i : StreamId) : (s.releaseEnd i).inflight = s.inflight :=
  releaseIf_inflight ..

theorem postEnd_inflight (s : State) (i : StreamId) (reason : EndReason) :
    (s.postEnd i reason).inflight = s.inflight := by
  unfold State.postEnd
  dsimp only
  split
  · exact submit_inflight ..
  · rfl

theorem windDown_inflight (s : State) (i : StreamId) (heir : Requester) :
    (s.windDown i heir).inflight = s.inflight := by
  obtain ⟨snd, out, h⟩ := windDown_spec s i heir
  rw [h]
  rfl

theorem drivePark_inflight (s : State) (i : StreamId) : (s.drivePark i).inflight = s.inflight := by
  rw [drivePark_eq]
  rfl

theorem windDown_replyQueues (s : State) (i : StreamId) (heir : Requester) :
    (s.windDown i heir).replyQueues = s.replyQueues := by
  obtain ⟨snd, out, h⟩ := windDown_spec s i heir
  rw [h]
  rfl

theorem drivePark_replyQueues (s : State) (i : StreamId) : (s.drivePark i).replyQueues = s.replyQueues := by
  rw [drivePark_eq]
  rfl

/-! ## Entries of the commands that reply (R10, R133) -/

theorem entry_of_inflight (h : t.inflight = s.inflight) (k : SlotId) : t.entry k = s.entry k := by
  rw [State.entry, h, State.entry]

/-- The STOP commands that reply free their entries and no other (R10). -/
theorem replyStops_entry (l : List SlotId) (s : State) (k : SlotId) (status : Status) (a : Word) (n : Nat) :
    (s.replyStops l status a n).entry k = if k ∈ l then none else s.entry k := by
  split
  · exact replyStops_entry_of_mem _ _ _ _ _ _ ‹_›
  · exact replyStops_entry_of_not_mem _ _ _ _ _ _ ‹_›

/-- A command that completes frees its entry and no other (R133). -/
theorem complete_entry (s : State) (k j : SlotId) (status : Status) (a b : Word) :
    (s.complete k status a b).entry j = if j = k then none else s.entry j := by
  split
  · rename_i h
    rw [h, complete_entry_self]
  · exact complete_entry_of_ne _ _ _ _ _ _ (Ne.symm ‹_›)

/-- The end of a run frees the entries of the pending STOPs and no other (R10). -/
theorem endRun_entry (s : State) (i : StreamId) (reason : EndReason) (k : SlotId) :
    (s.endRun i reason).entry k = if k ∈ (s.stream i).stopCommands then none else s.entry k := by
  unfold State.endRun
  dsimp only
  generalize hu : State.drivePark (State.windDown _ i .nobody) i = u
  have hue : u.inflight = s.inflight := by rw [← hu, drivePark_inflight, windDown_inflight]; rfl
  generalize hv : (if (u.stream i).currentUnfilled && !(s.stream i).stopCommands.isEmpty then u.reclaimCurrent i
    else if (u.stream i).currentUnfilled then u.restoreCurrent i else u.cutShort i) = v
  have hve : v.inflight = s.inflight := by
    rw [← hue, ← hv]
    split
    · exact reclaimCurrent_inflight ..
    · split
      · exact restoreCurrent_inflight ..
      · exact cutShort_inflight ..
  generalize hw : v.replyStops _ _ _ _ = w
  have hwe : w.entry k = if k ∈ (s.stream i).stopCommands then none else s.entry k := by
    rw [← hw, replyStops_entry, entry_of_inflight hve]
  rw [State.emit_entry, ← hwe]
  split
  · exact entry_of_inflight (postEnd_inflight ..) k
  · exact entry_of_inflight (releaseEnd_inflight ..) k

/-! ## What a command answers depends on the reply queues alone (R135, R149) -/

theorem answered_replyQueues_congr (h : t.replyQueues = s.replyQueues) (k : SlotId) (e : Entry) (rec : Record)
    (status : Status) (a b : Word) :
    (t.answered k e rec status a b).replyQueues = (s.answered k e rec status a b).replyQueues := by
  simp only [State.answered, State.rq, h]

/-! ## One port and one pacer at the end of work (R10, R23, R59) -/

/-- A park word is on its port, and every other word stays (R23). -/
theorem drivePark_portWord (s : State) (i : StreamId) (n : PortId) :
    (s.drivePark i).portWord n =
      if n = (s.stream i).patternPort then (s.stream i).park.getD (s.portWord n) else s.portWord n := by
  rw [drivePark_eq]
  by_cases h : n = (s.stream i).patternPort
  · rw [if_pos h, h, State.setPortWord_portWord_self]
  · rw [if_neg h, State.setPortWord_portWord_ne _ _ _ _ (Ne.symm h)]

/-- A DRIVEN pacer of a RING stream is OWNED with target 0 at the end of its work, and every other pacer stays
(R59). -/
theorem pacersWoundDown_get (s : State) (i : StreamId) (p : PacerId) :
    (s.pacersWoundDown i).get p =
      if (s.stream i).kind = some .ring ∧ p = (s.stream i).pacer ∧ (s.pacer p).state = .driven then
        { s.pacer p with state := .owned, target := 0 }
      else s.pacer p := by
  unfold State.pacersWoundDown State.pacerToOwned
  dsimp only
  by_cases hk : (s.stream i).kind = some .ring
  · by_cases hp : p = (s.stream i).pacer
    · subst hp
      simp only [hk, if_true, true_and]
      split
      · exact (vector_get_set ..).trans (if_pos rfl)
      · rfl
    · simp only [hk, hp, if_true, true_and, false_and, if_false]
      split
      · exact (vector_get_set ..).trans (if_neg (Ne.symm hp))
      · rfl
  · simp [hk, State.pacer]

/-! ## The end of a run that no stream hears (R10, R65) -/

/-- The end of a run in a calm machine, its TERMINAL heard by no other stream, brings nothing further (R65). -/
theorem finish_endRun (hc : s.Calm) (hu : ∀ j, j ≠ i → (s.stream j).subscribes (terminalCode i) = false)
    (reason : EndReason) : (s.endRun i reason).finish = { s.endRun i reason with emitted := [] } := by
  obtain ⟨snd, out, rqs, inf, h⟩ := endRun_spec s i reason
  generalize hx : ({ s.endRun i reason with emitted := [] } : State) = x
  have hemit : s.endRun i reason = x.emit (terminalCode i) := by
    rw [← hx, h, hc.1]
    rfl
  have hstream : ∀ j, x.stream j = (s.endRun i reason).stream j := by
    intro j
    rw [← hx]
    rfl
  have hcalm : x.Calm := by
    rw [← hx, h]
    exact hc.of_eq hc.1.symm rfl rfl
  have hun : x.Unheard (terminalCode i) := by
    intro j
    rw [hstream, h]
    by_cases hj : j = i
    · subst hj
      exact subscribes_of_opened (congrArg Stream.state (stream_setStream_self s j _)) _
    · exact (congrArg (fun y : Stream => y.subscribes _) ((stream_setStream s i j _).trans (if_neg (Ne.symm hj)))).trans
        (hu j hj)
  rw [hemit, finish_emit_of_unheard hcalm hun]

end Sys2Proof.Machine
end

section
/-! A STOP that ends at once: of an ARMED stream (R11), and NOW of a RUNNING one (R9, R10, R12). -/

namespace Sys2Proof.Machine

variable {s : State} {i : StreamId} {k : SlotId} {e : Entry} {rec : Record}

/-- Replies leave what decides whether anything further comes due. -/
theorem State.RepliesOnly.control {t : State} (h : s.RepliesOnly t) :
    t.emitted = s.emitted ∧ t.queues = s.queues ∧ t.device = s.device := by
  unfold State.RepliesOnly at h
  exact ⟨by rw [h], by rw [h], by rw [h]⟩

/-! ## STOP of an ARMED stream (R11) -/

/-- A PLAY prefetch stops: the stream's FIFO and read are gone, and a served read is left to its heir (R102, R106). -/
theorem stopPrefetch_spec (s : State) (i : StreamId) (heir : Requester) :
    ∃ sending outstanding, s.stopPrefetch i heir =
      { s.setStream i { s.stream i with fifo := [], prefetching := false, read := none } with
        sending := sending
        outstanding := outstanding } := by
  unfold State.stopPrefetch
  dsimp only
  split
  · split
    · exact ⟨_, _, rfl⟩
    · exact ⟨s.sending, s.outstanding, rfl⟩
  · exact ⟨s.sending, s.outstanding, rfl⟩

/-- A current grant cut short or given back leaves its place in a stream in which nothing recycles, and replies are all
else that changes (R36). -/
theorem currentLeaves_or_reclaims (s : State) (i : StreamId) (h : (s.stream i).state.recycles = false) :
    ∃ finishing, (s.setStream i { s.stream i with current := none, finishing := finishing }).RepliesOnly
      (if (s.stream i).currentUnfilled then s.reclaimCurrent i else s.cutShort i) := by
  split
  · exact ⟨_, reclaimCurrent_spec s i⟩
  · exact ⟨_, cutShort_spec s i h⟩

/-- A STOP of an ARMED PLAY stream (R11): its prefetch has stopped, its current grant has left its place and the STOP
has replied; beside the stream only replies and the transfers let go of change. -/
theorem stopArmed_of_play (s : State) (i : StreamId) (k : SlotId) (hk : (s.stream i).kind = some .play) :
    ∃ finishing sending outstanding,
      ({ s.setStream i
          { s.stream i with
            state := .opened
            fifo := []
            prefetching := false
            read := none
            current := none
            finishing := finishing
            endReserved := false } with
          sending := sending
          outstanding := outstanding } : State).RepliesOnly (s.stopArmed i k) ∧
        ∀ j, (s.stopArmed i k).entry j = if j = k then none else s.entry j := by
  unfold State.stopArmed
  dsimp only
  obtain ⟨snd, out, hpre⟩ := stopPrefetch_spec (s.setStream i { s.stream i with state := .opened }) i .nobody
  rw [stream_setStream_self, setStream_setStream] at hpre
  rw [stream_setStream_self, show ((({ s.stream i with state := .opened } : Stream).kind == some .play) = true) by
    rw [show ({ s.stream i with state := .opened } : Stream).kind = some .play from hk]; rfl]
  simp only [if_true, Bool.true_and]
  generalize hu : (s.setStream i { s.stream i with state := .opened }).stopPrefetch i .nobody = u at *
  have hui : u.stream i =
      { s.stream i with state := .opened, fifo := [], prefetching := false, read := none } := by
    rw [hpre]
    exact stream_setStream_self ..
  obtain ⟨fin, hcur⟩ := currentLeaves_or_reclaims u i (by rw [hui]; rfl)
  generalize hv : (if (u.stream i).currentUnfilled then u.reclaimCurrent i else u.cutShort i) = v at *
  have hve : v.inflight = s.inflight := by
    rw [← hv, show s.inflight = u.inflight by rw [hpre]; rfl]
    split
    · exact reclaimCurrent_inflight ..
    · exact cutShort_inflight ..
  refine ⟨fin, snd, out, ?_, fun j => ?_⟩
  · have hend : (v.setStream i { v.stream i with endReserved := false }).RepliesOnly (v.releaseEnd i) :=
      State.RepliesOnly.releaseIf ..
    have hboth := hcur.stream_trans hend
    rw [hcur.stream, stream_setStream_self, hui, hpre] at hboth
    refine State.RepliesOnly.trans ?_ (State.RepliesOnly.complete ..)
    simpa only [State.setStream, vector_set_set] using hboth
  · rw [complete_entry, entry_of_inflight (releaseEnd_inflight ..), entry_of_inflight hve]

/-- A STOP of an ARMED stream of another kind (R11): it is OPEN again without its end-notice reservation. -/
theorem stopArmed_of_ne_play (s : State) (i : StreamId) (k : SlotId) (hk : (s.stream i).kind ≠ some .play) :
    s.stopArmed i k =
      State.complete
        { s with
          streams := s.streams.set i { s.stream i with state := .opened, endReserved := false }
          replyQueues :=
            if (s.stream i).endReserved then (s.release (s.stream i).replyQueue).replyQueues else s.replyQueues }
        k .ok (s.stream i).produced 0 := by
  have hplay : (({ s.stream i with state := .opened } : Stream).kind == some .play) = false := beq_false_of_ne hk
  unfold State.stopArmed State.releaseEnd State.releaseIf
  dsimp only
  rw [stream_setStream_self, hplay]
  simp only [Bool.false_and, Bool.false_eq_true, if_false, stream_setStream_self, setStream_setStream]
  cases (s.stream i).endReserved <;> simp [State.release, State.setStream, State.setRq, State.stream, vector_get_set]
  rfl

/-- Settles O16: what a STOP in ARMED leaves, for a PLAY stream and for the others. -/
theorem stopOfArmedStreamCancels : Obligations.StopOfArmedStreamCancels := by
  intro s q r f e h hok hs st u
  have hok' : u.stopCheck r = .ok := hok
  have hrun : u.runOpcode f.slot q .stop r = u.stopArmed (streamOf r) f.slot := takeStop_of_armed hok' hs
  refine ⟨fun hk => ?_, fun hk hr => ?_⟩
  · obtain ⟨fin, snd, out, hrep, hentry⟩ := stopArmed_of_play u (streamOf r) f.slot hk
    generalize u.stopArmed (streamOf r) f.slot = t at *
    have hstream := (hrep.stream (streamOf r)).trans (stream_setStream_self u (streamOf r) _)
    have hexec : exec (.stop q r) s = .next t := by
      obtain ⟨he, hq, hd⟩ := hrep.control
      exact exec_of_works (op := .stop) h rfl hrun he hq hd
    have hframe := hrep
    unfold State.RepliesOnly at hframe
    refine ⟨t, hexec, by rw [hstream], by rw [hstream], by rw [hstream], by rw [hstream], by rw [hstream],
      by rw [hstream], by rw [hstream]; rfl, (hentry _).trans (if_pos rfl), fun j hj => ?_, fun j hj => ?_, ?_⟩
    · exact ((hentry j).trans (if_neg hj)).trans ((vector_get_set ..).trans (if_neg (Ne.symm hj)))
    · exact (hrep.stream j).trans ((stream_setStream u ..).trans (if_neg (Ne.symm hj)))
    · have hs := congrArg State.streams hframe
      have hsnd := congrArg State.sending hframe
      have hout := congrArg State.outstanding hframe
      rw [hs, hsnd, hout]
      exact hframe
  · rw [stopArmed_of_ne_play (s := u) _ _ hk] at hrun
    refine exec_of_completes (op := .stop) h rfl hrun ?_ rfl rfl rfl rfl
    have hu : (u.rq e.replyQueue).reserved = (s.rq e.replyQueue).reserved := rfl
    simp only [State.rq]
    split
    · simp only [State.release, State.setRq, vector_get_set]
      split
      · rename_i hq
        show (u.rq _).reserved - 1 ≠ 0
        rw [hq]
        omega
      · exact h.reserved
    · exact h.reserved

end Sys2Proof.Machine
end

section
/-! A STOP NOW of a RUNNING stream (R9, R10, R12). -/

namespace Sys2Proof.Machine

variable {s : State} {i : StreamId} {k : SlotId} {e : Entry} {rec : Record} {st : Stream}

theorem woundDown_of_scan (h : st.kind = some .scan) : st.woundDown = { st with scan := none } := by
  simp only [Stream.woundDown, h]

theorem woundDown_of_play (h : st.kind = some .play) :
    st.woundDown = { st with fifo := [], prefetching := false, read := none } := by
  simp only [Stream.woundDown, h]

/-- Only SCAN and PLAY streams have timed work in their context (R10, step 2). -/
theorem woundDown_of_other (hs : st.kind ≠ some .scan) (hp : st.kind ≠ some .play) : st.woundDown = st := by
  unfold Stream.woundDown
  split
  · exact absurd ‹_› hs
  · exact absurd ‹_› hp
  · rfl

/-- The stream whose timed work has been wound down, field by field (R10, step 2). -/
theorem woundDown_eq (st : Stream) :
    st.woundDown =
      { st with
        scan := if st.kind = some .scan then none else st.scan
        fifo := if st.kind = some .play then [] else st.fifo
        prefetching := if st.kind = some .play then false else st.prefetching
        read := if st.kind = some .play then none else st.read } := by
  by_cases hs : st.kind = some .scan
  · rw [woundDown_of_scan hs]
    simp only [hs, if_true, reduceCtorEq, Option.some.injEq, if_false]
  · by_cases hp : st.kind = some .play
    · rw [woundDown_of_play hp]
      simp only [hp, if_true, reduceCtorEq, Option.some.injEq, if_false]
    · rw [woundDown_of_other hs hp]
      simp only [if_neg hs, if_neg hp]

/-- The current grant at the end of a run that STOPs wait for (R36): it leaves its place, and joins the finishing grants
where it is filled in part with an item of it in staging. -/
theorem currentLeft_of_stops (st : Stream) :
    st.currentLeft true = { st with current := none, finishing := st.runLeft.finishing } := by
  unfold Stream.currentLeft Stream.currentUnfilled Stream.cutFinishing Stream.runLeft
  dsimp only
  cases st.current with
  | none => rfl
  | some g =>
    by_cases h0 : g.fill = 0
    · simp [h0]
    · simp [h0, hasStaged_iff]

/-- A stop of a RUNNING stream whose condition holds ends its run (R9, R12, R14). -/
theorem stopRunning_of_holds {m : StopMode} {commands : List SlotId}
    (h : ({ s.stream i with pendingStop := some { mode := m, commands := commands, event := commands.isEmpty } } :
      Stream).stopConditionHolds = true) :
    s.stopRunning i m commands =
      (s.setStream i
        { s.stream i with
          pendingStop := some { mode := m, commands := commands, event := commands.isEmpty } }).endRun i
        .stopEvent := by
  simp only [State.stopRunning, h, if_true]

theorem windDown_stream (s : State) (i : StreamId) (heir : Requester) :
    (s.windDown i heir).stream i = (s.stream i).woundDown := by
  obtain ⟨snd, out, h⟩ := windDown_spec s i heir
  rw [h]
  exact stream_setStream_self ..

theorem drivePark_stream (s : State) (i j : StreamId) : (s.drivePark i).stream j = s.stream j := by
  rw [drivePark_eq, State.setPortWord_stream]

/-- With no current grant but an unfilled one without a reservation, a stream that STOPs wait on gives up its current
grant without any reply (R36). -/
theorem currentLeaves_of_unreserved (s : State) (i : StreamId)
    (hcur : ∀ g, (s.stream i).current = some g → g.fill = 0 ∧ g.reserved = false) :
    (s.stream i).currentUnfilled = (s.stream i).current.isSome ∧
      (if (s.stream i).currentUnfilled then s.reclaimCurrent i else s.cutShort i) =
        s.setStream i { s.stream i with current := none } := by
  unfold Stream.currentUnfilled State.reclaimCurrent State.cutShort
  dsimp only
  cases hc : (s.stream i).current with
  | none =>
    have hself : ({ s.stream i with current := none } : Stream) = s.stream i := by rw [← hc]
    rw [hself, setStream_self]
    exact ⟨rfl, rfl⟩
  | some g =>
    obtain ⟨hfill, hres⟩ := hcur g hc
    simp [hfill, hres, State.releaseIf]

/-- A release of an end-notice reservation that is not held is none (R3). -/
theorem releaseEnd_replyQueues (h : (s.stream i).endReserved = false) :
    (s.releaseEnd i).replyQueues = s.replyQueues := by
  unfold State.releaseEnd State.releaseIf
  simp only [h, Bool.false_eq_true, if_false]
  rfl

/-- With no end-notice reservation, and no current grant but an unfilled one without a reservation of its own, the reply
of the one pending STOP is all that the end of a run does to the reply queues (R10, R36). -/
theorem endRun_replyQueues_of_stop (reason : EndReason) (hcmd : (s.stream i).stopCommands = [k])
    (he : s.entry k = some { e with record := some rec }) (hr : (s.rq e.replyQueue).reserved ≠ 0)
    (hend : (s.stream i).endReserved = false)
    (hcur : ∀ g, (s.stream i).current = some g → g.fill = 0 ∧ g.reserved = false) :
    (s.endRun i reason).replyQueues =
      (s.answered k e rec .ok (s.stream i).produced (if (s.stream i).current.isSome then 1 else 0)).replyQueues := by
  unfold State.endRun
  dsimp only
  rw [hcmd]
  simp only [List.isEmpty_cons, Bool.not_false, Bool.and_true, Bool.false_eq_true, if_false, State.replyStops]
  generalize hu : State.drivePark (State.windDown _ i .nobody) i = u
  have hus : (u.stream i).current = (s.stream i).current ∧ (u.stream i).endReserved = (s.stream i).endReserved := by
    rw [← hu, drivePark_stream, windDown_stream, stream_setStream_self, woundDown_eq]
    exact ⟨rfl, rfl⟩
  obtain ⟨huc, hue⟩ := hus
  have hur : u.replyQueues = s.replyQueues := by rw [← hu, drivePark_replyQueues, windDown_replyQueues]; rfl
  have hui : u.inflight = s.inflight := by rw [← hu, drivePark_inflight, windDown_inflight]; rfl
  obtain ⟨hfilled, hleft⟩ := currentLeaves_of_unreserved u i (by rw [huc]; exact hcur)
  have hv : (if (u.stream i).currentUnfilled = true then u.reclaimCurrent i
      else if (u.stream i).currentUnfilled = true then u.restoreCurrent i else u.cutShort i) =
      u.setStream i { u.stream i with current := none } := by
    rw [← hleft]
    split <;> rfl
  rw [hv, hfilled, huc]
  generalize hx : ({ u.stream i with current := none } : Stream) = x
  have hxe : x.endReserved = false := by rw [← hx]; exact hue.trans hend
  have hentry : (u.setStream i x).entry k = some { e with record := some rec } := (entry_of_inflight hui k).trans he
  have hres : ((u.setStream i x).rq e.replyQueue).reserved ≠ 0 := by
    rw [State.rq, State.setStream_replyQueues, hur]
    exact hr
  have hcast : (BitVec.ofNat 32 (if (s.stream i).current.isSome = true then 1 else 0) : Word) =
      if (s.stream i).current.isSome then 1 else 0 := by
    split <;> rfl
  rw [hcast, complete_eq_answered hentry hres]
  refine (releaseEnd_replyQueues ?_).trans (answered_replyQueues_congr (t := u.setStream i x) hur ..)
  exact (congrArg Stream.endReserved (stream_setStream_self u i x)).trans hxe

/-- Settles O18: the end of the run for the pending STOP NOW, whose TERMINAL no stream hears. -/
theorem stopNowEndsTheRun : Obligations.StopNowEndsTheRun := by
  intro s q r f e h hok hs hm hun st u
  have hok' : u.stopCheck r = .ok := hok
  let w := u.atWork f.slot e ⟨0x12, r⟩ 0 0
  let x : Stream := { st with pendingStop := some { mode := .now, commands := [f.slot], event := false } }
  let v := w.setStream (streamOf r) x
  have hrun : u.runOpcode f.slot q .stop r = v.endRun (streamOf r) .stopEvent := by
    rw [State.runOpcode, takeStop_of_running (m := .now) hok' (by rw [hm]; rfl) hs, withRecord_toWorking]
    exact stopRunning_of_holds rfl
  have hvs : v.stream (streamOf r) = x := stream_setStream_self ..
  have hcalm : v.Calm := (h.calm ⟨0x12, r⟩).of_eq rfl rfl rfl
  have hexec : exec (.stop q r) s = .next { v.endRun (streamOf r) .stopEvent with emitted := [] } := by
    rw [← finish_endRun hcalm (fun j hj => ?_), ← hrun]
    · exact exec_row_of_takes (op := .stop) h rfl
    · rw [show v.stream j = s.stream j from (stream_setStream w ..).trans (if_neg (Ne.symm hj))]
      exact hun j
  have hstops : ∀ fin n, st.current = fin → n = (if fin.isSome then 1 else 0) →
      (∀ g, st.current = some g → g.fill = 0 ∧ g.reserved = false) → st.endReserved = false →
      (v.endRun (streamOf r) .stopEvent).replyQueues =
        (u.answered f.slot e ⟨0x12, r⟩ .ok st.produced n).replyQueues := by
    rintro _ _ rfl rfl hcur hend
    have he : v.entry f.slot =
        some { ({ e with phase := .working, value1 := 0, value2 := 0 } : Entry) with record := some ⟨0x12, r⟩ } :=
      (vector_get_set ..).trans (if_pos rfl)
    have := endRun_replyQueues_of_stop (s := v) .stopEvent (k := f.slot) (by rw [hvs]; rfl) he h.reserved
      (by rw [hvs]; exact hend) (by rw [hvs]; exact hcur)
    rw [this, hvs]
    rfl
  have hentry := endRun_entry v (streamOf r) .stopEvent
  obtain ⟨snd, out, rqs, inf, hE⟩ := endRun_spec v (streamOf r) .stopEvent
  rw [hvs, show (!x.stopCommands.isEmpty) = true from rfl, currentLeft_of_stops, woundDown_eq] at hE
  refine ⟨_, hexec, ?_, fun p => ?_, fun n => ?_, fun k => (hentry k).trans ?_, fun j hj => ?_, fun hcur hend => ?_,
    fun g hcur hfill hres hend => ?_, ?_⟩
  · rw [hE]
    exact stream_setStream_self ..
  · rw [hE]
    exact (pacersWoundDown_get v (streamOf r) p).trans (by rw [hvs]; rfl)
  · rw [hE]
    exact (drivePark_portWord v (streamOf r) n).trans (by rw [hvs]; rfl)
  · rw [hvs]
    refine (if_congr List.mem_singleton rfl rfl).trans ?_
    split
    · rfl
    · rename_i hk
      exact (vector_get_set ..).trans ((if_neg (Ne.symm hk)).trans
        ((vector_get_set ..).trans (if_neg (Ne.symm hk))))
  · rw [hE]
    exact (stream_setStream v ..).trans ((if_neg (Ne.symm hj)).trans
      ((stream_setStream w ..).trans (if_neg (Ne.symm hj))))
  · exact hstops _ _ hcur rfl (by rw [hcur]; exact fun g hg => nomatch hg) hend
  · exact hstops _ _ hcur rfl (by rw [hcur]; rintro _ ⟨⟩; exact ⟨hfill, hres⟩) hend
  · rw [hE, show ([] : List Event) = u.emitted from (h.calm _).1.symm]
    rfl

end Sys2Proof.Machine
end

section
/-! The beginning of a CLOSE (R20) and the closing steps (R21): what each leaves of the stream, the transfers, the
in-flight table and the reply queues. -/

namespace Sys2Proof.Machine

variable {s : State} {i : StreamId} {k : SlotId} {e : Entry} {rec : Record}

/-! ## Winding down, with the transfers let go of (R10, R106) -/

/-- The read of a PLAY stream has been served (R106). -/
abbrev Stream.ReadServed (st : Stream) : Prop :=
  st.kind = some .play ∧ st.read.any PlayRead.served = true

/-- Winding down leaves a served read of a PLAY stream to its heir, and no other transfer changes hands (R106). -/
theorem windDown_eq_reassign (s : State) (i : StreamId) (heir : Requester) :
    s.windDown i heir =
      { (if (s.stream i).ReadServed then s.reassign (.prefetch i) heir else s) with
        streams := s.streams.set i (s.stream i).woundDown
        pacers := s.pacersWoundDown i } := by
  by_cases hk : (s.stream i).kind = some .play
  · have hp : s.pacersWoundDown i = s.pacers := if_neg (by rw [hk]; decide)
    have hd : s.windDown i heir = s.stopPrefetch i heir := by simp only [State.windDown, hk]
    rw [woundDown_of_play hk, hp, hd]
    unfold State.stopPrefetch Stream.ReadServed
    dsimp only
    cases hr : (s.stream i).read with
    | none => simp [State.setStream]
    | some r =>
      cases hv : r.served
      · simp [hv, State.setStream]
      · simp only [hv, hk, Option.any_some, and_self, if_true]
        rfl
  · rw [if_neg fun h : (s.stream i).ReadServed => hk h.1]
    obtain ⟨snd, out, h⟩ := windDown_spec s i heir
    have hkept : (s.windDown i heir).sending = s.sending ∧ (s.windDown i heir).outstanding = s.outstanding := by
      unfold State.windDown
      dsimp only
      split
      · exact ⟨rfl, rfl⟩
      · exact absurd ‹_› hk
      · rw [pacerToOwned_spec]
        exact ⟨rfl, rfl⟩
      · exact ⟨rfl, rfl⟩
    obtain ⟨hsnd, hout⟩ := hkept
    rw [h] at hsnd hout ⊢
    rw [show snd = s.sending from hsnd, show out = s.outstanding from hout]
    rfl

/-- A transfer of `a` is one of `b` once it has been reassigned (R106). -/
theorem transferOf_reassign {a b : Requester} (h : s.transferOf a = true) : (s.reassign a b).transferOf b = true := by
  unfold State.transferOf State.reassign at *
  rw [Bool.or_eq_true] at h ⊢
  rcases h with h | h
  · left
    cases hs : s.sending with
    | none => rw [hs] at h; cases h
    | some x =>
      rw [hs] at h
      have : x.who = a := beq_iff_eq.1 h
      simp [this]
  · right
    obtain ⟨o, ho, hw⟩ := List.any_eq_true.1 h
    have : o.who = a := beq_iff_eq.1 hw
    refine List.any_eq_true.2 ⟨{ o with who := b }, List.mem_map.2 ⟨o, ho, if_pos this⟩, beq_self_eq_true b⟩

/-! ## The reservations a CLOSE releases (R20, R30) -/

/-- A release where a reservation is held gives back one (R148). -/
theorem releaseIf_eq (s : State) (b : Bool) (q : RqId) :
    s.releaseIf b q = s.setRq q { s.rq q with reserved := (s.rq q).reserved - if b then 1 else 0 } := by
  cases b
  · exact (setRq_self s q).symm
  · rfl

/-- The reservations of stream context `st` that a CLOSE releases: of its waiting grants, its fault notice and its end
notice (R20). -/
def Stream.closeReleases (st : Stream) : Nat :=
  (st.waiting.countP fun g => g.reserved) + (if st.faultReserved then 1 else 0) + (if st.endReserved then 1 else 0)

/-- A CLOSE gives back each reservation its stream holds outside its current and finishing grants (R20). -/
theorem closeReleases_spec (s : State) (st : Stream) :
    ((s.releaseGrants st.replyQueue st.waiting).releaseIf st.faultReserved st.replyQueue).releaseIf st.endReserved
        st.replyQueue =
      s.setRq st.replyQueue
        { s.rq st.replyQueue with reserved := (s.rq st.replyQueue).reserved - st.closeReleases } := by
  rw [releaseIf_eq, releaseIf_eq, releaseGrants_eq]
  simp only [State.setRq_rq_self, State.setRq_setRq, Stream.closeReleases]
  congr 2
  omega

/-! ## The beginning of a CLOSE (R20) -/

/-- Stream context `st` as a CLOSE in in-flight entry `k` leaves it in CLOSING (R20). -/
def Stream.closingBy (st : Stream) (k : SlotId) : Stream :=
  { st.woundDown with
    state := .closing
    pendingStop := none
    fault := none
    faultReserved := false
    endReserved := false
    waiting := []
    closing := some { slot := k, reclaimed := st.waiting.length } }

/-- The machine once a CLOSE of stream `i` has begun, before the pending STOPs reply (R20). -/
def State.closeBegun (s : State) (i : StreamId) (k : SlotId) : State :=
  let st := s.stream i
  { (if st.ReadServed then s.reassign (.prefetch i) (.closing i) else s) with
    streams := s.streams.set i (st.closingBy k)
    pacers := s.pacersWoundDown i
    patternWord := (s.drivePark i).patternWord
    replyQueues := s.replyQueues.set st.replyQueue
      { s.rq st.replyQueue with reserved := (s.rq st.replyQueue).reserved - st.closeReleases } }

/-- A CLOSE begins, and then the STOPs that waited reply ABORTED (R20). -/
theorem beginClose_eq (s : State) (i : StreamId) (k : SlotId) :
    s.beginClose i k = (s.closeBegun i k).replyStops (s.stream i).stopCommands .aborted (s.stream i).produced 0 := by
  unfold State.beginClose
  dsimp only
  rw [closeReleases_spec]
  refine congrArg (fun x : State => x.replyStops (s.stream i).stopCommands .aborted (s.stream i).produced 0) ?_
  have hif : ∃ snd out, (if (s.stream i).ReadServed then s.reassign (.prefetch i) (.closing i) else s) =
      { s with sending := snd, outstanding := out } := by
    split
    · exact ⟨_, _, rfl⟩
    · exact ⟨s.sending, s.outstanding, rfl⟩
  obtain ⟨snd, out, hif⟩ := hif
  unfold State.closeBegun Stream.closingBy
  dsimp only
  rw [windDown_eq_reassign, hif, drivePark_eq_parked, drivePark_eq_parked, woundDown_eq]
  simp only [State.setStream, State.setRq, State.rq, State.stream, vector_get_set, if_true, vector_set_set]
  rfl

/-- What a CLOSE that has begun leaves of the in-flight table (R20): the STOPs that waited have ended. -/
theorem beginClose_entry (s : State) (i : StreamId) (k j : SlotId) :
    (s.beginClose i k).entry j = if j ∈ (s.stream i).stopCommands then none else s.entry j := by
  have hif : (s.closeBegun i k).inflight = s.inflight := by
    unfold State.closeBegun
    dsimp only
    split <;> rfl
  rw [beginClose_eq, replyStops_entry, entry_of_inflight hif]

/-! ## The closing steps (R21) -/

theorem freeResources_inflight (s : State) (i : StreamId) : (s.freeResources i).inflight = s.inflight := by
  obtain ⟨ph, qh, pc, h, -⟩ := freeResources_spec s i
  rw [h]

theorem freeResources_replyQueues (s : State) (i : StreamId) : (s.freeResources i).replyQueues = s.replyQueues := by
  obtain ⟨ph, qh, pc, h, -⟩ := freeResources_spec s i
  rw [h]

/-- The closing steps free the entry of their CLOSE and no other (R21). -/
theorem closingSteps_entry {c : Closing} (h : (s.stream i).closing = some c) (j : SlotId) :
    (s.closingSteps i).entry j = if j = c.slot then none else s.entry j := by
  unfold State.closingSteps
  dsimp only
  rw [h]
  dsimp only
  rw [complete_entry]
  refine if_congr Iff.rfl rfl (entry_of_inflight ?_ j)
  rw [State.setStream_inflight, freeResources_inflight, drivePark_inflight]
  split
  · exact reclaimCurrent_inflight ..
  · exact cutShort_inflight ..

/-- With no current grant the reply of the CLOSE is all that the closing steps do to the reply queues (R21). -/
theorem closingSteps_replyQueues {c : Closing} (h : (s.stream i).closing = some c) (hcur : (s.stream i).current = none)
    (he : s.entry c.slot = some { e with record := some rec }) (hr : (s.rq e.replyQueue).reserved ≠ 0) :
    (s.closingSteps i).replyQueues =
      (s.answered c.slot e rec .ok (s.stream i).produced (BitVec.ofNat 32 c.reclaimed)).replyQueues := by
  have hunf : (s.stream i).currentUnfilled = false := by simp only [Stream.currentUnfilled, hcur]
  have hcut : s.cutShort i = s := by simp only [State.cutShort, hcur]
  unfold State.closingSteps
  dsimp only
  rw [h, hunf, if_neg (by decide), hcut]
  dsimp only
  rw [if_neg (by decide), Nat.add_zero]
  generalize hu : ((s.drivePark i).freeResources i).setStream i Stream.empty = u
  have hui : u.inflight = s.inflight := by
    rw [← hu, State.setStream_inflight, freeResources_inflight, drivePark_inflight]
  have hur : u.replyQueues = s.replyQueues := by
    rw [← hu, State.setStream_replyQueues, freeResources_replyQueues, drivePark_replyQueues]
  rw [complete_eq_answered ((entry_of_inflight hui _).trans he) (by rw [State.rq, hur]; exact hr),
    answered_replyQueues_congr hur]

/-- A stream's work is outstanding as R20 says it. -/
theorem hasOutstanding_eq_false_iff :
    s.hasOutstanding i = false ↔
      (s.stream i).staging = [] ∧ s.transferOf (.closing i) = false ∧
        ∀ n ∈ (s.stream i).scanList, (s.port n).phase = .idle := by
  simp [State.hasOutstanding, and_assoc]

end Sys2Proof.Machine
end

section
/-! CLOSE (R20) and the closing steps as a row (R21). -/

namespace Sys2Proof.Machine

variable {s : State} {i : StreamId} {k : SlotId} {r : RecordBody}

/-! ## The closing steps as a row (R21) -/

/-- A CLOSING stream with nothing outstanding passes through its closing steps (R21). -/
theorem closeIfDrained_of_drained (hs : (s.stream i).state = .closing) (h : s.hasOutstanding i = false) :
    s.closeIfDrained i = s.closingSteps i :=
  if_pos ⟨hs, h⟩

/-- Settles O59: the row of the closing steps where they are due, and where an item in staging is waited for. -/
theorem closingStepsClose : Obligations.ClosingStepsClose := by
  intro s i c x hc st hs hcl hx
  refine ⟨fun hst => ?_, fun hst htr hidle => ?_⟩
  · have hwait : s.closeIfDrained i = s := closeIfDrained_of_staged fun _ => hst
    exact congrArg Host.Outcome.next ((congrArg State.finish hwait).trans hc.finish)
  · have hdrain : s.closeIfDrained i = s.closingSteps i :=
      closeIfDrained_of_drained hs (hasOutstanding_eq_false_iff.2 ⟨hst, htr, hidle⟩)
    have hentry := closingSteps_entry hcl
    have hreply := fun (e : Entry) (rec : Record) => closingSteps_replyQueues (e := e) (rec := rec) hcl
    obtain ⟨ph, qh, pc, rqs, inf, hE, hph, hqh, hpc, -⟩ :=
      closingSteps_spec s i (by rw [show (s.stream i).state = .closing from hs]; rfl)
    have hcalm : (s.closingSteps i).Calm := hc.of_eq (by rw [hE]; rfl) (by rw [hE]; rfl) (by rw [hE]; rfl)
    have hexec : exec (.closingSteps i) s = .next (s.closingSteps i) :=
      congrArg Host.Outcome.next ((congrArg State.finish hdrain).trans hcalm.finish)
    refine ⟨_, hexec, ?_, fun n => ?_, fun n => ?_, fun p => ?_, fun n => ?_, hentry, fun j hj => ?_,
      fun rec hrec hr hcur => ?_, ?_⟩
    · rw [hE]
      exact stream_setStream_self ..
    · rw [hE]
      exact hph n
    · rw [hE]
      exact hqh n
    · rw [hE]
      exact hpc p
    · rw [hE]
      exact drivePark_portWord s i n
    · rw [hE]
      exact (stream_setStream s ..).trans (if_neg (Ne.symm hj))
    · refine hreply x rec hcur ?_ hr
      rw [hx, ← hrec]
    · rw [hE]
      rfl

/-! ## CLOSE (R20) -/

/-- CLOSE taken where its checks pass (R20). -/
theorem takeClose_of_ok (h : s.closeCheck r = .ok) :
    s.takeClose k r = ((s.toWorking k 0 0).beginClose (streamOf r) k).closeIfDrained (streamOf r) := by
  simp only [State.takeClose, h]

/-- The stream once its CLOSE has begun (R20). -/
theorem beginClose_stream (s : State) (i j : StreamId) (k : SlotId) :
    (s.beginClose i k).stream j = if i = j then (s.stream i).closingBy k else s.stream j := by
  rw [beginClose_eq, (State.RepliesOnly.replyStops ..).stream]
  unfold State.closeBegun
  dsimp only
  exact vector_get_set ..

/-- A CLOSE that has begun waits for work that was the stream's before, and for the served read it left to itself (R20,
R106). -/
theorem beginClose_hasOutstanding (s : State) (i : StreamId) (k : SlotId) :
    (s.beginClose i k).hasOutstanding i = false ↔
      (s.stream i).staging = [] ∧
        (if (s.stream i).ReadServed then s.reassign (.prefetch i) (.closing i) else s).transferOf (.closing i) = false ∧
        ∀ n ∈ (s.stream i).scanList, (s.port n).phase = .idle := by
  rw [hasOutstanding_eq_false_iff, beginClose_stream, if_pos rfl]
  have h := State.RepliesOnly.replyStops (s.stream i).stopCommands (s.closeBegun i k) .aborted (s.stream i).produced 0
  unfold State.RepliesOnly at h
  rw [beginClose_eq, h]
  unfold Stream.closingBy State.closeBegun
  rw [woundDown_eq]
  by_cases hr : (s.stream i).ReadServed
  · simp only [if_pos hr]
    rfl
  · simp only [if_neg hr]
    rfl

/-- What a CLOSE leaves where it finds no served read (R20): the stream in CLOSING, its pacer and its park word, and
beside them replies alone. -/
theorem beginClose_frame (h : ¬(s.stream i).ReadServed) :
    s.beginClose i k =
      { s with
        streams := s.streams.set i ((s.stream i).closingBy k)
        pacers := s.pacersWoundDown i
        patternWord := (s.drivePark i).patternWord
        replyQueues := (s.beginClose i k).replyQueues
        inflight := (s.beginClose i k).inflight } := by
  have hrep := State.RepliesOnly.replyStops (s.stream i).stopCommands (s.closeBegun i k) .aborted
    (s.stream i).produced 0
  rw [← beginClose_eq] at hrep
  unfold State.RepliesOnly State.closeBegun at hrep
  dsimp only at hrep
  rw [if_neg h] at hrep
  exact hrep

/-- With no STOP waiting, a CLOSE that begins releases the reservations of its stream, and that is all it does to the
reply queues (R20). -/
theorem beginClose_replyQueues (h : (s.stream i).pendingStop = none) :
    (s.beginClose i k).replyQueues =
      s.replyQueues.set (s.stream i).replyQueue
        { s.rq (s.stream i).replyQueue with
          reserved := (s.rq (s.stream i).replyQueue).reserved - (s.stream i).closeReleases } := by
  rw [beginClose_eq, show (s.stream i).stopCommands = [] by simp only [Stream.stopCommands, h]]
  rfl

/-- The context that a CLOSE leaves in CLOSING, field by field (R20). -/
theorem closingBy_eq (st : Stream) (k : SlotId) :
    st.closingBy k =
      { st with
        scan := if st.kind = some .scan then none else st.scan
        fifo := if st.kind = some .play then [] else st.fifo
        prefetching := if st.kind = some .play then false else st.prefetching
        read := if st.kind = some .play then none else st.read
        state := .closing
        pendingStop := none
        fault := none
        faultReserved := false
        endReserved := false
        waiting := []
        closing := some { slot := k, reclaimed := st.waiting.length } } := by
  rw [Stream.closingBy, woundDown_eq]

/-- The end of the fetch's read takes no transfer of another requester away (R130). -/
theorem withRecord_transferOf (s : State) (f : Fetch) (e : Entry) (rec : Record) {a : Requester} (h : a ≠ .fetch) :
    (s.withRecord f e rec).transferOf a = s.transferOf a := by
  unfold State.transferOf State.withRecord
  refine congrArg (_ || ·) ?_
  rw [List.any_filter]
  refine congrArg (fun p => s.outstanding.any p) (funext fun o => ?_)
  by_cases ho : o.who = a
  · simp [ho, h]
  · simp [ho]

/-- Settles O20: a CLOSE begins and, with nothing outstanding, goes on through the closing steps. -/
theorem closeWithNothingOutstanding : Obligations.CloseWithNothingOutstanding := by
  intro s q r f e h hok st u x n hst htr hread hidle
  have hok' : u.closeCheck r = .ok := hok
  have hrun : u.runOpcode f.slot q .close r = _ := takeClose_of_ok hok'
  rw [withRecord_toWorking] at hrun
  generalize hw : u.atWork f.slot e ⟨0x14, r⟩ 0 0 = w at hrun
  have hws : ∀ j, w.stream j = s.stream j := by rw [← hw]; exact fun _ => rfl
  have htrw : w.transferOf (.closing (streamOf r)) = false := by
    rw [← hw]
    exact (withRecord_transferOf s f e ⟨0x14, r⟩ (a := .closing (streamOf r)) (by simp)).trans htr
  have hserved : ¬(w.stream (streamOf r)).ReadServed := by
    rw [hws]
    rintro ⟨-, hany⟩
    cases hr : (s.stream (streamOf r)).read with
    | none => rw [hr] at hany; cases hany
    | some y => rw [hr, Option.any_some, hread y hr] at hany; cases hany
  have hdrained : (w.beginClose (streamOf r) f.slot).hasOutstanding (streamOf r) = false := by
    rw [beginClose_hasOutstanding, if_neg hserved, hws]
    exact ⟨hst, htrw, by rw [← hw]; exact hidle⟩
  have hzs := beginClose_stream w (streamOf r) (streamOf r) f.slot
  rw [if_pos rfl, hws, closingBy_eq] at hzs
  rw [closeIfDrained_of_drained (by rw [hzs]) hdrained] at hrun
  have hze := beginClose_entry w (streamOf r) f.slot
  have hzr := beginClose_replyQueues (s := w) (i := streamOf r) (k := f.slot)
  have hzf := beginClose_frame (k := f.slot) hserved
  simp only [hws] at hze hzr
  generalize w.beginClose (streamOf r) f.slot = z at *
  have hentry := closingSteps_entry (s := z) (i := streamOf r) (c := ⟨f.slot, st.waiting.length⟩) (by rw [hzs])
  have hreply := closingSteps_replyQueues (s := z) (i := streamOf r) (c := ⟨f.slot, st.waiting.length⟩)
    (e := { e with phase := .working, value1 := 0, value2 := 0 }) (rec := ⟨0x14, r⟩) (by rw [hzs])
  obtain ⟨ph, qh, pc, rqs, inf, hE, hph, hqh, hpc, -⟩ := closingSteps_spec z (streamOf r) (by rw [hzs]; rfl)
  have hexec : exec (.close q r) s = .next (z.closingSteps (streamOf r)) := by
    refine exec_of_works (op := .close) h rfl hrun ?_ ?_ ?_ <;> rw [hE, hzf, ← hw] <;> rfl
  rw [hzs] at hph hqh hpc
  refine ⟨_, hexec, ?_, fun n => ?_, fun n => ?_, fun p => ?_, fun n => ?_, fun k => ?_, fun j hj => ?_,
    fun hcur hpend hn => ?_, ?_⟩
  · rw [hE]
    exact stream_setStream_self ..
  · rw [hE]
    refine (hph n).trans ?_
    rw [hzf, ← hw]
    rfl
  · rw [hE]
    refine (hqh n).trans ?_
    rw [hzf, ← hw]
    rfl
  · rw [hE]
    refine (hpc p).trans ?_
    by_cases hp : st.kind = some .ring ∧ p = st.pacer
    · exact (if_pos hp).trans (if_pos hp).symm
    · refine (if_neg hp).trans (Eq.trans ?_ (if_neg hp).symm)
      rw [hzf]
      refine (pacersWoundDown_get w (streamOf r) p).trans ((if_neg ?_).trans (by rw [← hw]; rfl))
      rw [hws]
      exact fun hd => hp ⟨hd.1, hd.2.1⟩
  · have hz : z.portWord n = (w.drivePark (streamOf r)).portWord n := by rw [hzf]; rfl
    rw [hE]
    refine (drivePark_portWord z (streamOf r) n).trans ?_
    rw [hz, drivePark_portWord, hws, hzs, show w.portWord n = s.portWord n by rw [← hw]; rfl]
    dsimp only
    by_cases hn : n = st.patternPort
    · rw [if_pos hn, if_pos hn]
      cases (s.stream (streamOf r)).park <;> rfl
    · rw [if_neg hn, if_neg hn]
  · rw [hentry, hze]
    by_cases hk : k = f.slot
    · rw [if_pos hk, if_pos (.inl hk)]
    · refine (if_neg hk).trans (if_congr (or_iff_right hk).symm rfl ?_)
      rw [← hw]
      exact (vector_get_set ..).trans ((if_neg (Ne.symm hk)).trans
        ((vector_get_set ..).trans (if_neg (Ne.symm hk))))
  · rw [hE]
    refine (stream_setStream z ..).trans ((if_neg (Ne.symm hj)).trans ?_)
    rw [hzf]
    exact (stream_setStream w ..).trans ((if_neg (Ne.symm hj)).trans (hws j))
  · have hstops : st.stopCommands = [] := by simp only [Stream.stopCommands, hpend]
    have hzrq : z.replyQueues =
        u.replyQueues.set st.replyQueue { x with reserved := x.reserved - st.closeReleases } := by
      subst hw
      exact hzr hpend
    refine (hreply ?_ ?_ ?_).trans ?_
    · rw [hzs]
      exact hcur
    · rw [hze, show (s.stream (streamOf r)).stopCommands = [] from hstops, if_neg List.not_mem_nil, ← hw]
      exact (vector_get_set ..).trans (if_pos rfl)
    · rw [State.rq, hzrq, vector_get_set]
      split
      · exact Nat.sub_ne_zero_of_lt hn
      · exact h.reserved
    · rw [hzs]
      exact answered_replyQueues_congr (t := z)
        (s := { u with replyQueues := u.replyQueues.set st.replyQueue { x with reserved := x.reserved - _ } }) hzrq ..
  · rw [hE, hzf, ← hw]
    rfl

/-- What a CLOSE leaves (R20): the stream in CLOSING, its pacer and its park word, and beside them the transfers it lets
go of and replies. -/
theorem beginClose_spec (s : State) (i : StreamId) (k : SlotId) :
    ∃ sending outstanding, s.beginClose i k =
      { s with
        streams := s.streams.set i ((s.stream i).closingBy k)
        pacers := s.pacersWoundDown i
        patternWord := (s.drivePark i).patternWord
        sending := sending
        outstanding := outstanding
        replyQueues := (s.beginClose i k).replyQueues
        inflight := (s.beginClose i k).inflight } := by
  have hrep := State.RepliesOnly.replyStops (s.stream i).stopCommands (s.closeBegun i k) .aborted
    (s.stream i).produced 0
  rw [← beginClose_eq] at hrep
  unfold State.RepliesOnly State.closeBegun at hrep
  dsimp only at hrep
  by_cases h : (s.stream i).ReadServed
  · rw [if_pos h] at hrep
    exact ⟨_, _, hrep⟩
  · rw [if_neg h] at hrep
    exact ⟨_, _, hrep⟩

/-- While work is outstanding the stream goes on waiting (R20). -/
theorem closeIfDrained_of_outstanding (h : s.hasOutstanding i ≠ false) : s.closeIfDrained i = s :=
  if_neg fun hd => h hd.2

/-- Settles O21: a CLOSE begins, and the work outstanding keeps the stream in CLOSING. -/
theorem closeWaitsForItsWork : Obligations.CloseWaitsForItsWork := by
  intro s q r f e h hok st u x n left hslot hwork
  have hok' : u.closeCheck r = .ok := hok
  have hrun : u.runOpcode f.slot q .close r = _ := takeClose_of_ok hok'
  rw [withRecord_toWorking] at hrun
  generalize hw : u.atWork f.slot e ⟨0x14, r⟩ 0 0 = w at hrun
  have hws : ∀ j, w.stream j = s.stream j := by rw [← hw]; exact fun _ => rfl
  have hbusy : (w.beginClose (streamOf r) f.slot).hasOutstanding (streamOf r) ≠ false := by
    rw [ne_eq, beginClose_hasOutstanding, hws]
    rintro ⟨hst, htr, hidle⟩
    rcases hwork with ⟨-, hne | ⟨n, hn, hphase⟩⟩ | ⟨hk, ⟨y, hy, hserved⟩, hpre⟩
    · exact hne hst
    · subst hw
      exact hphase (hidle n hn)
    · have hread : (s.stream (streamOf r)).ReadServed :=
        ⟨hk, by rw [show (s.stream (streamOf r)).read = _ from hy]; exact hserved⟩
      rw [if_pos hread, transferOf_reassign] at htr
      · cases htr
      · rw [← hw]
        exact (withRecord_transferOf s f e ⟨0x14, r⟩ (a := .prefetch (streamOf r)) (by simp)).trans hpre
  have hring : st.kind ≠ some .ring := by
    rcases hwork with ⟨hk | hk, -⟩ | ⟨hk, -⟩ <;> rw [hk] <;> decide
  rw [closeIfDrained_of_outstanding hbusy] at hrun
  have hzs := fun j => beginClose_stream w (streamOf r) j f.slot
  have hze := beginClose_entry w (streamOf r) f.slot
  have hzr := beginClose_replyQueues (s := w) (i := streamOf r) (k := f.slot)
  have hzf := beginClose_frame (s := w) (i := streamOf r) (k := f.slot)
  simp only [hws] at hze hzr hzs hzf
  obtain ⟨snd, out, hz⟩ := beginClose_spec w (streamOf r) f.slot
  have hpac : w.pacersWoundDown (streamOf r) = s.pacers := by
    rw [State.pacersWoundDown, if_neg (by rw [hws]; exact hring), ← hw]
    rfl
  rw [hpac, hws] at hz
  generalize w.beginClose (streamOf r) f.slot = z at *
  have hexec : exec (.close q r) s = .next z := by
    refine exec_of_works (op := .close) h rfl hrun ?_ ?_ ?_ <;> rw [hz, ← hw] <;> rfl
  refine ⟨z, hexec, ?_, ?_, fun k hk => ?_, fun n => ?_, fun j hj => ?_, fun hk => ?_, fun hpend => ?_, ?_⟩
  · rw [hzs, if_pos rfl, Stream.closingBy]
    by_cases hscan : st.kind = some .scan
    · rw [if_pos hscan, woundDown_of_scan hscan]
    · rw [if_neg hscan]
      by_cases hplay : st.kind = some .play
      · rw [if_pos hplay, woundDown_of_play hplay]
      · rw [if_neg hplay, woundDown_of_other hscan hplay]
  · rw [hze, if_neg hslot, ← hw]
    exact (vector_get_set ..).trans (if_pos rfl)
  · rw [hze, ← hw]
    exact if_congr Iff.rfl rfl ((vector_get_set ..).trans ((if_neg (Ne.symm hk)).trans
      ((vector_get_set ..).trans (if_neg (Ne.symm hk)))))
  · rw [hz]
    refine (drivePark_portWord w (streamOf r) n).trans ?_
    rw [hws, ← hw]
    rfl
  · rw [hzs, if_neg (Ne.symm hj)]
  · have hkept := hzf fun hread => hk hread.1
    rw [hkept, ← hw]
    exact ⟨rfl, rfl⟩
  · subst hw
    exact hzr hpend
  · rw [hz, ← hw]
    rfl

end Sys2Proof.Machine
end

section
/-! QUIESCE (R24, R170, R175 to R177): the words that the park words leave on the ports, what a shutdown leaves, and the
end of the quiesce where the mover has nothing left. -/

namespace Sys2Proof.Machine

variable {s : State} {i : StreamId} {n : PortId}

/-! ## Park words and ports (R23, R83) -/

/-- A port that no stream of a list parks keeps its word (R23). -/
theorem foldl_drivePark_portWord_of_none (l : List StreamId) (s : State)
    (h : ∀ j ∈ l, (s.stream j).patternPort = n → (s.stream j).park = none) :
    (l.foldl State.drivePark s).portWord n = s.portWord n := by
  induction l generalizing s with
  | nil => rfl
  | cons j l ih =>
    rw [List.foldl_cons, ih]
    · rw [drivePark_portWord]
      split
      · rw [h j List.mem_cons_self (Eq.symm ‹_›)]
        rfl
      · rfl
    · simp only [drivePark_stream]
      exact fun k hk => h k (List.mem_cons_of_mem _ hk)

/-- The park word of the one stream of a list that parks a port is on it (R23). -/
theorem foldl_drivePark_portWord_of_park {w : Half} (l : List StreamId) (s : State) (hi : i ∈ l)
    (hw : (s.stream i).park = some w)
    (h : ∀ j, j ≠ i → (s.stream j).patternPort = (s.stream i).patternPort → (s.stream j).park = none) :
    (l.foldl State.drivePark s).portWord (s.stream i).patternPort = w := by
  induction l generalizing s with
  | nil => exact absurd hi List.not_mem_nil
  | cons j l ih =>
    rw [List.foldl_cons]
    by_cases hl : i ∈ l
    · have := ih (s.drivePark j) hl (by rw [drivePark_stream]; exact hw) (by simp only [drivePark_stream]; exact h)
      rwa [drivePark_stream] at this
    · have hj : i = j := (List.mem_cons.1 hi).resolve_right hl
      subst hj
      rw [foldl_drivePark_portWord_of_none, drivePark_portWord, if_pos rfl, hw]
      · rfl
      · simp only [drivePark_stream]
        exact fun k hk => h k fun e => hl (e ▸ hk)

theorem foldl_idle_port (l : List PortId) (s : State) :
    (l.foldl (fun s n => s.setPort n (SamplePort.idle (s.port n).timeout)) s).port n =
      if n ∈ l then SamplePort.idle (s.port n).timeout else s.port n := by
  induction l generalizing s with
  | nil => rfl
  | cons m l ih =>
    rw [List.foldl_cons, ih]
    by_cases hm : m = n
    · subst hm
      simp [SamplePort.idle]
    · simp [State.setPort_port_ne _ _ _ _ hm, Ne.symm hm]

/-- Every sample port is IDLE with its timeout after a shutdown, and nothing else has changed (R83). -/
theorem idlePorts_eq (s : State) :
    s.idlePorts = { s with ports := Vector.ofFn fun n => SamplePort.idle (s.port n).timeout } := by
  obtain ⟨p, hp⟩ := idlePorts_spec s
  have hport : ∀ n, s.idlePorts.port n = SamplePort.idle (s.port n).timeout := by
    intro n
    unfold State.idlePorts
    rw [foldl_idle_port, if_pos (List.mem_finRange n)]
  rw [hp] at hport ⊢
  refine congrArg (fun v => ({ s with ports := v } : State)) (Vector.ext fun k hk => ?_)
  rw [Vector.getElem_ofFn]
  exact hport ⟨k, hk⟩

theorem vector_get_replicate {α : Type} {m : Nat} (x : α) (k : Fin m) : (Vector.replicate m x).get k = x := by
  simp [Vector.get_eq_getElem]

/-! ## What a shutdown leaves (R24, R44, R49, R83, R122, R158, R170) -/

/-- The machine after a shutdown (R24), with the queues, reply queues and device state that a quiesce gives it: every
stream, pacer, load and command is gone, the ports are IDLE, and only the words of the pattern ports depend on the
streams. -/
def State.quiesced (s : State) (queues : Vector CommandQueue 4) (replyQueues : Vector ReplyQueue 2)
    (device : DeviceState) : State :=
  { s with
    emitted := []
    streams := Vector.replicate 32 Stream.empty
    pacers := Vector.replicate 16 Pacer.zero
    ports := Vector.ofFn fun n => SamplePort.idle (s.port n).timeout
    portHolder := Vector.replicate 8 none
    patternHolder := Vector.replicate 8 none
    patternWord := s.driveParks.patternWord
    loads := []
    inflight := Vector.replicate 32 none
    queues := queues
    fetch := none
    lastServed := 3
    replyQueues := replyQueues
    statusWrites := []
    sending := s.sending.map fun t => { t with who := t.who.abandoned }
    outstanding := s.outstanding.map fun o => { o with who := .nobody }
    lastStream := 31
    lastReplyQueue := 1
    streamRun := 0
    device := device }

/-- The reply queues after a shutdown (R158, R159). -/
def State.droppedReplies (s : State) : Vector ReplyQueue 2 :=
  (s.replyQueues.set (0 : RqId) { s.rq 0 with reserved := 0, waiting := [] }).set (1 : RqId)
    (ReplyQueue.absent (s.rq 1).enabled (s.rq 1).errorFlag)

theorem droppedReplies_get_zero (s : State) :
    s.droppedReplies.get 0 = { s.rq 0 with reserved := 0, waiting := [] } := by
  rw [State.droppedReplies, vector_get_set, if_neg (by decide), vector_get_set, if_pos rfl]

theorem droppedReplies_get_one (s : State) :
    s.droppedReplies.get 1 = ReplyQueue.absent (s.rq 1).enabled (s.rq 1).errorFlag := by
  rw [State.droppedReplies, vector_get_set, if_pos rfl]

/-- A shutdown, field by field (R24). -/
theorem shutdown_eq (s : State) (device : DeviceState) :
    ({ s.shutdown with emitted := [], device := device } : State) =
      s.quiesced s.shutdown.queues s.droppedReplies device := by
  obtain ⟨w, hw⟩ := driveParks_spec s
  unfold State.shutdown State.dropReplies State.dropQueues State.quiesced State.droppedReplies
  rw [hw, idlePorts_eq]
  rfl

/-- A machine without streams, loads, status records or a fetch, and with both waiting lists empty, has nothing at the
mover but what is being sent or outstanding (R160, R170). -/
theorem drained_iff_of_idle (hst : ∀ i, s.stream i = Stream.empty) (hw : s.statusWrites = []) (hf : s.fetch = none)
    (hl : s.loads = []) (h0 : (s.rq 0).waiting = []) (h1 : (s.rq 1).waiting = []) :
    s.drained = true ↔ s.sending = none ∧ s.outstanding = [] := by
  have hreq : s.streamRequests = false := by
    simp [State.streamRequests, hst, Stream.hasRequest, Stream.empty]
  have hctl : s.controlRequests = false := by
    simp [State.controlRequests, State.replyRequest, State.statusRequest, State.fetchRequest, State.loadRequest, hw, hf,
      hl, h0, h1]
  simp [State.drained, hreq, hctl]

/-- A quiesce begins in READY alone (R175, R176). -/
theorem writeDisable_of_ready (h : s.device = .ready) :
    s.writeDisable = ({ s.shutdown with device := .quiescing } : State).finish :=
  if_pos h

/-- The command queues once a quiesce has begun: a CQ0 in DELETING, which no run has, is gone too (R121, R122, R125). -/
def State.quiescedQueues (s : State) : Vector CommandQueue 4 :=
  if (s.queue 0).state = .deleting then s.shutdown.queues.set (0 : CqId) CommandQueue.absent else s.shutdown.queues

theorem quiescedQueues_get (s : State) (k : CqId) :
    s.quiescedQueues.get k =
      if k = 0 ∧ (s.queue 0).state ≠ .deleting then { s.queue 0 with faultReserved := false, held := none }
      else CommandQueue.absent := by
  have hk : s.shutdown.queues.get k = _ := shutdown_queue s k
  unfold State.quiescedQueues
  by_cases hd : (s.queue 0).state = .deleting
  · rw [if_pos hd, vector_get_set, hk]
    by_cases h0 : k = 0
    · simp [h0, hd]
    · rw [if_neg (Ne.symm h0), if_neg h0, if_neg fun h => h0 h.1]
  · rw [if_neg hd, hk]
    by_cases h0 : k = 0
    · rw [if_pos h0, if_pos ⟨h0, hd⟩]
    · rw [if_neg h0, if_neg fun h => h0 h.1]

/-- A quiesce in READY (R176): at once OFF where nothing is being sent and no read is outstanding (R177), else
QUIESCING. -/
theorem writeDisable_eq (h : s.device = .ready) :
    s.writeDisable =
      if s.sending = none ∧ s.outstanding = [] then
        s.quiesced (s.quiescedQueues.set (0 : CqId) CommandQueue.absent)
          (s.droppedReplies.set (0 : RqId) (ReplyQueue.absent (s.rq 0).enabled (s.rq 0).errorFlag)) .off
      else s.quiesced s.quiescedQueues s.droppedReplies .quiescing := by
  have hz := shutdown_eq s .quiescing
  have hstreams : ∀ i, ({ s.shutdown with device := .quiescing } : State).stream i = Stream.empty := fun i => by
    have : s.shutdown.streams = Vector.replicate 32 Stream.empty := congrArg State.streams hz
    simp only [State.stream, this, vector_get_replicate]
  have hentries : ∀ k, ({ s.shutdown with device := .quiescing } : State).entry k = none := fun k => by
    have : s.shutdown.inflight = Vector.replicate 32 none := congrArg State.inflight hz
    simp only [State.entry, this, vector_get_replicate]
  have hqueues : ∀ k, ({ s.shutdown with device := .quiescing } : State).queue k =
      if k = 0 then { s.queue 0 with faultReserved := false, held := none } else CommandQueue.absent := fun k => by
    have := shutdown_queue s k
    simp only [State.queue] at this ⊢
    exact this
  have hfin := finish_quiescing (z := { s.shutdown with device := .quiescing })
    (x := { s.queue 0 with faultReserved := false, held := none })
    hstreams hentries hqueues rfl rfl
  dsimp only at hfin
  rw [hz] at hfin
  have hu : (if (s.queue 0).state = .deleting then
      (s.quiesced s.shutdown.queues s.droppedReplies .quiescing).setQueue 0 CommandQueue.absent
      else s.quiesced s.shutdown.queues s.droppedReplies .quiescing) =
      s.quiesced s.quiescedQueues s.droppedReplies .quiescing := by
    unfold State.quiescedQueues
    split <;> simp only [State.quiesced, State.setQueue]
  rw [hu] at hfin
  have hdr := drained_iff_of_idle (s := s.quiesced s.quiescedQueues s.droppedReplies .quiescing)
    (fun i => by simp only [State.quiesced, State.stream, vector_get_replicate]) rfl rfl rfl
    (congrArg ReplyQueue.waiting (droppedReplies_get_zero s)) (congrArg ReplyQueue.waiting (droppedReplies_get_one s))
  have hmap : (s.quiesced s.quiescedQueues s.droppedReplies .quiescing).sending = none ∧
      (s.quiesced s.quiescedQueues s.droppedReplies .quiescing).outstanding = [] ↔
      s.sending = none ∧ s.outstanding = [] := by
    simp [State.quiesced]
  rw [writeDisable_of_ready h, hfin]
  refine if_congr (hdr.trans hmap) ?_ rfl
  simp only [State.quiesceEnd, State.setQueue, State.setRq, State.quiesced, State.rq, droppedReplies_get_zero]

/-- What every quiesce leaves, whichever way the device goes (R24, R83, R122, R176). -/
theorem quiesced_tables (s : State) (q : Vector CommandQueue 4) (x : Vector ReplyQueue 2) (d : DeviceState) :
    let t := s.quiesced q x d
    (∀ i, t.stream i = Stream.empty) ∧ (∀ p, t.pacer p = Pacer.zero) ∧
      (∀ n, t.port n = SamplePort.idle (s.port n).timeout ∧ t.holder n = none ∧ t.patHolder n = none) ∧
      (∀ n, (∀ i, (s.stream i).patternPort = n → (s.stream i).park = none) → t.portWord n = s.portWord n) ∧
      (∀ i w, (s.stream i).park = some w →
        (∀ j, j ≠ i → (s.stream j).patternPort = (s.stream i).patternPort → (s.stream j).park = none) →
        t.portWord (s.stream i).patternPort = w) ∧
      ∀ k, t.entry k = none := by
  have hword : ∀ n, (s.quiesced q x d).portWord n = s.driveParks.portWord n := fun n => by
    simp only [State.quiesced, State.portWord]
  exact ⟨fun i => by simp only [State.quiesced, State.stream, vector_get_replicate],
    fun p => by simp only [State.quiesced, State.pacer, vector_get_replicate],
    fun n => ⟨by simp [State.port, State.quiesced, Vector.get_eq_getElem],
      by simp only [State.quiesced, State.holder, vector_get_replicate],
      by simp only [State.quiesced, State.patHolder, vector_get_replicate]⟩,
    fun _ h => (hword _).trans (foldl_drivePark_portWord_of_none _ s fun i _ => h i),
    fun i _ hw h => (hword _).trans (foldl_drivePark_portWord_of_park _ s (List.mem_finRange i) hw h),
    fun k => by simp only [State.quiesced, State.entry, vector_get_replicate]⟩

/-- Settles O34: the shutdown, and the end of the quiesce at once where nothing is at the mover. -/
theorem quiesceDropsTheWork : Obligations.QuiesceDropsTheWork := by
  refine ⟨fun s h => congrArg Host.Outcome.next (if_neg h), fun s h => ?_, fun s hd hdr => ?_⟩
  · have hexec : exec .quiesce s = .next s.writeDisable := rfl
    rw [hexec, writeDisable_eq h]
    by_cases hm : s.sending = none ∧ s.outstanding = []
    · obtain ⟨h1, h2, h3, h4, h5, h6⟩ := quiesced_tables s (s.quiescedQueues.set (0 : CqId) CommandQueue.absent)
          (s.droppedReplies.set (0 : RqId) (ReplyQueue.absent (s.rq 0).enabled (s.rq 0).errorFlag)) .off
      rw [if_pos hm]
      refine ⟨_, rfl, h1, h2, h3, h4, h5, h6, fun q hq => ?_, ?_, by simp [State.quiesced],
        by simp only [State.quiesced], fun _ => ⟨by simp only [State.quiesced], ?_, ?_⟩,
        fun hn => absurd hm (not_and_or.2 hn)⟩
      · refine (vector_get_set ..).trans ((if_neg (Ne.symm hq)).trans ((quiescedQueues_get s q).trans (if_neg ?_)))
        exact fun hq0 => hq hq0.1
      · exact (vector_get_set ..).trans ((if_neg (by decide)).trans (droppedReplies_get_one s))
      · exact (vector_get_set ..).trans (if_pos rfl)
      · exact (vector_get_set ..).trans (if_pos rfl)
    · obtain ⟨h1, h2, h3, h4, h5, h6⟩ := quiesced_tables s s.quiescedQueues s.droppedReplies .quiescing
      rw [if_neg hm]
      refine ⟨_, rfl, h1, h2, h3, h4, h5, h6, fun q hq => ?_, droppedReplies_get_one s, by simp [State.quiesced],
        by simp only [State.quiesced], fun hn => absurd hn hm,
        fun _ => ⟨by simp only [State.quiesced], fun hd => ?_, droppedReplies_get_zero s⟩⟩
      · exact (quiescedQueues_get s q).trans (if_neg fun hq0 => hq hq0.1)
      · exact (quiescedQueues_get s 0).trans (if_pos ⟨rfl, hd⟩)
  · have hdue : s.quiesceDue = true := by simp [State.quiesceDue, hd, hdr]
    exact congrArg Host.Outcome.next (if_pos hdue)

end Sys2Proof.Machine
end

section
/-! A transfer that has been sent (R162, R166, R167): what it leaves of its request, and the item that leaves staging
(R35, R95). -/

namespace Sys2Proof.Machine

variable {s : State} {i : StreamId} {x : Transfer}

/-! ## An item leaves staging (R35, R95) -/

/-- A grant that retires leaves nothing of the context it replaces. -/
theorem retired_setStream (s : State) (i : StreamId) (y st : Stream) (g : Grant) :
    (s.setStream i y).retired i st g = s.retired i st g := by
  simp only [State.retired, State.setStream, State.rq, vector_set_set]
  rfl

theorem State.Calm.retired (h : s.Calm) (i : StreamId) (st : Stream) (g : Grant) : (s.retired i st g).Calm := by
  obtain ⟨a, b, hfr, -, -⟩ := retired_frame s i st g
  rw [hfr]
  exact h.of_eq rfl rfl rfl

/-- Where the oldest FINISHING grant, if any, still has an item in staging, an item that has left staging brings nothing
due (R35). -/
theorem itemGone_of_staged (hk : (s.stream i).kind ≠ some .play)
    (hc : (s.stream i).state = .closing → (s.stream i).staging ≠ [])
    (hn : ∀ g, (s.stream i).finishing.head? = some g → ∃ o ∈ (s.stream i).staging, o.grant = g.number) :
    (s.retireDue i).closeIfDrained i = s := by
  rw [retireDue_of_staged hk hn, closeIfDrained_of_staged hc]

/-- Where the oldest FINISHING grant has no item in staging any more, it retires (R35). -/
theorem itemGone_of_finishing {g : Grant} {more : List Grant} (hf : (s.stream i).finishing = g :: more)
    (hc : (s.stream i).state = .closing → (s.stream i).staging ≠ [])
    (hn : ∀ o ∈ (s.stream i).staging, o.grant ≠ g.number)
    (hres : g.reserved = true → g.notify = true ∧ (s.rq (s.stream i).replyQueue).reserved ≠ 0) :
    (s.retireDue i).closeIfDrained i = s.retired i { s.stream i with finishing := more } g := by
  rw [retireDue_of_finishing hf hn, retire_eq_retired (st := { s.stream i with finishing := more }) hres]
  obtain ⟨a, b, hfr, hstate, hstaging⟩ := retired_frame s i { s.stream i with finishing := more } g
  refine closeIfDrained_of_staged ?_
  have ha : (s.retired i { s.stream i with finishing := more } g).stream i = a := by
    rw [hfr]
    exact stream_setStream_self s i a
  rw [ha, hstate, hstaging]
  exact hc

/-! ## The transfer being sent (R162, R166, R167) -/

theorem linkAccepts_iff : s.linkAccepts = true ↔ s.link.busMaster = true ∧ s.linkUp = true :=
  Bool.and_eq_true_iff

/-- With no transfer being sent any more, a calm machine is calm. -/
theorem State.Calm.idleMover (h : s.Calm) : ({ s with sending := none } : State).Calm :=
  h.of_eq rfl rfl rfl

/-- The read that has been sent is outstanding (R167). -/
theorem sent_of_read (hx : s.sending = some x) (ha : s.linkAccepts = true) (hr : x.isRead = true) :
    s.sent =
      { s with
        sending := none
        outstanding := s.outstanding ++
          [{ tag := s.nextTag
             who := x.who
             address := x.address
             length := x.length
             deadline := s.timebase + 20000
             got := [] }]
        nextTag := s.nextTag + 1 } := by
  have ha' : ¬(!({ s with sending := none } : State).linkAccepts) = true := by simpa [State.linkAccepts] using ha
  simp only [State.sent, hx, if_neg ha', if_pos hr]
  rfl

/-- A write that has been sent is reported done with its last part (R162, R166). -/
theorem sent_of_write (hx : s.sending = some x) (ha : s.linkAccepts = true) (hr : x.isRead = false) :
    s.sent =
      if x.last = true then ({ s with sending := none } : State).reportDone x.who []
      else { s with sending := none } := by
  have ha' : ¬(!({ s with sending := none } : State).linkAccepts) = true := by simpa [State.linkAccepts] using ha
  simp only [State.sent, hx, if_neg ha', hr, Bool.false_eq_true, if_false]

theorem exec_transferSent_of_calm {t : State} (ht : s.sent = t) (hcalm : t.Calm) :
    exec .transferSent s = .next t := by
  have h : exec .transferSent s = .next s.sent.finish := rfl
  rw [h, ht, hcalm.finish]

/-- The row of a last part that has been sent, by the state its report leaves. -/
theorem exec_transferSent_of_last {t : State} (hx : s.sending = some x) (ha : s.linkAccepts = true)
    (hr : x.isRead = false) (hl : x.last = true) (ht : ({ s with sending := none } : State).reportDone x.who [] = t)
    (hcalm : t.Calm) : exec .transferSent s = .next t :=
  exec_transferSent_of_calm ((sent_of_write hx ha hr).trans ((if_pos hl).trans ht)) hcalm

theorem itemWritten_of_reply {y : ReplyQueue} {position : Nat} {bytes : List Byte} {rest : List WaitItem}
    (h : y.waiting = .reply position bytes :: rest) :
    y.itemWritten =
      if y.enabled = true ∧ y.sent = false then { y with waiting := rest ++ [.message], sent := true }
      else { y with waiting := rest } := by
  unfold ReplyQueue.itemWritten
  rw [h]
  cases y.enabled <;> cases y.sent <;> rfl

theorem itemWritten_of_message {y : ReplyQueue} {rest : List WaitItem} (h : y.waiting = .message :: rest) :
    y.itemWritten = { y with waiting := rest } := by
  unfold ReplyQueue.itemWritten
  rw [h]

/-- Settles O50: what each kind of sent transfer leaves of its request. -/
theorem sentTransfers : Obligations.SentTransfers := by
  intro s x hcalm hx hb hu
  have ha : s.linkAccepts = true := linkAccepts_iff.2 ⟨hb, hu⟩
  have h0 : ({ s with sending := none } : State).Calm := hcalm.idleMover
  refine ⟨fun hr => ?_, fun hr hl => ?_, fun hr hl => ⟨fun q position bytes rest hwho hw => ?_,
    fun q rest hwho hw => ?_, ?_, fun k e rec hwho he hrec hres => ?_⟩⟩
  · exact exec_transferSent_of_calm (sent_of_read hx ha hr) (hcalm.of_eq rfl rfl rfl)
  · exact exec_transferSent_of_calm ((sent_of_write hx ha hr).trans (if_neg (by simp [hl]))) h0
  · refine exec_transferSent_of_last hx ha hr hl ?_ (hcalm.of_eq rfl rfl rfl)
    rw [hwho, ← itemWritten_of_reply hw]
    rfl
  · refine exec_transferSent_of_last hx ha hr hl ?_ (hcalm.of_eq rfl rfl rfl)
    rw [hwho, ← itemWritten_of_message hw]
    rfl
  · intro i y rest hwho st z hst hstate hkind
    have hplay : st.kind ≠ some .play := by
      rintro h
      rcases hkind with h' | h' <;> simp [h] at h'
    generalize hv : State.setStream { s with sending := none } i { st with staging := rest } = v
    have hself : v.stream i = { st with staging := rest } := by
      rw [← hv]
      exact stream_setStream_self _ i _
    have hdealt : ({ s with sending := none } : State).reportDone x.who [] = (v.retireDue i).closeIfDrained i := by
      rw [hwho, ← hv]
      show State.itemDealt _ i = _
      unfold State.itemDealt
      show ((State.setStream _ i { st with staging := st.staging.tail }).retireDue i).closeIfDrained i = _
      rw [hst]
      rfl
    have hclosing : (v.stream i).state = .closing → (v.stream i).staging ≠ [] := by
      rw [hself]
      exact fun h => absurd h hstate
    refine ⟨fun hn => ?_, fun g more hf hn hg => ?_⟩
    · refine exec_transferSent_of_last hx ha hr hl ?_ (hcalm.of_eq rfl rfl rfl)
      rw [hdealt, itemGone_of_staged (by rw [hself]; exact hplay) hclosing (by rw [hself]; exact hn), ← hv]
      rfl
    · refine exec_transferSent_of_last hx ha hr hl ?_ (h0.retired ..)
      rw [hdealt, itemGone_of_finishing (by rw [hself]; exact hf) hclosing (by rw [hself]; exact hn)
        (by rw [hself, ← hv]; exact hg), hself, ← hv, retired_setStream]
  · refine exec_transferSent_of_last hx ha hr hl ?_ 
      (State.Calm.answered (hcalm.of_eq rfl rfl rfl) k e rec .ok e.value1 e.value2)
    generalize hv : ({ s with sending := none, statusWrites := s.statusWrites.filter fun w => w.slot != k } : State) = v
    have hev : v.entry k = some e := by
      rw [← hv]
      exact he
    have hdone : ({ s with sending := none } : State).reportDone x.who [] = v.completeWith k .ok := by
      rw [hwho, ← hv]
      rfl
    rw [hdone, State.completeWith, hev]
    exact complete_eq_answered (by rw [hev, ← hrec]) (by rw [← hv]; exact hres) .ok _ _

end Sys2Proof.Machine
end

section
/-! A staged item on the link (R93, R96, R161 to R166): the stream that an arbitration serves, the transfer that is cut
from its oldest item, and an item that the link refuses. -/

namespace Sys2Proof.Machine

variable {s : State} {i : StreamId} {st : Stream} {y : Staged} {rest : List Staged}

/-! ## The stream that an arbitration serves (R163, R164) -/

/-- The first stream with a request after the last served is the one found (R164). -/
theorem find_streamsAfter {p : StreamId → Bool} {last : StreamId} {d : Nat} (hd : d < 32)
    (hbefore : ∀ d', d' < d → p (Fin.ofNat 32 (last.val + 1 + d')) = false)
    (hp : p (Fin.ofNat 32 (last.val + 1 + d)) = true) :
    (streamsAfter last).find? p = some (Fin.ofNat 32 (last.val + 1 + d)) := by
  have hrange : (List.range 32).find? (p ∘ fun k => Fin.ofNat 32 (last.val + 1 + k)) = some d :=
    List.find?_range_eq_some.2 ⟨hp, List.mem_range.2 hd, fun j hj => by simpa using hbefore j hj⟩
  rw [streamsAfter, List.find?_map, hrange]
  rfl

theorem chooseClass_of_streams {control : Bool} {n : Nat} (h : control = false ∨ n < 4) :
    chooseClass true control n = (true, if control = true then n + 1 else 0) := by
  cases control with
  | false => rfl
  | true => exact if_pos (h.resolve_left Bool.noConfusion)

/-- The stream class is served where no control work waits, or fewer than four streams have been served since (R163):
then the first stream with a request is served (R164). -/
theorem arbitrate_of_stream {d : Nat} (hs : s.sending = none) (hc : s.controlRequests = false ∨ s.streamRun < 4)
    (hd : d < 32)
    (hbefore : ∀ d', d' < d → (s.stream (Fin.ofNat 32 (s.lastStream.val + 1 + d'))).hasRequest = false)
    (hi : i = Fin.ofNat 32 (s.lastStream.val + 1 + d)) (hreq : (s.stream i).hasRequest = true) :
    s.arbitrate =
      State.serveStream
        { s with streamRun := if s.controlRequests = true then s.streamRun + 1 else 0, lastStream := i } i := by
  have hfind := find_streamsAfter (p := fun j => (s.stream j).hasRequest) hd hbefore (hi ▸ hreq)
  rw [← hi] at hfind
  have hsome : s.streamRequests = true := List.any_eq_true.2 ⟨i, List.mem_finRange i, hreq⟩
  have hgo : ¬(s.sending.isSome || !(s.streamRequests || s.controlRequests)) = true := by simp [hs, hsome]
  unfold State.arbitrate
  rw [if_neg hgo]
  dsimp only
  rw [hsome, chooseClass_of_streams hc, if_pos rfl]
  unfold State.serveStreamClass
  have hfind' : ((streamsAfter s.lastStream).find? fun j =>
      (({ s with streamRun := if s.controlRequests = true then s.streamRun + 1 else 0 } : State).stream j).hasRequest) =
      some i := hfind
  dsimp only
  rw [hfind']

/-! ## The transfer cut from an item (R161, R162, R166) -/

theorem hasRequest_of_staged (hy : st.staging = y :: rest) (hs : y.served < y.bytes.length) : st.hasRequest = true := by
  simp [Stream.hasRequest, hy, hs]

/-- The bytes of an item that its next transfer takes (R161). -/
def Staged.nextLength (y : Staged) : Nat :=
  transferLength (y.address + BitVec.ofNat 64 y.served) (y.bytes.length - y.served)

/-- The oldest item that is not served whole is served next, by as many of its bytes as one transfer takes (R161,
R164). -/
theorem serveStream_of_staged (hst : s.stream i = st) (hy : st.staging = y :: rest) (hs : y.served < y.bytes.length) :
    s.serveStream i =
      (s.setStream i
        { st with staging := { y with served := y.served + y.nextLength } :: rest }).serve
        (nextWrite (.capture i) y.address y.bytes y.served) := by
  have hnext : st.nextStaged i = some (y, nextWrite (.capture i) y.address y.bytes y.served) := by
    simp [Stream.nextStaged, hy, hs]
  have hstaged : ∀ n, serveStaged n st.staging = { y with served := y.served + n } :: rest := fun n => by
    rw [hy, serveStaged, if_pos hs]
  unfold State.serveStream
  rw [hst]
  dsimp only
  rw [hnext]
  dsimp only
  rw [hstaged]
  rfl

/-- An arbitration that comes to a stream with an unserved item (R162 to R164). -/
theorem exec_arbitration_of_staged {d : Nat} {base : State} (hs : s.sending = none)
    (hc : s.controlRequests = false ∨ s.streamRun < 4) (hd : d < 32)
    (hbefore : ∀ d', d' < d → (s.stream (Fin.ofNat 32 (s.lastStream.val + 1 + d'))).hasRequest = false)
    (hi : i = Fin.ofNat 32 (s.lastStream.val + 1 + d)) (hst : s.stream i = st) (hy : st.staging = y :: rest)
    (hserved : y.served < y.bytes.length)
    (hbase :
      base = { s with streamRun := if s.controlRequests = true then s.streamRun + 1 else 0, lastStream := i }) :
    exec .arbitration s =
      .next ((base.setStream i
        { st with staging := { y with served := y.served + y.nextLength } :: rest }).serve
          (nextWrite (.capture i) y.address y.bytes y.served)).finish := by
  have hreq : (s.stream i).hasRequest = true := hst ▸ hasRequest_of_staged hy hserved
  have hbst : base.stream i = st := by rw [hbase]; exact hst
  have hexec : exec .arbitration s = .next s.arbitrate.finish := rfl
  rw [hexec, arbitrate_of_stream hs hc hd hbefore hi hreq, ← hbase, serveStream_of_staged hbst hy hserved]

/-! ## An item that the link refuses (R17, R18, R96) -/

theorem State.Calm.faulted (h : s.Calm) (i : StreamId) (st : Stream) (c : StreamFault) : (s.faulted i st c).Calm :=
  h.of_eq rfl rfl rfl

theorem faulted_stream_self (s : State) (i : StreamId) (st : Stream) (c : StreamFault) :
    (s.faulted i st c).stream i =
      { st with
        state := .halted
        fault := some c
        scan := none
        prefetching := false
        pendingStop := none
        faultReserved := false
        endReserved := false } :=
  stream_setStream_self s i _

/-- A stream that is CLOSED, HALTED or CLOSING takes no fault (R18). -/
theorem haltStream_of_stopped (c : StreamFault) (h : (s.stream i).state = .halted ∨ (s.stream i).state = .closing) :
    s.haltStream i c = s := by
  unfold State.haltStream
  rcases h with h | h <;> simp [h]

/-- The state in which a failed item has left staging and its stream has taken the fault (R17, R18, R96). -/
theorem haltStream_of_left {base v : State} {streams : Vector Stream 32} (hstreams : base.streams = streams)
    (hv : ((st.state = .opened ∨ st.state = .armed ∨ st.state = .running ∨ st.state = .stopping) ∧
        (st.stopCommands = [] ∧ st.faultReserved = true ∧ (base.rq st.replyQueue).reserved ≠ 0) ∧
        v = base.faulted i { st with staging := rest } .busError) ∨
      ((st.state = .halted ∨ (st.state = .closing ∧ rest ≠ [])) ∧
        v = { base with streams := streams.set i { st with staging := rest } })) :
    (base.setStream i { st with staging := rest }).haltStream i .busError = v ∧
      (v.stream i).kind = st.kind ∧ (v.stream i).finishing = st.finishing ∧ (v.stream i).staging = rest ∧
      (v.stream i).replyQueue = st.replyQueue ∧ ((v.stream i).state = .closing → rest ≠ []) := by
  have hself := stream_setStream_self base i { st with staging := rest }
  rcases hv with ⟨hs, hcan, rfl⟩ | ⟨hs, rfl⟩
  · refine ⟨?_, ?_⟩
    · rw [haltStream_eq_faulted .busError (by rw [hself]; exact hs) (by unfold State.CanHalt; rw [hself]; exact hcan),
        hself, faulted_setStream]
    · rw [faulted_stream_self]
      exact ⟨rfl, rfl, rfl, rfl, fun h => nomatch h⟩
  · have hw : (base.setStream i { st with staging := rest }) =
        { base with streams := streams.set i { st with staging := rest } } := by rw [← hstreams]; rfl
    rw [← hw, hself]
    refine ⟨haltStream_of_stopped _ ?_, rfl, rfl, rfl, rfl, fun h => ?_⟩
    · rw [hself]
      exact hs.imp id And.left
    · exact hs.elim (fun hh => nomatch hh.symm.trans h) And.right

/-- A refused item of a capture stream has left staging with the state `v` behind it; then a FINISHING grant that has no
item in staging any more retires (R35, R96). -/
theorem itemFailed_of_left {base v : State}
    (hleft : s.setStream i { s.stream i with staging := (s.stream i).staging.tail } =
      base.setStream i { st with staging := rest })
    (hhalt : (base.setStream i { st with staging := rest }).haltStream i .busError = v)
    (hkind : (v.stream i).kind = some .scan ∨ (v.stream i).kind = some .stamp)
    (hclosing : (v.stream i).state = .closing → (v.stream i).staging ≠ []) (hcalm : v.Calm) :
    ((∀ g, (v.stream i).finishing.head? = some g → ∃ o ∈ (v.stream i).staging, o.grant = g.number) →
      (s.itemFailed i).finish = v) ∧
    ∀ g more, (v.stream i).finishing = g :: more → (∀ o ∈ (v.stream i).staging, o.grant ≠ g.number) →
      (g.reserved = true → g.notify = true ∧ (v.rq (v.stream i).replyQueue).reserved ≠ 0) →
      (s.itemFailed i).finish = v.retired i { v.stream i with finishing := more } g := by
  have hfailed : s.itemFailed i = (v.retireDue i).closeIfDrained i := by
    unfold State.itemFailed
    dsimp only
    rw [hleft, hhalt]
  refine ⟨fun hn => ?_, fun g more hf hn hres => ?_⟩
  · have hplay : (v.stream i).kind ≠ some .play := by
      intro h
      rcases hkind with h' | h' <;> simp [h] at h'
    rw [hfailed, itemGone_of_staged hplay hclosing hn, hcalm.finish]
  · rw [hfailed, itemGone_of_finishing hf hclosing hn hres, (hcalm.retired ..).finish]

/-- A capture transfer that the link refuses at its serving has failed (R166). -/
theorem serve_of_refused {x : Stream} {t : Transfer} (hno : ¬s.linkAccepts = true) (ht : t.who = .capture i) :
    (s.setStream i x).serve t = (s.setStream i x).itemFailed i := by
  rw [State.serve, if_neg (show ¬(s.setStream i x).linkAccepts = true from hno), ht]
  rfl

/-- A capture transfer that the link has come to refuse while it was being sent has failed (R166). -/
theorem sent_of_refused {base : State} {x : Transfer} (hx : s.sending = some x) (hwho : x.who = .capture i)
    (hbase : base = { s with sending := none }) (hno : ¬base.linkAccepts = true) : s.sent = base.itemFailed i := by
  subst hbase
  have hno' : (!({ s with sending := none } : State).linkAccepts) = true := by simpa using hno
  simp only [State.sent, hx, if_pos hno', hwho]
  rfl

theorem linkAccepts_eq_false (h : s.link.busMaster = false ∨ s.linkUp = false) : s.linkAccepts = false :=
  Bool.and_eq_false_iff.2 h

/-- Settles O48: the transfer that an arbitration cuts from the oldest item, and the item that the link refuses. -/
theorem stagedItemsAreCutIntoTransfers : Obligations.StagedItemsAreCutIntoTransfers := by
  refine ⟨?_, ?_⟩
  · intro s d y rest hcalm hs hb hu hc hd hbefore i st a n hy hserved
    rw [exec_arbitration_of_staged hs (.inl hc) hd hbefore rfl rfl hy hserved rfl, State.serve, if_pos, hc]
    · exact congrArg Host.Outcome.next (State.Calm.finish (hcalm.of_eq rfl rfl rfl))
    · exact linkAccepts_iff.2 ⟨hb, hu⟩
  · intro s row d i y rest base v hcalm hrefuse st left hkind hy hrow hv
    have hbase : base.streams = s.streams ∧ s.rq st.replyQueue = base.rq st.replyQueue ∧ base.Calm ∧
        ¬base.linkAccepts = true := by
      have hno : ¬s.linkAccepts = true := by simp [linkAccepts_eq_false hrefuse]
      rcases hrow with ⟨-, -, -, -, -, -, -, rfl⟩ | ⟨-, -, rfl⟩
      · exact ⟨rfl, rfl, hcalm.of_eq rfl rfl rfl, hno⟩
      · exact ⟨rfl, rfl, hcalm.of_eq rfl rfl rfl, hno⟩
    obtain ⟨hstreams, hrq, hbcalm, hno⟩ := hbase
    have hhalts := haltStream_of_left (rest := rest) hstreams (hv.imp (fun h => ⟨h.1, hrq ▸ h.2.1, h.2.2⟩) id)
    obtain ⟨hhalt, hvk, hvf, hvs, hvq, hvc⟩ := hhalts
    have hvcalm : v.Calm := by
      rcases hv with ⟨-, -, rfl⟩ | ⟨-, rfl⟩
      · exact hbcalm.faulted ..
      · exact hbcalm.of_eq rfl rfl rfl
    have hfails : ∃ t : State, exec row s = .next (t.itemFailed i).finish ∧
        t.setStream i { t.stream i with staging := (t.stream i).staging.tail } = base.setStream i left := by
      rcases hrow with ⟨rfl, hs, hc, hd, hbefore, hi, hserved, hb⟩ | ⟨rfl, ⟨x, hx, hwho⟩, hb⟩
      · have hexec := exec_arbitration_of_staged hs hc hd hbefore hi (st := st) rfl hy hserved hb
        rw [serve_of_refused hno rfl] at hexec
        exact ⟨_, hexec, by rw [stream_setStream_self, setStream_setStream]; rfl⟩
      · have hsent : exec .transferSent s = .next s.sent.finish := rfl
        rw [sent_of_refused hx hwho hb hno] at hsent
        have hst : base.stream i = st := by rw [hb]; rfl
        exact ⟨base, hsent, by rw [hst, hy]; rfl⟩
    obtain ⟨t, hexec, hleft⟩ := hfails
    have h := itemFailed_of_left hleft hhalt (hvk ▸ hkind) (hvs ▸ hvc) hvcalm
    rw [hvf, hvs, hvq] at h
    refine ⟨fun hn => ?_, fun g more hf hn hres => ?_⟩
    · rw [hexec, h.1 hn]
    · rw [hexec, h.2 g more hf hn hres]

end Sys2Proof.Machine
end

section
/-! A firing taken by one RUNNING stream (R53, R62), and the SCAN advance with the outcomes that fill its scan (R85 to
R87). -/

namespace Sys2Proof.Machine

variable {s v w : State} {i : StreamId} {p : PacerId} {n : PortId} {st c : Stream}

/-! ## A firing (R53, R62, R64) -/

/-- A RUNNING stream that takes a firing as an advance, with no stop effect after it: what the advance leaves, but for
one event that none hears. -/
theorem exec_pacerFiring_of_advance (hf : s.FiresTo p i) (hrun : (s.stream i).state = .running)
    (ha : (s.stream i).advancesOn (pacerCode p) = true)
    (hstop : (w.stream i).stopSource ≠ pacerCode p ∨ (w.stream i).state ≠ .running) (hcalm : w.Calm)
    (hadv : (s.firedAt p).advance i ⟨pacerCode p, s.timebase⟩ = w ∨
      ∃ d, w.Unheard d ∧ (s.firedAt p).advance i ⟨pacerCode p, s.timebase⟩ = w.emit d) :
    exec (.pacerFiring p) s = .next w := by
  have hsub : (s.stream i).subscribes (pacerCode p) = true := subscribes_of_running hrun ha
  have hrole : ∀ x : State, x.stream i = w.stream i → x.stopRole i ⟨pacerCode p, s.timebase⟩ = x := fun x hx =>
    hstop.elim (fun h => stopRole_of_ne (hx ▸ h)) fun h => stopRole_of_state (hx ▸ h)
  have hdeliver : (s.firedAt p).deliver i ⟨pacerCode p, s.timebase⟩ =
      ((s.firedAt p).advance i ⟨pacerCode p, s.timebase⟩).stopRole i ⟨pacerCode p, s.timebase⟩ :=
    deliver_of_running hrun ha
  refine congrArg Host.Outcome.next (pacerFires_to hf hsub hcalm ?_)
  rw [hdeliver]
  rcases hadv with hadv | ⟨d, hd, hadv⟩
  · exact .inl (hadv ▸ hrole w rfl)
  · exact .inr ⟨d, hd, hadv ▸ hrole (w.emit d) rfl⟩

theorem State.Calm.firedAt (h : s.Calm) (p : PacerId) : (s.firedAt p).Calm :=
  h.of_eq rfl rfl rfl

theorem State.Calm.setStream (h : s.Calm) (i : StreamId) (st : Stream) : (s.setStream i st).Calm :=
  h.of_eq rfl rfl rfl

/-- A firing that is not the stop source of a RUNNING stream is taken as an advance alone (R62, R64). -/
theorem exec_pacerFiring_of_setStream (hf : s.FiresTo p i) (hrun : (s.stream i).state = .running)
    (ha : (s.stream i).advancesOn (pacerCode p) = true) (hstop : c.stopSource ≠ pacerCode p) (hcalm : v.Calm)
    (hadv : (s.firedAt p).advance i ⟨pacerCode p, s.timebase⟩ = v.setStream i c) :
    exec (.pacerFiring p) s = .next (v.setStream i c) :=
  exec_pacerFiring_of_advance hf hrun ha (.inl (by rw [stream_setStream_self]; exact hstop)) (hcalm.setStream i c)
    (.inl hadv)

/-- A firing whose advance halts a RUNNING stream (R17, R64). -/
theorem exec_pacerFiring_of_faulted {cause : StreamFault} (hf : s.FiresTo p i) (hrun : (s.stream i).state = .running)
    (ha : (s.stream i).advancesOn (pacerCode p) = true) (hcalm : v.Calm)
    (hadv : (s.firedAt p).advance i ⟨pacerCode p, s.timebase⟩ = v.faulted i c cause) :
    exec (.pacerFiring p) s = .next (v.faulted i c cause) :=
  exec_pacerFiring_of_advance hf hrun ha
    (.inr (by rw [faulted_stream_self]; exact fun h => nomatch h)) (hcalm.faulted ..) (.inl hadv)

/-! ## The SCAN advance (R85, R86) -/

theorem strobe_strobe (x : SamplePort) : x.strobe.strobe = x.strobe := rfl

theorem strobeAll_port (l : List PortId) (s : State) :
    (s.strobeAll l).port n = if n ∈ l then (s.port n).strobe else s.port n := by
  induction l generalizing s with
  | nil => rfl
  | cons m l ih =>
    rw [State.strobeAll, ih]
    by_cases hm : m = n
    · subst hm
      simp [strobe_strobe]
    · simp [State.setPort_port_ne _ _ _ _ hm, Ne.symm hm]

/-- A strobe of every port of a list touches nothing but the ports (R85). -/
theorem strobeAll_frame (l : List PortId) (s : State) : s.strobeAll l = { s with ports := (s.strobeAll l).ports } := by
  induction l generalizing s with
  | nil => rfl
  | cons m l ih =>
    rw [State.strobeAll, ih]
    rfl

theorem State.Calm.strobeAll (h : s.Calm) (l : List PortId) : (s.strobeAll l).Calm := by
  rw [strobeAll_frame]
  exact h.of_eq rfl rfl rfl

theorem allIdle_iff {l : List PortId} : s.allIdle l = true ↔ ∀ n ∈ l, (s.port n).phase = .idle := by
  simp [State.allIdle]

/-- Stream context `st` with a scan begun at tick `t`, every position awaited (R85). -/
def Stream.scanning (st : Stream) (t : Tick) : Stream :=
  { st with scan := some { time := t, slots := List.replicate st.scanList.length .awaited } }

/-- An advance that finds no scan in flight and every port of the list IDLE (R85). -/
theorem scanAdvance_of_free (t : Tick) (hst : s.stream i = st) (h : st.scan = none)
    (hp : ∀ n ∈ st.scanList, (s.port n).phase = .idle) :
    s.scanAdvance i t = (s.strobeAll st.scanList).setStream i (st.scanning t) := by
  have hfree : ((s.stream i).scan.isNone && s.allIdle (s.stream i).scanList) = true := by
    rw [hst, h, allIdle_iff.2 hp]
    rfl
  exact (if_pos hfree).trans (by rw [hst]; rfl)

/-- An advance that finds a scan in flight, or a port that is not IDLE, is an overrun (R86). -/
theorem scanAdvance_of_not_free (t : Tick) (hst : s.stream i = st)
    (h : ¬(st.scan = none ∧ ∀ n ∈ st.scanList, (s.port n).phase = .idle)) :
    s.scanAdvance i t =
      if st.strict = true then (s.setStream i { st with overruns := st.overruns + 1 }).haltStream i .overrun
      else s.setStream i { st with overruns := st.overruns + 1 } := by
  subst hst
  refine if_neg fun hfree => h ?_
  obtain ⟨hs, hp⟩ := Bool.and_eq_true_iff.1 hfree
  exact ⟨Option.isNone_iff_eq_none.1 hs, allIdle_iff.1 hp⟩

theorem advance_of_scan {e : Event} (hk : (s.stream i).kind = some .scan) :
    s.advance i e = s.scanAdvance i e.stamp := by
  simp only [State.advance, hk]

theorem advancesOn_of_scan {a : Byte} (hk : st.kind = some .scan) (ha : st.advanceSource = a) :
    st.advancesOn a = true := by
  simp [Stream.advancesOn, hk, ha]

/-! ## An outcome of a port in the scan in flight (R82, R87) -/

/-- An outcome at an awaited position, with a further position awaited, is taken into the scan in flight (R87). -/
theorem portDelivers_of_awaited {fl : ScanFlight} (outcome : ScanSlot) (hh : s.holder n = some i)
    (hst : s.stream i = st) (hs : st.scan = some fl) (hk : fl.slots[st.scanList.idxOf n]? = some .awaited)
    (hmore : ScanSlot.awaited ∈ fl.slots.eraseIdx (st.scanList.idxOf n)) :
    s.portDelivers n outcome =
      (s.setPort n (SamplePort.idle (s.port n).timeout)).setStream i
        { st with scan := some { fl with slots := fl.slots.set (st.scanList.idxOf n) outcome } } := by
  have hstill : (fl.slots.set (st.scanList.idxOf n) outcome).contains .awaited = true := by
    obtain ⟨j, hj, hslot⟩ := List.mem_eraseIdx_iff_getElem?.1 hmore
    exact List.contains_iff_mem.2 (List.mem_of_getElem? (i := j) (by rw [List.getElem?_set_ne hj.symm, hslot]))
  unfold State.portDelivers State.portOutcome
  generalize hu : s.setPort n (SamplePort.idle (s.port n).timeout) = u
  have huh : u.holder n = some i := by rw [← hu]; exact hh
  have hus : u.stream i = st := by rw [← hu]; exact hst
  rw [huh]
  dsimp only
  rw [hus, hs]
  dsimp only
  rw [if_pos hk]
  unfold State.takeOutcome
  dsimp only
  rw [if_pos hstill, hus]

/-- Settles O45: the SCAN advance in its three cases, and the two outcomes of a port. -/
theorem outcomesFillTheScan : Obligations.OutcomesFillTheScan := by
  refine ⟨fun s p i hf => ?_, fun s n i fl hcalm hh => ?_⟩
  · intro st free missed hk hrun hsrc
    have hcalm : (s.firedAt p).Calm := hf.1.firedAt p
    have ha : st.advancesOn (pacerCode p) = true := advancesOn_of_scan hk hsrc
    have hadv : (s.firedAt p).advance i ⟨pacerCode p, s.timebase⟩ = (s.firedAt p).scanAdvance i s.timebase :=
      advance_of_scan hk
    refine ⟨fun hfree hstop => ?_, fun hbusy hst hstop => ?_, fun hbusy hst hcan => ?_⟩
    · have hscan := scanAdvance_of_free (s := s.firedAt p) (st := st) s.timebase rfl hfree.1 hfree.2
      have hframe := strobeAll_frame st.scanList (s.firedAt p)
      refine ⟨_, exec_pacerFiring_of_setStream (c := st.scanning s.timebase) hf hrun ha hstop
        (hcalm.strobeAll st.scanList) (hadv.trans hscan), fun n => strobeAll_port st.scanList (s.firedAt p), ?_⟩
      exact (congrArg (fun t => State.setStream t i (st.scanning s.timebase)) hframe).trans rfl
    · have hscan := scanAdvance_of_not_free (s := s.firedAt p) (st := st) s.timebase rfl hbusy
      rw [if_neg (by simp [hst])] at hscan
      exact exec_pacerFiring_of_setStream hf hrun ha hstop hcalm (hadv.trans hscan)
    · obtain ⟨hc, hfr, hr⟩ := hcan
      have hscan := scanAdvance_of_not_free (s := s.firedAt p) (st := st) s.timebase rfl hbusy
      rw [if_pos hst] at hscan
      exact exec_pacerFiring_of_faulted hf hrun ha hcalm
        (hadv.trans (hscan.trans (haltStream_setStream .overrun hrun hc hfr hr)))
  · intro st x k after hs hk hmore
    refine ⟨fun hp hb => ?_, fun hp he => ?_⟩
    · have hdue : s.resultDue n = true := by simp [State.resultDue, x, hp, hb]
      refine congrArg Host.Outcome.next ((if_pos hdue).trans ?_)
      rw [portDelivers_of_awaited _ hh rfl hs hk hmore]
      exact State.Calm.finish (hcalm.of_eq rfl rfl rfl)
    · have hdue : s.timeoutDue n = true := by simp [State.timeoutDue, x, hp, BitVec.le_def, he]
      refine congrArg Host.Outcome.next ((if_pos hdue).trans ?_)
      rw [portDelivers_of_awaited _ hh rfl hs hk hmore]
      exact State.Calm.finish (hcalm.of_eq rfl rfl rfl)

end Sys2Proof.Machine
end

section
/-! PLAY (sections 6.2 and 6.3): the words of a prefetch read that is done, and the advance that takes a word, ends the
run at the item limit or meets an empty FIFO (R104 to R108). -/

namespace Sys2Proof.Machine

variable {s v : State} {i : StreamId} {p : PacerId} {st c : Stream}

/-! ## The end of a run (R10, R15) -/

/-- The end of the run of a stream whose context a happening has just replaced, from reservations that cover its
notices. -/
theorem endRun_setStream (reason : EndReason) (hc : c.stopCommands = [])
    (hg : ∀ g, c.current = some g → g.reserved = true → g.notify = true)
    (hr : (if c.endReserved then 1 else 0) + (if c.current.any Grant.reserved then 1 else 0) ≤
      (v.rq c.replyQueue).reserved) :
    (v.setStream i c).endRun i reason = ((v.cutShortNow i c).endedRun i c.runLeft reason).emit (terminalCode i) := by
  have hself := stream_setStream_self v i c
  have hgrant : ∀ g, c.current = some g → g.reserved = true → g.notify = true ∧ (v.rq c.replyQueue).reserved ≠ 0 := by
    intro g hcur hres
    refine ⟨hg g hcur hres, ?_⟩
    rw [hcur] at hr
    simp only [Option.any_some, hres, if_true] at hr
    omega
  have h := endRun_eq_runLeft (s := v.setStream i c) (i := i) reason (by rw [hself]; exact hc)
    (by rw [hself]; exact fun g hcur _ _ => hgrant g hcur)
    (by rw [hself]; exact cutShortNow_reserved (s := v.setStream i c) hr)
  rw [h, hself, cutShortNow_setStream, endedRun_setStream]

theorem cutShortNow_stream (s : State) (i j : StreamId) (st : Stream) : (s.cutShortNow i st).stream j = s.stream j := by
  rw [State.cutShortNow_eq]
  split <;> rfl

theorem State.Calm.cutShortNow (h : s.Calm) (i : StreamId) (st : Stream) : (s.cutShortNow i st).Calm := by
  rw [State.cutShortNow_eq]
  split <;> exact h.of_eq rfl rfl rfl

theorem State.Calm.endedRun (h : s.Calm) (i : StreamId) (st : Stream) (reason : EndReason) :
    (s.endedRun i st reason).Calm :=
  h.of_eq rfl rfl rfl

theorem endedRun_stream_self (s : State) (i : StreamId) (st : Stream) (reason : EndReason) :
    (s.endedRun i st reason).stream i = { st with state := .opened, pendingStop := none, endReserved := false } :=
  stream_setStream_self s i _

/-- A firing whose advance ends the run, with a TERMINAL that none hears (R10, R64). -/
theorem exec_pacerFiring_of_endedRun {reason : EndReason} (hf : s.FiresTo p i) (hrun : (s.stream i).state = .running)
    (ha : (s.stream i).advancesOn (pacerCode p) = true) (hcalm : v.Calm) {d : Byte} (hun : s.Unheard d)
    (hne : ∀ j, j ≠ i → v.stream j = s.stream j)
    (hadv : (s.firedAt p).advance i ⟨pacerCode p, s.timebase⟩ = (v.endedRun i c reason).emit d) :
    exec (.pacerFiring p) s = .next (v.endedRun i c reason) := by
  refine exec_pacerFiring_of_advance hf hrun ha (.inr ?_) (hcalm.endedRun ..)
    (.inr ⟨d, endedRun_unheard hun hne reason, hadv⟩)
  rw [endedRun_stream_self]
  exact fun h => nomatch h

/-- Without a pending stop the stop test changes nothing (R9). -/
theorem testStop_of_none (h : (s.stream i).pendingStop = none) : s.testStop i = s :=
  if_neg (by rw [stopConditionHolds_of_none h, Bool.and_false]; exact Bool.false_ne_true)

/-! ## A prefetch read ends (R104, R105) -/

/-- A fault of an open stream whose context a happening has just replaced (R17). -/
theorem haltStream_setStream_of_open {cause : StreamFault}
    (hs : c.state = .opened ∨ c.state = .armed ∨ c.state = .running ∨ c.state = .stopping)
    (hc : c.stopCommands = [] ∧ c.faultReserved = true ∧ (v.rq c.replyQueue).reserved ≠ 0) :
    (v.setStream i c).haltStream i cause = v.faulted i c cause := by
  have hself := stream_setStream_self v i c
  have hcan : (v.setStream i c).CanHalt i := by
    unfold State.CanHalt
    rw [hself]
    exact hc
  rw [haltStream_eq_faulted cause (by rw [hself]; exact hs) hcan, hself, faulted_setStream]

/-- A grant that retires can change the waiting queue of its stream, and nothing else of it (R35, R38). -/
theorem retired_stream_self (s : State) (i : StreamId) (st : Stream) (g : Grant) :
    ∃ w, (s.retired i st g).stream i = { st with waiting := w } := by
  unfold State.retired
  dsimp only
  by_cases hagain : g.recycle = true ∧ g.count ≤ g.fill ∧ (st.state = .armed ∨ st.state = .running)
  · rw [if_pos hagain]
    by_cases hnotify : g.notify = false
    · rw [if_pos hnotify]
      exact ⟨_, stream_setStream_self s i _⟩
    · rw [if_neg hnotify]
      generalize (if g.notify = true ∧ g.reserved = true then
        (s.rq st.replyQueue).submit (bufferNotice i g s.timebase) else s.rq st.replyQueue) = y
      split <;> exact ⟨_, stream_setStream_self s i _⟩
  · rw [if_neg hagain]
    exact ⟨st.waiting, stream_setStream_self s i _⟩

theorem length_halvesOf {n : Nat} : ∀ {data : List Byte}, data.length = 2 * n → (halvesOf data).length = n := by
  induction n with
  | zero =>
    intro data h
    rw [List.eq_nil_of_length_eq_zero h]
    rfl
  | succ n ih =>
    intro data h
    match data, h with
    | _ :: _ :: rest, h => exact congrArg Nat.succ (ih (by simp only [List.length_cons] at h; omega))

/-- Data that completes a read reaches its requester (R167). -/
theorem dataReturned_of_whole {tag : Nat} {o : OutstandingRead} {data : List Byte} (ho : s.readOf tag = some o)
    (hgot : o.got = []) (hl : o.length = data.length) :
    s.dataReturned tag data = (s.endRead tag).reportDone o.who data := by
  unfold State.dataReturned
  rw [ho]
  simp [hgot, hl]

/-- Words that leave the current grant short of its item count (R104). -/
theorem prefetchDone_of_partial {rd : PlayRead} {data : List Byte} {g : Grant} (hst : s.stream i = st)
    (hrd : st.read = some rd) (hcur : st.current = some g) (hstop : st.pendingStop = none)
    (hlt : g.fill + rd.words < g.count) :
    s.prefetchDone i data =
      s.setStream i
        ({ st with
          fifo := st.fifo ++ halvesOf data
          read := none
          current := some { g with fill := g.fill + rd.words } } : Stream).prefetchTest := by
  have hpartial : ({ g with fill := g.fill + rd.words } : Grant).isPartial = true := decide_eq_true hlt
  unfold State.prefetchDone
  rw [hst]
  dsimp only
  rw [hrd]
  dsimp only
  rw [hcur]
  dsimp only
  rw [if_pos hpartial, testStop_of_none (by rw [stream_setStream_self]; exact hstop), setStream_prefetchTest]

/-- Words that fill the current grant: it retires, and the prefetch tests for its next read (R35, R104). -/
theorem prefetchDone_of_filled {rd : PlayRead} {data : List Byte} {g : Grant} (hst : s.stream i = st)
    (hrd : st.read = some rd) (hcur : st.current = some g) (hstop : st.pendingStop = none)
    (hge : g.count ≤ g.fill + rd.words)
    (hres : g.reserved = true → g.notify = true ∧ (s.rq st.replyQueue).reserved ≠ 0) :
    s.prefetchDone i data =
      (s.retired i { st with fifo := st.fifo ++ halvesOf data, read := none, current := none }
        { g with fill := g.fill + rd.words }).prefetchTest i := by
  have hpartial : ¬({ g with fill := g.fill + rd.words } : Grant).isPartial = true := fun h =>
    absurd (of_decide_eq_true h) (not_lt.2 hge)
  unfold State.prefetchDone
  rw [hst]
  dsimp only
  rw [hrd]
  dsimp only
  rw [hcur]
  dsimp only
  rw [if_neg hpartial]
  have hretire := retire_eq_retired (s := s) (i := i)
    (st := { st with fifo := st.fifo ++ halvesOf data, read := none, current := none })
    (g := { g with fill := g.fill + rd.words }) hres
  obtain ⟨w, hw⟩ := retired_stream_self s i
    { st with fifo := st.fifo ++ halvesOf data, read := none, current := none } { g with fill := g.fill + rd.words }
  refine (congrArg (fun t : State => (t.testStop i).prefetchTest i) hretire).trans ?_
  rw [testStop_of_none]
  rw [hw]
  exact hstop

/-! ## The PLAY advance (R107, R108) -/

theorem advance_of_play {e : Event} (hk : (s.stream i).kind = some .play) : s.advance i e = s.playAdvance i := by
  simp only [State.advance, hk]

theorem advancesOn_of_play {a : Byte} (hk : st.kind = some .play) (ha : st.advanceSource = a) :
    st.advancesOn a = true := by
  simp [Stream.advancesOn, hk, ha]

/-- An advance with words in the FIFO that does not reach the item limit (R107). -/
theorem playAdvance_of_below {word : Half} {rest : List Half} (hst : s.stream i = st) (hrun : st.state = .running)
    (hfifo : st.fifo = word :: rest) (hstop : st.pendingStop = none)
    (hlim : ¬({ st with fifo := rest, produced := st.produced + 1 } : Stream).AtLimit) :
    s.playAdvance i =
      (s.setPortWord st.patternPort word).setStream i
        ({ st with fifo := rest, produced := st.produced + 1 } : Stream).prefetchTest := by
  unfold State.playAdvance
  rw [hst]
  dsimp only
  rw [hfifo]
  dsimp only
  generalize hc : ({ st with fifo := rest, produced := st.produced + 1 } : Stream) = c at *
  have hrun' : c.state = .running := by rw [← hc]; exact hrun
  have hstop' : c.pendingStop = none := by rw [← hc]; exact hstop
  have hself := stream_setStream_self (s.setPortWord st.patternPort word) i c
  have hafter : ((s.setPortWord st.patternPort word).setStream i c).afterItem i =
      (s.setPortWord st.patternPort word).setStream i c := by
    unfold State.afterItem
    rw [hself, if_neg fun h => hlim (limitReached_iff.1 h), testStop_of_none (by rw [hself]; exact hstop')]
  rw [hafter, hself, hrun', if_pos (show StreamState.running.runs = true from rfl), setStream_prefetchTest]

/-- An advance that takes the last word of the item limit (R15, R107). -/
theorem playAdvance_of_limit {word : Half} {rest : List Half} (hst : s.stream i = st)
    (hfifo : st.fifo = word :: rest) (hstop : st.pendingStop = none)
    (hlim : ({ st with fifo := rest, produced := st.produced + 1 } : Stream).AtLimit)
    (hg : ∀ g, st.current = some g → g.reserved = true → g.notify = true)
    (hr : (if st.endReserved then 1 else 0) + (if st.current.any Grant.reserved then 1 else 0) ≤
      (s.rq st.replyQueue).reserved) :
    s.playAdvance i =
      State.emit
        (((s.setPortWord st.patternPort word).cutShortNow i
          { st with fifo := rest, produced := st.produced + 1 }).endedRun i
            ({ st with fifo := rest, produced := st.produced + 1 } : Stream).runLeft .limit) (terminalCode i) := by
  unfold State.playAdvance
  rw [hst]
  dsimp only
  rw [hfifo]
  dsimp only
  have hend := endRun_setStream (v := s.setPortWord st.patternPort word) (i := i)
    (c := { st with fifo := rest, produced := st.produced + 1 }) .limit (by simp [Stream.stopCommands, hstop]) hg hr
  generalize hc : ({ st with fifo := rest, produced := st.produced + 1 } : Stream) = c at *
  have hself := stream_setStream_self (s.setPortWord st.patternPort word) i c
  have hafter : ((s.setPortWord st.patternPort word).setStream i c).afterItem i =
      ((s.setPortWord st.patternPort word).setStream i c).endRun i .limit := by
    unfold State.afterItem
    rw [hself, if_pos (limitReached_iff.2 hlim)]
  rw [hafter, hend, State.emit_stream, endedRun_stream_self]
  rfl

/-- An advance that finds the FIFO empty (R108). -/
theorem playAdvance_of_empty (hst : s.stream i = st) (hfifo : st.fifo = []) (hstop : st.pendingStop = none) :
    s.playAdvance i =
      if st.starveHalt = true then s.haltStream i .underflow
      else s.setStream i { st with underflows := st.underflows + 1 } := by
  unfold State.playAdvance State.underflow
  rw [hst]
  dsimp only
  rw [hfifo]
  dsimp only
  rw [testStop_of_none (by rw [stream_setStream_self]; exact hstop)]

/-- Settles O52: the prefetch read that ends, in its three ways, and the PLAY advance in its four cases. -/
theorem prefetchWordsEnterTheFifo : Obligations.PrefetchWordsEnterTheFifo := by
  refine ⟨fun s tag o i rd hcalm ho hwho => ?_, fun s p i hf => ?_⟩
  · intro st x u hrd
    have hu : u.Calm := hcalm.of_eq rfl rfl rfl
    refine ⟨fun data g hgot hl hlen hcur hstop => ?_, fun hcan hs => ?_⟩
    · intro h c
      have hexec : exec (.readCompletion tag data) s = .next (u.prefetchDone i data).finish := by
        have h0 : exec (.readCompletion tag data) s = .next (s.dataReturned tag data).finish := rfl
        rw [h0, dataReturned_of_whole ho hgot hl, hwho]
        rfl
      refine ⟨length_halvesOf hlen, fun hlt => ?_, fun hge hres => ?_⟩
      · rw [hexec, prefetchDone_of_partial (s := u) (st := st) rfl hrd hcur hstop hlt]
        exact congrArg Host.Outcome.next (hu.setStream i _).finish
      · obtain ⟨a, b, hframe, -, -⟩ := retired_frame u i c h
        rw [hexec, prefetchDone_of_filled (s := u) (st := st) rfl hrd hcur hstop hge hres, State.prefetchTest,
          ((hu.retired i c h).setStream i _).finish]
        refine congrArg Host.Outcome.next ?_
        generalize ((u.retired i c h).stream i).prefetchTest = y
        rw [hframe]
        exact setStream_setStream { u with replyQueues := b } i a y
    · have hexec : exec (.errorCompletion tag) s = .next (u.prefetchFailed i).finish := by
        have h0 : exec (.errorCompletion tag) s = .next (s.readFailed tag).finish := rfl
        rw [h0, State.readFailed, ho]
        dsimp only
        rw [hwho]
        rfl
      have hhalt : u.prefetchFailed i = u.faulted i { st with read := none } .busError :=
        haltStream_setStream_of_open (c := { st with read := none }) hs hcan
      rw [hexec, hhalt, (hu.faulted ..).finish]
  · intro st u hk hrun hsrc hstop
    have hu : u.Calm := hf.1.firedAt p
    have ha : st.advancesOn (pacerCode p) = true := advancesOn_of_play hk hsrc
    have hadv : u.advance i ⟨pacerCode p, s.timebase⟩ = u.playAdvance i := advance_of_play hk
    refine ⟨fun word rest hfifo => ?_, fun hfifo hstarve hne => ?_, fun hfifo hstarve hcan => ?_⟩
    · intro v c
      have hv : v.Calm := hu.of_eq rfl rfl rfl
      refine ⟨fun hlim hne => ?_, fun hlim hun hg hr => ?_⟩
      · obtain ⟨cur, wait, read, hc⟩ := prefetchTest_frame c
        have hplay := playAdvance_of_below (s := u) (st := st) rfl hrun hfifo hstop hlim
        exact exec_pacerFiring_of_setStream (c := c.prefetchTest) hf hrun ha (by rw [hc]; exact hne) hv
          (hadv.trans hplay)
      · have hplay := playAdvance_of_limit (s := u) (st := st) rfl hfifo hstop hlim hg hr
        exact exec_pacerFiring_of_endedRun hf hrun ha (hv.cutShortNow i c) hun
          (fun j _ => cutShortNow_stream v i j c) (hadv.trans hplay)
    · have hplay := playAdvance_of_empty (s := u) (st := st) rfl hfifo hstop
      rw [if_neg (by simp [hstarve])] at hplay
      exact exec_pacerFiring_of_setStream hf hrun ha hne hu (hadv.trans hplay)
    · have hplay := playAdvance_of_empty (s := u) (st := st) rfl hfifo hstop
      rw [if_pos hstarve] at hplay
      exact exec_pacerFiring_of_faulted hf hrun ha hu
        (hadv.trans (hplay.trans (haltStream_eq_faulted .underflow (.inr (.inr (.inl hrun))) hcan)))

end Sys2Proof.Machine
end

section
/-! A firing in the roles of the stream that names it (R8, R14, R62, R64, R74 to R76): the TALLY advance, the start, and
the stop after whatever the advance has left. -/

namespace Sys2Proof.Machine

variable {s t u v w : State} {i : StreamId} {p : PacerId} {st c : Stream} {m : StopMode} {d : Byte}

/-! ## Events that no stream hears -/

/-- Events that none hears leave no trace, however many they are (R60, R65). -/
theorem deliverEvents_of_unheard (n : Nat) (s : State) (h : ∀ e ∈ s.emitted, s.Unheard e.code) :
    State.deliverEvents n s = { s with emitted := [] } := by
  induction n generalizing s with
  | zero => rfl
  | succ n ih =>
    unfold State.deliverEvents
    match hm : s.emitted with
    | [] =>
      dsimp only
      rw [← hm]
    | e :: rest =>
      have hnone : s.subscribers e.code = [] := State.Unheard.subscribers (h e (by rw [hm]; exact List.mem_cons_self))
      dsimp only
      rw [hnone]
      refine (ih _ fun e' he' => ?_).trans rfl
      exact h e' (by rw [hm]; exact List.mem_cons_of_mem _ he')

/-- A firing whose delivery leaves only events that none hears leaves what the delivery did (R53, R65). -/
theorem pacerFires_of_unheard (hf : s.FiresTo p i) (hsub : (s.stream i).subscribes (pacerCode p) = true)
    (hd : (s.firedAt p).deliver i ⟨pacerCode p, s.timebase⟩ = w) (hun : ∀ e ∈ w.emitted, w.Unheard e.code)
    (ht : ({ w with emitted := [] } : State).Calm) : s.pacerFires p = { w with emitted := [] } := by
  obtain ⟨hc, hw, hdue, hne⟩ := hf
  have hfires : s.firingDue p = true := by
    simpa only [State.firingDue, hw, due, beq_self_eq_true, Bool.true_and, decide_eq_true_eq] using hdue
  have hevents : (s.firePacer p).emitted = [⟨pacerCode p, s.timebase⟩] := by
    show s.emitted ++ _ = _
    rw [hc.1]
    rfl
  have hreached : (s.firePacer p).subscribers (pacerCode p) = [i] := subscribers_of_only hsub hne
  have hfired : ({ s.firePacer p with emitted := [] } : State) = s.firedAt p := by
    have : s.firedAt p = { s.firedAt p with emitted := s.emitted } := rfl
    rw [this, hc.1]
    rfl
  have hdelivered : State.deliverEvents Config.chainBound (s.firePacer p) = { w with emitted := [] } := by
    show State.deliverEvents (255 + 1) (s.firePacer p) = _
    unfold State.deliverEvents
    rw [hevents]
    dsimp only
    rw [hreached, show (s.firePacer p).orderAfter [i] = (s.firePacer p).order from rfl]
    simp only [State.deliverAll, hfired]
    exact (congrArg (State.deliverEvents 255) hd).trans (deliverEvents_of_unheard 255 w hun)
  rw [State.pacerFires, if_pos hfires]
  simp [State.finish, State.settle, Config.followOnBound, hdelivered, ht.nextFollowOn]

theorem cutShortNow_emit (s : State) (d : Byte) (i : StreamId) (st : Stream) :
    (s.emit d).cutShortNow i st = (s.cutShortNow i st).emit d := by
  unfold State.cutShortNow
  dsimp only
  split
  · split <;> split <;> rfl
  · split <;> rfl

theorem endedRun_emit (s : State) (d : Byte) (i : StreamId) (st : Stream) (reason : EndReason) :
    (s.emit d).endedRun i st reason = (s.endedRun i st reason).emit d := rfl

/-! ## The stop role after an advance (R14, R64) -/

/-- Stream context `c` takes events in the roles in which `st` takes them. -/
def Stream.SameRoles (c st : Stream) : Prop :=
  c.state = st.state ∧ c.stopMode = st.stopMode ∧ c.stopSource = st.stopSource ∧ ∀ a, c.advancesOn a = st.advancesOn a

/-- The firing of pacer `p`, taken as an advance by stream `i` where it names it so, has left the stream in context
`c`, still running, and the rest of the machine as `v`, but for a TERMINAL of the stream that none hears. -/
structure State.AdvancedTo (s : State) (p : PacerId) (i : StreamId) (v : State) (c : Stream) : Prop where
  calm : v.Calm
  streams : v.streams = s.streams
  replyQueues : v.replyQueues = s.replyQueues
  roles : c.SameRoles (s.stream i)
  advanced :
    let x := if (s.stream i).advancesOn (pacerCode p) = true then (s.firedAt p).advance i ⟨pacerCode p, s.timebase⟩
      else s.firedAt p
    x = v.setStream i c ∨ (s.Unheard (terminalCode i) ∧ x = (v.setStream i c).emit (terminalCode i))

theorem deliver_eq_stopRole {e : Event} (h : (s.stream i).state = .running) :
    s.deliver i e = (if (s.stream i).advancesOn e.code = true then s.advance i e else s).stopRole i e := by
  simp only [State.deliver, h]

/-- A stream that is STOPPING hears no event that it did not hear in RUNNING (R62). -/
theorem unheard_of_stopping (h : s.Unheard d) (hv : v.streams = s.streams) (hrun : (s.stream i).state = .running)
    (hc : c.state = .stopping) (ha : ∀ a, c.advancesOn a = (s.stream i).advancesOn a) :
    (v.setStream i c).Unheard d := by
  refine h.of_stream (i := i) (fun j hj => ?_) ?_
  · rw [stream_setStream, if_neg hj.symm, State.stream, hv]
    rfl
  · have hi := h i
    simp only [Stream.subscribes, hrun, Bool.or_eq_false_iff] at hi
    rw [stream_setStream_self]
    simp only [Stream.subscribes, hc, ha, hi.1]

/-- The stop condition of mode `m` holds for stream context `c` (R9), RING and TALLY streams under BUFFER apart. -/
def Stream.StopHolds (c : Stream) (m : StopMode) : Prop :=
  m = .now ∨ (m = .item ∧ (c.kind ≠ some .scan ∨ c.scan = none)) ∨
    (m = .buffer ∧ c.current = none ∧
      (c.kind = some .scan ∨ c.kind = some .stamp ∨ (c.kind = some .play ∧ c.fifo = [])))

/-- A firing that is the stop source of a RUNNING stream stops it after the advance: it waits in STOPPING where the
condition of its mode does not hold (R9, R14, R64). -/
theorem exec_pacerFiring_of_waiting_stop (h : s.AdvancedTo p i v c) (hf : s.FiresTo p i)
    (hrun : (s.stream i).state = .running) (hsrc : (s.stream i).stopSource = pacerCode p)
    (hm : (s.stream i).stopMode = some m) (hn : ¬c.StopHolds m) :
    exec (.pacerFiring p) s =
      .next (v.setStream i
        { c with state := .stopping, pendingStop := some { mode := m, commands := [], event := true } }) := by
  obtain ⟨hcalm, hstreams, -, ⟨hstate, hmode, hsource, hadvs⟩, hadv⟩ := h
  have hsub : (s.stream i).subscribes (pacerCode p) = true := by simp [Stream.subscribes, hrun, hsrc]
  have hspec := fun x : State => (stopRole_spec (v := x) (i := i) (e := ⟨pacerCode p, s.timebase⟩)
    (hstate.trans hrun) (hmode.trans hm) (hsource.trans hsrc)).1 hn
  have hdel := deliver_eq_stopRole (s := s.firedAt p) (e := ⟨pacerCode p, s.timebase⟩) hrun
  refine congrArg Host.Outcome.next (pacerFires_to hf hsub (hcalm.setStream i _) ?_)
  rcases hadv with hadv | ⟨hun, hadv⟩
  · exact .inl (hdel.trans ((congrArg (fun x => State.stopRole x i _) hadv).trans (hspec v)))
  · exact .inr ⟨_, unheard_of_stopping hun hstreams hrun rfl hadvs,
      hdel.trans ((congrArg (fun x => State.stopRole x i _) hadv).trans (hspec (v.emit (terminalCode i))))⟩

/-- Where the condition holds, the run ends at once (R9, R10, R14, R64). -/
theorem exec_pacerFiring_of_ending_stop (h : s.AdvancedTo p i v c) (hf : s.FiresTo p i)
    (hrun : (s.stream i).state = .running) (hsrc : (s.stream i).stopSource = pacerCode p)
    (hm : (s.stream i).stopMode = some m) (hy : c.StopHolds m) (hun : s.Unheard (terminalCode i))
    (hg : ∀ g, c.current = some g → g.reserved = true → g.notify = true)
    (hr : (if c.endReserved then 1 else 0) + (if c.current.any Grant.reserved then 1 else 0) ≤
      (s.rq c.replyQueue).reserved) :
    exec (.pacerFiring p) s = .next ((v.cutShortNow i c).endedRun i c.runLeft .stopEvent) := by
  obtain ⟨hcalm, hstreams, hrqs, ⟨hstate, hmode, hsource, hadvs⟩, hadv⟩ := h
  have hsub : (s.stream i).subscribes (pacerCode p) = true := by simp [Stream.subscribes, hrun, hsrc]
  have hr' : (if c.endReserved then 1 else 0) + (if c.current.any Grant.reserved then 1 else 0) ≤
      (v.rq c.replyQueue).reserved := by
    rw [State.rq, hrqs]
    exact hr
  have hspec := fun (x : State) hx => (stopRole_spec (v := x) (i := i) (e := ⟨pacerCode p, s.timebase⟩)
    (hstate.trans hrun) (hmode.trans hm) (hsource.trans hsrc)).2 hy hg hx
  have hdel := deliver_eq_stopRole (s := s.firedAt p) (e := ⟨pacerCode p, s.timebase⟩) hrun
  have hend : ((v.cutShortNow i c).endedRun i c.runLeft .stopEvent).Calm := (hcalm.cutShortNow i c).endedRun ..
  have hun' : ((v.cutShortNow i c).endedRun i c.runLeft .stopEvent).Unheard (terminalCode i) := by
    refine endedRun_unheard hun (fun j _ => ?_) .stopEvent
    rw [cutShortNow_stream, State.stream, hstreams]
    rfl
  rcases hadv with hadv | ⟨-, hadv⟩
  · exact congrArg Host.Outcome.next (pacerFires_to hf hsub hend
      (.inr ⟨_, hun', hdel.trans ((congrArg (fun x => State.stopRole x i _) hadv).trans (hspec v hr'))⟩))
  · have hd := hdel.trans
      ((congrArg (fun x => State.stopRole x i _) hadv).trans (hspec (v.emit (terminalCode i)) hr'))
    rw [cutShortNow_emit, endedRun_emit] at hd
    generalize (v.cutShortNow i c).endedRun i c.runLeft .stopEvent = x at *
    have hnone : ({ (x.emit (terminalCode i)).emit (terminalCode i) with emitted := [] } : State) = x := by
      simp only [State.emit, ← hend.1]
    refine congrArg Host.Outcome.next ((pacerFires_of_unheard hf hsub hd (fun e he => ?_) ?_).trans hnone)
    · have : e.code = terminalCode i := by
        simp only [State.emit, hend.1, List.nil_append, List.mem_append, List.mem_singleton, or_self] at he
        rw [he]
      rw [this]
      exact hun'
    · rw [hnone]
      exact hend

/-! ## What each advance leaves before the stop (R61, R64, R74, R85, R86, R90, R107, R108) -/

/-- An advance that leaves the rest of the machine as the firing did. -/
theorem advancedTo_of_fired (hcalm : s.Calm) (hroles : c.SameRoles (s.stream i))
    (ha : (s.stream i).advancesOn (pacerCode p) = true)
    (hadv : (s.firedAt p).advance i ⟨pacerCode p, s.timebase⟩ = (s.firedAt p).setStream i c ∨
      (s.Unheard (terminalCode i) ∧ (s.firedAt p).advance i ⟨pacerCode p, s.timebase⟩ =
        ((s.firedAt p).setStream i c).emit (terminalCode i))) : s.AdvancedTo p i (s.firedAt p) c where
  calm := hcalm.firedAt p
  streams := rfl
  replyQueues := rfl
  roles := hroles
  advanced := by
    rw [if_pos ha]
    exact hadv

/-- A firing that the stream does not name as an advance (R61). -/
theorem advancedTo_of_not_advance (hcalm : s.Calm) (ha : (s.stream i).advancesOn (pacerCode p) = false) :
    s.AdvancedTo p i (s.firedAt p) (s.stream i) where
  calm := hcalm.firedAt p
  streams := rfl
  replyQueues := rfl
  roles := ⟨rfl, rfl, rfl, fun _ => rfl⟩
  advanced := by
    rw [if_neg (by rw [ha]; exact Bool.false_ne_true)]
    exact .inl (setStream_self (s.firedAt p) i).symm

theorem advance_of_tally {e : Event} (hk : (s.stream i).kind = some .tally) : s.advance i e = s.tallyAdvance i := by
  simp only [State.advance, hk]

theorem advancesOn_of_tally {a : Byte} (hk : st.kind = some .tally) (ha : st.advanceSource = a) :
    st.advancesOn a = true := by
  simp [Stream.advancesOn, hk, ha]

/-- Stream context `st` with one event more counted (R74). -/
def Stream.counted (st : Stream) : Stream :=
  { st with tally := st.tally + 1, produced := st.produced + 1 }

/-- A TALLY advance below the target counts (R74). -/
theorem tallyAdvance_of_below (hst : s.stream i = st) (hlt : st.counted.tally.toNat < st.tallyTarget.toNat) :
    s.tallyAdvance i = s.setStream i st.counted := by
  subst hst
  exact if_pos hlt

/-- A TALLY advance that reaches the target of a RUNNING stream (R75, R76). -/
theorem tallyAdvance_of_target (hst : s.stream i = st) (hrun : st.state = .running)
    (hge : st.tallyTarget.toNat ≤ st.counted.tally.toNat) :
    s.tallyAdvance i =
      if st.reload = true then (s.setStream i { st.counted with tally := 0 }).emit (terminalCode i)
      else (s.setStream i st.counted).endRun i .target := by
  subst hst
  refine (if_neg (not_lt.2 hge)).trans (if_congr Iff.rfl (if_neg ?_) rfl)
  exact fun h => nomatch hrun.symm.trans h

/-- A TALLY advance that reaches the target without reload ends the run (R15, R76). -/
theorem tallyAdvance_of_end (hst : s.stream i = st) (hrun : st.state = .running) (hk : st.kind = some .tally)
    (hge : st.tallyTarget.toNat ≤ st.counted.tally.toNat) (hreload : st.reload = false) (hstop : st.pendingStop = none)
    (hcur : st.current = none) (hres : st.endReserved = true → (s.rq st.replyQueue).reserved ≠ 0) :
    s.tallyAdvance i = (s.endedRun i st.counted .target).emit (terminalCode i) := by
  have hself := stream_setStream_self s i st.counted
  have hcmds : st.counted.stopCommands = [] := by simp [Stream.stopCommands, Stream.counted, hstop]
  have hkind : st.counted.kind = some .tally := hk
  have hcur' : st.counted.current = none := hcur
  have hend := endRun_eq_endedRun (s := s.setStream i st.counted) (i := i) .target (by rw [hself]; exact hcmds)
    (by rw [hself, hkind]; decide) (by rw [hself, hkind]; exact fun h => nomatch h)
    (by rw [hself, hcur']; exact fun g h => nomatch h) (by rw [hself]; exact hres)
  rw [tallyAdvance_of_target hst hrun hge, if_neg (by simp [hreload]), hend, hself, currentFinishes_of_none hcur',
    endedRun_setStream]

theorem advance_of_stamp {e : Event} (hk : (s.stream i).kind = some .stamp) : s.advance i e = s.stampAdvance i e := by
  simp only [State.advance, hk]

theorem placed_sameRoles (st : Stream) (g : Grant) (n : Half) (bytes : List Byte) :
    (st.placed g n bytes).SameRoles st := by
  unfold Stream.placed
  dsimp only
  split <;> exact ⟨rfl, rfl, rfl, fun _ => rfl⟩

/-- An item changes none of the roles of its stream. -/
theorem completed_sameRoles (st : Stream) (bytes : List Byte) (late : Bool) :
    (st.completed bytes late).1.SameRoles st := by
  unfold Stream.completed
  dsimp only
  split
  · exact ⟨rfl, rfl, rfl, fun _ => rfl⟩
  · split
    · exact placed_sameRoles ..
    · exact placed_sameRoles ..
    · exact ⟨rfl, rfl, rfl, fun _ => rfl⟩

/-- A STAMP advance whose item brings no fault and does not reach the item limit (R90, R92). -/
theorem stampAdvance_of_completed {e : Event} (hst : s.stream i = st) (hrun : st.state = .running)
    (hstop : st.pendingStop = none) (hcan : s.CanHalt i) (hk : st.kind = some .stamp)
    (hfault : (st.completed (stampItem e st.sequence) false).2 = none)
    (hlim : ¬(st.completed (stampItem e st.sequence) false).1.AtLimit) :
    s.stampAdvance i e = s.setStream i (st.completed (stampItem e st.sequence) false).1 := by
  subst hst
  have hkinds : (s.stream i).kind ≠ some .play ∧ ((s.stream i).kind = some .scan → (s.stream i).scan = none) := by
    rw [hk]
    exact ⟨by decide, fun h => nomatch h⟩
  have hspec := completeItem_spec (s := s) (i := i) (stampItem e) false hrun hstop hcan hkinds.1 hkinds.2
    (fun h => absurd h hlim)
  refine (hspec.resolve_right fun h => hlim h.1).trans ?_
  unfold State.itemTaken
  rw [hfault]
  dsimp only
  rw [if_neg hlim]
  rfl

/-- The ports that a strobe of a list leaves (R85), given port by port. -/
theorem strobeAll_of_ports {l : List PortId} (hv : v = { s with ports := v.ports })
    (hp : ∀ n, v.port n =
      if n ∈ l then
        { s.port n with phase := .waitReady, inForce := (s.port n).timeout, elapsed := 0, shift := 0, bits := 0 }
      else s.port n) : s.strobeAll l = v := by
  have hports : (s.strobeAll l).ports = v.ports := by
    refine Vector.ext fun k hk => ?_
    exact (strobeAll_port (n := ⟨k, hk⟩) l s).trans (hp ⟨k, hk⟩).symm
  rw [strobeAll_frame, hports]
  exact hv.symm

/-- A TALLY advance below the target (R74). -/
theorem advancedTo_of_tally_below (hcalm : s.Calm) (hk : (s.stream i).kind = some .tally)
    (ha : (s.stream i).advanceSource = pacerCode p)
    (hlt : (s.stream i).counted.tally.toNat < (s.stream i).tallyTarget.toNat) :
    s.AdvancedTo p i (s.firedAt p) (s.stream i).counted :=
  advancedTo_of_fired hcalm ⟨rfl, rfl, rfl, fun _ => rfl⟩ (advancesOn_of_tally hk ha)
    (.inl ((advance_of_tally (s := s.firedAt p) hk).trans (tallyAdvance_of_below (s := s.firedAt p) rfl hlt)))

/-- A TALLY advance that reaches the target under reload (R75). -/
theorem advancedTo_of_tally_reload (hcalm : s.Calm) (hrun : (s.stream i).state = .running)
    (hk : (s.stream i).kind = some .tally) (ha : (s.stream i).advanceSource = pacerCode p)
    (hge : (s.stream i).tallyTarget.toNat ≤ (s.stream i).counted.tally.toNat) (hreload : (s.stream i).reload = true)
    (hun : s.Unheard (terminalCode i)) :
    s.AdvancedTo p i (s.firedAt p) { (s.stream i).counted with tally := 0 } :=
  advancedTo_of_fired hcalm ⟨rfl, rfl, rfl, fun _ => rfl⟩ (advancesOn_of_tally hk ha)
    (.inr ⟨hun, (advance_of_tally (s := s.firedAt p) hk).trans
      ((tallyAdvance_of_target (s := s.firedAt p) (st := s.stream i) rfl hrun hge).trans (if_pos hreload))⟩)

/-- A STAMP advance whose item brings no fault and does not reach the item limit (R90). -/
theorem advancedTo_of_stamp (hcalm : s.Calm) (hrun : (s.stream i).state = .running)
    (hstop : (s.stream i).pendingStop = none) (hcan : s.CanHalt i) (hk : (s.stream i).kind = some .stamp)
    (ha : pacerCode p ∈ (s.stream i).advanceSet)
    (hfault : ((s.stream i).completed (stampItem ⟨pacerCode p, s.timebase⟩ (s.stream i).sequence) false).2 = none)
    (hlim : ¬((s.stream i).completed (stampItem ⟨pacerCode p, s.timebase⟩ (s.stream i).sequence) false).1.AtLimit) :
    s.AdvancedTo p i (s.firedAt p)
      ((s.stream i).completed (stampItem ⟨pacerCode p, s.timebase⟩ (s.stream i).sequence) false).1 := by
  have hadv : (s.stream i).advancesOn (pacerCode p) = true := by simp [Stream.advancesOn, hk, ha]
  exact advancedTo_of_fired hcalm (completed_sameRoles ..) hadv
    (.inl ((advance_of_stamp (s := s.firedAt p) hk).trans
      (stampAdvance_of_completed (s := s.firedAt p) rfl hrun hstop hcan hk hfault hlim)))

/-- A SCAN advance that begins a scan (R85). -/
theorem advancedTo_of_scan (hcalm : s.Calm) (hk : (s.stream i).kind = some .scan)
    (ha : (s.stream i).advanceSource = pacerCode p) (hscan : (s.stream i).scan = none)
    (hidle : ∀ n ∈ (s.stream i).scanList, (s.port n).phase = .idle) (hv : v = { s.firedAt p with ports := v.ports })
    (hports : ∀ n, v.port n =
      if n ∈ (s.stream i).scanList then
        { s.port n with phase := .waitReady, inForce := (s.port n).timeout, elapsed := 0, shift := 0, bits := 0 }
      else s.port n) : s.AdvancedTo p i v ((s.stream i).scanning s.timebase) := by
  have hstrobe : (s.firedAt p).strobeAll (s.stream i).scanList = v := strobeAll_of_ports hv hports
  have hadv := scanAdvance_of_free (s := s.firedAt p) (st := s.stream i) s.timebase rfl hscan hidle
  rw [hstrobe] at hadv
  refine ⟨?_, ?_, ?_, ⟨rfl, rfl, rfl, fun _ => rfl⟩, ?_⟩
  · rw [← hstrobe]
    exact (hcalm.firedAt p).strobeAll _
  · rw [hv]
    rfl
  · rw [hv]
    rfl
  · rw [if_pos (advancesOn_of_scan hk ha)]
    exact .inl ((advance_of_scan (s := s.firedAt p) hk).trans hadv)

/-- A SCAN advance that is an overrun, without STRICT (R86). -/
theorem advancedTo_of_overrun (hcalm : s.Calm) (hk : (s.stream i).kind = some .scan)
    (ha : (s.stream i).advanceSource = pacerCode p)
    (hbusy : ¬((s.stream i).scan = none ∧ ∀ n ∈ (s.stream i).scanList, (s.port n).phase = .idle))
    (hstrict : (s.stream i).strict = false) :
    s.AdvancedTo p i (s.firedAt p) { s.stream i with overruns := (s.stream i).overruns + 1 } :=
  advancedTo_of_fired hcalm ⟨rfl, rfl, rfl, fun _ => rfl⟩ (advancesOn_of_scan hk ha)
    (.inl ((advance_of_scan (s := s.firedAt p) hk).trans
      ((scanAdvance_of_not_free (s := s.firedAt p) (st := s.stream i) s.timebase rfl hbusy).trans
        (if_neg (by simp [hstrict])))))

/-- A PLAY advance with a word in the FIFO, below the item limit (R107). -/
theorem advancedTo_of_word {word : Half} {rest : List Half} (hcalm : s.Calm) (hrun : (s.stream i).state = .running)
    (hstop : (s.stream i).pendingStop = none) (hk : (s.stream i).kind = some .play)
    (ha : (s.stream i).advanceSource = pacerCode p) (hfifo : (s.stream i).fifo = word :: rest)
    (hlim : (s.stream i).itemLimit = 0 ∨ ((s.stream i).produced + 1).toNat < (s.stream i).itemLimit.toNat) :
    s.AdvancedTo p i { s.firedAt p with patternWord := s.patternWord.set (s.stream i).patternPort word }
      ({ s.stream i with fifo := rest, produced := (s.stream i).produced + 1 } : Stream).prefetchTest := by
  have hbelow : ¬({ s.stream i with fifo := rest, produced := (s.stream i).produced + 1 } : Stream).AtLimit :=
    fun h => hlim.elim h.1 (not_lt.2 h.2)
  have hplay := playAdvance_of_below (s := s.firedAt p) rfl hrun hfifo hstop hbelow
  obtain ⟨cur, wait, read, hc⟩ :=
    prefetchTest_frame ({ s.stream i with fifo := rest, produced := (s.stream i).produced + 1 } : Stream)
  refine ⟨hcalm.of_eq rfl rfl rfl, rfl, rfl, ?_, ?_⟩
  · rw [hc]
    exact ⟨rfl, rfl, rfl, fun _ => rfl⟩
  · rw [if_pos (advancesOn_of_play hk ha)]
    exact .inl ((advance_of_play (s := s.firedAt p) hk).trans hplay)

/-- A PLAY advance that is an underflow, without STARVE_HALT (R108). -/
theorem advancedTo_of_underflow (hcalm : s.Calm) (hstop : (s.stream i).pendingStop = none)
    (hk : (s.stream i).kind = some .play) (ha : (s.stream i).advanceSource = pacerCode p)
    (hfifo : (s.stream i).fifo = []) (hstarve : (s.stream i).starveHalt = false) :
    s.AdvancedTo p i (s.firedAt p) { s.stream i with underflows := (s.stream i).underflows + 1 } :=
  advancedTo_of_fired hcalm ⟨rfl, rfl, rfl, fun _ => rfl⟩ (advancesOn_of_play hk ha)
    (.inl ((advance_of_play (s := s.firedAt p) hk).trans
      ((playAdvance_of_empty (s := s.firedAt p) (st := s.stream i) rfl hfifo hstop).trans
        (if_neg (by simp [hstarve])))))

/-- Settles O42: the TALLY advance, the start of an ARMED stream, and the stop after each advance. -/
theorem firingCountsATally : Obligations.FiringCountsATally := by
  refine ⟨fun s p i hf => ?_, fun s p i m v c hf => ?_⟩
  · intro st u counted
    have hu : u.Calm := hf.1.firedAt p
    refine ⟨fun hk hrun hsrc => ?_, fun harmed hsrc => ?_⟩
    · have ha : st.advancesOn (pacerCode p) = true := advancesOn_of_tally hk hsrc
      have hadv : u.advance i ⟨pacerCode p, s.timebase⟩ = u.tallyAdvance i := advance_of_tally hk
      refine ⟨fun hne hlt => ?_, fun hne hge hreload hun => ?_, fun hge hreload hun hstop hcur hres => ?_⟩
      · have htally := tallyAdvance_of_below (s := u) (st := st) rfl hlt
        exact exec_pacerFiring_of_setStream (c := counted) hf hrun ha hne hu (hadv.trans htally)
      · have htally := tallyAdvance_of_target (s := u) (st := st) rfl hrun hge
        rw [if_pos hreload] at htally
        refine exec_pacerFiring_of_advance (w := u.setStream i { counted with tally := 0 }) hf hrun ha (.inl ?_)
          (hu.setStream i _) (.inr ⟨_, ?_, hadv.trans htally⟩)
        · rw [stream_setStream_self]
          exact hne
        · refine hun.of_stream (i := i) (fun j hj => ?_) ?_
          · rw [stream_setStream, if_neg hj.symm]
            rfl
          · rw [stream_setStream_self]
            exact hun i
      · have htally := tallyAdvance_of_end (s := u) (st := st) rfl hrun hk hge hreload hstop hcur hres
        exact exec_pacerFiring_of_endedRun hf hrun ha hu hun (fun j _ => rfl) (hadv.trans htally)
    · have hsub : (s.stream i).subscribes (pacerCode p) = true := subscribes_of_armed harmed hsrc
      have hdel := deliver_of_armed (s := u) (i := i) (e := ⟨pacerCode p, s.timebase⟩) harmed hsrc
      refine ⟨fun hk => ?_, fun hk hlim hpacer => ?_⟩
      · exact congrArg Host.Outcome.next (pacerFires_to hf hsub (hu.setStream i _)
          (.inl (hdel.trans (startRun_of_ne_ring _ hk))))
      · intro k
        have hstart := startRun_of_ring (s := u) (i := i) (st := st) s.timebase hk
        rw [if_neg hlim, show u.setStream i st = u from setStream_self u i] at hstart
        have hring : (u.ringStarted i st s.timebase).Calm := hu.of_eq rfl rfl rfl
        refine congrArg Host.Outcome.next ((pacerFires_to hf hsub hring (.inl (hdel.trans hstart))).trans ?_)
        have hpac : u.pacer st.pacer = s.pacer st.pacer := (vector_get_set ..).trans (if_neg (Ne.symm hpacer))
        unfold State.ringStarted
        rw [hpac]
        rfl
  · intro st u advances free counted item holds hrun hsrc hm hstop hcase
    have hadv : s.AdvancedTo p i v c := by
      rcases hcase with ⟨ha, rfl, rfl⟩ | ⟨hk, ha, hlt, rfl, rfl⟩ | ⟨hk, ha, hge, hreload, hun, rfl, rfl⟩ |
        ⟨hk, ha, hcan, hfault, hlim, rfl, rfl⟩ | ⟨hk, ha, hfree, hports, hv, rfl⟩ | ⟨hk, ha, hbusy, hstrict, rfl, rfl⟩ |
        ⟨hk, ha, hlim, word, rest, hfifo, rfl, rfl⟩ | ⟨hk, ha, hfifo, hstarve, rfl, rfl⟩
      · exact advancedTo_of_not_advance hf.1 ha
      · exact advancedTo_of_tally_below hf.1 hk ha hlt
      · exact advancedTo_of_tally_reload hf.1 hrun hk ha hge hreload hun
      · exact advancedTo_of_stamp hf.1 hrun hstop hcan hk ha hfault hlim
      · exact advancedTo_of_scan hf.1 hk ha hfree.1 hfree.2 hv hports
      · exact advancedTo_of_overrun hf.1 hk ha hbusy hstrict
      · exact advancedTo_of_word hf.1 hrun hstop hk ha hfifo hlim
      · exact advancedTo_of_underflow hf.1 hstop hk ha hfifo hstarve
    refine ⟨fun hn => ?_, fun hy hun hg hr => ?_⟩
    · rw [exec_pacerFiring_of_waiting_stop hadv hf hrun hsrc hm hn, ← hadv.streams]
      rfl
    · exact exec_pacerFiring_of_ending_stop hadv hf hrun hsrc hm hy hun hg hr

end Sys2Proof.Machine
end

section
/-! Grants of a stream (chapter 2): the commands GRANT and RECLAIM (R28 to R30), the prefetch that asks for words of a
grant (R32, R103), and the retirement of the oldest FINISHING grant (R35, R37 to R39). -/

namespace Sys2Proof.Machine

variable {s : State} {i : StreamId} {st : Stream} {g : Grant} {rest : List Grant}

/-! ## The prefetch test (R32, R103) -/

/-- A prefetch with a current grant promotes none, and one without takes the head of the waiting queue where the FIFO
has room and BUFFER does not govern: either way `g` is current then (R32, R103). -/
theorem promoteForRead_eq
    (h : (st.current = some g ∧ st.waiting = rest) ∨
      (st.current = none ∧ st.waiting = g :: rest ∧ st.fifo.length < 16 ∧ st.bufferGoverns = false)) :
    st.promoteForRead = { st with current := some g, waiting := rest } := by
  rcases h with ⟨hc, hw⟩ | ⟨hc, hw, hlt, hb⟩
  · have hkeep : st.promoteForRead = st := by
      unfold Stream.promoteForRead
      rw [hc]
    rw [hkeep, ← hc, ← hw]
  · have hroom : st.fifoRoom ≠ 0 := by
      have : Config.fifoDepth = 16 := rfl
      unfold Stream.fifoRoom
      omega
    unfold Stream.promoteForRead
    rw [hc, hw]
    exact if_pos (by simp [hroom, hb])

/-- The words that a read from the next word of `g` may at most ask for: those left in the grant, and those up to the
next page (R103). -/
def Grant.readLimit (g : Grant) : Nat :=
  min (g.count - g.fill) (bytesToPage g.nextWord / 2)

/-- A prefetch asks for the next words of its current grant where words are left and the room is enough (R103). -/
theorem askRead_of_room (hc : st.current = some g) (hleft : g.fill < g.count)
    (hroom : min 8 g.readLimit ≤ st.fifoRoom) :
    st.askRead =
      { st with
        read := some
          { grant := g.number
            start := g.fill
            words := min st.fifoRoom g.readLimit
            address := g.nextWord
            served := false } } := by
  have hremaining : g.count - g.fill ≠ 0 := Nat.sub_ne_zero_of_lt hleft
  unfold Stream.askRead
  rw [hc]
  exact if_pos (Bool.and_eq_true_iff.2 ⟨decide_eq_true hremaining, decide_eq_true hroom⟩)

/-- Settles O57: the grant is current after the promotion, and the read is asked for from its next word. -/
theorem prefetchAsksForWords : Obligations.PrefetchAsksForWords := by
  intro s i g rest st hkind hactive hread hgrant room address limit hleft hroom
  have htest : st.prefetchTest = st.promoteForRead.askRead := if_pos ⟨hkind, hactive, hread⟩
  have hrow : exec (.prefetchRead i) s = .next (s.setStream i st.prefetchTest) := rfl
  rw [hrow, htest, promoteForRead_eq hgrant]
  have hask := askRead_of_room (st := { st with current := some g, waiting := rest }) rfl hleft hroom
  exact congrArg (fun x => Host.Outcome.next (s.setStream i x)) hask

/-- Promotion moves a grant from one list of the stream to another (R27, R32). -/
theorem promoteForRead_grantsHeld (st : Stream) : st.promoteForRead.grantsHeld = st.grantsHeld := by
  unfold Stream.promoteForRead
  split
  · rename_i hc hw
    split
    · simp only [Stream.grantsHeld, hc, hw, List.length_cons, Option.isSome_some, Option.isSome_none]
      simp only [if_true, Bool.false_eq_true, if_false]
      omega
    · rfl
  · rfl

theorem askRead_grantsHeld (st : Stream) : st.askRead.grantsHeld = st.grantsHeld := by
  unfold Stream.askRead
  split
  · rfl
  · dsimp only
    split <;> rfl

/-- The prefetch test neither adds nor removes a grant (R27, R103). -/
theorem prefetchTest_grantsHeld (st : Stream) : st.prefetchTest.grantsHeld = st.grantsHeld := by
  unfold Stream.prefetchTest
  split
  · rw [askRead_grantsHeld, promoteForRead_grantsHeld]
  · rfl

/-! ## GRANT (R28, R29) -/

/-- Stream context `st` with grant `g` at the tail of its waiting queue, where a prefetch that waits for a grant goes on
at once (R28, R29). -/
def Stream.granted (st : Stream) (g : Grant) : Stream :=
  ({ st with waiting := st.waiting ++ [g] } : Stream).prefetchTest

/-- A GRANT adds one to the grants that its stream holds (R27). -/
theorem granted_grantsHeld (st : Stream) (g : Grant) : (st.granted g).grantsHeld = st.grantsHeld + 1 := by
  rw [Stream.granted, prefetchTest_grantsHeld]
  simp only [Stream.grantsHeld, List.length_append, List.length_singleton]
  omega

/-- State `s` with a reservation more at reply queue `p` where one is asked for, and stream `i` replaced by `x`: what a
GRANT leaves before it replies (R28). -/
def State.grantPlaced (s : State) (notify : Bool) (p : RqId) (i : StreamId) (x : Stream) : State :=
  { s with
    streams := s.streams.set i x
    replyQueues := if notify then (s.reserve p).replyQueues else s.replyQueues }

/-- A GRANT takes no reservation away (R147). -/
theorem grantPlaced_reserved_ne_zero {p' : RqId} (h : (s.rq p').reserved ≠ 0) (notify : Bool) (p : RqId)
    (i : StreamId) (x : Stream) : ((s.grantPlaced notify p i x).rq p').reserved ≠ 0 := by
  cases notify
  · exact h
  · exact reserve_reserved_ne_zero h p

/-- GRANT taken where its checks pass (R28, R29). -/
theorem takeGrant_of_ok {k : SlotId} {r : RecordBody} (h : s.grantCheck r = .ok)
    (hst : s.stream (streamOf r) = st) :
    s.takeGrant k r =
      (s.grantPlaced r.optNotify st.replyQueue (streamOf r) (st.granted (newGrant st r))).complete k .ok
        (BitVec.ofNat 32 (st.grantsHeld + 1)) (BitVec.ofNat 32 (st.granted (newGrant st r)).waiting.length) := by
  have hplaced : ((if r.optNotify then s.reserve st.replyQueue else s).appendWaiting (streamOf r)
      (newGrant st r)).prefetchTest (streamOf r) =
      s.grantPlaced r.optNotify st.replyQueue (streamOf r) (st.granted (newGrant st r)) := by
    have hkeep : (if r.optNotify then s.reserve st.replyQueue else s).stream (streamOf r) = st := by
      rw [← hst]
      split <;> rfl
    rw [State.appendWaiting, hkeep, setStream_prefetchTest]
    cases r.optNotify <;> rfl
  have hself : (s.grantPlaced r.optNotify st.replyQueue (streamOf r) (st.granted (newGrant st r))).stream
      (streamOf r) = st.granted (newGrant st r) := stream_setStream_self s _ _
  simp only [State.takeGrant, h, hst, hplaced, hself, granted_grantsHeld]

/-- Settles O23: the reservation and the grant at the tail, the prefetch gone on, are what GRANT leaves beside its
answer. -/
theorem grantJoinsTheTail : Obligations.GrantJoinsTheTail := by
  intro s q r f e h hok st notify g x u
  have hok' : u.grantCheck r = .ok := hok
  have hrun : u.runOpcode f.slot q .grant r =
      (u.grantPlaced notify st.replyQueue (streamOf r) x).complete f.slot .ok (BitVec.ofNat 32 (st.grantsHeld + 1))
        (BitVec.ofNat 32 x.waiting.length) := takeGrant_of_ok hok' rfl
  have hr := grantPlaced_reserved_ne_zero (s := u) h.reserved notify st.replyQueue (streamOf r) x
  exact exec_of_completes (op := .grant) h rfl hrun hr rfl rfl rfl rfl

/-! ## RECLAIM (R30) -/

/-- The current and finishing grants are what a RECLAIM leaves of the grants held (R27, R30). -/
theorem grantsHeld_of_reclaimed (st : Stream) :
    ({ st with waiting := [] } : Stream).grantsHeld = st.grantsHeld - st.waiting.length := by
  simp only [Stream.grantsHeld, List.length_nil]
  omega

/-- RECLAIM taken where its checks pass (R30). -/
theorem takeReclaim_of_ok {k : SlotId} {r : RecordBody} (h : s.reclaimCheck r = .ok)
    (hst : s.stream (streamOf r) = st) :
    s.takeReclaim k r =
      ((s.setStream (streamOf r) { st with waiting := [] }).setRq st.replyQueue
        { s.rq st.replyQueue with
          reserved := (s.rq st.replyQueue).reserved - st.waiting.countP fun g => g.reserved }).complete k .ok
        (BitVec.ofNat 32 st.waiting.length) (BitVec.ofNat 32 (st.grantsHeld - st.waiting.length)) := by
  simp only [State.takeReclaim, h, hst, releaseGrants_eq, State.setRq_stream, State.setStream_stream_self,
    State.setStream_rq, grantsHeld_of_reclaimed]

/-- Settles O24: the emptied waiting queue and the reservations given back are what RECLAIM leaves beside its answer. -/
theorem reclaimReturnsWaitingGrants : Obligations.ReclaimReturnsWaitingGrants := by
  intro s q r f e h hok st n x hlt
  let u := s.withRecord f e ⟨0x19, r⟩
  have hok' : u.reclaimCheck r = .ok := hok
  have hrun : u.runOpcode f.slot q .reclaim r =
      ((u.setStream (streamOf r) { st with waiting := [] }).setRq st.replyQueue
        { x with reserved := x.reserved - n }).complete f.slot .ok (BitVec.ofNat 32 st.waiting.length)
        (BitVec.ofNat 32 (st.grantsHeld - st.waiting.length)) := takeReclaim_of_ok hok' rfl
  have hr : ((u.setRq st.replyQueue { x with reserved := x.reserved - n }).rq e.replyQueue).reserved ≠ 0 := by
    rw [State.setRq_rq]
    split
    · exact Nat.sub_ne_zero_of_lt hlt
    · exact h.reserved
  exact exec_of_completes (op := .reclaim) h rfl hrun hr rfl rfl rfl rfl

/-! ## Retirement (R35, R37 to R39) -/

/-- The oldest FINISHING grant stays while an item of it is in staging (R35). -/
theorem retireDue_of_finishing_staged (h : (s.stream i).finishing = g :: rest)
    (hs : ∃ o ∈ (s.stream i).staging, o.grant = g.number) : s.retireDue i = s := by
  unfold State.retireDue
  dsimp only
  rw [h]
  exact if_pos (hasStaged_iff.2 hs)

/-- RETIREMENT with no item of the oldest FINISHING grant in staging (R35). -/
theorem exec_retirement_of_finishing (h : (s.stream i).finishing = g :: rest)
    (hn : ∀ o ∈ (s.stream i).staging, o.grant ≠ g.number)
    (hres : g.reserved = true → g.notify = true ∧ (s.rq (s.stream i).replyQueue).reserved ≠ 0) :
    exec (.retirement i) s = .next (s.retired i { s.stream i with finishing := rest } g) := by
  have hrow : exec (.retirement i) s = .next (s.retireDue i) := rfl
  rw [hrow, retireDue_of_finishing h hn, retire_eq_retired (st := { s.stream i with finishing := rest }) hres]

/-- Grant `g` of stream context `st` is full, with RECYCLE, in ARMED or RUNNING (R38). -/
abbrev Stream.Recycles (st : Stream) (g : Grant) : Prop :=
  g.recycle = true ∧ g.count ≤ g.fill ∧ (st.state = .armed ∨ st.state = .running)

/-- A grant without NOTIFY that retires rejoins the waiting queue or leaves, and no reply queue takes part (R35, R38). -/
theorem retired_of_quiet (hnotify : g.notify = false) :
    s.retired i st g =
      { s with
        streams := s.streams.set i
          (if st.Recycles g then { st with waiting := st.waiting ++ [{ g with fill := 0, firstSeq := none }] }
          else st) } := by
  have hrq : s.replyQueues.set st.replyQueue (s.rq st.replyQueue) = s.replyQueues := vector_set_self ..
  unfold State.retired
  by_cases hrec : st.Recycles g
  · simp only [if_pos hrec, if_pos hnotify]
  · simp only [if_neg hrec, hnotify, Bool.false_eq_true, false_and, if_false, hrq]

/-- A NOTIFY grant that retires leaves its reply queue `y` with its notice, where it holds a reservation, and recycles
with a fresh reservation where `y` grants one, else with one missed notice more (R37 to R39, R147). -/
theorem retired_of_notify {y : ReplyQueue} {missed : Nat} (hnotify : g.notify = true)
    (hy : (if g.reserved = true then (s.rq st.replyQueue).submit (bufferNotice i g s.timebase)
      else s.rq st.replyQueue) = y)
    (hm : (if g.reserved = true then 0 else g.missed) = missed) :
    s.retired i st g =
      if ¬st.Recycles g then { s with streams := s.streams.set i st, replyQueues := s.replyQueues.set st.replyQueue y }
      else if y.occupied + y.reserved + 2 ≤ y.size - 1 then
        { s with
          streams := s.streams.set i
            { st with
              waiting :=
                st.waiting ++ [{ g with fill := 0, firstSeq := none, missed := missed, reserved := true }] }
          replyQueues := s.replyQueues.set st.replyQueue { y with reserved := y.reserved + 1 } }
      else
        { s with
          streams := s.streams.set i
            { st with
              waiting :=
                st.waiting ++
                  [{ g with fill := 0, firstSeq := none, reserved := false, missed := min 255 (missed + 1) }] }
          replyQueues := s.replyQueues.set st.replyQueue y } := by
  unfold State.retired
  simp only [hnotify, true_and, hy, hm, Bool.true_eq_false, if_false]
  by_cases hrec : st.Recycles g
  · rw [if_pos hrec, if_neg (not_not.2 hrec)]
  · rw [if_neg hrec, if_pos hrec]

/-- Settles O58: the retirement of the oldest FINISHING grant in each of its cases, and the grant that waits for its
staged items. -/
theorem finishedGrantRetires : Obligations.FinishedGrantRetires := by
  intro s i g rest st x y recycles left back fresh hf
  have hx : s.replyQueues.set left.replyQueue x = s.replyQueues := vector_set_self ..
  refine ⟨fun hs => ?_, fun hn => ⟨fun hnotify hres hne => ?_, fun hnotify hres => ?_, fun hnotify hres => ?_⟩⟩
  · exact congrArg Host.Outcome.next (retireDue_of_finishing_staged hf hs)
  · have hretired := retired_of_notify (s := s) (i := i) (st := left) (y := y) (missed := 0) hnotify
      (if_pos hres) (if_pos hres)
    rw [exec_retirement_of_finishing hf hn fun _ => ⟨hnotify, hne⟩, hretired]
    simp only [← hres]
    rfl
  · have hno : ¬g.reserved = true := by simp [hres]
    have hretired := retired_of_notify (s := s) (i := i) (st := left) (y := x) (missed := g.missed) hnotify
      (if_neg hno) (if_neg hno)
    rw [exec_retirement_of_finishing hf hn fun h => absurd h hno, hretired]
    simp only [hx, ← hres]
    rfl
  · rw [exec_retirement_of_finishing hf hn fun h => absurd (hres.symm.trans h) Bool.noConfusion,
      retired_of_quiet hnotify]

end Sys2Proof.Machine
end

section
/-! Time (R46): every row but the tick, the resets and the host's control of the device does only what `State.Kept`
names, and none of those touches the timebase. -/

namespace Sys2Proof.Machine

variable {P : State → Prop} {s : State}

/-- The rows of the tick, the resets, the link and the register window, of which `State.Kept` does not speak. -/
def isControlRow (c : Instr) : Bool :=
  match c with
  | .timebaseTick _ | .powerOnReset _ | .functionReset _ | .enable | .quiesce | .consumerWrite .. | .interruptEnable ..
  | .errorFlagClear .. | .registerWrite .. | .linkConfigurationChange _ | .linkStateChange _ => true
  | _ => false

theorem State.Kept.producerWrite (k : State.Kept P) (h : P s) (q : CqId) (v : Word) : P (s.producerWrite q v) := by
  unfold State.producerWrite
  dsimp only
  split
  · split
    · exact k.queue _ _ _ h
    · exact k.faultQueue h _ _
  · exact h

/-- A row that is no control row answers a next state, and keeps what every elementary change keeps. -/
theorem State.Kept.exec_of_not_control (k : State.Kept P) (h : P s) {c : Instr} (hc : isControlRow c = false) :
    ∃ t, exec c s = .next t ∧ P t := by
  cases c with
  | timebaseTick _ | powerOnReset _ | functionReset _ | enable | quiesce | consumerWrite _ _ | interruptEnable _ _
  | errorFlagClear _ _ | registerWrite _ _ _ | linkConfigurationChange _ | linkStateChange _ => cases hc
  | nop q r | readTime q r | openStream q r | arm q r | stop q r | resume q r | close q r | queryStream q r | grant q r
  | reclaim q r | setPacer q r | haltPacer q r | loadPattern q r | createCq q r | deleteCq q r | createRq q r
  | deleteRq q r | configInput q r | configPort q r => exact ⟨_, rfl, k.recordArrives h q _⟩
  | producerWrite q v => exact ⟨_, rfl, k.producerWrite h q v⟩
  | pacerFiring p => exact ⟨_, rfl, k.pacerFires h p⟩
  | drivenPacerFiring p => exact ⟨_, rfl, k.drivenFires h p⟩
  | changeSeen i | changeReverts i => exact ⟨_, rfl, k.input _ i _ h⟩
  | edgeQualifies i => exact ⟨_, rfl, k.edgeQualifies h i⟩
  | ready n => exact ⟨_, rfl, k.ready h n⟩
  | result n => exact ⟨_, rfl, k.resultArrives h n⟩
  | timeout n => exact ⟨_, rfl, k.timeoutExpires h n⟩
  | arbitration => exact ⟨_, rfl, k.finish (k.arbitrate h)⟩
  | transferSent => exact ⟨_, rfl, k.finish (k.sent h)⟩
  | readCompletion tag data | completionPart tag data => exact ⟨_, rfl, k.finish (k.dataReturned h tag data)⟩
  | errorCompletion tag => exact ⟨_, rfl, k.finish (k.readFailed h tag)⟩
  | readTimeout tag => exact ⟨_, rfl, k.readExpires h tag⟩
  | turn => exact ⟨_, rfl, k.takeTurn h⟩
  | prefetchRead i => exact ⟨_, rfl, k.prefetchTest h i⟩
  | retirement i => exact ⟨_, rfl, k.retireDue h i⟩
  | closingSteps i => exact ⟨_, rfl, k.finish (k.closeIfDrained h i)⟩
  | heldRecordTaken q =>
    refine ⟨_, rfl, ?_⟩
    split
    · exact k.finish (k.takeHeld h q)
    · exact h
  | deletingDone q =>
    refine ⟨_, rfl, ?_⟩
    split
    · exact k.finish (k.deletingDone h q)
    · exact h
  | quiesceEnd =>
    refine ⟨_, rfl, ?_⟩
    split
    · exact k.quiesceEnd _ h
    · exact h

/-! ## The timebase under each operation (R46) -/

theorem shutdown_timebase (s : State) : s.shutdown.timebase = s.timebase := by
  have h := congrArg State.timebase (shutdown_eq s s.device)
  simpa only [State.quiesced] using h

theorem fatalStop_timebase (s : State) : s.fatalStop.timebase = s.timebase := by
  have hask : ∀ t : State, t.askVector0.timebase = t.timebase := fun t => by
    unfold State.askVector0
    split <;> rfl
  unfold State.fatalStop
  split
  · simp only [hask, shutdown_timebase]
  · simp only [hask, shutdown_timebase]
  · rfl
  · rfl

/-- No elementary change of a block touches the timebase (R46). -/
theorem timebase_kept (n : Tick) : State.Kept fun s => s.timebase = n where
  pacer _ _ _ h := h
  input _ _ _ h := h
  port _ _ _ h := h
  stream _ _ _ h := h
  holder _ _ _ h := h
  patHolder _ _ _ h := h
  portWord _ _ _ h := h
  queue _ _ _ h := h
  entry _ _ _ h := h
  reserve _ _ _ h := h
  release _ _ h := h
  submit s q f h := by
    unfold State.submit
    split <;> exact h
  newRq _ _ _ _ _ _ h := h
  noRq _ _ _ h := h
  itemWritten _ _ h := h
  itemDropped _ _ h := h
  pattern _ _ _ h := h
  quiesceEnd _ h := h
  fatalStop s h := (fatalStop_timebase s).trans h
  raw _ _ _ _ _ _ _ _ _ _ _ _ _ h := h

theorem writeEnable_timebase (s : State) : s.writeEnable.timebase = s.timebase := by
  unfold State.writeEnable
  split
  · split <;> rfl
  · rfl

theorem writeDisable_timebase (s : State) : s.writeDisable.timebase = s.timebase := by
  unfold State.writeDisable
  split
  · refine (timebase_kept s.timebase).finish ?_
    simp only [shutdown_timebase]
  · rfl

theorem producerWrite_timebase (s : State) (q : CqId) (v : Word) : (s.producerWrite q v).timebase = s.timebase :=
  (timebase_kept s.timebase).producerWrite rfl q v

theorem consumerWrite_timebase (s : State) (q : RqId) (v : Word) : (s.consumerWrite q v).timebase = s.timebase := by
  unfold State.consumerWrite
  split <;> rfl

theorem writeInterrupt_timebase (s : State) (q : RqId) (on clear : Bool) :
    (s.writeInterrupt q on clear).timebase = s.timebase := by
  unfold State.writeInterrupt
  dsimp only
  split <;> rfl

theorem writeDevctl_timebase (s : State) (v : Word) : (s.writeDevctl v).timebase = s.timebase := by
  unfold State.writeDevctl
  split
  · rfl
  · split
    · exact writeEnable_timebase s
    · exact writeDisable_timebase s

/-- No register of the window is the timebase (R46, R184). -/
theorem writeWindow_timebase (s : State) (offset : BitVec 12) (v : Word) :
    (s.writeWindow offset v).timebase = s.timebase := by
  simp only [State.writeWindow, apply_ite State.timebase, writeDevctl_timebase, producerWrite_timebase,
    consumerWrite_timebase, writeInterrupt_timebase, ite_self]

theorem tickInputs_timebase (s : State) : s.tickInputs.timebase = s.timebase :=
  State.Kept.foldl (P := fun t => t.timebase = s.timebase) (f := fun s i => s.setInput i (s.input i).tick)
    (fun _ _ h => h) rfl _

theorem tickPorts_timebase (s : State) (serial : BitVec 8) : (s.tickPorts serial).timebase = s.timebase :=
  State.Kept.foldl (P := fun t => t.timebase = s.timebase)
    (f := fun s n => s.setPort n ((s.port n).tick (serial.getLsbD n.val))) (fun _ _ h => h) rfl _

/-- What is due is taken at the tick that it is due at, and then the timebase moves by one (R46). -/
theorem tick_timebase (s : State) (serial : BitVec 8) : (s.tick serial).timebase = s.timebase + 1 := by
  have hdue : s.takeDue.timebase = s.timebase := (timebase_kept s.timebase).takeDue rfl
  simp only [State.tick, State.nextTick, tickPorts_timebase, tickInputs_timebase, hdue]

/-- A row that is no control row leaves the timebase (R46, log 19). -/
theorem exec_timebase_of_not_control {c : Instr} {t : State} (hc : isControlRow c = false) (h : exec c s = .next t) :
    t.timebase = s.timebase := by
  obtain ⟨u, hu, htime⟩ := (timebase_kept s.timebase).exec_of_not_control (s := s) rfl hc
  cases hu.symm.trans h
  exact htime

/-- Settles O8: the rows that are no control rows by what every operation keeps, and the control rows one by one. -/
theorem onlyTicksMoveTime : Obligations.OnlyTicksMoveTime := by
  intro c s t h
  cases c with
  | timebaseTick serial =>
    cases h
    exact tick_timebase s serial
  | powerOnReset link | functionReset enableBit | linkConfigurationChange link | linkStateChange up =>
    cases h
    rfl
  | enable =>
    cases h
    exact writeEnable_timebase s
  | quiesce =>
    cases h
    exact writeDisable_timebase s
  | consumerWrite q v =>
    cases h
    exact consumerWrite_timebase s q v
  | interruptEnable q on | errorFlagClear q on =>
    cases h
    exact writeInterrupt_timebase s q on _
  | registerWrite offset size v =>
    cases h
    split
    · exact writeWindow_timebase s offset v
    · rfl
  | _ => exact exec_timebase_of_not_control rfl h

end Sys2Proof.Machine
end

section
/-! The reset state (R49, R68, R79, R100, R111, R121, R129, R144, R160, R171, R180, R184): every table holds one reset
record throughout. -/

namespace Sys2Proof.Machine

/-! ## The tables at reset -/

theorem reset_stream (i : StreamId) : State.reset.stream i = Stream.empty := vector_get_replicate ..

theorem reset_pacer (p : PacerId) : State.reset.pacer p = Pacer.zero := vector_get_replicate ..

theorem reset_port (n : PortId) : State.reset.port n = SamplePort.idle 2000 := vector_get_replicate ..

theorem reset_holder (n : PortId) : State.reset.holder n = none := vector_get_replicate ..

theorem reset_patHolder (n : PortId) : State.reset.patHolder n = none := vector_get_replicate ..

theorem reset_portWord (n : PortId) : State.reset.portWord n = 0 := vector_get_replicate ..

theorem reset_input (i : InputId) : State.reset.input i = Input.atReset false := vector_get_replicate ..

theorem reset_queue (q : CqId) : State.reset.queue q = CommandQueue.absent := vector_get_replicate ..

theorem reset_entry (k : SlotId) : State.reset.entry k = none := vector_get_replicate ..

theorem reset_rq (q : RqId) : State.reset.rq q = ReplyQueue.absent false false := vector_get_replicate ..

/-! ## Soundness at reset -/

/-- An ABSENT reply queue is sound (R144). -/
theorem absent_sound (enabled errorFlag : Bool) : (ReplyQueue.absent enabled errorFlag).Sound :=
  .inl ⟨rfl, rfl, rfl, rfl, rfl, rfl, rfl⟩

theorem reset_repliesSound : State.reset.RepliesSound := by
  intro q
  rw [reset_rq]
  exact absent_sound false false

/-- Settles O7: each table by the one record it holds, the rest by the fields of `State.reset`. -/
theorem resetIsAsTheSpecSays : Obligations.ResetIsAsTheSpecSays := by
  have hinput : ∀ i, (State.reset.input i).edges = .off ∧ (State.reset.input i).filter = 0 ∧
      (State.reset.input i).candidate = none ∧ (State.reset.input i).fresh = true := by
    intro i
    rw [reset_input]
    exact ⟨rfl, rfl, rfl, rfl⟩
  exact ⟨reset_repliesSound, reset_patternMemory_wf, rfl, rfl, rfl, reset_stream, reset_pacer,
    fun n => ⟨reset_port n, reset_holder n, reset_patHolder n, reset_portWord n⟩, hinput, rfl, fun _ => rfl,
    reset_queue, reset_entry, rfl, rfl, reset_rq, rfl, rfl, rfl, rfl, rfl, rfl, rfl, rfl, rfl, rfl⟩

end Sys2Proof.Machine
end

section
/-! SET_PACER and HALT_PACER (R50 to R52): the one status of each record, and what the accepted ones leave. -/

namespace Sys2Proof.Machine

variable {s : State} {k : SlotId} {q : CqId} {r : RecordBody} {f : Fetch} {e : Entry} {status : Status}

/-- A refused command leaves its answer with its status and 0 for both values, and nothing else (R136, R137). -/
theorem exec_of_refused {op : Opcode} (h : s.Takes q r f e) (hop : op.adminOnly = false)
    (hrun : (s.withRecord f e ⟨op.code, r⟩).runOpcode f.slot q op r =
      (s.withRecord f e ⟨op.code, r⟩).refuse f.slot status) :
    exec (op.row q r) s =
      .next ((s.withRecord f e ⟨op.code, r⟩).answered f.slot e ⟨op.code, r⟩ status 0 0) :=
  exec_of_completes h hop hrun h.reserved rfl rfl rfl rfl

theorem isHeld_iff {x : PacerState} : x.isHeld = true ↔ x = .owned ∨ x = .driven := by
  cases x <;> simp [PacerState.isHeld]

/-! ## SET_PACER (R50, R51) -/

/-- The parameters that R50, step 2, refuses: a relative target of half the wrap or more, or an absolute one that is no
tick, among them. -/
theorem setPacerParamsOk_eq_false_iff :
    setPacerParamsOk r = false ↔
      r.flagsOk = false ∨ r.setPacerReserved = false ∨ r.wordAt 16 = 0 ∨
        (r.optRel = true ∧ 2 ^ 47 ≤ (r.addrAt 8).toNat) ∨ (r.optRel = false ∧ 2 ^ 48 ≤ (r.addrAt 8).toNat) := by
  simp only [setPacerParamsOk, Bool.and_eq_false_iff, bne_eq_false_iff_eq, or_assoc]
  cases r.optRel <;> simp

/-- The checks of a SET_PACER in their order (R50). -/
theorem setPacerCheck_eq (s : State) (r : RecordBody) :
    s.setPacerCheck r =
      if 16 ≤ r.id.toNat then .badId
      else if r.flagsOk = false ∨ r.setPacerReserved = false ∨ r.wordAt 16 = 0 ∨
          (r.optRel = true ∧ 2 ^ 47 ≤ (r.addrAt 8).toNat) ∨ (r.optRel = false ∧ 2 ^ 48 ≤ (r.addrAt 8).toNat) then
        .badParam
      else if (s.pacer (pacerOf r)).state = .owned ∨ (s.pacer (pacerOf r)).state = .driven then .pacerBusy
      else .ok := by
  simp only [State.setPacerCheck, pacerIdOk, Bool.not_eq_true', decide_eq_false_iff_not, not_lt,
    setPacerParamsOk_eq_false_iff, isHeld_iff]

theorem takeSetPacer_of_refused (h : s.setPacerCheck r = status) (hne : status ≠ .ok) :
    s.takeSetPacer k r = s.refuse k status := by
  unfold State.takeSetPacer
  split
  · exact absurd (h.symm.trans ‹_›) hne
  · rw [h]

theorem takeSetPacer_of_ok (h : s.setPacerCheck r = .ok) :
    s.takeSetPacer k r =
      (s.setPacer (pacerOf r) (programmedPacer s.timebase r)).complete k .ok (tickLow (newTarget s.timebase r))
        (s.pacer (pacerOf r)).late := by
  simp only [State.takeSetPacer, h]
  rfl

/-- Settles O25: the checks in their order, and the programmed pacer beside the answer of an accepted SET_PACER. -/
theorem setPacerPrograms : Obligations.SetPacerPrograms := by
  intro s q r f e h u p rel x
  have hcheck := setPacerCheck_eq u r
  have refused : ∀ status, u.setPacerCheck r = status → status ≠ .ok →
      exec (.setPacer q r) s = .next (u.answered f.slot e ⟨0x20, r⟩ status 0 0) := fun _ hs hne =>
    exec_of_refused (op := .setPacer) h rfl (takeSetPacer_of_refused hs hne)
  split_ifs with hid hparams hheld
  · exact refused _ (hcheck.trans (if_pos hid)) (by decide)
  · exact refused _ (hcheck.trans ((if_neg hid).trans (if_pos hparams))) (by decide)
  · exact refused _ (hcheck.trans ((if_neg hid).trans ((if_neg hparams).trans (if_pos hheld)))) (by decide)
  · have hok : u.setPacerCheck r = .ok :=
      hcheck.trans ((if_neg hid).trans ((if_neg hparams).trans (if_neg hheld)))
    have hx : programmedPacer u.timebase r = x := by
      simp only [programmedPacer, newTarget, ← BitVec.ofNat_toNat]
      rfl
    have hrun : u.runOpcode f.slot q .setPacer r =
        (u.setPacer p x).complete f.slot .ok (tickLow x.target) (s.pacer p).late := by
      rw [← hx]
      exact takeSetPacer_of_ok hok
    exact exec_of_completes (op := .setPacer) h rfl hrun h.reserved rfl rfl rfl rfl

/-! ## HALT_PACER (R52) -/

/-- The checks of a HALT_PACER in their order (R52). -/
theorem haltPacerCheck_eq (s : State) (r : RecordBody) :
    s.haltPacerCheck r =
      if 16 ≤ r.id.toNat then .badId
      else if r.flagsOk = false ∨ r.onlyId = false then .badParam
      else if (s.pacer (pacerOf r)).state = .owned ∨ (s.pacer (pacerOf r)).state = .driven then .pacerBusy
      else .ok := by
  simp only [State.haltPacerCheck, pacerIdOk, Bool.not_eq_true', decide_eq_false_iff_not, not_lt,
    Bool.and_eq_false_iff, isHeld_iff]

theorem takeHaltPacer_of_refused (h : s.haltPacerCheck r = status) (hne : status ≠ .ok) :
    s.takeHaltPacer k r = s.refuse k status := by
  unfold State.takeHaltPacer
  split
  · exact absurd (h.symm.trans ‹_›) hne
  · rw [h]

theorem takeHaltPacer_of_ok (h : s.haltPacerCheck r = .ok) :
    s.takeHaltPacer k r =
      (s.setPacer (pacerOf r) { s.pacer (pacerOf r) with state := .off }).complete k .ok
        (if (s.pacer (pacerOf r)).state = .waiting then 1 else 0) (s.pacer (pacerOf r)).late := by
  simp only [State.takeHaltPacer, h]

/-- A pacer that is OFF already stays as it is. -/
theorem setPacer_off_of_off {p : PacerId} {x : Pacer} (hx : s.pacer p = x) (h : x.state = .off) :
    s.setPacer p { x with state := .off } = s := by
  have hself : ({ x with state := .off } : Pacer) = s.pacers.get p := by
    rw [← h]
    exact hx.symm
  rw [State.setPacer, hself, vector_set_self]

/-- Settles O26: the checks in their order, and for an accepted HALT_PACER the pacer OFF and its state before. -/
theorem haltPacerHalts : Obligations.HaltPacerHalts := by
  intro s q r f e h u p
  have hcheck := haltPacerCheck_eq u r
  have refused : ∀ status, u.haltPacerCheck r = status → status ≠ .ok →
      exec (.haltPacer q r) s = .next (u.answered f.slot e ⟨0x21, r⟩ status 0 0) := fun _ hs hne =>
    exec_of_refused (op := .haltPacer) h rfl (takeHaltPacer_of_refused hs hne)
  split_ifs with hid hparams
  · exact refused _ (hcheck.trans (if_pos hid)) (by decide)
  · exact refused _ (hcheck.trans ((if_neg hid).trans (if_pos hparams))) (by decide)
  rw [if_neg hid, if_neg hparams, show u.pacer (pacerOf r) = s.pacer p from rfl] at hcheck
  have hrun : u.haltPacerCheck r = .ok → u.runOpcode f.slot q .haltPacer r =
      (u.setPacer p { s.pacer p with state := .off }).complete f.slot .ok
        (if (s.pacer p).state = .waiting then 1 else 0) (s.pacer p).late := takeHaltPacer_of_ok
  cases hstate : (s.pacer p).state with
  | owned | driven => exact refused _ (hcheck.trans (if_pos (by simp [hstate]))) (by decide)
  | waiting =>
    have hrun := hrun (hcheck.trans (if_neg (by simp [hstate])))
    rw [if_pos hstate] at hrun
    exact exec_of_completes (op := .haltPacer) h rfl hrun h.reserved rfl rfl rfl rfl
  | off =>
    have hrun := hrun (hcheck.trans (if_neg (by simp [hstate])))
    have hkeep : u.setPacer p { s.pacer p with state := .off } = u := setPacer_off_of_off rfl hstate
    rw [if_neg (by simp [hstate]), hkeep] at hrun
    exact exec_of_completes (op := .haltPacer) h rfl hrun h.reserved rfl rfl rfl rfl

end Sys2Proof.Machine
end

section
/-! The firings of a pacer (R53, R58): a WAITING pacer moved on by its periods, and a DRIVEN one with the next entry or
the lap end of its RING stream. -/

namespace Sys2Proof.Machine

variable {s : State} {p : PacerId} {i : StreamId} {st : Stream} {x : Pacer} {n : Tick}

/-! ## The fields of a WAITING pacer after a firing (R53) -/

/-- The target goes on from the old one by the periods skipped and one more, wrapping (R53, step 3). -/
theorem nextTarget_toNat (x : Pacer) (n : Tick) :
    (x.nextTarget n).toNat = (x.target.toNat + (x.skipped n + 1) * x.period.toNat) % 2 ^ 48 := by
  simp [Pacer.nextTarget]

/-- The late count saturates (R53, step 2). -/
theorem nextLate_toNat (x : Pacer) (n : Tick) :
    (x.nextLate n).toNat = min (2 ^ 32 - 1) (x.late.toNat + x.skipped n) := by
  simp only [Pacer.nextLate, BitVec.toNat_ofNat]
  omega

/-- The firings left stop at 0 (R53, step 4). -/
theorem nextRemaining_toNat (x : Pacer) (n : Tick) :
    (x.nextRemaining n).toNat = x.remaining.toNat - (x.skipped n + 1) := by
  simp only [Pacer.nextRemaining, BitVec.toNat_ofNat]
  omega

theorem nextRemaining_eq_zero_iff : x.nextRemaining n = 0 ↔ x.remaining.toNat ≤ x.skipped n + 1 := by
  rw [← BitVec.toNat_inj, nextRemaining_toNat]
  simp [Nat.sub_eq_zero_iff_le]

/-- The periods up to the new target reach past the ticks by which the firing is behind, by one period at most
(R53, steps 1 and 3). -/
theorem skipped_periods_bounds (hp : 0 < x.period.toNat) :
    (n - x.target).toNat < (x.skipped n + 1) * x.period.toNat ∧
      (x.skipped n + 1) * x.period.toNat ≤ (n - x.target).toNat + x.period.toNat := by
  have hdiv : x.skipped n * x.period.toNat ≤ (n - x.target).toNat := Nat.div_mul_le_self ..
  have hlt : (n - x.target).toNat < x.skipped n * x.period.toNat + x.period.toNat := Nat.lt_div_mul_add hp
  rw [Nat.succ_mul]
  exact ⟨hlt, Nat.add_le_add_right hdiv _⟩

/-- A new target is not due (R47, R53, step 3). -/
theorem nextTarget_not_due (hp : 0 < x.period.toNat) : 2 ^ 47 ≤ (n - x.nextTarget n).toNat := by
  obtain ⟨hlt, hle⟩ := skipped_periods_bounds (x := x) (n := n) hp
  have hperiod : x.period.toNat < 2 ^ 32 := x.period.isLt
  have hback : n - x.nextTarget n = n - x.target - BitVec.ofNat 48 ((x.skipped n + 1) * x.period.toNat) := by
    rw [Pacer.nextTarget, sub_add_eq_sub_sub]
  rw [hback, BitVec.toNat_sub, BitVec.toNat_ofNat]
  generalize (x.skipped n + 1) * x.period.toNat = ahead at *
  omega

/-! ## The firing of a WAITING pacer that no stream hears (R53) -/

/-- In a calm machine an emitted event is the only one that waits (R60). -/
theorem emit_emitted_of_calm (h : s.Calm) (c : Byte) : (s.emit c).emitted = [⟨c, s.timebase⟩] := by
  rw [State.emit_emitted, h.1]
  rfl

/-- A due WAITING pacer whose event no stream hears fires, and only its own fields change (R53). -/
theorem exec_pacerFiring_of_unheard (hc : s.Calm) (hw : (s.pacer p).state = .waiting)
    (hdue : (s.timebase - (s.pacer p).target).toNat < 2 ^ 47) (hu : s.Unheard (pacerCode p)) :
    exec (.pacerFiring p) s = .next (s.firedAt p) := by
  have hfires : s.firingDue p = true := by
    simpa only [State.firingDue, hw, due, beq_self_eq_true, Bool.true_and, decide_eq_true_eq] using hdue
  have hfinish : (s.firePacer p).finish = s.firedAt p :=
    finish_emit_of_unheard (hc.firedAt p) fun j => hu j
  exact congrArg Host.Outcome.next ((if_pos hfires).trans hfinish)

/-- Settles O40: the event, and the pacer as its firing leaves it. -/
theorem waitingPacerFires : Obligations.WaitingPacerFires := by
  intro s p hc hw hdue hu x skipped
  exact ⟨emit_emitted_of_calm hc _, x.fired s.timebase, exec_pacerFiring_of_unheard hc hw hdue hu, rfl,
    nextTarget_not_due, nextTarget_toNat .., nextLate_toNat .., nextRemaining_toNat ..,
    if_congr (and_congr_right fun _ => nextRemaining_eq_zero_iff) rfl rfl⟩

/-! ## The firing of a DRIVEN pacer (R58) -/

/-- The stream that drives a pacer is a RING stream that names it and runs (R56). -/
theorem ringOf_spec (h : s.ringOf p = some i) :
    (s.stream i).kind = some .ring ∧ (s.stream i).pacer = p ∧ (s.stream i).state.runs = true := by
  simpa [and_assoc] using List.find?_some h

/-- Where a happening has emitted only events that no stream hears, its end takes them and brings nothing further (R60,
R65). -/
theorem finish_of_unheard {t : State} (hu : ∀ e ∈ t.emitted, t.Unheard e.code)
    (hcalm : ({ t with emitted := [] } : State).Calm) : t.finish = { t with emitted := [] } := by
  simp [State.finish, State.settle, Config.followOnBound, deliverEvents_of_unheard _ t hu, hcalm.nextFollowOn]

/-- Where a due DRIVEN pacer's firing leaves only events that no stream hears, it leaves what its RING stream did (R58,
R65). -/
theorem exec_drivenPacerFiring_of_unheard {t : State} (hd : (s.pacer p).state = .driven)
    (hdue : (s.timebase - (s.pacer p).target).toNat < 2 ^ 47) (hi : s.ringOf p = some i)
    (ht : (s.emit (pacerCode p)).ringFiring i s.timebase = t) (hu : ∀ e ∈ t.emitted, t.Unheard e.code)
    (hcalm : ({ t with emitted := [] } : State).Calm) :
    exec (.drivenPacerFiring p) s = .next { t with emitted := [] } := by
  have hfires : s.drivenDue p = true := by
    simpa only [State.drivenDue, hd, due, beq_self_eq_true, Bool.true_and, decide_eq_true_eq] using hdue
  have hfire : s.fireDriven p = t := by simp only [State.fireDriven, hi, ht]
  refine congrArg Host.Outcome.next ((if_pos hfires).trans ?_)
  rw [hfire, finish_of_unheard hu hcalm]

/-! ## The next entry (R118) -/

/-- RING stream `i`, its context `st`, has output entry `k` as its next at tick `n`, on a pacer that is DRIVEN already
(R58, R118). -/
def State.ringMoved (s : State) (i : StreamId) (st : Stream) (k : Nat) (n : Tick) : State :=
  { s with
    patternWord := s.patternWord.set st.patternPort (entryWord s.patternMemory k)
    streams := s.streams.set i { st with ringPosition := k, produced := st.produced + 1 }
    pacers := s.pacers.set st.pacer
      { s.pacer st.pacer with target := n + BitVec.ofNat 48 ((entryDelayCode s.patternMemory k).toNat + 1) } }

/-- An output of a stream whose pacer is DRIVEN already (R118). -/
theorem outputEntry_eq_ringMoved (hst : s.stream i = st) (hd : (s.pacer st.pacer).state = .driven) (k : Nat) :
    s.outputEntry i k (st.produced + 1) n = s.ringMoved i st k n := by
  unfold State.outputEntry State.ringMoved
  rw [hst, ← hd]
  rfl

/-- Short of a lap end under BUFFER and of the item limit, the firing outputs the next entry and that is all (R58). -/
theorem ringFiring_of_entry {k : Nat} (hst : s.stream i = st) (hd : (s.pacer st.pacer).state = .driven)
    (hk : st.nextEntry st.ringPosition = k) (hlap : ¬(st.bufferGoverns = true ∧ k = st.startEntry))
    (hlim : st.itemLimit = 0 ∨ (st.produced + 1).toNat < st.itemLimit.toNat) :
    s.ringFiring i n = s.ringMoved i st k n := by
  have hlap' : ¬(st.bufferGoverns && k == st.startEntry) = true := by simpa using hlap
  have hlimit : ¬((s.ringMoved i st k n).stream i).limitReached = true := by
    rw [show (s.ringMoved i st k n).stream i = { st with ringPosition := k, produced := st.produced + 1 } from
      stream_setStream_self s i _, limitReached_iff]
    exact fun h => hlim.elim h.1 (Nat.not_lt.2 h.2)
  unfold State.ringFiring
  dsimp only
  rw [hst, hk, if_neg hlap', outputEntry_eq_ringMoved hst hd, State.ringLimit, if_neg hlimit]

/-- A firing that outputs the next entry changes no role of its stream (R61, R118). -/
theorem ringMoved_unheard {c : Byte} (h : s.Unheard c) (hst : s.stream i = st) (k : Nat) :
    (s.ringMoved i st k n).Unheard c := by
  refine h.of_stream (i := i) (fun j hj => (stream_setStream s i j _).trans (if_neg hj.symm)) ?_
  refine (congrArg (fun y : Stream => y.subscribes c) (stream_setStream_self s i _)).trans ?_
  have := h i
  rw [hst] at this
  exact this

/-! ## The lap end (R58, R59) -/

/-- At a lap end under BUFFER the firing ends the run (R58). -/
theorem ringFiring_of_lapEnd (hst : s.stream i = st)
    (hlap : st.bufferGoverns = true ∧ st.nextEntry st.ringPosition = st.startEntry) :
    s.ringFiring i n = s.endRun i .stopEvent := by
  unfold State.ringFiring
  dsimp only
  rw [hst]
  exact if_pos (by simpa using hlap)

/-- The transfers at the mover are the same in both states. -/
def State.SameTransfers (s t : State) : Prop :=
  t.sending = s.sending ∧ t.outstanding = s.outstanding

theorem State.RepliesOnly.sameTransfers {t : State} (h : s.RepliesOnly t) : s.SameTransfers t := by
  unfold State.RepliesOnly at h
  exact ⟨by rw [h], by rw [h]⟩

theorem State.SameTransfers.trans {t u : State} (h : s.SameTransfers t) (g : t.SameTransfers u) : s.SameTransfers u :=
  ⟨g.1.trans h.1, g.2.trans h.2⟩

/-- A RING stream has no transfers, so its work winds down without any (R10, R59). -/
theorem windDown_sameTransfers (heir : Requester) (hk : (s.stream i).kind = some .ring) :
    s.SameTransfers (s.windDown i heir) := by
  have hring : s.windDown i heir = s.pacerToOwned (s.stream i).pacer := by simp only [State.windDown, hk]
  rw [hring, pacerToOwned_spec]
  exact ⟨rfl, rfl⟩

/-- The end of a RING stream's run lets go of no transfer (R10, R59, R106). -/
theorem endRun_sameTransfers (reason : EndReason) (hk : (s.stream i).kind = some .ring) :
    s.SameTransfers (s.endRun i reason) := by
  unfold State.endRun
  dsimp only
  generalize hx : ({ s.stream i with state := .opened, pendingStop := none } : Stream) = x
  have hxi := stream_setStream_self s i x
  have hwind : (s.setStream i x).SameTransfers ((s.setStream i x).windDown i .nobody) :=
    windDown_sameTransfers .nobody (by rw [hxi, ← hx]; exact hk)
  generalize hu : ((s.setStream i x).windDown i .nobody).drivePark i = u
  have hus : s.SameTransfers u := by
    rw [← hu, drivePark_eq]
    exact hwind
  have hopened : (u.stream i).state.recycles = false := by
    rw [← hu, drivePark_stream, windDown_stream, hxi, woundDown_eq, ← hx]
    rfl
  have hleft := (currentLeaves_spec u i hopened (!(s.stream i).stopCommands.isEmpty)).sameTransfers
  have hstops := fun v a b => (State.RepliesOnly.replyStops (s.stream i).stopCommands v .ok a b).sameTransfers
  have hend := fun v => (endNotice_spec v i reason (s.stream i).stopCommands.isEmpty).sameTransfers
  exact ((hus.trans hleft).trans (hstops _ _ _)).trans (hend _)

/-- What the end of a RING stream's run leaves beside replies and in-flight entries (R10, R59): its context is OPEN, its
pacer is OWNED with target 0, its park word is driven, and its TERMINAL is emitted. -/
theorem endRun_of_ring {t : State} {reason : EndReason} (hst : s.stream i = st) (hk : st.kind = some .ring)
    (hd : (s.pacer st.pacer).state = .driven) (ht : s.endRun i reason = t) :
    t.stream i =
        { st.currentLeft !st.stopCommands.isEmpty with state := .opened, pendingStop := none, endReserved := false } ∧
      (∀ j, j ≠ i → t.stream j = s.stream j) ∧
      (∀ p, t.pacer p = if p = st.pacer then { s.pacer p with state := .owned, target := 0 } else s.pacer p) ∧
      (∀ n, t.portWord n = if n = st.patternPort then st.park.getD (s.portWord n) else s.portWord n) ∧
      t.emitted = s.emitted ++ [⟨terminalCode i, s.timebase⟩] ∧
      t = { s with
        streams := t.streams
        pacers := t.pacers
        patternWord := t.patternWord
        emitted := t.emitted
        replyQueues := t.replyQueues
        inflight := t.inflight } := by
  subst hst
  obtain ⟨snd, out, rqs, inf, h⟩ := endRun_spec s i reason
  obtain ⟨hsnd, hout⟩ := endRun_sameTransfers reason hk
  have hwound : ((s.stream i).currentLeft !(s.stream i).stopCommands.isEmpty).woundDown =
      (s.stream i).currentLeft !(s.stream i).stopCommands.isEmpty :=
    woundDown_of_other (by rw [Stream.currentLeft, hk]; decide) (by rw [Stream.currentLeft, hk]; decide)
  rw [ht, hwound] at h
  rw [ht, h] at hsnd hout
  have hpacer : ∀ p, (s.pacersWoundDown i).get p =
      if p = (s.stream i).pacer then { s.pacer p with state := .owned, target := 0 } else s.pacer p := fun p => by
    rw [pacersWoundDown_get]
    refine if_congr ⟨fun ⟨_, h, _⟩ => h, ?_⟩ rfl rfl
    rintro rfl
    exact ⟨hk, rfl, hd⟩
  rw [h]
  refine ⟨stream_setStream_self .., fun j hj => (stream_setStream ..).trans (if_neg hj.symm), hpacer,
    drivePark_portWord s i, rfl, ?_⟩
  rw [show snd = s.sending from hsnd, show out = s.outstanding from hout]
  rfl

/-- Settles O41: the next entry, and the lap end under BUFFER. -/
theorem drivenPacerFires : Obligations.DrivenPacerFires := by
  intro s p i hc hd hdue hi hup hut st k
  obtain ⟨hkind, rfl, -⟩ := ringOf_spec hi
  let u := s.emit (pacerCode st.pacer)
  have hemitted : u.emitted = [⟨pacerCode st.pacer, s.timebase⟩] := emit_emitted_of_calm hc _
  refine ⟨fun hlap hlim => ?_, fun hlap => ?_⟩
  · have hmoved : u.ringFiring i s.timebase = u.ringMoved i st k s.timebase :=
      ringFiring_of_entry rfl hd rfl hlap hlim
    have hunheard : ∀ e ∈ (u.ringMoved i st k s.timebase).emitted, (u.ringMoved i st k s.timebase).Unheard e.code := by
      intro e he
      rw [show (u.ringMoved i st k s.timebase).emitted = _ from hemitted, List.mem_singleton] at he
      rw [he]
      exact ringMoved_unheard (s := u) (fun j => hup j) rfl k
    rw [exec_drivenPacerFiring_of_unheard hd hdue hi hmoved hunheard (hc.of_eq hc.1.symm rfl rfl),
      show ([] : List Event) = s.emitted from hc.1.symm]
    rfl
  · have hlapEnd : u.ringFiring i s.timebase = u.endRun i .stopEvent := ringFiring_of_lapEnd rfl hlap
    have hentry := endRun_entry u i .stopEvent
    generalize ht : u.endRun i .stopEvent = t at *
    obtain ⟨hself, hothers, hpacer, hport, hevents, hframe⟩ := endRun_of_ring (s := u) (st := st) rfl hkind hd ht
    have hqueues : t.queues = s.queues := by rw [hframe]; rfl
    have hdevice : t.device = s.device := by rw [hframe]; rfl
    have hunheard : ∀ {c}, s.Unheard c → t.Unheard c := fun h =>
      h.of_stream hothers (subscribes_of_opened (congrArg Stream.state hself) _)
    refine ⟨_, exec_drivenPacerFiring_of_unheard hd hdue hi hlapEnd ?_ ?_, congrArg Stream.state hself,
      congrArg Stream.pendingStop hself, (congrArg Stream.ringPosition hself).trans rfl,
      (congrArg Stream.produced hself).trans rfl, (hpacer _).trans (if_pos rfl), hport, hentry, hothers,
      fun p hp => (hpacer p).trans (if_neg hp), ?_⟩
    · rw [hevents, hemitted]
      simp only [List.cons_append, List.nil_append, List.forall_mem_cons, List.not_mem_nil, false_imp_iff,
        implies_true, and_true]
      exact ⟨hunheard hup, hunheard hut⟩
    · exact hc.of_eq hc.1.symm hqueues hdevice
    · rw [show ([] : List Event) = s.emitted from hc.1.symm]
      exact congrArg (fun v : State => ({ v with emitted := s.emitted } : State)) hframe

end Sys2Proof.Machine
end

section
/-! CONFIG_INPUT (R71, R72): the one status of each record, and the input as an accepted one leaves it. -/

namespace Sys2Proof.Machine

variable {s u : State} {k : SlotId} {q : CqId} {r : RecordBody} {f : Fetch} {e : Entry} {op : Opcode} {status : Status}

/-! ## Commands that only CQ0 carries (R136) -/

/-- A record whose taking completes its command at once, whichever check of R136 settled it, leaves its answer on top of
what the command did before it replied, where that brought nothing due (R133, R135). -/
theorem exec_of_taken_completes {a b : Word} (h : s.Takes q r f e)
    (htake : (s.withRecord f e ⟨op.code, r⟩).takeRecord f.slot q ⟨op.code, r⟩ = u.complete f.slot status a b)
    (hr : (u.rq e.replyQueue).reserved ≠ 0) (hi : u.inflight = (s.withRecord f e ⟨op.code, r⟩).inflight)
    (he : u.emitted = s.emitted) (hq : u.queues = (s.withRecord f e ⟨op.code, r⟩).queues) (hd : u.device = s.device) :
    exec (op.row q r) s = .next (u.answered f.slot e ⟨op.code, r⟩ status a b) := by
  have hrow : exec (op.row q r) s = .next (s.recordArrives q ⟨op.code, r⟩) := by cases op <;> rfl
  have hentry : u.entry f.slot = some { e with record := some ⟨op.code, r⟩ } := by
    rw [State.entry, hi]
    exact withRecord_entry s f e _
  have hcalm : u.Calm := (h.calm ⟨op.code, r⟩).of_eq he hq hd
  rw [hrow, recordArrives_of_takes h, htake, complete_eq_answered hentry hr, (hcalm.answered ..).finish]

/-- An admin-only command from another queue than CQ0 leaves its answer with ADMIN_ONLY, and nothing else (R136). -/
theorem exec_of_adminOnly (h : s.Takes q r f e) (hop : op.adminOnly = true) (hq : q ≠ 0) :
    exec (op.row q r) s =
      .next ((s.withRecord f e ⟨op.code, r⟩).answered f.slot e ⟨op.code, r⟩ .adminOnly 0 0) :=
  exec_of_taken_completes h (takeRecord_adminOnly _ _ _ _ _ ⟨hop, hq⟩) h.reserved rfl rfl rfl rfl

/-! ## CONFIG_INPUT (R71) -/

/-- The checks of a CONFIG_INPUT in their order (R71). -/
theorem configInputCheck_eq (r : RecordBody) :
    configInputCheck r =
      if 4 ≤ r.id.toNat then .badId
      else if r.flagsOk = false ∨ r.zeroBytes 8 24 = false ∨ 255 < r.bytes6to7.toNat then .badParam
      else if edgesOf r.byte5 = none then .badParam
      else .ok := by
  have hparams : configInputParamsOk r = false ↔
      (r.flagsOk = false ∨ r.zeroBytes 8 24 = false ∨ 255 < r.bytes6to7.toNat) ∨ edgesOf r.byte5 = none := by
    simp only [configInputParamsOk, RecordBody.configInputReserved, Bool.and_eq_false_iff, decide_eq_false_iff_not,
      not_le, Option.isSome_eq_false_iff, Option.isNone_iff_eq_none]
    tauto
  simp only [configInputCheck, Bool.not_eq_true', decide_eq_false_iff_not, not_lt, hparams, ← ite_or]

theorem takeConfigInput_of_refused (h : configInputCheck r = status) (hne : status ≠ .ok) :
    s.takeConfigInput k r = s.refuse k status := by
  unfold State.takeConfigInput
  split
  · exact absurd (h.symm.trans ‹_›) hne
  · rw [h]

/-- The level of a pin by cases: after the tick's sample the one it showed, before it the one it shows now (R72). -/
theorem Input.level_eq (x : Input) :
    x.level = if x.sampled then (if x.candidate.isSome then !x.qualified else x.qualified) else x.pin := by
  unfold Input.level
  cases x.candidate.isSome <;> simp

theorem takeConfigInput_of_ok {edges : EdgeSelection} (h : configInputCheck r = .ok)
    (hedges : edgesOf r.byte5 = some edges) :
    s.takeConfigInput k r =
      (s.setInput (inputOf r)
        { s.input (inputOf r) with
          edges := edges
          filter := BitVec.ofNat 8 r.bytes6to7.toNat
          qualified := (s.input (inputOf r)).level
          candidate := none
          sampled := true }).complete k .ok
        (BitVec.ofNat 32 ((s.input (inputOf r)).edges.code.toNat + 256 * (s.input (inputOf r)).filter.toNat))
        (if (s.input (inputOf r)).level then 1 else 0) := by
  simp only [State.takeConfigInput, h, hedges]
  rfl

/-- Settles O28: the checks in their order, and the reconfigured input beside the answer of an accepted CONFIG_INPUT. -/
theorem configInputRestartsQualification : Obligations.ConfigInputRestartsQualification := by
  intro s q r f e h u i x level
  have hlevel : x.level = level := Input.level_eq x
  by_cases hq : q = 0
  · have htake : u.takeRecord f.slot q ⟨0x38, r⟩ = u.takeConfigInput f.slot r :=
      takeRecord_known u f.slot q .configInput r fun hadmin => hadmin.2 hq
    have refused (status : Status) (hs : configInputCheck r = status) (hne : status ≠ .ok) :
        exec (.configInput q r) s = .next (u.answered f.slot e ⟨0x38, r⟩ status 0 0) :=
      exec_of_taken_completes (op := .configInput) h (htake.trans (takeConfigInput_of_refused hs hne)) h.reserved
        rfl rfl rfl rfl
    have hcheck := configInputCheck_eq r
    rw [if_neg (not_not_intro hq)]
    split_ifs at hcheck with hid hparams hnone
    · rw [if_pos hid]
      exact refused _ hcheck (by decide)
    · rw [if_neg hid, if_pos hparams]
      exact refused _ hcheck (by decide)
    · rw [if_neg hid, if_neg hparams, hnone]
      exact refused _ hcheck (by decide)
    · obtain ⟨edges, hedges⟩ := Option.ne_none_iff_exists'.mp hnone
      rw [if_neg hid, if_neg hparams, hedges, ← hlevel]
      exact exec_of_taken_completes (op := .configInput) h (htake.trans (takeConfigInput_of_ok hcheck hedges))
        h.reserved rfl rfl rfl rfl
  · rw [if_pos hq]
    exact exec_of_adminOnly (op := .configInput) h rfl hq

end Sys2Proof.Machine
end

section
/-! The trigger inputs (R69, R70): the first sight of a pin in a tick, and the edge that qualifies. -/

namespace Sys2Proof.Machine

variable {s : State} {i : InputId} {x : Input} {n t : Tick}

/-! ## The first sight of a pin in a tick (R69) -/

/-- A change from the qualified level begins a candidate. -/
theorem Input.show_changed (hs : x.sampled = false) (hf : x.fresh = false) (hc : x.candidate = none) :
    x.show (!x.qualified) n = { x with pin := !x.qualified, candidate := some n, sampled := true } := by
  simp [Input.show, Input.sample, hs, hf, hc]

/-- A return to the qualified level removes the candidate. -/
theorem Input.show_reverted (hs : x.sampled = false) (hf : x.fresh = false) :
    x.show x.qualified n = { x with pin := x.qualified, candidate := none, sampled := true } := by
  simp [Input.show, Input.sample, hs, hf]

/-! ## The edge that qualifies (R69, R70) -/

/-- While a candidate stands, the pin is at the new level where the tick's sample kept the candidate, or where the pin,
not yet sampled, is away from the qualified level (R69, log 11). -/
theorem Input.showsNew_of_candidate (hc : x.candidate = some t) (hnew : x.sampled = true ∨ x.pin ≠ x.qualified) :
    x.showsNew = true := by
  simp only [Input.showsNew, Input.level, hc, Option.isSome_some, Bool.true_and, Bool.xor_true, bne_iff_ne]
  split
  · exact Bool.not_ne_self _
  · exact hnew.resolve_left ‹_›

theorem Input.qualifies_of_expired (hc : x.candidate = some t) (hnew : x.sampled = true ∨ x.pin ≠ x.qualified)
    (hexpired : x.filter.toNat ≤ (n - t).toNat) : x.qualifies n = true := by
  simp only [Input.qualifies, hc, showsNew_of_candidate hc hnew, hexpired, decide_true, Bool.and_self]

/-- The edges an edge selection admits (R70). -/
theorem EdgeSelection.admits_iff {edges : EdgeSelection} {up : Bool} :
    edges.admits up = true ↔ (edges = .rising ∧ up = true) ∨ (edges = .falling ∧ up = false) ∨ edges = .both := by
  cases edges <;> simp [EdgeSelection.admits]

/-- A qualified edge emits its INPUT event where the edge selection admits it (R70). -/
theorem qualifyEdge_emitted (s : State) (i : InputId) :
    (s.qualifyEdge i).emitted =
      s.emitted ++ if (s.input i).edges.admits (!(s.input i).qualified) then [⟨inputCode i, s.timebase⟩] else [] := by
  simp only [State.qualifyEdge]
  split
  · rfl
  · exact (List.append_nil _).symm

/-- In a calm machine, a qualified edge whose event no stream hears leaves only its input changed (R65, R69). -/
theorem finish_qualifyEdge_of_unheard (hc : s.Calm) (hu : s.Unheard (inputCode i)) :
    (s.qualifyEdge i).finish = s.setInput i (s.input i).qualify := by
  have hcalm : (s.setInput i (s.input i).qualify).Calm := hc.of_eq rfl rfl rfl
  simp only [State.qualifyEdge]
  split
  · exact finish_emit_of_unheard hcalm fun j => hu j
  · exact hcalm.finish

/-- Settles O43: the first sight of the pin either way, and the qualified edge with its event. -/
theorem inputsQualifyEdges : Obligations.InputsQualifyEdges := by
  intro s i x
  refine ⟨fun hs hf hc => ?_, fun hs hf => ?_, fun t hc hnew hexpired => ⟨fun hcalm hu => ?_, ?_⟩⟩
  · exact congrArg (fun y => Host.Outcome.next (s.setInput i y)) (Input.show_changed hs hf hc)
  · exact congrArg (fun y => Host.Outcome.next (s.setInput i y)) (Input.show_reverted hs hf)
  · have hdue : x.qualifies s.timebase = true := Input.qualifies_of_expired hc hnew hexpired
    exact congrArg Host.Outcome.next ((if_pos hdue).trans (finish_qualifyEdge_of_unheard hcalm hu))
  · rw [qualifyEdge_emitted]
    simp only [EdgeSelection.admits_iff, Bool.not_eq_true', Bool.not_eq_false']
    rfl

end Sys2Proof.Machine
end

section
/-! CONFIG_PORT (R84): the one status of each record, and the timeout that an accepted one stores. -/

namespace Sys2Proof.Machine

variable {s : State} {k : SlotId} {q : CqId} {r : RecordBody} {f : Fetch} {e : Entry} {op : Opcode} {status : Status}

/-- An admin-only command from CQ0 that its own checks refuse leaves its answer with its status and 0 for both values,
and nothing else (R136, R137). -/
theorem exec_of_refused_admin (h : s.Takes 0 r f e)
    (hrun : (s.withRecord f e ⟨op.code, r⟩).runOpcode f.slot 0 op r =
      (s.withRecord f e ⟨op.code, r⟩).refuse f.slot status) :
    exec (op.row 0 r) s =
      .next ((s.withRecord f e ⟨op.code, r⟩).answered f.slot e ⟨op.code, r⟩ status 0 0) :=
  exec_of_taken_completes h ((takeRecord_known _ f.slot 0 op r fun hadmin => hadmin.2 rfl).trans hrun) h.reserved
    rfl rfl rfl rfl

/-- The checks of a CONFIG_PORT in their order (R84). -/
theorem configPortCheck_eq (s : State) (r : RecordBody) :
    s.configPortCheck r =
      if 8 ≤ r.id.toNat then .badId
      else if r.flagsOk = false ∨ r.configPortReserved = false ∨ r.wordAt 8 = 0 ∨ 65535 < (r.wordAt 8).toNat then
        .badParam
      else if s.holder (portOf r) ≠ none then .inUse
      else .ok := by
  simp only [State.configPortCheck, configPortParamsOk, Bool.not_eq_true', Bool.and_eq_false_iff,
    bne_eq_false_iff_eq, decide_eq_false_iff_not, not_lt, not_le, Option.isSome_iff_ne_none, or_assoc]

theorem takeConfigPort_of_refused (h : s.configPortCheck r = status) (hne : status ≠ .ok) :
    s.takeConfigPort k r = s.refuse k status := by
  unfold State.takeConfigPort
  split
  · exact absurd (h.symm.trans ‹_›) hne
  · rw [h]

theorem takeConfigPort_of_ok (h : s.configPortCheck r = .ok) :
    s.takeConfigPort k r =
      (s.setPort (portOf r) { s.port (portOf r) with timeout := BitVec.ofNat 16 (r.wordAt 8).toNat }).complete k .ok
        (BitVec.ofNat 32 (s.port (portOf r)).timeout.toNat) 0 := by
  simp only [State.takeConfigPort, h, BitVec.ofNat_toNat]

/-- Settles O29: the checks in their order, and the new timeout beside the answer of an accepted CONFIG_PORT. -/
theorem configPortSetsTheTimeout : Obligations.ConfigPortSetsTheTimeout := by
  intro s q r f e h u n
  by_cases hq : q = 0
  · subst hq
    have refused (status : Status) (hs : u.configPortCheck r = status) (hne : status ≠ .ok) :
        exec (.configPort 0 r) s = .next (u.answered f.slot e ⟨0x39, r⟩ status 0 0) :=
      exec_of_refused_admin (op := .configPort) h (takeConfigPort_of_refused hs hne)
    have hcheck := configPortCheck_eq u r
    rw [show u.holder (portOf r) = s.holder n from rfl] at hcheck
    rw [if_neg (not_not_intro rfl)]
    split_ifs at hcheck ⊢ with hid hparams hheld
    · exact refused _ hcheck (by decide)
    · exact refused _ hcheck (by decide)
    · exact refused _ hcheck (by decide)
    · have htake : u.takeRecord f.slot 0 ⟨0x39, r⟩ = u.takeConfigPort f.slot r :=
        takeRecord_known u f.slot 0 .configPort r fun hadmin => hadmin.2 rfl
      exact exec_of_taken_completes (op := .configPort) h (htake.trans (takeConfigPort_of_ok hcheck)) h.reserved
        rfl rfl rfl rfl
  · rw [if_pos hq]
    exact exec_of_adminOnly (op := .configPort) h rfl hq

end Sys2Proof.Machine
end

section
/-! The ready of a sample port (R80, R81), and the tick with nothing left due (R46, R68, R69, R80): every input and
every port moved on by one tick. -/

namespace Sys2Proof.Machine

variable {s : State} {n : Tick}

/-! ## Moving every element of a table on -/

/-- Replacing the elements at the indices of a list, one after another, replaces those elements alone. -/
theorem get_foldl_set {α : Type} {m : Nat} (g : Fin m → α → α) {l : List (Fin m)} (hl : l.Nodup) (v : Vector α m)
    (j : Fin m) :
    (l.foldl (fun v i => v.set i (g i (v.get i))) v).get j = if j ∈ l then g j (v.get j) else v.get j := by
  induction l generalizing v with
  | nil => rfl
  | cons i l ih =>
    obtain ⟨hi, hl⟩ := List.nodup_cons.mp hl
    rw [List.foldl_cons, ih hl, vector_get_set]
    by_cases hij : i = j
    · subst hij
      simp [hi]
    · simp [hij, Ne.symm hij]

/-- Replacing every element, one after another, gives the table of the replaced elements. -/
theorem foldl_set_eq_ofFn {α : Type} {m : Nat} (g : Fin m → α → α) (v : Vector α m) :
    (List.finRange m).foldl (fun v i => v.set i (g i (v.get i))) v = Vector.ofFn fun i => g i (v.get i) := by
  refine Vector.ext fun k hk => ?_
  rw [Vector.getElem_ofFn]
  exact (get_foldl_set g (List.nodup_finRange m) v ⟨k, hk⟩).trans (if_pos (List.mem_finRange _))

/-- A fold over the indices of one table of the state that replaces each element in its turn leaves that table with
every element replaced, and the rest of the state. -/
theorem foldl_table_eq {α : Type} {m : Nat} (put : Vector α m → State) {f : State → Fin m → State}
    (g : Fin m → α → α) (hf : ∀ v i, f (put v) i = put (v.set i (g i (v.get i)))) (v : Vector α m) :
    (List.finRange m).foldl f (put v) = put (Vector.ofFn fun i => g i (v.get i)) := by
  rw [← foldl_set_eq_ofFn]
  exact List.foldl_hom put hf

theorem tickInputs_eq (s : State) : s.tickInputs = { s with inputs := Vector.ofFn fun i => (s.input i).tick } :=
  foldl_table_eq (fun v => { s with inputs := v }) (fun _ x => x.tick) (fun _ _ => rfl) s.inputs

theorem tickPorts_eq (s : State) (serial : BitVec 8) :
    s.tickPorts serial = { s with ports := Vector.ofFn fun n => (s.port n).tick (serial.getLsbD n.val) } :=
  foldl_table_eq (fun v => { s with ports := v }) (fun n x => x.tick (serial.getLsbD n.val)) (fun _ _ => rfl) s.ports

/-! ## The tick of an input (R68, R69) -/

/-- The first tick after a reset takes the level of the pin (R68). -/
theorem Input.tick_sample_of_fresh {x : Input} (hf : x.fresh = true) :
    (x.sample n).tick = { x with qualified := x.pin, candidate := none, sampled := true, fresh := false } := by
  rw [Input.sample_of_done (.inr hf), Input.tick, if_pos hf]

/-- Any other tick ends with the pin's sample, where no row has taken it, and the pin is then to be sampled again
(R69). -/
theorem Input.tick_sample_of_not_fresh {x : Input} (hf : x.fresh = false) :
    (x.sample n).tick =
      { x with
        candidate :=
          if x.sampled then x.candidate
          else if x.pin = x.qualified then none
          else some (x.candidate.getD n)
        sampled := false } := by
  cases hs : x.sampled with
  | true => simp [Input.sample_of_done (.inl hs), Input.tick, hf]
  | false =>
    by_cases hp : x.pin = x.qualified
    · simp [Input.sample, Input.tick, hs, hf, hp]
    · cases hc : x.candidate <;> simp [Input.sample, Input.tick, hs, hf, hp, hc]

/-! ## The tick (R46) -/

/-- A tick with nothing left due samples the pins, moves every input, every port and the timebase on, and does nothing
else (R46, R69, R80). -/
theorem tick_of_nothingDue (h : s.NothingDue) (serial : BitVec 8) :
    s.tick serial =
      { s with
        timebase := s.timebase + 1
        ports := Vector.ofFn fun n => (s.port n).tick (serial.getLsbD n.val)
        inputs := Vector.ofFn fun i => ((s.input i).sample s.timebase).tick } := by
  rw [State.tick, takeDue_of_nothingDue h, State.nextTick, tickPorts_eq, tickInputs_eq]
  simp only [State.allSampled_input]
  rfl

/-- Settles O44: the ready in each phase of its port, and the tick with nothing left due, table by table. -/
theorem readyAndTick : Obligations.ReadyAndTick := by
  refine ⟨fun s n => rfl, fun s serial h => ⟨_, congrArg Host.Outcome.next (tick_of_nothingDue h serial), rfl, ?_, ?_,
    rfl⟩⟩
  · intro n
    refine (Vector.get_ofFn ..).trans ?_
    cases hphase : (s.port n).phase with
    | idle | waitReady | shifting => simp only [SamplePort.tick, hphase]
  · intro i
    refine (Vector.get_ofFn ..).trans ?_
    split
    · exact Input.tick_sample_of_fresh ‹_›
    · exact Input.tick_sample_of_not_fresh (Bool.eq_false_of_not_eq_true ‹_›)

end Sys2Proof.Machine
end

section
/-! Pattern memory under every step (R111, R190): the entries of a load are the one change a block makes to it, the
resets empty it or leave it, and no register write reaches it. -/

namespace Sys2Proof.Machine

variable {s t : State}

/-! ## Pattern memory under each operation -/

theorem shutdown_patternMemory (s : State) : s.shutdown.patternMemory = s.patternMemory := by
  have h := congrArg State.patternMemory (shutdown_eq s s.device)
  simpa only [State.quiesced] using h

theorem askVector0_patternMemory (s : State) : s.askVector0.patternMemory = s.patternMemory := by
  unfold State.askVector0
  split <;> rfl

/-- A fatal stop leaves pattern memory (R178). -/
theorem fatalStop_patternMemory (s : State) : s.fatalStop.patternMemory = s.patternMemory := by
  unfold State.fatalStop
  split <;> simp only [askVector0_patternMemory, shutdown_patternMemory]

/-- A state with sound pattern memory passes it on with the memory. -/
theorem State.PatternSound.of_eq (h : s.PatternSound) (he : t.patternMemory = s.patternMemory) : t.PatternSound :=
  (congrArg Memory.wf he).trans h

/-- Each elementary change of a block keeps pattern memory canonical: a load writes it byte by byte, and nothing else
touches it. -/
theorem patternSound_kept : State.Kept State.PatternSound where
  pacer _ _ _ h := h
  input _ _ _ h := h
  port _ _ _ h := h
  stream _ _ _ h := h
  holder _ _ _ h := h
  patHolder _ _ _ h := h
  portWord _ _ _ h := h
  queue _ _ _ h := h
  entry _ _ _ h := h
  reserve _ _ _ h := h
  release _ _ h := h
  submit s q f h := by
    unfold State.submit
    split <;> exact h
  newRq _ _ _ _ _ _ h := h
  noRq _ _ _ h := h
  itemWritten _ _ h := h
  itemDropped _ _ h := h
  pattern _ a data h := memWriteAll_wf h a data
  quiesceEnd _ h := h
  fatalStop s h := h.of_eq (fatalStop_patternMemory s)
  raw _ _ _ _ _ _ _ _ _ _ _ _ _ h := h

/-! ## The host's control of the device (R152 to R154, R173 to R181) -/

namespace State.PatternSound

theorem writeEnable (h : s.PatternSound) : s.writeEnable.PatternSound := by
  unfold State.writeEnable
  split
  · split <;> exact h
  · exact h

theorem writeDisable (h : s.PatternSound) : s.writeDisable.PatternSound := by
  unfold State.writeDisable
  split
  · exact patternSound_kept.finish (h.of_eq (by simp only [shutdown_patternMemory]))
  · exact h

/-- A function reset leaves pattern memory (R181). -/
theorem functionReset (h : s.PatternSound) : s.functionReset.PatternSound :=
  h.of_eq rfl

/-- A power-on reset empties pattern memory (R111, R180). -/
theorem powerOn (s : State) (link : LinkConfig) : (s.powerOn link).PatternSound := reset_patternMemory_wf

theorem consumerWrite (h : s.PatternSound) (q : RqId) (v : Word) : (s.consumerWrite q v).PatternSound := by
  unfold State.consumerWrite
  split <;> exact h

theorem writeInterrupt (h : s.PatternSound) (q : RqId) (on clear : Bool) :
    (s.writeInterrupt q on clear).PatternSound := by
  unfold State.writeInterrupt
  dsimp only
  split <;> exact h

theorem writeDevctl (h : s.PatternSound) (v : Word) : (s.writeDevctl v).PatternSound := by
  unfold State.writeDevctl
  split
  · exact h.functionReset
  · split
    · exact h.writeEnable
    · exact h.writeDisable

/-- The admin registers are not pattern memory (R184). -/
theorem setRegisters (h : s.PatternSound) (a b : Addr) (v : Word) :
    ({ s with aqbase := a, arbase := b, qsize := v } : State).PatternSound := h

/-- No register of the window reaches pattern memory but by a reset (R181, R184). -/
theorem writeWindow (h : s.PatternSound) (offset : BitVec 12) (v : Word) : (s.writeWindow offset v).PatternSound := by
  simp only [State.writeWindow, apply_ite State.PatternSound, h, h.writeDevctl, patternSound_kept.producerWrite h,
    h.consumerWrite, h.writeInterrupt, h.setRegisters, ite_self]

/-- What is due is taken, and the tick moves inputs, ports and timebase alone (R46). -/
theorem tick (h : s.PatternSound) (serial : BitVec 8) : (s.tick serial).PatternSound := by
  have hdue : s.takeDue.PatternSound := patternSound_kept.takeDue h
  exact hdue.of_eq (by simp only [State.tick, State.nextTick, tickPorts_eq, tickInputs_eq])

theorem of_exec_not_control {c : Instr} (h : s.PatternSound) (hc : isControlRow c = false) (ht : exec c s = .next t) :
    t.PatternSound := by
  obtain ⟨u, hu, hsound⟩ := patternSound_kept.exec_of_not_control h hc
  cases hu.symm.trans ht
  exact hsound

/-- Every row keeps pattern memory in its canonical form. -/
theorem of_exec {c : Instr} (h : s.PatternSound) (hc : exec c s = .next t) : t.PatternSound := by
  cases c with
  | timebaseTick serial =>
    cases hc
    exact h.tick serial
  | powerOnReset link =>
    cases hc
    exact powerOn s link
  | functionReset enableBit | linkConfigurationChange link | linkStateChange up =>
    cases hc
    exact h
  | enable =>
    cases hc
    exact h.writeEnable
  | quiesce =>
    cases hc
    exact h.writeDisable
  | consumerWrite q v =>
    cases hc
    exact h.consumerWrite q v
  | interruptEnable q on | errorFlagClear q on =>
    cases hc
    exact h.writeInterrupt q on _
  | registerWrite offset size v =>
    cases hc
    split
    · exact h.writeWindow offset v
    · exact h
  | _ => exact h.of_exec_not_control rfl hc

end State.PatternSound

/-- Settles O6: an idle step changes nothing, and every row keeps the canonical form. -/
theorem patternMemoryStaysCanonical : Obligations.PatternMemoryStaysCanonical := by
  intro s t h hstep
  unfold step at hstep
  split at hstep
  · cases hstep
    exact h
  next c rest _ => exact State.PatternSound.of_exec (s := { s with pending := rest }) h hstep

end Sys2Proof.Machine
end

section
/-! LOAD_PATTERN (R113, R114): the load that joins the load-region list, what a read done leaves of it, and the two ends
it can have. -/

namespace Sys2Proof.Machine

variable {s : State} {k : SlotId} {r : RecordBody} {tag : Nat} {o : OutstandingRead} {l : Load} {data : List Byte}

/-! ## LOAD_PATTERN begins (R113) -/

/-- LOAD_PATTERN taken where its checks pass (R113). -/
theorem takeLoad_of_ok (h : s.loadCheck r = .ok) :
    s.takeLoad k r =
      { s.toWorking k 0 0 with
        loads := (s.toWorking k 0 0).loads ++
          [{ slot := k
             address := r.addrAt 8
             first := loadFirst r
             count := loadCount r
             written := 0
             served := false }] } := by
  simp only [State.takeLoad, h]

/-- Settles O27: the new load and the entry in WORKING are the whole effect of a LOAD_PATTERN. -/
theorem loadPatternBegins : Obligations.LoadPatternBegins := by
  intro s q r f e h hok
  have hok' : (s.withRecord f e ⟨Opcode.loadPattern.code, r⟩).loadCheck r = .ok := hok
  refine exec_of_works (op := .loadPattern) h rfl ?_ rfl rfl rfl
  rw [State.runOpcode, takeLoad_of_ok hok', withRecord_toWorking]
  rfl

/-! ## A load's read ends (R113, R114, R167) -/

/-- The state with `data` written to pattern memory as the next entries of load `l` (R113). -/
def State.loaded (s : State) (l : Load) (data : List Byte) : State :=
  { s with patternMemory := memWriteAll s.patternMemory (4 * (l.first + l.written)) data }

/-- With entries left, the load goes on after those just written, and asks for its next read (R113). -/
theorem loadReadDone_of_left (hl : (s.loads.find? fun m => m.slot == l.slot) = some l)
    (hlt : l.written + data.length / 4 < l.count) :
    s.loadReadDone l.slot data =
      { s.loaded l data with
        loads := s.loads.map fun m =>
          if m.slot = l.slot then { l with written := l.written + data.length / 4, served := false } else m } := by
  simp only [State.loadReadDone, hl, if_neg (Nat.not_le.2 hlt)]
  rfl

/-- With its last entry written, the load ends (R114). -/
theorem loadReadDone_of_last (hl : (s.loads.find? fun m => m.slot == l.slot) = some l)
    (hge : l.count ≤ l.written + data.length / 4) :
    s.loadReadDone l.slot data =
      (s.loaded l data).loadEnds { l with written := l.written + data.length / 4, served := false } .ok := by
  simp only [State.loadReadDone, hl, if_pos hge]
  rfl

/-- A load that ends leaves the load-region list and the answer of its LOAD_PATTERN (R114, R135). -/
theorem loadEnds_eq_answered {e : Entry} {rec : Record} (he : s.entry l.slot = some e) (hrec : e.record = some rec)
    (hr : (s.rq e.replyQueue).reserved ≠ 0) (status : Status) :
    s.loadEnds l status =
      ({ s with loads := s.loads.filter fun m => m.slot != l.slot } : State).answered l.slot e rec status
        (BitVec.ofNat 32 l.written) (BitVec.ofNat 32 l.first) :=
  complete_eq_answered (s := { s with loads := s.loads.filter fun m => m.slot != l.slot })
    (he.trans (by rw [← hrec])) hr status _ _

/-- The row of a read that returns whole to a load, by the state its entries leave (R113, R167). -/
theorem exec_readCompletion_of_load {t : State} (ho : s.readOf tag = some o) (hwho : o.who = .load k)
    (hgot : o.got = []) (hlen : o.length = data.length) (ht : (s.endRead tag).loadReadDone k data = t)
    (hcalm : t.Calm) :
    exec (.readCompletion tag data) s = .next t := by
  have h : exec (.readCompletion tag data) s = .next (s.dataReturned tag data).finish := rfl
  have hdone : s.dataReturned tag data = t := by
    rw [dataReturned_of_whole ho hgot hlen, hwho]
    exact ht
  rw [h, hdone, hcalm.finish]

/-- A read of a load that fails ends the load with BUS_ERROR (R114, R167, R169). -/
theorem readFailed_of_load (ho : s.readOf tag = some o) (hwho : o.who = .load l.slot)
    (hl : (s.loads.find? fun m => m.slot == l.slot) = some l) :
    s.readFailed tag = (s.endRead tag).loadEnds l .busError := by
  have hl' : ((s.endRead tag).loads.find? fun m => m.slot == l.slot) = some l := hl
  simp only [State.readFailed, ho, hwho, State.reportFailed, State.loadReadFailed, hl']

/-- At its deadline a read fails (R167). -/
theorem readExpires_of_due (ho : s.readOf tag = some o) (hdue : (s.timebase - o.deadline).toNat < 2 ^ 47) :
    s.readExpires tag = (s.readFailed tag).finish := by
  have h : s.deadlineDue tag = true := by
    rw [State.deadlineDue, ho]
    exact decide_eq_true hdue
  rw [State.readExpires, if_pos h]

/-- Settles O53: the bytes that a read done brings, with what they leave of the load, and the read that fails. -/
theorem loadedEntriesAreWritten : Obligations.LoadedEntriesAreWritten := by
  intro s tag o l hcalm hsound ho hwho hl u ended
  have hl' : (u.loads.find? fun m => m.slot == l.slot) = some l := hl
  have hu : u.Calm := hcalm.of_eq rfl rfl rfl
  refine ⟨fun data hgot hlen => ?_, fun e rec he hrec hr => ?_⟩
  · intro now written
    have hbytes (a : Nat) := memRead_memWriteAll hsound (4 * (l.first + l.written)) a data
    refine ⟨fun hlt => ?_, fun e rec hlast he hrec hr => ?_⟩
    · have hdone := loadReadDone_of_left hl' hlt
      exact ⟨_, exec_readCompletion_of_load ho hwho hgot hlen hdone (hu.of_eq rfl rfl rfl), hbytes, rfl⟩
    · have hend := loadEnds_eq_answered (s := u.loaded l data) (l := { l with written := now, served := false }) he
        hrec hr .ok
      have hdone := (loadReadDone_of_last hl' hlast.ge).trans hend
      refine ⟨_, exec_readCompletion_of_load ho hwho hgot hlen hdone (hu.of_eq rfl rfl rfl), hbytes, ?_⟩
      rw [← hlast]
      rfl
  · intro t
    have hend : s.readFailed tag = t :=
      (readFailed_of_load ho hwho hl).trans (loadEnds_eq_answered (s := u) he hrec hr .busError)
    have hfinish : (s.readFailed tag).finish = t := by
      rw [hend]
      exact State.Calm.finish (hu.of_eq rfl rfl rfl)
    exact ⟨congrArg Host.Outcome.next hfinish, fun hdue =>
      congrArg Host.Outcome.next ((readExpires_of_due ho hdue).trans hfinish)⟩

end Sys2Proof.Machine
end

section
/-! What proofs about the command queues start from: a happening that brings nothing due (log 3, log 4), the phases of
the in-flight entries (R124, R139), and the bytes of a record (section 11.2, R186). -/

namespace Sys2Proof.Machine

variable {s t : State} {q : CqId} {k : SlotId} {e e' : Entry} {p : Phase}

/-! ## Nothing follows on (log 3, log 4) -/

/-- With no deletion, no held record and no quiesce due, nothing follows on. -/
theorem nextFollowOn_of_nothing_due (hdeletion : ∀ q, s.deletionDue q = false) (hheld : ∀ q, s.heldDue q = false)
    (hquiesce : s.device ≠ .quiescing) : s.nextFollowOn = none := by
  have hdeletions : (List.finRange 4).find? (fun q => s.deletionDue q) = none :=
    List.find?_eq_none.2 fun q _ => by simp [hdeletion q]
  have hholds : (List.finRange 4).find? (fun q => s.heldDue q) = none :=
    List.find?_eq_none.2 fun q _ => by simp [hheld q]
  simp [State.nextFollowOn, hdeletions, hholds, State.quiesceDue, hquiesce]

/-- A happening that emitted nothing and brings nothing due ends as it stands. -/
theorem finish_of_nothing_due (hemitted : s.emitted = []) (hdeletion : ∀ q, s.deletionDue q = false)
    (hheld : ∀ q, s.heldDue q = false) (hquiesce : s.device ≠ .quiescing) : s.finish = s := by
  simp [State.finish, Config.followOnBound, State.settle, deliverEvents_of_none _ hemitted,
    nextFollowOn_of_nothing_due hdeletion hheld hquiesce]

/-- A queue without a held record has none due (R139). -/
theorem heldDue_of_none (h : (s.queue q).held = none) : s.heldDue q = false := by
  simp [State.heldDue, h]

/-- A queue that is not being deleted has no deletion due (R125). -/
theorem deletionDue_of_ne (h : (s.queue q).state ≠ .deleting) : s.deletionDue q = false := by
  simp [State.deletionDue, h]

/-- A calm machine holds no record. -/
theorem State.Calm.held (h : s.Calm) (q : CqId) : (s.queue q).held = none := by
  obtain ⟨-, hqueues, -⟩ := h
  exact (hqueues q).1

/-! ## Phases of the in-flight entries (section 7.5) -/

/-- An entry leaves a count as it is where it takes the place of one that the count takes the same way. -/
theorem countPhase_set (he : s.entry k = some e) (ht : t.inflight = s.inflight.set k (some e'))
    (hsame : e'.queue = q ∧ e'.phase = p ↔ e.queue = q ∧ e.phase = p) : t.countPhase q p = s.countPhase q p := by
  refine List.countP_congr fun j _ => ?_
  by_cases hj : k = j
  · subst hj
    have hentry : t.entry k = some e' := by rw [State.entry, ht, vector_get_set, if_pos rfl]
    simpa [hentry, he] using hsame
  · have hentry : t.entry j = s.entry j := by rw [State.entry, ht, vector_get_set, if_neg hj]; rfl
    rw [hentry]

/-- A queue of which no entry changes its phase has the work it had (R124). -/
theorem outstandingWork_set (he : s.entry k = some e) (ht : t.inflight = s.inflight.set k (some e'))
    (hsame : ∀ p, e'.queue = q ∧ e'.phase = p ↔ e.queue = q ∧ e.phase = p) :
    t.outstandingWork q = s.outstandingWork q := by
  rw [State.outstandingWork, countPhase_set he ht (hsame _), countPhase_set he ht (hsame _), State.outstandingWork]

/-! ## Records as bytes (section 11.2, R186) -/

theorem length_leBytes (n v : Nat) : (leBytes n v).length = n := by
  induction n generalizing v with
  | zero => rfl
  | succ n ih => rw [leBytes, List.length_cons, ih]

/-- The low `n` bytes of a number give it back up to what lies beyond them (R186). -/
theorem leNat_leBytes (n v : Nat) : leNat (leBytes n v) = v % 256 ^ n := by
  induction n generalizing v with
  | zero => simp [leBytes, leNat, Nat.mod_one]
  | succ n ih =>
    calc leNat (leBytes (n + 1) v) = v % 256 + 256 * (v / 256 % 256 ^ n) := by rw [leBytes, leNat, ih]; rfl
      _ = v % 256 ^ (n + 1) := by rw [Nat.pow_succ', Nat.mod_mul]

theorem length_encodeRecord (rec : Record) : (encodeRecord rec).length = 32 :=
  length_leBytes 32 _

/-- Bit `j` of a record, by the field it falls in (section 11.2). -/
theorem bits_getLsbD (rec : Record) (j : Nat) :
    rec.bits.getLsbD j =
      if j < 8 then rec.code.getLsbD j
      else if j < 16 then rec.body.flags.getLsbD (j - 8)
      else if j < 32 then rec.body.tag.getLsbD (j - 16)
      else if j < 40 then rec.body.id.getLsbD (j - 32)
      else if j < 48 then rec.body.byte5.getLsbD (j - 40)
      else if j < 64 then rec.body.bytes6to7.getLsbD (j - 48)
      else rec.body.params.getLsbD (j - 64) := by
  simp only [Record.bits, BitVec.getLsbD_append]
  grind

/-- The fields that the 256 bits of a record give are its own (section 11.2). -/
theorem ofBits_bits (rec : Record) : Record.ofBits rec.bits = rec := by
  obtain ⟨code, flags, tag, id, byte5, bytes6to7, params⟩ := rec
  simp only [Record.ofBits, Record.mk.injEq, RecordBody.mk.injEq]
  refine ⟨?_, ?_, ?_, ?_, ?_, ?_, ?_⟩ <;>
  · refine BitVec.eq_of_getLsbD_eq fun j hj => ?_
    simp (disch := omega) only [BitVec.getLsbD_extractLsb', bits_getLsbD, hj, decide_true, Bool.true_and, if_pos,
      if_neg, if_true, Nat.add_sub_cancel_left, Nat.zero_add]

/-- The bytes of a record give the record back (section 11.2, R186). -/
theorem decodeRecord_encodeRecord (rec : Record) : decodeRecord (encodeRecord rec) = rec := by
  have hbits : rec.bits.toNat % 256 ^ 32 = rec.bits.toNat := Nat.mod_eq_of_lt rec.bits.isLt
  rw [decodeRecord, encodeRecord, leNat_leBytes, hbits, BitVec.ofNat_toNat, BitVec.setWidth_eq, ofBits_bits]

end Sys2Proof.Machine
end

section
/-! A record that is taken (R130, R136): its row and the completion of its read are one, every code has its own checks,
and a refusal leaves its answer and nothing else. -/

namespace Sys2Proof.Machine

variable {s u : State} {k : SlotId} {q : CqId} {r : RecordBody} {f : Fetch} {e : Entry} {op : Opcode}

/-! ## The row of a record and the completion of its read (R130, R167, log 1) -/

/-- The row of a command is the arrival of its record (log 1). -/
theorem exec_row (op : Opcode) (q : CqId) (r : RecordBody) (s : State) :
    exec (op.row q r) s = .next (s.recordArrives q ⟨op.code, r⟩) := by
  cases op <;> rfl

/-- The one read of the fetch in progress that returns whole is the arrival of the record it brings (R130, R167). -/
theorem exec_readCompletion_of_fetch {o : OutstandingRead} (hf : s.fetch = some f) (ho : o ∈ s.outstanding)
    (hwho : o.who = .fetch) (hlen : o.length = 32) (hgot : o.got = [])
    (hone : ∀ p ∈ s.outstanding, p.tag = o.tag ∨ p.who = .fetch → p = o) (rec : Record) :
    exec (.readCompletion o.tag (encodeRecord rec)) s = .next (s.recordArrives f.queue rec) := by
  have hread : s.readOf o.tag = some o := by
    obtain ⟨p, hp⟩ : ∃ p, s.readOf o.tag = some p :=
      Option.isSome_iff_exists.1 (List.find?_isSome.2 ⟨o, ho, beq_self_eq_true _⟩)
    have htag : p.tag = o.tag := by simpa using List.find?_some hp
    rw [hp, hone p (List.mem_of_find?_eq_some hp) (.inl htag)]
  have hends : s.endRead o.tag = s.fetchReadEnds := by
    have hsame : (s.outstanding.filter fun p => p.tag != o.tag) = s.outstanding.filter fun p => p.who != .fetch := by
      refine List.filter_congr fun p hp => ?_
      rw [Bool.eq_iff_iff, bne_iff_ne, bne_iff_ne]
      exact not_congr ⟨fun h => hone p hp (.inl h) ▸ hwho, fun h => hone p hp (.inr h) ▸ rfl⟩
    rw [State.endRead, hsame, State.fetchReadEnds]
  have hany : (s.outstanding.any fun p => p.who == Requester.fetch) = true :=
    List.any_eq_true.2 ⟨o, ho, by simp [hwho]⟩
  have hdone : s.dataReturned o.tag (encodeRecord rec) = s.fetchReadEnds.fetchDone rec := by
    rw [dataReturned_of_whole hread hgot (hlen.trans (length_encodeRecord rec).symm), hends, hwho]
    simp only [State.reportDone, decodeRecord_encodeRecord]
  have hexec : exec (.readCompletion o.tag (encodeRecord rec)) s =
      .next (s.dataReturned o.tag (encodeRecord rec)).finish := rfl
  simp only [hexec, hdone, State.recordArrives, hf, hany, and_self, if_true]

/-- Settles O4: both rows are the arrival of the record. -/
theorem commandRowsAreReadCompletions : Obligations.CommandRowsAreReadCompletions := by
  intro op q r s f o hf hq ho hwho hlen hgot hone
  rw [exec_row, exec_readCompletion_of_fetch hf ho hwho hlen hgot hone, hq]

/-! ## A refusal (R136, R137) -/

/-- A command with another status than OK takes the branch of its refusal. -/
theorem match_of_ne_ok {status : Status} (accepted : State) (refused : Status → State) :
    status ≠ .ok →
      (match status with
        | .ok => accepted
        | other => refused other) = refused status := by
  cases status <;> intro hne
  case ok => exact absurd rfl hne
  all_goals rfl

/-- A LOAD_PATTERN that its checks refuse replies the first entry as its second value (R112). -/
theorem takeLoad_of_refused (hne : s.loadCheck r ≠ .ok) :
    s.takeLoad k r = s.complete k (s.loadCheck r) 0 (BitVec.ofNat 32 (loadFirst r)) :=
  match_of_ne_ok _ (fun status => s.complete k status 0 (BitVec.ofNat 32 (loadFirst r))) hne

/-- Any other command that its own checks refuse is refused with their status, and does nothing else (R136). -/
theorem runOpcode_of_refused (hload : op ≠ .loadPattern) (hadmin : ¬(op.adminOnly = true ∧ q ≠ 0))
    (hne : s.statusOf op q r ≠ .ok) : s.runOpcode k q op r = s.refuse k (s.statusOf op q r) := by
  simp only [State.statusOf, if_neg hadmin] at hne ⊢
  cases op
  case loadPattern => exact absurd rfl hload
  all_goals exact match_of_ne_ok _ (s.refuse k) hne

/-- A record that R136 refuses completes with its one status and does nothing else. -/
theorem takeRecord_of_refused (hne : s.statusOf op q r ≠ .ok) :
    s.takeRecord k q ⟨op.code, r⟩ =
      s.complete k (s.statusOf op q r) 0 (if op = .loadPattern then BitVec.ofNat 32 (loadFirst r) else 0) := by
  by_cases hload : op = .loadPattern
  · subst hload
    rw [if_pos rfl]
    exact (takeRecord_known s k q .loadPattern r fun h => absurd h.1 (by decide)).trans (takeLoad_of_refused hne)
  rw [if_neg hload]
  by_cases hadmin : op.adminOnly = true ∧ q ≠ 0
  · have hstatus : s.statusOf op q r = .adminOnly := if_pos hadmin
    rw [takeRecord_adminOnly _ _ _ _ _ hadmin, hstatus]
    rfl
  · exact (takeRecord_known _ _ _ _ _ hadmin).trans (runOpcode_of_refused hload hadmin hne)

/-- Settles O9: a refusal is the completion of its command on the state in which the record is taken. -/
theorem refusedCommandsChangeNothing : Obligations.RefusedCommandsChangeNothing := by
  intro op q r s f e h hne
  exact exec_of_taken_completes h (takeRecord_of_refused hne) h.reserved rfl rfl rfl rfl

/-- Settles O10: the completion of the fetch's read is the arrival of the record, whose code no command has. -/
theorem unknownCodesAreRefused : Obligations.UnknownCodesAreRefused := by
  intro rec q s f e o h hcode ho hwho hlen hgot hone
  obtain ⟨-, ⟨hf, hq, -⟩, -⟩ := id h
  have htake : (s.withRecord f e rec).takeRecord f.slot q rec = (s.withRecord f e rec).refuse f.slot .badOpcode := by
    simp only [State.takeRecord, hcode]
  have hanswer : (s.withRecord f e rec).refuse f.slot .badOpcode =
      (s.withRecord f e rec).answered f.slot e rec .badOpcode 0 0 :=
    complete_eq_answered (withRecord_entry s f e rec) h.reserved .badOpcode 0 0
  have harrives := recordArrives_of_takes h rec.code
  rw [exec_readCompletion_of_fetch hf ho hwho hlen hgot hone rec, hq, harrives, htake, hanswer,
    ((h.calm rec).answered ..).finish]

/-! ## NOP and READ_TIME (R141, R142) -/

theorem plainCheck_eq_ok_iff : plainCheck r = .ok ↔ r.flagsOk = true ∧ r.noFields = true := by
  unfold plainCheck
  split <;> simp_all

theorem plainCheck_of_not (h : ¬(r.flagsOk = true ∧ r.noFields = true)) : plainCheck r = .badParam := by
  rw [plainCheck, if_neg (by simpa using h)]

/-- The consumer that a record taken leaves its queue (R130). -/
theorem withRecord_consumer (s : State) (f : Fetch) (e : Entry) (rec : Record) :
    ((s.withRecord f e rec).queue f.queue).consumer =
      ((s.queue f.queue).consumer + 1) % (s.queue f.queue).size := by
  simp [State.withRecord, State.queue, vector_get_set]

/-- NOP taken where its checks pass (R141). -/
theorem takeNop_of_ok (h : plainCheck r = .ok) :
    s.takeNop k q r = s.complete k .ok (BitVec.ofNat 32 q.val) (BitVec.ofNat 32 (s.queue q).consumer) := by
  simp only [State.takeNop, h]

/-- The high part of a tick is its bits from 32 on (R142). -/
theorem tickHigh_eq (n : Tick) : BitVec.ofNat 32 (n.toNat / 2 ^ 32) = (n.extractLsb' 32 16).setWidth 32 := by
  refine BitVec.eq_of_toNat_eq ?_
  have hn := n.isLt
  simp only [BitVec.toNat_ofNat, BitVec.toNat_setWidth, BitVec.extractLsb'_toNat, Nat.shiftRight_eq_div_pow]
  omega

/-- READ_TIME taken where its checks pass (R142). -/
theorem takeReadTime_of_ok (h : plainCheck r = .ok) :
    s.takeReadTime k r =
      s.complete k .ok (s.timebase.extractLsb' 0 32) ((s.timebase.extractLsb' 32 16).setWidth 32) := by
  simp only [State.takeReadTime, h, tickHigh_eq, tickLow, BitVec.setWidth_eq_extractLsb' (by decide : 32 ≤ 48)]

/-- Settles O12: both commands have the one check, and either completes by its answer alone. -/
theorem nopAndReadTimeReply : Obligations.NopAndReadTimeReply := by
  intro s q r f e h
  obtain ⟨-, ⟨-, hq, -⟩, -⟩ := id h
  split_ifs with hplain
  · have hok := plainCheck_eq_ok_iff.2 hplain
    constructor
    · have hconsumer := withRecord_consumer s f e ⟨0x01, r⟩
      rw [hq] at hconsumer
      rw [← hconsumer]
      exact exec_of_completes (op := .nop) h rfl (takeNop_of_ok hok) h.reserved rfl rfl rfl rfl
    · exact exec_of_completes (op := .readTime) h rfl (takeReadTime_of_ok hok) h.reserved rfl rfl rfl rfl
  · have hbad := plainCheck_of_not hplain
    exact ⟨exec_of_refused (op := .nop) h rfl (by simp only [State.runOpcode, State.takeNop, hbad]),
      exec_of_refused (op := .readTime) h rfl (by simp only [State.runOpcode, State.takeReadTime, hbad])⟩

end Sys2Proof.Machine
end

section
/-! ORDERED records (R139): one that its queue's WORKING entries hold, and the taking of a held record. -/

namespace Sys2Proof.Machine

variable {s : State} {q : CqId} {r : RecordBody} {f : Fetch} {e : Entry} {k : SlotId}

/-! ## A record is held (R139) -/

/-- The state in which a record that has been fetched is held: its entry is in HELD, and its queue names it (R139). -/
def State.withHeld (s : State) (f : Fetch) (e : Entry) (rec : Record) : State :=
  { s.withRecord f e rec with
    queues := s.queues.set f.queue
      { s.queue f.queue with
        consumer := ((s.queue f.queue).consumer + 1) % (s.queue f.queue).size
        held := some f.slot }
    inflight := s.inflight.set f.slot (some { e with record := some rec, phase := .held }) }

/-- Letting a record in and holding it sets its entry and its queue once (R130, R139). -/
theorem holdRecord_letIn (s : State) (q : CqId) (k : SlotId) (e : Entry) (rec : Record) :
    (s.letIn q k e rec).holdRecord q k =
      { s with
        queues := s.queues.set q
          { s.queue q with
            consumer := ((s.queue q).consumer + 1) % (s.queue q).size
            held := some k }
        inflight := s.inflight.set k (some { e with record := some rec, phase := .held }) } := by
  have hentry : (s.letIn q k e rec).entry k = some { e with record := some rec } := State.setEntry_entry_self ..
  simp only [State.holdRecord, hentry]
  simp [State.letIn, State.setQueue, State.setEntry, State.queue, vector_get_set]

/-- An ORDERED record that arrives while its queue has an entry in WORKING is held (R130, R139). -/
theorem recordArrives_of_held {rec : Record} (h : s.Fetching q f e) (hordered : rec.body.ordered = true)
    (hworking : s.hasWorking q = true) : s.recordArrives q rec = (s.withHeld f e rec).finish := by
  obtain ⟨hf, rfl, he, -, -, hactive, hout, -⟩ := h
  let v : State := { s.fetchReadEnds with fetch := none }
  have hf' : s.fetchReadEnds.fetch = some f := hf
  have he' : v.entry f.slot = some e := he
  have hactive' : (v.queue f.queue).state = .active := hactive
  have hworking' : v.hasWorking f.queue = true := hworking
  have hdone : s.fetchReadEnds.fetchDone rec = (v.letIn f.queue f.slot e rec).holdRecord f.queue f.slot := by
    simp [State.fetchDone, hf', v, hactive', he', hworking', hordered]
  have hheld : (v.letIn f.queue f.slot e rec).holdRecord f.queue f.slot = s.withHeld f e rec :=
    holdRecord_letIn v f.queue f.slot e rec
  simp only [State.recordArrives, hf, hout, and_self, if_true, hdone, hheld]

/-- A held record waits for the WORKING entries of its queue, so nothing follows on its hold (R139). -/
theorem finish_withHeld {rec : Record} (hcalm : s.Calm) (h : s.Fetching q f e) (hworking : s.hasWorking q = true) :
    (s.withHeld f e rec).finish = s.withHeld f e rec := by
  obtain ⟨hemitted, hqueues, hdevice⟩ := hcalm
  obtain ⟨-, rfl, he, -, hphase, -⟩ := h
  have hqueue (p : CqId) : (s.withHeld f e rec).queue p =
      if f.queue = p then
        { s.queue f.queue with
          consumer := ((s.queue f.queue).consumer + 1) % (s.queue f.queue).size
          held := some f.slot }
      else s.queue p := vector_get_set _ _ _ _
  have hstill : (s.withHeld f e rec).hasWorking f.queue = s.hasWorking f.queue := by
    rw [State.hasWorking, State.hasWorking, countPhase_set he rfl (by simp [hphase])]
  refine finish_of_nothing_due hemitted (fun p => deletionDue_of_ne ?_) (fun p => ?_) hdevice
  · rw [hqueue]
    split
    · exact (hqueues f.queue).2
    · exact (hqueues p).2
  · by_cases hp : f.queue = p
    · subst hp
      simp [State.heldDue, hstill, hworking]
    · exact heldDue_of_none (by rw [hqueue, if_neg hp]; exact (hqueues p).1)

/-- Settles O11: the record arrives, is held, and nothing follows on. -/
theorem orderedRecordsAreHeld : Obligations.OrderedRecordsAreHeld := by
  intro op q r s f e hcalm h hordered hworking
  rw [exec_row, recordArrives_of_held h hordered hworking, finish_withHeld hcalm h hworking]
  obtain ⟨-, rfl, -⟩ := h
  rfl

/-! ## A held record is taken (R139) -/

/-- While its queue has an entry in WORKING, a held record is not taken (R139). -/
theorem exec_heldRecordTaken_of_working (h : s.hasWorking q = true) : exec (.heldRecordTaken q) s = .next s := by
  have hexec : exec (.heldRecordTaken q) s = .next (if s.heldDue q then (s.takeHeld q).finish else s) := rfl
  rw [hexec, if_neg (by simp [State.heldDue, h])]

/-- The state in which the held record of entry `e` at slot `k` is taken: its queue names it no more, and the entry is
like one fetched just now (R139). -/
def State.unheld (s : State) (q : CqId) (k : SlotId) (e : Entry) : State :=
  { s with
    queues := s.queues.set q { s.queue q with held := none }
    inflight := s.inflight.set k (some { e with phase := .fetching }) }

/-- With no entry of its queue in WORKING, a held record is taken (R136, R139). -/
theorem exec_heldRecordTaken_of_due {rec : Record} (hheld : (s.queue q).held = some k) (he : s.entry k = some e)
    (hrec : e.record = some rec) (h : s.hasWorking q = false) :
    exec (.heldRecordTaken q) s = .next ((s.unheld q k e).takeRecord k q rec).finish := by
  have hexec : exec (.heldRecordTaken q) s = .next (if s.heldDue q then (s.takeHeld q).finish else s) := rfl
  rw [hexec, if_pos (by simp [State.heldDue, hheld, h]), takeHeld_eq hheld he hrec]
  rfl

/-- A held record whose taking completes its command at once leaves its answer and nothing else (R135, R139). -/
theorem exec_heldRecordTaken_of_completes {rec : Record} {status : Status} {a b : Word}
    (hheld : (s.queue q).held = some k) (he : s.entry k = some e) (hrec : e.record = some rec)
    (h : s.hasWorking q = false) (hcalm : (s.unheld q k e).Calm) (hr : (s.rq e.replyQueue).reserved ≠ 0)
    (htake : (s.unheld q k e).takeRecord k q rec = (s.unheld q k e).complete k status a b) :
    exec (.heldRecordTaken q) s = .next ((s.unheld q k e).answered k e rec status a b) := by
  have hentry : (s.unheld q k e).entry k = some { e with phase := .fetching, record := some rec } := by
    rw [← hrec]
    simp [State.unheld, State.entry, vector_get_set]
  have hanswer := complete_eq_answered (e := { e with phase := .fetching }) hentry hr status a b
  rw [exec_heldRecordTaken_of_due hheld he hrec h, htake, hanswer, (hcalm.answered ..).finish]
  rfl

/-- Settles O56: the taking of the held record is that of its fetch, so it goes as NOP and as a refusal do. -/
theorem heldNopIsTaken : Obligations.HeldNopIsTaken := by
  intro s q k e op r record v hheld he hrec _
  refine ⟨exec_heldRecordTaken_of_working, fun h hcalm hr => ⟨?_, fun hne => ?_, ?_⟩⟩
  · intro hop _ hflags hfields
    subst hop
    have hconsumer : (v.queue q).consumer = (s.queue q).consumer := by simp [v, State.queue, vector_get_set]
    have htake : v.takeRecord k q record =
        v.complete k .ok (BitVec.ofNat 32 q.val) (BitVec.ofNat 32 (s.queue q).consumer) := by
      rw [← hconsumer]
      exact (takeRecord_known v k q .nop r fun hadmin => absurd hadmin.1 (by decide)).trans
        (takeNop_of_ok (plainCheck_eq_ok_iff.2 ⟨hflags, hfields⟩))
    exact exec_heldRecordTaken_of_completes hheld he hrec h hcalm hr htake
  · exact exec_heldRecordTaken_of_completes hheld he hrec h hcalm hr (takeRecord_of_refused hne)
  · intro s' f e' htakes hslot hv
    have hrecord : s'.withRecord f e' ⟨op.code, r⟩ = s.unheld q k e := hv
    rw [exec_heldRecordTaken_of_due hheld he hrec h, exec_row, recordArrives_of_takes htakes, hrecord, hslot]

end Sys2Proof.Machine
end

section
/-! CREATE_CQ and DELETE_CQ (R123 to R125): the queue that a creation leaves, the reservation that a deletion gives
back, and the two ends a deletion can have. -/

namespace Sys2Proof.Machine

variable {s u : State} {q : CqId} {r : RecordBody} {f : Fetch} {e : Entry} {k : SlotId} {op : Opcode}

/-! ## Admin commands on a queue (R123, R124, R136) -/

/-- A record from CQ0 leaves what its command does, up to the end of the happening (R130, R136). -/
theorem exec_row_of_admin (h : s.Takes 0 r f e) :
    exec (op.row 0 r) s = .next ((s.withRecord f e ⟨op.code, r⟩).runOpcode f.slot 0 op r).finish := by
  rw [exec_row, recordArrives_of_takes h, takeRecord_known _ _ _ _ _ fun hadmin => hadmin.2 rfl]

/-- An admin command that completes at once leaves its answer on top of what it did before it replied, where that leaves
the machine calm (R133, R135). -/
theorem exec_of_admin_completes {status : Status} {a b : Word} (h : s.Takes 0 r f e)
    (hrun : (s.withRecord f e ⟨op.code, r⟩).runOpcode f.slot 0 op r = u.complete f.slot status a b)
    (hi : u.inflight = (s.withRecord f e ⟨op.code, r⟩).inflight) (hr : (u.rq e.replyQueue).reserved ≠ 0)
    (hcalm : u.Calm) :
    exec (op.row 0 r) s = .next (u.answered f.slot e ⟨op.code, r⟩ status a b) := by
  have hentry : u.entry f.slot = some { e with record := some ⟨op.code, r⟩ } := by
    rw [State.entry, hi]
    exact withRecord_entry s f e _
  rw [exec_row_of_admin h, hrun, complete_eq_answered hentry hr, (hcalm.answered ..).finish]

/-- An admin command that stays in WORKING leaves its entry there on top of what it did, where nothing follows on
(R133). -/
theorem exec_of_admin_works {a b : Word} (h : s.Takes 0 r f e)
    (hrun : (s.withRecord f e ⟨op.code, r⟩).runOpcode f.slot 0 op r = u.toWorking f.slot a b)
    (hi : u.inflight = (s.withRecord f e ⟨op.code, r⟩).inflight)
    (hfinish : (u.atWork f.slot e ⟨op.code, r⟩ a b).finish = u.atWork f.slot e ⟨op.code, r⟩ a b) :
    exec (op.row 0 r) s = .next (u.atWork f.slot e ⟨op.code, r⟩ a b) := by
  have hentry : u.entry f.slot = some { e with record := some ⟨op.code, r⟩ } := by
    rw [State.entry, hi]
    exact withRecord_entry s f e _
  rw [exec_row_of_admin h, hrun, toWorking_eq_atWork hentry, hfinish]

theorem cqIdOk_iff : cqIdOk r = true ↔ 1 ≤ r.id.toNat ∧ r.id.toNat ≤ 3 := by
  simp [cqIdOk]

/-- A queue number that CREATE_CQ and DELETE_CQ take is that of its queue (R123, R124). -/
theorem cqOf_val (h : cqIdOk r = true) : (cqOf r).val = r.id.toNat := by
  have hid := cqIdOk_iff.1 h
  exact Nat.mod_eq_of_lt (by omega)

/-- CREATE_CQ and DELETE_CQ name another queue than CQ0 (R123, R124). -/
theorem cqOf_ne_zero (h : cqIdOk r = true) : (0 : CqId) ≠ cqOf r := fun h0 => by
  have hid := cqIdOk_iff.1 h
  have hval := cqOf_val h
  rw [← h0] at hval
  exact absurd hval.symm (by simp; omega)

/-- A record taken leaves every queue but its own (R130). -/
theorem withRecord_queue_of_ne (rec : Record) (h : f.queue ≠ q) : (s.withRecord f e rec).queue q = s.queue q :=
  (vector_get_set _ _ _ _).trans (if_neg h)

/-- A record taken leaves the state of every queue (R130). -/
theorem withRecord_queue_state (s : State) (f : Fetch) (e : Entry) (rec : Record) (q : CqId) :
    ((s.withRecord f e rec).queue q).state = (s.queue q).state := by
  have hqueue : (s.withRecord f e rec).queue q = if f.queue = q then _ else s.queue q := vector_get_set _ _ _ _
  rw [hqueue]
  split
  next h => rw [← h]
  next => rfl

/-- A record taken leaves every count of the in-flight table (R124, R130). -/
theorem withRecord_countPhase (he : s.entry f.slot = some e) (rec : Record) (q : CqId) (p : Phase) :
    (s.withRecord f e rec).countPhase q p = s.countPhase q p :=
  countPhase_set he rfl Iff.rfl

/-! ## CREATE_CQ (R123) -/

/-- A record taken settles nothing that CREATE_CQ checks (R123, R130). -/
theorem withRecord_createCqCheck (s : State) (f : Fetch) (e : Entry) (rec : Record) (r : RecordBody) :
    (s.withRecord f e rec).createCqCheck r = s.createCqCheck r := by
  rw [State.createCqCheck, withRecord_queue_state]
  rfl

theorem cqIdOk_of_createCqCheck (h : s.createCqCheck r = .ok) : cqIdOk r = true := by
  unfold State.createCqCheck at h
  split at h
  · cases h
  · simpa using ‹¬(!cqIdOk r) = true›

/-- CREATE_CQ taken where its checks pass (R123). -/
theorem takeCreateCq_of_ok (h : s.createCqCheck r = .ok) :
    s.takeCreateCq k r =
      ((s.reserve 0).setQueue (cqOf r)
        (CommandQueue.created (r.addrAt 8) r.bytes6to7.toNat (rqOf r.byte5))).complete k .ok
          (BitVec.ofNat 32 r.id.toNat) (BitVec.ofNat 32 r.bytes6to7.toNat) := by
  simp only [State.takeCreateCq, h, cqOf_val (cqIdOk_of_createCqCheck h), BitVec.ofNat_toNat]

/-- Settles O30: the reservation and the queue created are all that CREATE_CQ does before its answer. -/
theorem createCqCreates : Obligations.CreateCqCreates := by
  intro s r f e h hok u c
  have hok' := (withRecord_createCqCheck s f e ⟨0x30, r⟩ r).trans hok
  have hcalm : u.Calm := (h.calm ⟨0x30, r⟩).of_eq rfl rfl rfl
  exact exec_of_admin_completes (op := .createCq) h (takeCreateCq_of_ok hok') rfl
    (reserve_reserved_ne_zero h.reserved 0) (hcalm.setQueue c _ rfl rfl rfl ⟨rfl, fun h => CqState.noConfusion h⟩)

/-! ## DELETE_CQ (R124) -/

/-- A record taken settles nothing that DELETE_CQ checks (R124, R130). -/
theorem withRecord_deleteCqCheck (s : State) (f : Fetch) (e : Entry) (rec : Record) (r : RecordBody) :
    (s.withRecord f e rec).deleteCqCheck r = s.deleteCqCheck r := by
  rw [State.deleteCqCheck, withRecord_queue_state]
  rfl

theorem cqIdOk_of_deleteCqCheck (h : s.deleteCqCheck r = .ok) : cqIdOk r = true := by
  unfold State.deleteCqCheck at h
  dsimp only at h
  split at h
  · cases h
  · simpa using ‹¬(!cqIdOk r) = true›

/-- The queue-fault reservation is given back where one is held (R124, R148). -/
theorem releaseIf_replyQueues (s : State) (b : Bool) (p : RqId) :
    s.releaseIf b p = { s with replyQueues := if b then (s.release p).replyQueues else s.replyQueues } := by
  cases b <;> rfl

/-- A reservation given back is one less on its queue alone (R148). -/
theorem release_reserved (s : State) (p p' : RqId) :
    ((s.release p).rq p').reserved = (s.rq p').reserved - if p = p' then 1 else 0 := by
  simp only [State.release, State.setRq_rq]
  split
  next h => rw [h]
  next => rfl

/-- Beyond more than one reservation on RQ0, one given back there leaves no queue without any (R148). -/
theorem releaseIf_reserved_ne_zero {p : RqId} (b : Bool) (hr : (s.rq p).reserved ≠ 0) (h0 : 1 < (s.rq 0).reserved) :
    ((s.releaseIf b 0).rq p).reserved ≠ 0 := by
  unfold State.releaseIf
  split
  · rw [release_reserved]
    split
    next hp => rw [← hp]; omega
    next => exact hr
  · exact hr

/-- DELETE_CQ of a queue without a held record, taken where its checks pass (R124). -/
theorem takeDeleteCq_of_ok {x : CommandQueue} (h : s.deleteCqCheck r = .ok) (hx : s.queue (cqOf r) = x)
    (hheld : x.held = none) :
    s.takeDeleteCq k r =
      if s.outstandingWork (cqOf r) = 0 then
        ((s.releaseIf x.faultReserved 0).setQueue (cqOf r) CommandQueue.absent).complete k .ok
          (BitVec.ofNat 32 (s.abandonedRecords (cqOf r))) 0
      else
        ((s.releaseIf x.faultReserved 0).setQueue (cqOf r)
          { x with state := .deleting, fault := none, faultReserved := false }).toWorking k
            (BitVec.ofNat 32 (s.abandonedRecords (cqOf r))) (BitVec.ofNat 32 (s.outstandingWork (cqOf r))) := by
  subst hx
  have hqueue : ({ s.queue (cqOf r) with state := .deleting, fault := none, faultReserved := false } : CommandQueue) =
      { s.queue (cqOf r) with state := .deleting, fault := none, faultReserved := false, held := none } := by
    rw [← hheld]
  rw [hqueue]
  simp only [State.takeDeleteCq, h, hheld, releaseIf_replyQueues]
  rfl

/-- A queue in DELETING whose work is outstanding waits for it, and nothing follows on (R124, R125). -/
theorem finish_of_deleting {t : State} {x : CommandQueue} (hcalm : s.Calm) (he : t.emitted = s.emitted)
    (hq : t.queues = s.queues.set q x) (hd : t.device = s.device) (hheld : x.held = none)
    (hwork : t.outstandingWork q ≠ 0) : t.finish = t := by
  obtain ⟨hemitted, hqueues, hdevice⟩ := hcalm
  have hqueue (p : CqId) : t.queue p = if q = p then x else s.queue p := by
    rw [State.queue, hq, vector_get_set]
    rfl
  refine finish_of_nothing_due (he.trans hemitted) (fun p => ?_) (fun p => heldDue_of_none ?_) (hd ▸ hdevice)
  · by_cases hp : q = p
    · subst hp
      simp [State.deletionDue, hwork]
    · exact deletionDue_of_ne (by rw [hqueue, if_neg hp]; exact (hqueues p).2)
  · rw [hqueue]
    split
    · exact hheld
    · exact (hqueues p).1

/-- Settles O31: the work of the queue settles whether it goes at once or waits. -/
theorem deleteCqRemoves : Obligations.DeleteCqRemoves := by
  intro s r f e h hok h0 u c x rqs abandoned
  obtain ⟨hcalm, ⟨-, hfq, he, heq, -⟩, -⟩ := id h
  have hne : (0 : CqId) ≠ c := cqOf_ne_zero (cqIdOk_of_deleteCqCheck hok)
  have hx : u.queue c = x := withRecord_queue_of_ne _ (hfq ▸ hne)
  have hheld : x.held = none := hcalm.held c
  have hok' : u.deleteCqCheck r = .ok := (withRecord_deleteCqCheck ..).trans hok
  have hwork : u.outstandingWork c = s.countPhase c .working + s.countPhase c .fetching := by
    rw [State.outstandingWork, withRecord_countPhase he, withRecord_countPhase he]
  have habandoned : u.abandonedRecords c = abandoned := by
    rw [State.abandonedRecords, withRecord_countPhase he, hx]
    rfl
  have hreleased : u.releaseIf x.faultReserved 0 = { u with replyQueues := rqs } := releaseIf_replyQueues u _ 0
  have hreserved : (({ u with replyQueues := rqs } : State).rq e.replyQueue).reserved ≠ 0 := by
    rw [← hreleased]
    exact releaseIf_reserved_ne_zero _ h.reserved h0
  have hrun : u.runOpcode f.slot 0 .deleteCq r = _ := takeDeleteCq_of_ok hok' hx hheld
  rw [show cqOf r = c from rfl, hreleased, hwork, habandoned] at hrun
  split_ifs at hrun ⊢ with hnone
  · exact exec_of_admin_completes (op := .deleteCq) h hrun rfl hreserved
      ((h.calm ⟨0x31, r⟩).setQueue c _ rfl rfl rfl ⟨rfl, by decide⟩)
  · refine exec_of_admin_works (op := .deleteCq) h hrun rfl
      (finish_of_deleting (h.calm ⟨0x31, r⟩) rfl rfl rfl hheld ?_)
    rw [outstandingWork_set (withRecord_entry s f e ⟨0x31, r⟩) rfl (by simp [heq, hne]), hwork]
    exact hnone

/-! ## The end of a deletion (R125) -/

/-- A deletion that is due leaves the queue ABSENT, and its DELETE_CQ completes with the values it was taken with. -/
theorem deletingDone_of_entry (hk : s.deleteEntry q = some k) (he : s.entry k = some e) :
    s.deletingDone q = (s.setQueue q CommandQueue.absent).complete k .ok e.value1 e.value2 := by
  simp only [State.deletingDone, hk, he]

/-- Settles O60: what is due is the queue's end and the answer of its DELETE_CQ. -/
theorem deletionCompletes : Obligations.DeletionCompletes := by
  intro s q k e rec v hstate
  have hexec : exec (.deletingDone q) s = .next (if s.deletionDue q then (s.deletingDone q).finish else s) := rfl
  refine ⟨fun hwork => ?_, fun hwork hcalm hk he hrec hr => ?_⟩
  · rw [hexec, if_neg (by simp [State.deletionDue, hwork])]
  · have hanswer : v.complete k .ok e.value1 e.value2 = v.answered k e rec .ok e.value1 e.value2 :=
      complete_eq_answered (s := v) (he.trans (by rw [← hrec])) hr _ _ _
    have hdone : s.deletingDone q = v.answered k e rec .ok e.value1 e.value2 :=
      (deletingDone_of_entry hk he).trans hanswer
    rw [hexec, if_pos (by simp [State.deletionDue, hstate, hwork]), hdone, (hcalm.answered ..).finish]

end Sys2Proof.Machine
end

section
/-! Producer writes (R126), the fetcher's turn (R128 to R130), and a fetch that fails (R131). -/

namespace Sys2Proof.Machine

variable {s : State} {q : CqId} {f : Fetch} {e : Entry} {k : SlotId} {tag : Nat} {o : OutstandingRead}

/-! ## A queue enters FAULTED (R126, R131) -/

/-- A queue that holds its queue-fault reservation enters FAULTED and posts its QUEUE notice from it. -/
theorem faultQueue_of_reserved (cause : QueueFault) (hx : (s.queue q).faultReserved = true)
    (hr : (s.rq 0).reserved ≠ 0) :
    s.faultQueue q cause =
      { s with
        queues := s.queues.set q { s.queue q with state := .faulted, fault := some cause, faultReserved := false }
        replyQueues := s.replyQueues.set 0 ((s.rq 0).submit (queueNotice q cause (s.queue q).consumer)) } := by
  have hr' (x : CommandQueue) : ((s.setQueue q x).rq 0).reserved ≠ 0 := hr
  simp only [State.faultQueue, hx, if_true, State.submit, if_neg (hr' _)]
  rfl

/-! ## Producer writes (R126) -/

/-- Settles O36: the branches of a producer write. -/
theorem producerWriteMovesOrFaults : Obligations.ProducerWriteMovesOrFaults := by
  intro s q v x
  have hexec : exec (.producerWrite q v) s = .next (s.producerWrite q v) := rfl
  refine ⟨fun h => ?_, fun hdevice hactive hlt => ?_, fun hdevice hactive hge hreserved hr => ?_⟩
  · have hskip : ¬(s.device = .ready ∧ (s.queue q).state = .active) := fun hboth =>
      h.elim (fun hn => hn hboth.1) fun hn => hn hboth.2
    rw [hexec, State.producerWrite, if_neg hskip]
  · rw [hexec, State.producerWrite, if_pos ⟨hdevice, hactive⟩, if_pos hlt]
    rfl
  · rw [hexec, State.producerWrite, if_pos ⟨hdevice, hactive⟩, if_neg (Nat.not_lt.2 hge),
      faultQueue_of_reserved _ hreserved hr]

/-! ## A fetch that fails (R131, R169) -/

/-- A fetch that fails frees its entry and its reservation and faults its ACTIVE queue (R131, R167, R169). -/
theorem readFailed_of_fetch (h : s.Fetching q f e) (ho : s.readOf tag = some o) (hwho : o.who = .fetch) :
    s.readFailed tag =
      State.faultQueue
        { s.release e.replyQueue with
          outstanding := s.outstanding.filter fun p => p.tag != tag
          fetch := none
          inflight := s.inflight.set f.slot none } q .busError := by
  obtain ⟨hf, rfl, he, -, -, hactive, -⟩ := h
  have hf' : (s.endRead tag).fetch = some f := hf
  have hdiscard : State.discard { s.endRead tag with fetch := none } f.slot =
      { s.release e.replyQueue with
        outstanding := s.outstanding.filter fun p => p.tag != tag
        fetch := none
        inflight := s.inflight.set f.slot none } := by
    have he' : State.entry { s.endRead tag with fetch := none } f.slot = some e := he
    simp only [State.discard, he']
    rfl
  simp only [State.readFailed, ho, hwho, State.reportFailed, State.fetchFailed, hf', hdiscard]
  exact if_pos hactive

/-- Settles O54: the failure frees the fetch's entry and faults its queue, and nothing follows on. -/
theorem failedFetchFaultsTheQueue : Obligations.FailedFetchFaultsTheQueue := by
  intro s q f e tag o hcalm h ho hwho hreserved h0 u t
  have hr : (u.rq 0).reserved ≠ 0 := by
    rw [release_reserved]
    split <;> omega
  have hfailed : s.readFailed tag = t :=
    (readFailed_of_fetch h ho hwho).trans (faultQueue_of_reserved .busError hreserved hr)
  have hfinish : (s.readFailed tag).finish = t := by
    rw [hfailed]
    exact State.Calm.finish (hcalm.setQueue q _ rfl rfl rfl ⟨hcalm.held q, by simp⟩)
  exact ⟨congrArg Host.Outcome.next hfinish, fun hdue =>
    congrArg Host.Outcome.next ((readExpires_of_due ho hdue).trans hfinish)⟩

/-! ## The fetcher's turn (R128 to R130, R147) -/

/-- The conditions of R128, a free in-flight entry apart. -/
theorem eligible_iff :
    s.eligible q = true ↔
      s.device = .ready ∧ (s.queue q).state = .active ∧
        ((s.queue q).producer + (s.queue q).size - (s.queue q).consumer) % (s.queue q).size ≠ 0 ∧
        (s.queue q).held = none ∧
        (s.rq (s.queue q).replyQueue).occupied + (s.rq (s.queue q).replyQueue).reserved + 1 ≤
          (s.rq (s.queue q).replyQueue).size - 1 := by
  simp only [State.eligible, CommandQueue.available, State.commandClaim, ReplyQueue.grants, Bool.and_eq_true,
    beq_iff_eq, bne_iff_ne, Option.isNone_iff_eq_none, decide_eq_true_eq, and_assoc]

/-- The first queue that may be fetched from after the last served is the one found (R129). -/
theorem find_queuesAfter {p : CqId → Bool} {last : CqId} {d : Nat} (hd : d < 4)
    (hbefore : ∀ d', d' < d → p (Fin.ofNat 4 (last.val + 1 + d')) = false)
    (hp : p (Fin.ofNat 4 (last.val + 1 + d)) = true) :
    (queuesAfter last).find? p = some (Fin.ofNat 4 (last.val + 1 + d)) := by
  have hrange : (List.range 4).find? (p ∘ fun k => Fin.ofNat 4 (last.val + 1 + k)) = some d :=
    List.find?_range_eq_some.2 ⟨hp, List.mem_range.2 hd, fun j hj => by simpa using hbefore j hj⟩
  rw [queuesAfter, List.find?_map, hrange]
  rfl

/-- The free entry found is free (R128). -/
theorem entry_of_freeSlot (h : s.freeSlot = some k) : s.entry k = none :=
  Option.isNone_iff_eq_none.1 (List.find?_some (p := fun k => (s.entry k).isNone) h)

/-- With a fetch in progress, or no queue to fetch from, a turn changes nothing (R129). -/
theorem takeTurn_of_none (h : s.fetch ≠ none ∨ ∀ q, s.eligible q = false) : s.takeTurn = s := by
  unfold State.takeTurn
  split
  next k hfetch _ =>
    have hnone : (queuesAfter s.lastServed).find? (fun q => s.eligible q) = none :=
      List.find?_eq_none.2 fun q _ => by simp [h.resolve_left (not_not_intro hfetch) q]
    rw [hnone]
  next => rfl

/-- A turn with no fetch in progress and a free entry fetches from the queue found (R129, R130). -/
theorem takeTurn_of_found (hfetch : s.fetch = none) (hk : s.freeSlot = some k)
    (hq : (queuesAfter s.lastServed).find? (fun q => s.eligible q) = some q) : s.takeTurn = s.beginFetch q k := by
  simp only [State.takeTurn, hfetch, hk, hq]

/-- Settles O55: the queues that may be fetched from are the eligible ones, and the first of them is found. -/
theorem turnFetchesRoundRobin : Obligations.TurnFetchesRoundRobin := by
  intro s can
  have hcan (q : CqId) : s.eligible q = true ↔ can q := eligible_iff
  have hnot (q : CqId) (h : ¬can q) : s.eligible q = false := Bool.eq_false_iff.2 fun ht => h ((hcan q).1 ht)
  refine ⟨fun h => ?_, fun d k hd hfetch hk hd' hbefore => ⟨entry_of_freeSlot hk, ?_⟩⟩
  · exact congrArg Host.Outcome.next (takeTurn_of_none (h.imp_right fun hall q => hnot q (hall q)))
  · have hfind := find_queuesAfter (p := fun q => s.eligible q) hd (fun d' hlt => hnot _ (hbefore d' hlt))
      ((hcan _).2 hd')
    exact congrArg Host.Outcome.next (takeTurn_of_found hfetch hk hfind)

end Sys2Proof.Machine
end

section
/-! Reply queues under the operations that change them (R147 to R154): what a consumer write and an RQINT write do, and
that each operation keeps a sound queue sound. -/

namespace Sys2Proof.Machine

variable {s : State} {q : RqId} {x : ReplyQueue} {v : Nat}

/-! ## Consumer and RQINT writes (R152 to R154) -/

/-- The queue with the entries up to position `v` freed (R152). -/
def ReplyQueue.freed (x : ReplyQueue) (v : Nat) : ReplyQueue :=
  { x with head := v, occupied := x.occupied - x.advance v }

theorem validConsumer_iff : x.validConsumer v = true ↔ v < x.size ∧ x.advance v ≤ x.occupied := by
  simp [ReplyQueue.validConsumer]

/-- A valid consumer write frees its entries, and in SENT re-arms the interrupt or asks for the message again (R152,
R154). -/
theorem consume_of_valid (h : x.validConsumer v = true) :
    x.consume v =
      if x.sent = true then
        if 0 < (x.freed v).occupied ∧ x.enabled = true then (x.freed v).askMessage else { x.freed v with sent := false }
      else x.freed v := by
  simp only [ReplyQueue.consume, h, ReplyQueue.freed, if_true, Bool.and_eq_true, decide_eq_true_eq,
    Nat.pos_iff_ne_zero]

/-- A consumer write that is not valid sets the error flag alone (R152, R153). -/
theorem consume_of_not_valid (h : ¬x.validConsumer v = true) : x.consume v = { x with errorFlag := true } :=
  if_neg h

/-- An RQINT write stores the enable and the error flag, and asks for a message where the enable goes from clear to set
while there is something to tell (R154, R185). -/
theorem writeInterrupt_eq (s : State) (q : RqId) (on clear : Bool) :
    s.writeInterrupt q on clear =
      s.setRq q
        (if on = true ∧ (s.rq q).enabled = false ∧ s.device = .ready ∧ (s.rq q).active = true ∧
            0 < (s.rq q).occupied then
          { s.rq q with enabled := on, errorFlag := (s.rq q).errorFlag && !clear }.askMessage
        else { s.rq q with enabled := on, errorFlag := (s.rq q).errorFlag && !clear }) := by
  simp only [State.writeInterrupt, ← apply_ite (s.setRq q), Bool.and_eq_true, Bool.not_eq_true', beq_iff_eq,
    bne_iff_ne, and_assoc, Nat.pos_iff_ne_zero]

/-! ## Soundness of one queue (R144, R147, R149, R152) -/

theorem le_of_isQueueSize {n : Nat} (h : isQueueSize n = true) : 16 ≤ n := by
  simp only [isQueueSize, List.contains_eq_mem, List.mem_cons, List.not_mem_nil, or_false, decide_eq_true_eq] at h
  omega

namespace ReplyQueue.Sound

/-- An ACTIVE queue with the ring of a sound one and no more reservations is sound. -/
theorem of_ring {y : ReplyQueue} (h : x.Sound) (hx : x.active = true) (hy : y.active = true) (hsize : y.size = x.size)
    (hhead : y.head = x.head) (htail : y.tail = x.tail) (hocc : y.occupied = x.occupied)
    (hres : y.reserved ≤ x.reserved) : y.Sound := by
  obtain ⟨ha, -⟩ | ⟨-, hz, hh, ht, hroom⟩ := h
  · exact absurd (hx.symm.trans ha) (by decide)
  · exact .inr ⟨hy, hsize ▸ hz, by omega, by rw [htail, hhead, hocc, hsize, ht], by omega⟩

/-- A queue as it is created, with room for its first reservations, is sound (R144, R145, R174). -/
theorem created {size reserved : Nat} (hz : isQueueSize size = true) (hr : reserved ≤ 1) (base : Addr)
    (enabled errorFlag : Bool) : (ReplyQueue.created base size reserved enabled errorFlag).Sound := by
  have hsize := le_of_isQueueSize hz
  exact .inr ⟨rfl, hz, by simp only [ReplyQueue.created]; omega, (Nat.zero_mod _).symm,
    by simp only [ReplyQueue.created]; omega⟩

/-- A granted claim leaves the one entry free that R147 asks for; an ABSENT queue grants none. -/
theorem reserve (h : x.Sound) (hc : x.grants 1 = true) : ({ x with reserved := x.reserved + 1 } : ReplyQueue).Sound := by
  simp only [ReplyQueue.grants, decide_eq_true_eq] at hc
  obtain ⟨-, hz, -⟩ | ⟨ha, hz, hh, ht, -⟩ := h
  · omega
  · exact .inr ⟨ha, hz, hh, ht, by dsimp only; omega⟩

theorem release (h : x.Sound) : ({ x with reserved := x.reserved - 1 } : ReplyQueue).Sound := by
  obtain ⟨ha, hz, ho, hr, hrest⟩ | ⟨ha, hz, hh, ht, hroom⟩ := h
  · exact .inl ⟨ha, hz, ho, by simp only [hr], hrest⟩
  · exact .inr ⟨ha, hz, hh, ht, by dsimp only; omega⟩

/-- A submission turns a reservation into an occupied entry, and the tail goes one on (R149). -/
theorem submit (h : x.Sound) (hr : x.reserved ≠ 0) (record : Bool → List Byte) : (x.submit record).Sound := by
  obtain ⟨-, -, -, hnone, -⟩ | ⟨ha, hz, hh, ht, hroom⟩ := h
  · exact absurd hnone hr
  · have htail : (x.tail + 1) % x.size = (x.head + (x.occupied + 1)) % x.size := by
      rw [ht, Nat.mod_add_mod, Nat.add_assoc]
    exact .inr ⟨ha, hz, hh, htail, by simp only [ReplyQueue.submit]; omega⟩

theorem askMessage (h : x.Sound) (ha : x.active = true) : x.askMessage.Sound :=
  h.of_ring ha ha rfl rfl rfl rfl le_rfl

/-- The RQINT bits are no part of soundness. -/
theorem interruptBits (h : x.Sound) (enabled errorFlag : Bool) :
    ({ x with enabled := enabled, errorFlag := errorFlag } : ReplyQueue).Sound := h

/-- An ABSENT queue has no waiting item, and an ACTIVE one is sound with any (R150). -/
theorem itemWritten (h : x.Sound) : x.itemWritten.Sound := by
  unfold ReplyQueue.itemWritten
  split
  next => exact h
  next hw =>
    obtain ⟨-, -, -, -, -, -, hnone⟩ | ⟨ha, -⟩ := id h
    · exact absurd (hw.symm.trans hnone) (List.cons_ne_nil _ _)
    · exact h.of_ring ha ha rfl rfl rfl rfl le_rfl
  next hw =>
    obtain ⟨-, -, -, -, -, -, hnone⟩ | ⟨ha, -⟩ := id h
    · exact absurd (hw.symm.trans hnone) (List.cons_ne_nil _ _)
    · dsimp only
      split <;> exact h.of_ring ha ha rfl rfl rfl rfl le_rfl

theorem itemDropped (h : x.Sound) : ({ x with waiting := x.waiting.tail } : ReplyQueue).Sound := by
  obtain ⟨ha, hz, ho, hr, hhead, htail, hw⟩ | hactive := h
  · exact .inl ⟨ha, hz, ho, hr, hhead, htail, by simp only [hw, List.tail_nil]⟩
  · exact .inr hactive

/-- The tail stands as many entries after the new head as stay occupied (R152). -/
theorem freed (h : x.Sound) (ha : x.active = true) (hv : x.validConsumer v = true) : (x.freed v).Sound := by
  obtain ⟨hlt, hadvance⟩ := validConsumer_iff.1 hv
  obtain ⟨hn, -⟩ | ⟨-, hz, hh, ht, hroom⟩ := h
  · exact absurd (ha.symm.trans hn) (by decide)
  · have hposition : (x.head + x.advance v) % x.size = v := by
      rw [ReplyQueue.advance, Nat.add_mod_mod, show x.head + (v + x.size - x.head) = v + x.size by omega,
        Nat.add_mod_right, Nat.mod_eq_of_lt hlt]
    have htail : x.tail = (v + (x.occupied - x.advance v)) % x.size :=
      calc x.tail = (x.head + x.advance v + (x.occupied - x.advance v)) % x.size := by
            rw [ht, Nat.add_assoc, Nat.add_sub_cancel' hadvance]
        _ = (v + (x.occupied - x.advance v)) % x.size := by rw [← Nat.mod_add_mod, hposition]
    exact .inr ⟨ha, hz, hlt, htail, by simp only [ReplyQueue.freed]; omega⟩

theorem consume (h : x.Sound) (ha : x.active = true) (v : Nat) : (x.consume v).Sound := by
  by_cases hv : x.validConsumer v = true
  · have hfreed := h.freed ha hv
    rw [consume_of_valid hv]
    split
    · split
      · exact hfreed.askMessage ha
      · exact hfreed
    · exact hfreed
  · rw [consume_of_not_valid hv]
    exact h

end ReplyQueue.Sound

end Sys2Proof.Machine
end

section
/-! Both reply queues under every step (section 8.1, R147): the elementary changes of the blocks, the host's control of
the device, and the resets. -/

namespace Sys2Proof.Machine

variable {s t : State} {q : RqId} {x : ReplyQueue}

theorem shutdown_replyQueues (s : State) : s.shutdown.replyQueues = s.droppedReplies := by
  have h := congrArg State.replyQueues (shutdown_eq s s.device)
  simpa only [State.quiesced] using h

/-- The sizes that a good admin configuration gives RQ0 are queue sizes (R173). -/
theorem isQueueSize_of_configGood (h : s.configGood = true) : isQueueSize (2 ^ qsizeRq s.qsize) = true := by
  obtain ⟨hlow, hhigh⟩ : 4 ≤ qsizeRq s.qsize ∧ qsizeRq s.qsize ≤ 12 := by
    simp only [State.configGood, Bool.and_eq_true, decide_eq_true_eq] at h
    omega
  interval_cases qsizeRq s.qsize <;> rfl

namespace State.RepliesSound

theorem setRq (h : s.RepliesSound) (hx : x.Sound) : (s.setRq q x).RepliesSound := by
  intro p
  rw [State.setRq_rq]
  split
  · exact hx
  · exact h p

/-- A state with sound reply queues passes them on. -/
theorem of_eq (h : s.RepliesSound) (he : t.replyQueues = s.replyQueues) : t.RepliesSound := fun q => by
  rw [State.rq, he]
  exact h q

/-- A shutdown ends the reservations of RQ0 and makes RQ1 ABSENT (R158, R159). -/
theorem shutdown (h : s.RepliesSound) : s.shutdown.RepliesSound := by
  have hdropped : ({ s.rq 0 with reserved := 0, waiting := [] } : ReplyQueue).Sound := by
    obtain ⟨ha, hz, ho, -, hhead, htail, -⟩ | ⟨ha, hz, hh, ht, hroom⟩ := h 0
    · exact .inl ⟨ha, hz, ho, rfl, hhead, htail, rfl⟩
    · exact .inr ⟨ha, hz, hh, ht, by dsimp only; omega⟩
  exact ((h.setRq (q := 0) hdropped).setRq (q := 1) (absent_sound _ _)).of_eq (shutdown_replyQueues s)

theorem askVector0 (h : s.RepliesSound) : s.askVector0.RepliesSound := by
  unfold State.askVector0
  split
  · exact h.setRq ((h 0).askMessage ‹_›)
  · exact h

theorem fatalStop (h : s.RepliesSound) : s.fatalStop.RepliesSound := by
  have hstopped : ({ s.shutdown with device := .fatal, cause := .replyWrite } : State).RepliesSound :=
    h.shutdown.of_eq rfl
  unfold State.fatalStop
  split
  · exact hstopped.askVector0
  · exact hstopped.askVector0
  · exact h
  · exact h

end State.RepliesSound

/-- Each elementary change of a block keeps both reply queues sound. -/
theorem repliesSound_kept : State.Kept State.RepliesSound where
  pacer _ _ _ h := h
  input _ _ _ h := h
  port _ _ _ h := h
  stream _ _ _ h := h
  holder _ _ _ h := h
  patHolder _ _ _ h := h
  portWord _ _ _ h := h
  queue _ _ _ h := h
  entry _ _ _ h := h
  reserve _ q hc h := h.setRq ((h q).reserve hc)
  release _ q h := h.setRq (h q).release
  submit s q f h := by
    unfold State.submit
    split
    · exact h
    · exact h.setRq ((h q).submit ‹_› f)
  newRq _ base _ en fl hz h := h.setRq (.created hz (Nat.zero_le 1) base en fl)
  noRq _ en fl h := h.setRq (absent_sound en fl)
  itemWritten _ q h := h.setRq (h q).itemWritten
  itemDropped _ q h := h.setRq (h q).itemDropped
  pattern _ _ _ h := h
  quiesceEnd s h := (h.setRq (q := 0) (absent_sound _ _)).of_eq rfl
  fatalStop _ h := h.fatalStop
  raw _ _ _ _ _ _ _ _ _ _ _ _ _ h := h

/-! ## The host's control of the device (R152 to R154, R173 to R181) -/

namespace State.RepliesSound

/-- The enable makes RQ0 ACTIVE with the one reservation of CQ0 (R174). -/
theorem writeEnable (h : s.RepliesSound) : s.writeEnable.RepliesSound := by
  unfold State.writeEnable
  split
  · split
    · exact (h.setRq (q := 0) (.created (isQueueSize_of_configGood ‹_›) le_rfl s.arbase _ _)).of_eq rfl
    · exact h
  · exact h

theorem writeDisable (h : s.RepliesSound) : s.writeDisable.RepliesSound := by
  unfold State.writeDisable
  split
  · exact repliesSound_kept.finish (h.shutdown.of_eq rfl)
  · exact h

/-- Both resets leave the reply queues of the reset state (R180, R181). -/
theorem functionReset (s : State) : s.functionReset.RepliesSound := reset_repliesSound.of_eq rfl

theorem powerOn (s : State) (link : LinkConfig) : (s.powerOn link).RepliesSound := reset_repliesSound.of_eq rfl

theorem consumerWrite (h : s.RepliesSound) (q : RqId) (v : Word) : (s.consumerWrite q v).RepliesSound := by
  unfold State.consumerWrite
  split
  next hready => exact h.setRq ((h q).consume hready.2 v.toNat)
  next => exact h

theorem writeInterrupt (h : s.RepliesSound) (q : RqId) (on clear : Bool) :
    (s.writeInterrupt q on clear).RepliesSound := by
  rw [writeInterrupt_eq]
  have hbits := (h q).interruptBits on ((s.rq q).errorFlag && !clear)
  split
  next hask =>
    obtain ⟨-, -, -, hactive, -⟩ := hask
    exact h.setRq (hbits.askMessage hactive)
  next => exact h.setRq hbits

theorem writeDevctl (h : s.RepliesSound) (v : Word) : (s.writeDevctl v).RepliesSound := by
  unfold State.writeDevctl
  split
  · exact functionReset s
  · split
    · exact h.writeEnable
    · exact h.writeDisable

/-- The admin registers are no reply queue (R184). -/
theorem setRegisters (h : s.RepliesSound) (a b : Addr) (v : Word) :
    ({ s with aqbase := a, arbase := b, qsize := v } : State).RepliesSound := h

theorem writeWindow (h : s.RepliesSound) (offset : BitVec 12) (v : Word) : (s.writeWindow offset v).RepliesSound := by
  simp only [State.writeWindow, apply_ite State.RepliesSound, h, h.writeDevctl, repliesSound_kept.producerWrite h,
    h.consumerWrite, h.writeInterrupt, h.setRegisters, ite_self]

/-- What is due is taken, and the tick moves inputs, ports and timebase alone (R46). -/
theorem tick (h : s.RepliesSound) (serial : BitVec 8) : (s.tick serial).RepliesSound := by
  have hdue : s.takeDue.RepliesSound := repliesSound_kept.takeDue h
  exact hdue.of_eq (by simp only [State.tick, State.nextTick, tickPorts_eq, tickInputs_eq])

theorem of_exec_not_control {c : Instr} (h : s.RepliesSound) (hc : isControlRow c = false) (ht : exec c s = .next t) :
    t.RepliesSound := by
  obtain ⟨u, hu, hsound⟩ := repliesSound_kept.exec_of_not_control h hc
  cases hu.symm.trans ht
  exact hsound

/-- Every row keeps both reply queues sound. -/
theorem of_exec {c : Instr} (h : s.RepliesSound) (hc : exec c s = .next t) : t.RepliesSound := by
  cases c with
  | timebaseTick serial => cases hc; exact h.tick serial
  | powerOnReset link => cases hc; exact powerOn s link
  | functionReset enableBit => cases hc; exact functionReset s
  | enable => cases hc; exact h.writeEnable
  | quiesce => cases hc; exact h.writeDisable
  | consumerWrite q v => cases hc; exact h.consumerWrite q v
  | interruptEnable q on | errorFlagClear q on => cases hc; exact h.writeInterrupt q on _
  | registerWrite offset size v =>
    cases hc
    split
    · exact h.writeWindow offset v
    · exact h
  | linkConfigurationChange link | linkStateChange up => cases hc; exact h
  | _ => exact h.of_exec_not_control rfl hc

end State.RepliesSound

/-- Settles O5: an idle step changes nothing, and every row keeps both queues sound. -/
theorem repliesStaySound : Obligations.RepliesStaySound := by
  intro s t h hstep
  unfold step at hstep
  split at hstep
  · cases hstep
    exact h
  next c rest _ => exact State.RepliesSound.of_exec (s := { s with pending := rest }) h hstep

end Sys2Proof.Machine
end

section
/-! What software sees of the reply queues: CREATE_RQ and DELETE_RQ (R145, R146), consumer writes (R152), the error flag
and the interrupt enable (R153, R154). -/

namespace Sys2Proof.Machine

variable {s : State} {r : RecordBody} {k : SlotId} {q : RqId} {v : Word}

/-! ## CREATE_RQ and DELETE_RQ (R145, R146) -/

/-- CREATE_RQ taken where its checks pass (R145). -/
theorem takeCreateRq_of_ok (h : s.createRqCheck r = .ok) :
    s.takeCreateRq k r =
      (s.setRq 1 (ReplyQueue.created (r.addrAt 8) r.bytes6to7.toNat 0 (s.rq 1).enabled (s.rq 1).errorFlag)).complete k
        .ok 1 (BitVec.ofNat 32 r.bytes6to7.toNat) := by
  simp only [State.takeCreateRq, h, BitVec.ofNat_toNat]

/-- DELETE_RQ taken where its checks pass (R146). -/
theorem takeDeleteRq_of_ok (h : s.deleteRqCheck r = .ok) :
    s.takeDeleteRq k r =
      (s.setRq 1 (ReplyQueue.absent (s.rq 1).enabled (s.rq 1).errorFlag)).complete k .ok 1
        (BitVec.ofNat 32 (s.rq 1).occupied) := by
  simp only [State.takeDeleteRq, h]

/-- Settles O32: the new RQ1 is all that either command does before its answer, which goes to RQ0. -/
theorem replyQueueOneComesAndGoes : Obligations.ReplyQueueOneComesAndGoes := by
  intro s r f e h he
  have hreserved (rec : Record) (y : ReplyQueue) :
      (((s.withRecord f e rec).setRq 1 y).rq e.replyQueue).reserved ≠ 0 := by
    rw [State.setRq_rq_ne _ _ _ _ (by simp [he])]
    exact h.reserved
  have hcalm (rec : Record) (y : ReplyQueue) : ((s.withRecord f e rec).setRq 1 y).Calm :=
    (h.calm rec).of_eq rfl rfl rfl
  refine ⟨fun hok => ?_, fun hok => ?_⟩
  · exact exec_of_admin_completes (op := .createRq) h (takeCreateRq_of_ok hok) rfl (hreserved _ _) (hcalm _ _)
  · exact exec_of_admin_completes (op := .deleteRq) h (takeDeleteRq_of_ok hok) rfl (hreserved _ _) (hcalm _ _)

/-! ## Consumer writes (R152, R192) -/

/-- A consumer write is taken in READY at an ACTIVE queue (R152). -/
theorem exec_consumerWrite (s : State) (q : RqId) (v : Word) :
    exec (.consumerWrite q v) s =
      .next (if s.device = .ready ∧ (s.rq q).active = true then s.setRq q ((s.rq q).consume v.toNat) else s) :=
  rfl

/-- Settles O37: the branches of a consumer write. -/
theorem consumerWriteFreesEntries : Obligations.ConsumerWriteFreesEntries := by
  intro s q v x advance y
  have hconsume : x.consume v.toNat =
      if v.toNat < x.size ∧ advance ≤ x.occupied then
        (if x.sent = true then
          (if 0 < y.occupied ∧ x.enabled = true then { y with waiting := x.waiting ++ [.message], sent := true }
          else { y with sent := false })
        else y)
      else { x with errorFlag := true } := by
    split
    next hvalid => exact consume_of_valid (validConsumer_iff.2 hvalid)
    next hinvalid => exact consume_of_not_valid (mt validConsumer_iff.1 hinvalid)
  rw [exec_consumerWrite, ← hconsume]
  rfl

/-! ## The error flag and the enable (R153, R154, R185) -/

/-- A valid consumer write moves the head, frees its entries, and leaves the error flag (R152, R153). -/
theorem consume_fields_of_valid {x : ReplyQueue} {n : Nat} (h : x.validConsumer n = true) :
    (x.consume n).head = n ∧ (x.consume n).occupied = x.occupied - x.advance n ∧
      (x.consume n).errorFlag = x.errorFlag := by
  rw [consume_of_valid h]
  split
  · split <;> exact ⟨rfl, rfl, rfl⟩
  · exact ⟨rfl, rfl, rfl⟩

/-- Settles O38: both RQINT rows are writes of the register, and the flag takes no part in a submission. -/
theorem interruptRegisterWrites : Obligations.InterruptRegisterWrites := by
  intro s q on v x advance asks after
  have hwrite (clear : Bool) : s.writeInterrupt q on clear =
      { s with replyQueues := s.replyQueues.set q (after (x.errorFlag && !clear)) } := writeInterrupt_eq s q on clear
  refine ⟨?_, ?_, fun hdevice hactive hinvalid => ?_, fun hdevice hactive hsize hadvance => ?_, fun _ _ => rfl⟩
  · have hflag : (x.errorFlag && !false) = x.errorFlag := Bool.and_true _
    exact congrArg Host.Outcome.next ((hwrite false).trans (by rw [hflag]))
  · have hflag : (x.errorFlag && !true) = false := Bool.and_false _
    exact congrArg Host.Outcome.next ((hwrite true).trans (by rw [hflag]))
  · have hnot : ¬x.validConsumer v.toNat = true := fun hvalid => by
      obtain ⟨hsize, hadvance⟩ := validConsumer_iff.1 hvalid
      exact hinvalid.elim (Nat.not_lt.2 hadvance) (Nat.not_le.2 hsize)
    rw [exec_consumerWrite, if_pos ⟨hdevice, hactive⟩, consume_of_not_valid hnot]
    rfl
  · rw [exec_consumerWrite, if_pos ⟨hdevice, hactive⟩]
    refine ⟨_, rfl, ?_⟩
    rw [State.setRq_rq_self]
    exact consume_fields_of_valid (validConsumer_iff.2 ⟨hsize, hadvance⟩)

end Sys2Proof.Machine
end

section
/-! A reply that the link refuses (R157, R166, R178): the failure that it is, and the fatal stop that it begins. -/

namespace Sys2Proof.Machine

variable {s : State} {position : Nat} {bytes : List Byte} {rest : List WaitItem}

/-! ## The fatal stop (R158, R178) -/

/-- The command queues of a shutdown: CQ0 keeps its positions, and the others are ABSENT (R121, R122). -/
def State.droppedQueues (s : State) : Vector CommandQueue 4 :=
  (Vector.replicate 4 CommandQueue.absent).set (0 : CqId) { s.queue 0 with faultReserved := false, held := none }

theorem droppedQueues_get (s : State) (q : CqId) :
    s.droppedQueues.get q =
      if q = 0 then { s.queue 0 with faultReserved := false, held := none } else CommandQueue.absent := by
  rw [State.droppedQueues, vector_get_set, vector_get_replicate]
  exact if_congr eq_comm rfl rfl

theorem shutdown_queues (s : State) : s.shutdown.queues = s.droppedQueues :=
  Vector.ext fun k hk => (shutdown_queue s ⟨k, hk⟩).trans (droppedQueues_get s ⟨k, hk⟩).symm

theorem shutdown_emitted (s : State) : s.shutdown.emitted = s.emitted := by
  obtain ⟨w, hw⟩ := driveParks_spec s
  simp only [State.shutdown, State.dropReplies, State.dropQueues, State.setRq, idlePorts_eq, hw]

/-- The reply queues of a fatal stop: RQ0 is frozen and asks for its one message, and RQ1 is ABSENT (R158). -/
def State.fatalReplies (s : State) : Vector ReplyQueue 2 :=
  s.droppedReplies.set (0 : RqId) { s.rq 0 with reserved := 0, waiting := [.message], sent := true }

/-- The machine after a fatal stop (R178): what a shutdown leaves, with RQ0's message asked for. -/
def State.fatallyStopped (s : State) : State :=
  { s.quiesced s.droppedQueues s.fatalReplies .fatal with cause := .replyWrite }

/-- A fatal stop, field by field, where no event waits (R158, R178). -/
theorem fatalStop_eq (hdevice : s.device = .ready ∨ s.device = .quiescing) (hemitted : s.emitted = [])
    (hactive : (s.rq 0).active = true) : s.fatalStop = s.fatallyStopped := by
  have hshut : ({ s.shutdown with device := .fatal, cause := .replyWrite } : State) =
      { s.quiesced s.droppedQueues s.droppedReplies .fatal with cause := .replyWrite } := by
    rw [← shutdown_queues, ← shutdown_eq, ← (shutdown_emitted s).trans hemitted]
  have hask : ({ s.quiesced s.droppedQueues s.droppedReplies .fatal with cause := .replyWrite } : State).askVector0 =
      s.fatallyStopped := by
    have h0 : ({ s.quiesced s.droppedQueues s.droppedReplies .fatal with cause := .replyWrite } : State).rq 0 =
        { s.rq 0 with reserved := 0, waiting := [] } := droppedReplies_get_zero s
    rw [State.askVector0, h0, if_pos hactive]
    simp only [State.setRq, ReplyQueue.askMessage, State.fatallyStopped, State.quiesced, State.fatalReplies,
      List.nil_append]
  rw [← hask, ← hshut]
  rcases hdevice with h | h <;> simp only [State.fatalStop, h]

/-- The tables of the machine after a fatal stop (R24, R83, R122, R158). -/
theorem fatallyStopped_tables (s : State) :
    let t := s.fatallyStopped
    (∀ i, t.stream i = Stream.empty) ∧ (∀ p, t.pacer p = Pacer.zero) ∧ (∀ k, t.entry k = none) ∧
      (∀ n, t.port n = SamplePort.idle (s.port n).timeout ∧ t.holder n = none ∧ t.patHolder n = none) ∧
      (∀ q, t.queue q =
        if q = 0 then { s.queue 0 with faultReserved := false, held := none } else CommandQueue.absent) ∧
      t.rq 0 = { s.rq 0 with reserved := 0, waiting := [.message], sent := true } ∧
      t.rq 1 = ReplyQueue.absent (s.rq 1).enabled (s.rq 1).errorFlag := by
  refine ⟨fun i => ?_, fun p => ?_, fun k => ?_, fun n => ⟨?_, ?_, ?_⟩, fun q => ?_, ?_, ?_⟩
  · simp only [State.fatallyStopped, State.quiesced, State.stream, vector_get_replicate]
  · simp only [State.fatallyStopped, State.quiesced, State.pacer, vector_get_replicate]
  · simp only [State.fatallyStopped, State.quiesced, State.entry, vector_get_replicate]
  · simp [State.fatallyStopped, State.quiesced, State.port, Vector.get_eq_getElem]
  · simp only [State.fatallyStopped, State.quiesced, State.holder, vector_get_replicate]
  · simp only [State.fatallyStopped, State.quiesced, State.patHolder, vector_get_replicate]
  · simp only [State.fatallyStopped, State.quiesced, State.queue, droppedQueues_get]
  · exact (vector_get_set ..).trans (if_pos rfl)
  · exact (vector_get_set ..).trans ((if_neg (by decide)).trans (droppedReplies_get_one s))

/-- A fatal stop leaves nothing that can come due, but for a CQ0 in DELETING, which no run has (R122, R178). -/
theorem fatallyStopped_calm (hqueue : (s.queue 0).state ≠ .deleting) : s.fatallyStopped.Calm := by
  obtain ⟨-, -, -, -, hqueues, -⟩ := fatallyStopped_tables s
  refine ⟨by simp only [State.fatallyStopped, State.quiesced], fun q => ?_, DeviceState.noConfusion⟩
  rw [hqueues]
  split
  · exact ⟨rfl, hqueue⟩
  · exact ⟨rfl, CqState.noConfusion⟩

/-! ## A reply write failure (R157, R166) -/

/-- The machine as a failed reply of RQ0 leaves it to Device Control: nothing is being sent, and `waiting` still waits
at RQ0 (R157). -/
def State.replyLost (s : State) (streamRun : Nat) (lastReplyQueue : RqId) (waiting : List WaitItem) : State :=
  { s with
    sending := none
    streamRun := streamRun
    lastReplyQueue := lastReplyQueue
    replyQueues := s.replyQueues.set (0 : RqId) { s.rq 0 with waiting := waiting } }

theorem replyLost_rq_zero (s : State) (n : Nat) (p : RqId) (waiting : List WaitItem) :
    (s.replyLost n p waiting).rq 0 = { s.rq 0 with waiting := waiting } :=
  (vector_get_set ..).trans (if_pos rfl)

theorem replyLost_rq_one (s : State) (n : Nat) (p : RqId) (waiting : List WaitItem) :
    (s.replyLost n p waiting).rq 1 = s.rq 1 :=
  (vector_get_set ..).trans (if_neg (by decide))

/-- With control work and no stream waiting, an arbitration serves the control class (R163). -/
theorem arbitrate_of_control (hsending : s.sending = none) (hstreams : s.streamRequests = false)
    (hcontrol : s.controlRequests = true) : s.arbitrate = State.serveControl { s with streamRun := 0 } := by
  rw [State.arbitrate, if_neg (by simp [hsending, hcontrol]), hstreams]
  rfl

/-- The control class comes to RQ0 where it waits and RQ1 does not (R165). -/
theorem serveControl_of_reply_zero (h0 : s.replyRequest 0 = true) (h1 : s.replyRequest 1 = false) :
    s.serveControl = s.serveReply 0 := by
  simp [State.serveControl, State.nextReplyQueue, h0, h1]

/-- A reply that the link refuses fails at its serving (R157, R166). -/
theorem serveReply_of_refused {q : RqId} (hlink : s.linkAccepts = false)
    (h : (s.rq q).waiting = .reply position bytes :: rest) :
    s.serveReply q = State.replyItemFailed { s with lastReplyQueue := q } q := by
  have hwaiting : (State.rq { s with lastReplyQueue := q } q).waiting = .reply position bytes :: rest := h
  have hlink' : State.linkAccepts { s with lastReplyQueue := q } = false := hlink
  simp only [State.serveReply, hwaiting, State.serve, hlink', Bool.false_eq_true, if_false]
  rfl

/-- With no stream and RQ1 not waiting, an arbitration comes to the reply at the head of RQ0's list, and its refusal
begins the fatal stop (R157, R163, R165, R178). -/
theorem arbitrate_of_refused_reply (hlink : s.linkAccepts = false) (hsending : s.sending = none)
    (hstreams : s.streamRequests = false) (h0 : (s.rq 0).waiting = .reply position bytes :: rest)
    (h1 : (s.rq 1).waiting = []) : s.arbitrate = (s.replyLost 0 0 rest).fatalStop := by
  have hreq0 : s.replyRequest 0 = true := by simp [State.replyRequest, h0]
  have hreq1 : s.replyRequest 1 = false := by simp [State.replyRequest, h1]
  have hcontrol : s.controlRequests = true := by simp [State.controlRequests, hreq0]
  have hlost : State.setRq { s with streamRun := 0, lastReplyQueue := 0 } 0
      { s.rq 0 with waiting := (s.rq 0).waiting.tail } = s.replyLost 0 0 rest := by
    rw [h0, State.replyLost, ← hsending]
    rfl
  calc s.arbitrate
    _ = State.serveControl { s with streamRun := 0 } := arbitrate_of_control hsending hstreams hcontrol
    _ = State.serveReply { s with streamRun := 0 } 0 := serveControl_of_reply_zero hreq0 hreq1
    _ = State.replyItemFailed { s with streamRun := 0, lastReplyQueue := 0 } 0 := serveReply_of_refused hlink h0
    _ = (s.replyLost 0 0 rest).fatalStop := congrArg State.fatalStop hlost

/-- A reply that its queue has withdrawn while it was being sent is refused before it has been sent (R157, R159, R170,
log 30). -/
theorem sent_of_refused_lostReply {x : Transfer} (hlink : s.linkAccepts = false) (hx : s.sending = some x)
    (hwho : x.who = .lostReply) :
    s.sent = (s.replyLost s.streamRun s.lastReplyQueue (s.rq 0).waiting).fatalStop := by
  have hsame : s.replyLost s.streamRun s.lastReplyQueue (s.rq 0).waiting = { s with sending := none } :=
    congrArg (fun v => ({ s with sending := none, replyQueues := v } : State)) (vector_set_self s.replyQueues 0)
  have hlink' : ({ s with sending := none } : State).linkAccepts = false := hlink
  simp only [State.sent, hx, hlink', hwho, State.reportFailed, hsame, Bool.not_false, if_true]

/-- The fatal stop that a lost reply begins is all that follows on its failure (R178). -/
theorem finish_fatalStop_of_replyLost (n : Nat) (p : RqId) (waiting : List WaitItem)
    (hdevice : s.device = .ready ∨ s.device = .quiescing) (hemitted : s.emitted = [])
    (hactive : (s.rq 0).active = true) (hqueue : (s.queue 0).state ≠ .deleting) :
    (s.replyLost n p waiting).fatalStop.finish = (s.replyLost n p waiting).fatallyStopped := by
  have hactive' : ((s.replyLost n p waiting).rq 0).active = true := by
    rw [replyLost_rq_zero]
    exact hactive
  have hfatal : (s.replyLost n p waiting).fatalStop = (s.replyLost n p waiting).fatallyStopped :=
    fatalStop_eq hdevice hemitted hactive'
  rw [hfatal, (fatallyStopped_calm (s := s.replyLost n p waiting) hqueue).finish]

/-- Settles O49: either failure leaves a `State.replyLost`, whose fatal stop is known field by field. -/
theorem refusedReplyIsFatal : Obligations.RefusedReplyIsFatal := by
  intro s stopped hrefuses hactive
  have hlink := linkAccepts_eq_false hrefuses
  have hstopped (n : Nat) (p : RqId) (waiting : List WaitItem) (hemitted : s.emitted = []) :
      stopped (s.replyLost n p waiting).fatallyStopped := by
    obtain ⟨u, hu⟩ : ∃ u, u = s.replyLost n p waiting := ⟨_, rfl⟩
    have h0 : u.rq 0 = { s.rq 0 with waiting := waiting } := hu ▸ replyLost_rq_zero s n p waiting
    have h1 : u.rq 1 = s.rq 1 := hu ▸ replyLost_rq_one s n p waiting
    have hqueue0 : u.queue 0 = s.queue 0 := by rw [hu]; rfl
    have hport (m : PortId) : u.port m = s.port m := by rw [hu]; rfl
    obtain ⟨hstreams, hpacers, hentries, hports, hqueues, hrq0, hrq1⟩ := fatallyStopped_tables u
    simp only [h0, h1, hqueue0, hport] at hports hqueues hrq0 hrq1
    rw [← hu]
    refine ⟨hstreams, hpacers, hentries, hports, fun q hq => (hqueues q).trans (if_neg hq),
      (hqueues 0).trans (if_pos rfl), hrq0, hrq1, ?_⟩
    simp only [hu, State.fatallyStopped, State.quiesced, State.replyLost, Option.map_none, hemitted]
  refine ⟨fun position bytes rest hcalm hdevice hsending hstreams h0 h1 => ?_,
    fun x hemitted hqueue hdevice hx hwho => ?_⟩
  · obtain ⟨hemitted, hqueues, -⟩ := hcalm
    have hend := finish_fatalStop_of_replyLost 0 0 rest (.inl hdevice) hemitted hactive (hqueues 0).2
    rw [← arbitrate_of_refused_reply hlink hsending hstreams h0 h1] at hend
    exact ⟨_, congrArg Host.Outcome.next hend, hstopped 0 0 rest hemitted⟩
  · have hend := finish_fatalStop_of_replyLost s.streamRun s.lastReplyQueue (s.rq 0).waiting (.inr hdevice) hemitted
      hactive hqueue
    rw [← sent_of_refused_lostReply hlink hx hwho] at hend
    exact ⟨_, congrArg Host.Outcome.next hend, hstopped _ _ _ hemitted⟩

end Sys2Proof.Machine
end

section
/-! The register window (R182 to R185, R192) and the link (R166): what a write stores, ignores or passes on, and what a
read gives. -/

namespace Sys2Proof.Machine

variable {s : State} {offset : BitVec 12} {v : Word}

/-! ## The halves of a 64-bit register (section 11.7) -/

theorem low_withLow (a : Addr) (v : Word) : (withLow a v).extractLsb' 0 32 = v :=
  BitVec.extractLsb'_append_eq_right

theorem high_withLow (a : Addr) (v : Word) : (withLow a v).extractLsb' 32 32 = a.extractLsb' 32 32 :=
  BitVec.extractLsb'_append_eq_left

theorem low_withHigh (a : Addr) (v : Word) : (withHigh a v).extractLsb' 0 32 = a.extractLsb' 0 32 :=
  BitVec.extractLsb'_append_eq_right

theorem high_withHigh (a : Addr) (v : Word) : (withHigh a v).extractLsb' 32 32 = v :=
  BitVec.extractLsb'_append_eq_left

theorem high_append_low (a : Addr) : a.extractLsb' 32 32 ++ a.extractLsb' 0 32 = a :=
  (BitVec.extractLsb'_append_extractLsb'_eq_extractLsb' rfl).trans BitVec.extractLsb'_eq_self

/-- The low half of a register of which the one half or the other may have been written. -/
theorem low_of_write {p q : Prop} [Decidable p] [Decidable q] (a : Addr) (v : Word) :
    (if p then withLow a v else if q then withHigh a v else a).extractLsb' 0 32 =
      if p then v else a.extractLsb' 0 32 := by
  split
  · exact low_withLow a v
  · split
    · exact low_withHigh a v
    · rfl

/-- The high half of a register of which the one half or the other may have been written. -/
theorem high_of_write {p q : Prop} [Decidable p] [Decidable q] (hpq : p → ¬q) (a : Addr) (v : Word) :
    (if p then withLow a v else if q then withHigh a v else a).extractLsb' 32 32 =
      if q then v else a.extractLsb' 32 32 := by
  split
  next hp => rw [if_neg (hpq hp), high_withLow]
  next =>
    split
    · exact high_withHigh a v
    · rfl

/-! ## The registers that software sets while the device is OFF (R184) -/

/-- The offsets of AQBASE, ARBASE and QSIZE (section 11.7). -/
abbrev configOffsets : List (BitVec 12) := [0x10, 0x14, 0x18, 0x1C, 0x20]

/-- The machine with `v` in the half of AQBASE or ARBASE, or in the QSIZE, that stands at `offset`. -/
def State.stored (s : State) (offset : BitVec 12) (v : Word) : State :=
  { s with
    aqbase :=
      if offset = 0x10 then withLow s.aqbase v else if offset = 0x14 then withHigh s.aqbase v else s.aqbase
    arbase :=
      if offset = 0x18 then withLow s.arbase v else if offset = 0x1C then withHigh s.arbase v else s.arbase
    qsize := if offset = 0x20 then v else s.qsize }

theorem mem_configOffsets_iff :
    offset ∈ configOffsets ↔ offset = 0x10 ∨ offset = 0x14 ∨ offset = 0x18 ∨ offset = 0x1C ∨ offset = 0x20 := by
  simp only [List.mem_cons, List.not_mem_nil, or_false]

theorem writeWindow_of_config (h : offset ∈ configOffsets) :
    s.writeWindow offset v = if s.device = .off then s.stored offset v else s := by
  rcases mem_configOffsets_iff.1 h with rfl | rfl | rfl | rfl | rfl <;> rfl

/-- A read elsewhere does not see AQBASE, ARBASE and QSIZE. -/
theorem readWindow_of_not_config (h : offset ∉ configOffsets) (a b : Addr) (w : Word) :
    ({ s with aqbase := a, arbase := b, qsize := w } : State).readWindow offset = s.readWindow offset := by
  simp only [mem_configOffsets_iff, not_or] at h
  obtain ⟨h10, h14, h18, h1C, h20⟩ := h
  simp only [State.readWindow, if_neg h10, if_neg h14, if_neg h18, if_neg h1C, if_neg h20]
  rfl

/-- A register that has been stored reads as written, and every other as before (R184). -/
theorem readWindow_stored (h : offset ∈ configOffsets) (o : BitVec 12) :
    (s.stored offset v).readWindow o = if offset = o then v else s.readWindow o := by
  by_cases ho : o ∈ configOffsets
  · have hhalves (a b : BitVec 12) (hab : a ≠ b) : offset = a → ¬offset = b := fun ha hb => hab (ha.symm.trans hb)
    rcases mem_configOffsets_iff.1 ho with rfl | rfl | rfl | rfl | rfl
    · exact low_of_write s.aqbase v
    · exact high_of_write (hhalves _ _ (by decide)) s.aqbase v
    · exact low_of_write s.arbase v
    · exact high_of_write (hhalves _ _ (by decide)) s.arbase v
    · rfl
  · have hne : offset ≠ o := fun he => ho (he ▸ h)
    rw [if_neg hne]
    exact readWindow_of_not_config ho _ _ _

/-! ## Which writes have an effect (R182, R184, R185, R192) -/

/-- The offsets whose registers take a write (section 11.7). -/
abbrev writableOffsets : List (BitVec 12) :=
  [0x04, 0x10, 0x14, 0x18, 0x1C, 0x20, 0x40, 0x44, 0x48, 0x4C, 0x50, 0x54, 0x58, 0x5C]

theorem writeWindow_of_not_writable (h : offset ∉ writableOffsets) : s.writeWindow offset v = s := by
  simp only [List.mem_cons, List.not_mem_nil, or_false, not_or] at h
  simp only [State.writeWindow, h, if_false]

/-- Each of them is a multiple of 4 (R182). -/
theorem registerAccessOk_of_writable : ∀ o ∈ writableOffsets, registerAccessOk o .word = true :=
  List.all_eq_true.1 rfl

/-- A 32-bit write of any offset is the window's own: an offset that is not a multiple of 4 holds no register (R182). -/
theorem exec_registerWrite_word (s : State) (offset : BitVec 12) (v : Word) :
    exec (.registerWrite offset .word v) s = .next (s.writeWindow offset v) := by
  have hexec : exec (.registerWrite offset .word v) s =
      .next (if registerAccessOk offset .word then s.writeWindow offset v else s) := rfl
  rw [hexec]
  split
  next => rfl
  next hbad => rw [writeWindow_of_not_writable (mt (registerAccessOk_of_writable offset) hbad)]

/-- A write of another size is ignored (R182). -/
theorem exec_registerWrite_other (s : State) (offset : BitVec 12) (v : Word) :
    exec (.registerWrite offset .other v) s = .next s :=
  rfl

/-- Bit 1 of DEVCTL is FRESET, and without it bit 0 is ENABLE (R175, R192). -/
theorem exec_devctlWrite (s : State) (v : Word) :
    exec (.registerWrite 0x04 .word v) s =
      if v.getLsbD 1 = true then exec (.functionReset (v.getLsbD 0)) s
      else if v.getLsbD 0 = true then exec .enable s
      else exec .quiesce s := by
  have hexec : exec (.registerWrite 0x04 .word v) s = .next (s.writeDevctl v) := rfl
  rw [hexec, State.writeDevctl, apply_ite Host.Outcome.next, apply_ite Host.Outcome.next]
  rfl

/-- Bit 1 of RQINT clears the error flag, and bit 0 is the enable either way (R153, R154, R192). -/
theorem exec_rqintWrite (s : State) (q : RqId) (v : Word) :
    exec (.registerWrite (0x58 + 4 * BitVec.ofNat 12 q.val) .word v) s =
      if v.getLsbD 1 = true then exec (.errorFlagClear q (v.getLsbD 0)) s
      else exec (.interruptEnable q (v.getLsbD 0)) s := by
  have hexec : exec (.registerWrite (0x58 + 4 * BitVec.ofNat 12 q.val) .word v) s =
      .next (s.writeInterrupt q (v.getLsbD 0) (v.getLsbD 1)) := by
    fin_cases q <;> rfl
  rw [hexec]
  cases v.getLsbD 1 <;> rfl

/-! ## Accesses of other sizes (R182) -/

/-- A 64-bit write at a multiple of 8 is its two halves, the lower first (R182, log 23). -/
theorem writeAccess_of_halves (h : offset.toNat % 8 = 0) (wide : BitVec 64) :
    writeAccess offset 8 wide =
      [.registerWrite offset .word (wide.extractLsb' 0 32),
        .registerWrite (offset + 4) .word (wide.extractLsb' 32 32)] := by
  rw [writeAccess, if_neg (by decide), if_pos ⟨rfl, h⟩, BitVec.setWidth_eq_extractLsb' (by decide)]

theorem readAccess_of_halves (h : offset.toNat % 8 = 0) :
    s.readAccess offset 8 = s.readWindow (offset + 4) ++ s.readWindow offset := by
  rw [State.readAccess, if_neg (by decide), if_pos ⟨rfl, h⟩]

/-! ## What the registers read (R183, R185, section 11.7) -/

theorem readWindow_devstat (s : State) :
    s.readWindow 0x08 =
      (match s.device with
        | .off => 0
        | .ready => 1
        | .quiescing => 2
        | .fatal => 3) +
      (match s.cause with
        | .ok => 0
        | .config => 0x100
        | .replyWrite => 0x200) := by
  have hread : s.readWindow 0x08 = BitVec.ofNat 32 (s.device.code + 256 * s.cause.code) := rfl
  rw [hread]
  cases s.device <;> cases s.cause <;> rfl

theorem readWindow_rqint (s : State) (q : RqId) :
    s.readWindow (0x58 + 4 * BitVec.ofNat 12 q.val) =
      (if (s.rq q).enabled then 1 else 0) + (if (s.rq q).errorFlag then 2 else 0) := by
  have hread : s.readWindow (0x58 + 4 * BitVec.ofNat 12 q.val) = (s.rq q).interruptRegister := by
    fin_cases q <;> rfl
  rw [hread, ReplyQueue.interruptRegister]
  cases (s.rq q).enabled <;> cases (s.rq q).errorFlag <;> rfl

/-- An offset that holds no register reads 0 (R182). -/
theorem readWindow_of_no_register
    (h : offset ∉ ([0x00, 0x04, 0x08, 0x10, 0x14, 0x18, 0x1C, 0x20, 0x40, 0x44, 0x48, 0x4C, 0x50, 0x54, 0x58, 0x5C] :
      List (BitVec 12))) : s.readWindow offset = 0 := by
  simp only [List.mem_cons, List.not_mem_nil, or_false, not_or] at h
  simp only [State.readWindow, h, if_false]

/-- Settles O39: the writes by the register they name, the accesses by their size, and each register as it reads. -/
theorem registerWritesAndLinkChanges : Obligations.RegisterWritesAndLinkChanges := by
  intro s offset v
  have hword := exec_registerWrite_word s
  refine ⟨fun hconfig => ⟨fun hoff => ?_, fun hon => ?_⟩, fun hnone => ?_, exec_registerWrite_other s offset v,
    ⟨_, hword offset v⟩, exec_devctlWrite s v, fun q => ?_, fun q => ⟨?_, exec_rqintWrite s q v⟩,
    fun wide h => ⟨writeAccess_of_halves h wide, readAccess_of_halves h⟩, fun bytes wide h4 h8 => ⟨?_, ?_⟩,
    if_pos rfl,
    ⟨rfl, rfl, readWindow_devstat s, high_append_low s.aqbase, high_append_low s.arbase, rfl, fun q => ?_,
      fun q => ⟨?_, readWindow_rqint s q⟩⟩,
    readWindow_of_no_register, fun _ => rfl, fun _ => rfl⟩
  · refine ⟨s.stored offset v, ?_, ?_, fun o ho => ?_, rfl⟩
    · rw [hword, writeWindow_of_config hconfig, if_pos hoff]
    · rw [readWindow_stored hconfig, if_pos rfl]
    · rw [readWindow_stored hconfig, if_neg ho.symm]
  · rw [hword, writeWindow_of_config hconfig, if_neg hon]
  · rw [hword, writeWindow_of_not_writable hnone]
  · fin_cases q <;> rfl
  · fin_cases q <;> rfl
  · rw [State.readAccess, if_neg h4, if_neg h8]
  · rw [writeAccess, if_neg h4, if_neg h8]
    intro c hc u
    rw [List.mem_singleton.1 hc, exec_registerWrite_other]
  · fin_cases q <;> rfl
  · fin_cases q <;> rfl

end Sys2Proof.Machine
end

section
/-! The transfer that an arbitration serves (R113, R150, R161 to R166): the class and the stream whose turn it is, and
what each requester asks for, over a link that accepts it. -/

namespace Sys2Proof.Machine

variable {s : State} {i : StreamId} {st : Stream} {y : Staged} {q : RqId}

/-! ## The class and the stream whose turn it is (R163, R164) -/

/-- The distance at which a stream stands after another in the round (R164). -/
theorem exists_distance (last i : StreamId) : ∃ d < 32, i = Fin.ofNat 32 (last.val + 1 + d) := by
  refine ⟨(i.val + 31 - last.val) % 32, Nat.mod_lt _ (by decide), Fin.ext ?_⟩
  simp only [Fin.ofNat]
  omega

/-- Where streams wait, one of them is the first after the last served (R164). -/
theorem exists_first_request (h : s.streamRequests = true) :
    ∃ d < 32, (s.stream (Fin.ofNat 32 (s.lastStream.val + 1 + d))).hasRequest = true ∧
      ∀ d' < d, (s.stream (Fin.ofNat 32 (s.lastStream.val + 1 + d'))).hasRequest = false := by
  obtain ⟨i, -, hi⟩ := List.any_eq_true.1 h
  obtain ⟨d, hd, rfl⟩ := exists_distance s.lastStream i
  have hex : ∃ d, (s.stream (Fin.ofNat 32 (s.lastStream.val + 1 + d))).hasRequest = true := ⟨d, hi⟩
  exact ⟨Nat.find hex, (Nat.find_min' hex hi).trans_lt hd, Nat.find_spec hex,
    fun _ hlt => Bool.eq_false_iff.2 (Nat.find_min hex hlt)⟩

/-- Where the turn is the streams', the first waiting stream after the last served is served, and the streams served in
a row are counted while control work waits (R163, R164). -/
theorem arbitrate_of_stream_turn (hsending : s.sending = none) (hstreams : s.streamRequests = true)
    (hturn : s.controlRequests = false ∨ s.streamRun < 4) :
    ∃ d < 32, ∃ i, i = Fin.ofNat 32 (s.lastStream.val + 1 + d) ∧ (s.stream i).hasRequest = true ∧
      (∀ d' < d, (s.stream (Fin.ofNat 32 (s.lastStream.val + 1 + d'))).hasRequest = false) ∧
      s.arbitrate =
        State.serveStream
          { s with
            streamRun :=
              if (s.streamRequests = true ∧ s.controlRequests = true) ∧ s.streamRun < 4 then s.streamRun + 1 else 0
            lastStream := i } i := by
  obtain ⟨d, hd, hreq, hbefore⟩ := exists_first_request hstreams
  have hcount : s.controlRequests = true ↔
      (s.streamRequests = true ∧ s.controlRequests = true) ∧ s.streamRun < 4 :=
    ⟨fun hc => ⟨⟨hstreams, hc⟩, hturn.resolve_left (by simp [hc])⟩, fun h => h.1.2⟩
  refine ⟨d, hd, _, rfl, hreq, hbefore, ?_⟩
  rw [arbitrate_of_stream hsending hturn hd hbefore rfl hreq, if_congr hcount rfl rfl]

/-- Where the turn is not the streams', control work waits, and no stream does or four in a row have been served
(R163). -/
theorem control_turn_of_not_stream_turn (hwaits : s.streamRequests = true ∨ s.controlRequests = true)
    (hturn : ¬(s.streamRequests = true ∧ (s.controlRequests = false ∨ s.streamRun < 4))) :
    s.controlRequests = true ∧ (s.streamRequests = false ∨ 4 ≤ s.streamRun) := by
  cases hstreams : s.streamRequests with
  | false => exact ⟨hwaits.resolve_left (by simp [hstreams]), .inl rfl⟩
  | true =>
    obtain ⟨hcontrol, hrun⟩ := not_or.1 fun h => hturn ⟨hstreams, h⟩
    exact ⟨by simpa using hcontrol, .inr (Nat.not_lt.1 hrun)⟩

/-- The control class is served where no stream waits, or four streams in a row have been served while it waited
(R163). -/
theorem arbitrate_of_control_turn (hsending : s.sending = none) (hcontrol : s.controlRequests = true)
    (hturn : s.streamRequests = false ∨ 4 ≤ s.streamRun) :
    s.arbitrate = State.serveControl { s with streamRun := 0 } := by
  cases hstreams : s.streamRequests with
  | false => exact arbitrate_of_control hsending hstreams hcontrol
  | true =>
    have hrun : ¬s.streamRun < Config.streamAllowance := Nat.not_lt.2 (hturn.resolve_left (by simp [hstreams]))
    simp [State.arbitrate, hsending, hcontrol, hstreams, chooseClass, hrun]

theorem exec_arbitration_of_calm {t : State} (ht : s.arbitrate = t) (hcalm : t.Calm) :
    exec .arbitration s = .next t := by
  have h : exec .arbitration s = .next s.arbitrate.finish := rfl
  rw [h, ht, hcalm.finish]

/-! ## What the stream class asks for (R161, R164) -/

/-- The staged items before the oldest that waits are left as they are. -/
theorem serveStaged_append {older newer : List Staged} (n : Nat) (hserved : ∀ z ∈ older, z.bytes.length ≤ z.served)
    (hy : y.served < y.bytes.length) :
    serveStaged n (older ++ y :: newer) = older ++ { y with served := y.served + n } :: newer := by
  induction older with
  | nil => exact if_pos hy
  | cons z older ih =>
    obtain ⟨hz, hrest⟩ := List.forall_mem_cons.1 hserved
    rw [List.cons_append, serveStaged, if_neg (Nat.not_lt.2 hz), ih hrest, List.cons_append]

/-- Over a link that accepts it, a transfer that is served is being sent (R162, R166). -/
theorem serve_of_accepted (h : s.linkAccepts = true) (t : Transfer) : s.serve t = { s with sending := some t } :=
  if_pos h

/-- The first of a list that waits, with those before it (R164, R165). -/
theorem exists_first {α : Type} {l : List α} {p : α → Bool} (h : l.any p = true) :
    ∃ older a newer, l = older ++ a :: newer ∧ (∀ z ∈ older, p z = false) ∧ p a = true ∧ l.find? p = some a := by
  obtain ⟨a, ha⟩ := Option.isSome_iff_exists.1 (List.find?_isSome.2 (List.any_eq_true.1 h))
  obtain ⟨hp, older, newer, hsplit, hbefore⟩ := List.find?_eq_some_iff_append.1 ha
  exact ⟨older, a, newer, hsplit, fun z hz => by simpa using hbefore z hz, hp, ha⟩

/-- A stream with a request has its oldest staged item that waits served, in parts, and with no item waiting its
prefetch read (R160, R161, R164). -/
theorem serveStream_of_request (hlink : s.linkAccepts = true) (h : (s.stream i).hasRequest = true) :
    (∃ older y newer, (s.stream i).staging = older ++ y :: newer ∧ (∀ z ∈ older, z.bytes.length ≤ z.served) ∧
        y.served < y.bytes.length ∧
        s.serveStream i =
          { s with
            sending := some (nextWrite (.capture i) y.address y.bytes y.served)
            streams := s.streams.set i
              { s.stream i with staging := older ++ { y with served := y.served + y.nextLength } :: newer } }) ∨
      ((∀ z ∈ (s.stream i).staging, z.bytes.length ≤ z.served) ∧
        ∃ r, (s.stream i).read = some r ∧ r.served = false ∧
          s.serveStream i =
            { s with
              sending := some (oneRead (.prefetch i) r.address (2 * r.words))
              streams := s.streams.set i { s.stream i with read := some { r with served := true } } }) := by
  cases hany : (s.stream i).staging.any fun z => z.served < z.bytes.length with
  | true =>
    obtain ⟨older, y, newer, hsplit, hbefore, hwaits, hfind⟩ := exists_first hany
    simp only [decide_eq_false_iff_not, Nat.not_lt, decide_eq_true_eq] at hbefore hwaits
    refine .inl ⟨older, y, newer, hsplit, hbefore, hwaits, ?_⟩
    have hnext : (s.stream i).nextStaged i = some (y, nextWrite (.capture i) y.address y.bytes y.served) := by
      simp only [Stream.nextStaged, hfind, Option.map_some]
    simp only [State.serveStream, hnext]
    rw [serve_of_accepted (by exact hlink), hsplit, serveStaged_append _ hbefore hwaits]
    rfl
  | false =>
    have hserved : ∀ z ∈ (s.stream i).staging, z.bytes.length ≤ z.served := by simpa using hany
    rw [Stream.hasRequest, hany, Bool.false_or] at h
    split at h
    next r hr =>
      refine .inr ⟨hserved, r, hr, by simpa using h, ?_⟩
      have hnext : (s.stream i).nextStaged i = none := by simpa [Stream.nextStaged] using hserved
      simp only [State.serveStream, hnext, hr]
      exact serve_of_accepted (by exact hlink) _
    next => exact absurd h Bool.false_ne_true

/-! ## What the control class asks for (R113, R150, R161, R165, R166) -/

theorem replyRequest_iff : s.replyRequest q = true ↔ (s.rq q).waiting ≠ [] := by
  simp [State.replyRequest]

/-- Of the reply queues a waiting one is chosen, and of two that wait the one not served last (R165). -/
theorem nextReplyQueue_spec (h : (s.rq 0).waiting ≠ [] ∨ (s.rq 1).waiting ≠ []) :
    (s.rq s.nextReplyQueue).waiting ≠ [] ∧
      ((s.rq 0).waiting ≠ [] ∧ (s.rq 1).waiting ≠ [] → s.nextReplyQueue ≠ s.lastReplyQueue) := by
  by_cases h0 : (s.rq 0).waiting = []
  · have hchoice : s.nextReplyQueue = 1 := by simp [State.nextReplyQueue, State.replyRequest, h0]
    exact ⟨hchoice ▸ h.resolve_left (not_not_intro h0), fun hboth => absurd h0 hboth.1⟩
  · by_cases h1 : (s.rq 1).waiting = []
    · have hchoice : s.nextReplyQueue = 0 := by simp [State.nextReplyQueue, State.replyRequest, h0, h1]
      exact ⟨hchoice ▸ h0, fun hboth => absurd h1 hboth.2⟩
    · have hchoice : s.nextReplyQueue = if s.lastReplyQueue = 0 then 1 else 0 := by
        simp [State.nextReplyQueue, State.replyRequest, h0, h1]
      rw [hchoice]
      split
      next hlast => exact ⟨h1, fun _ => by rw [hlast]; decide⟩
      next hlast => exact ⟨h0, fun _ => Ne.symm hlast⟩

/-- The transfer of a reply queue's waiting item (R150, R166). -/
def State.replyItemTransfer (s : State) (q : RqId) : WaitItem → Transfer
  | .reply position bytes => (s.rq q).replyTransfer q position bytes
  | .message => s.messageTransfer q

/-- The head of a reply queue's list is served, and the queue is the last served (R150, R165, log 15). -/
theorem serveReply_of_waiting {item : WaitItem} {rest : List WaitItem} (hlink : s.linkAccepts = true)
    (hmsi : s.link.msiEnable = true) (h : (s.rq q).waiting = item :: rest) :
    s.serveReply q = { s with sending := some (s.replyItemTransfer q item), lastReplyQueue := q } := by
  have h' : (State.rq { s with lastReplyQueue := q } q).waiting = item :: rest := h
  cases item <;> simp only [State.serveReply, h', hmsi, if_true] <;> exact serve_of_accepted (by exact hlink) _

theorem serveControl_of_reply (h : (s.rq 0).waiting ≠ [] ∨ (s.rq 1).waiting ≠ []) :
    s.serveControl = s.serveReply s.nextReplyQueue :=
  if_pos (by simpa only [Bool.or_eq_true, replyRequest_iff] using h)

/-- With no reply queue waiting, the other requesters of the control class are served by rank (R165). -/
theorem serveControl_of_no_reply (h : ¬((s.rq 0).waiting ≠ [] ∨ (s.rq 1).waiting ≠ [])) :
    s.serveControl =
      if s.statusRequest = true then s.serveStatus else if s.fetchRequest = true then s.serveFetch else s.serveLoad :=
  if_neg (by simpa only [Bool.or_eq_true, replyRequest_iff] using h)

/-- The earliest accepted status record that waits is served, in parts (R161, R165). -/
theorem serveStatus_of_request (hlink : s.linkAccepts = true) (h : s.statusRequest = true) :
    ∃ older w newer, s.statusWrites = older ++ w :: newer ∧ (∀ z ∈ older, z.bytes.length ≤ z.served) ∧
      w.served < w.bytes.length ∧
      ∃ x, x = nextWrite (.status w.slot) w.address w.bytes w.served ∧
        s.serveStatus =
          { s with
            sending := some x
            statusWrites := s.statusWrites.map fun z =>
              if z.slot = w.slot then { z with served := z.served + x.length } else z } := by
  obtain ⟨older, w, newer, hsplit, hbefore, hwaits, hfind⟩ := exists_first h
  simp only [decide_eq_false_iff_not, Nat.not_lt, decide_eq_true_eq] at hbefore hwaits
  refine ⟨older, w, newer, hsplit, hbefore, hwaits, _, rfl, ?_⟩
  simp only [State.serveStatus, hfind]
  exact serve_of_accepted (by exact hlink) _

/-- The one fetch is served by a read of 32 bytes (R130, R165). -/
theorem serveFetch_of_request (hlink : s.linkAccepts = true) (h : s.fetchRequest = true) :
    ∃ f, s.fetch = some f ∧
      s.serveFetch =
        { s with sending := some (oneRead .fetch f.address 32), fetch := some { f with served := true } } := by
  unfold State.fetchRequest at h
  split at h
  next f hf =>
    refine ⟨f, hf, ?_⟩
    simp only [State.serveFetch, hf]
    exact serve_of_accepted (by exact hlink) _
  next => exact absurd h Bool.false_ne_true

/-- The earliest accepted load whose read waits is served (R113, R165). -/
theorem serveLoad_of_request (hlink : s.linkAccepts = true) (h : s.loadRequest = true) :
    ∃ older l newer, s.loads = older ++ l :: newer ∧ (∀ z ∈ older, z.served = true) ∧ l.served = false ∧
      s.serveLoad =
        { s with
          sending := some (oneRead (.load l.slot) l.nextAddress (4 * l.nextEntries))
          loads := s.loads.map fun z => if z.slot = l.slot then { z with served := true } else z } := by
  obtain ⟨older, l, newer, hsplit, hbefore, hwaits, hfind⟩ := exists_first h
  simp only [Bool.not_eq_false', Bool.not_eq_true'] at hbefore hwaits
  refine ⟨older, l, newer, hsplit, hbefore, hwaits, ?_⟩
  simp only [State.serveLoad, hfind]
  exact serve_of_accepted (by exact hlink) _

/-! ## An arbitration (R162 to R165) -/

/-- Settles O47: the turn picks the class, and the served requester of that class is known by its own lemma. -/
theorem arbitrationServesByRule : Obligations.ArbitrationServesByRule := by
  intro s hcalm hsending hbus hup hmsi hwaits both part read write
  have hlink : s.linkAccepts = true := linkAccepts_iff.2 ⟨hbus, hup⟩
  by_cases hclass : s.streamRequests = true ∧ (s.controlRequests = false ∨ s.streamRun < 4)
  · obtain ⟨d, hd, i, hi, hreq, hbefore, harb⟩ := arbitrate_of_stream_turn hsending hclass.1 hclass.2
    have hserve := serveStream_of_request (i := i)
      (s := { s with streamRun := if both ∧ s.streamRun < 4 then s.streamRun + 1 else 0, lastStream := i }) hlink hreq
    rw [← harb] at hserve
    rcases hserve with ⟨older, y, newer, hsplit, hserved, hy, hexec⟩ | ⟨hserved, r, hr, hunserved, hexec⟩
    · refine ⟨_, _, exec_arbitration_of_calm hexec (hcalm.of_eq rfl rfl rfl), rfl, rfl, rfl, ?_⟩
      rw [if_pos hclass]
      exact ⟨⟨d, hd, hi, hreq, hbefore⟩, rfl, rfl, rfl, rfl, .inl ⟨older, y, newer, hsplit, hserved, hy, rfl, rfl⟩⟩
    · refine ⟨_, _, exec_arbitration_of_calm hexec (hcalm.of_eq rfl rfl rfl), rfl, rfl, rfl, ?_⟩
      rw [if_pos hclass]
      exact ⟨⟨d, hd, hi, hreq, hbefore⟩, rfl, rfl, rfl, rfl, .inr ⟨hserved, r, hr, hunserved, rfl, rfl⟩⟩
  · obtain ⟨hcontrol, hturn⟩ := control_turn_of_not_stream_turn hwaits hclass
    have hrun : 0 = if both ∧ s.streamRun < 4 then s.streamRun + 1 else 0 :=
      (if_neg fun h => hclass ⟨h.1.1, .inr h.2⟩).symm
    have harb := arbitrate_of_control_turn hsending hcontrol hturn
    have hlink' : State.linkAccepts { s with streamRun := 0 } = true := hlink
    by_cases hreply : (s.rq 0).waiting ≠ [] ∨ (s.rq 1).waiting ≠ []
    · obtain ⟨hwaiting, hother⟩ := nextReplyQueue_spec hreply
      obtain ⟨item, rest, hitem⟩ := List.exists_cons_of_ne_nil hwaiting
      have hserve := harb.trans <| (serveControl_of_reply (s := { s with streamRun := 0 }) hreply).trans <|
        serveReply_of_waiting hlink' hmsi hitem
      refine ⟨_, _, exec_arbitration_of_calm hserve (hcalm.of_eq rfl rfl rfl), rfl, rfl, hrun, ?_⟩
      rw [if_neg hclass, if_pos hreply]
      refine ⟨rfl, rfl, rfl, rfl, rfl, hother, ?_⟩
      cases item with
      | reply position bytes => exact .inl ⟨position, bytes, rest, hitem, rfl⟩
      | message => exact .inr ⟨rest, hitem, rfl⟩
    · rw [serveControl_of_no_reply (s := { s with streamRun := 0 }) hreply] at harb
      by_cases hstatus : s.statusRequest = true
      · obtain ⟨older, w, newer, hsplit, hserved, hw, x, hx, hserve⟩ :=
          serveStatus_of_request (s := { s with streamRun := 0 }) hlink' hstatus
        rw [if_pos (by exact hstatus), hserve] at harb
        refine ⟨_, _, exec_arbitration_of_calm harb (hcalm.of_eq rfl rfl rfl), rfl, rfl, hrun, ?_⟩
        rw [if_neg hclass, if_neg hreply, if_pos hstatus]
        exact ⟨rfl, rfl, rfl, rfl, rfl, older, w, newer, hsplit, hserved, hw, hx, rfl⟩
      · rw [if_neg (by exact hstatus)] at harb
        by_cases hfetch : s.fetchRequest = true
        · obtain ⟨f, hf, hserve⟩ := serveFetch_of_request (s := { s with streamRun := 0 }) hlink' hfetch
          rw [if_pos (by exact hfetch), hserve] at harb
          refine ⟨_, _, exec_arbitration_of_calm harb (hcalm.of_eq rfl rfl rfl), rfl, rfl, hrun, ?_⟩
          rw [if_neg hclass, if_neg hreply, if_neg hstatus, if_pos hfetch]
          exact ⟨rfl, rfl, rfl, rfl, rfl, f, hf, rfl, rfl⟩
        · have hload : s.loadRequest = true := by
            simpa [State.controlRequests, State.replyRequest, hstatus, hfetch, not_or.1 hreply] using hcontrol
          obtain ⟨older, l, newer, hsplit, hserved, hl, hserve⟩ :=
            serveLoad_of_request (s := { s with streamRun := 0 }) hlink' hload
          rw [if_neg (by exact hfetch), hserve] at harb
          refine ⟨_, _, exec_arbitration_of_calm harb (hcalm.of_eq rfl rfl rfl), rfl, rfl, hrun, ?_⟩
          rw [if_neg hclass, if_neg hreply, if_neg hstatus, if_neg hfetch]
          exact ⟨rfl, rfl, rfl, rfl, rfl, older, l, newer, hsplit, hserved, hl, rfl, rfl⟩

end Sys2Proof.Machine
end

section
/-! Data of a read (R167): a part that does not complete its read, and data or an error for no read. -/

namespace Sys2Proof.Machine

variable {s : State} {tag : Nat} {data : List Byte}

theorem readOf_eq_none_iff : s.readOf tag = none ↔ ∀ o ∈ s.outstanding, o.tag ≠ tag := by
  simp [State.readOf]

/-- A part that leaves its read short of its length is held behind the parts before it (R167, log 34). -/
theorem dataReturned_of_part {o : OutstandingRead} (ho : s.readOf tag = some o)
    (hshort : o.got.length + data.length < o.length) :
    s.dataReturned tag data =
      { s with
        outstanding := s.outstanding.map fun p => if p.tag = tag then { p with got := o.got ++ data } else p } := by
  have hshort' : (o.got ++ data).length < o.length := List.length_append ▸ hshort
  simp only [State.dataReturned, ho, if_pos hshort']

/-- Data for no outstanding read is discarded (R167). -/
theorem dataReturned_of_none (h : s.readOf tag = none) : s.dataReturned tag data = s := by
  simp only [State.dataReturned, h]

/-- An error for no outstanding read is discarded (R167). -/
theorem readFailed_of_none (h : s.readOf tag = none) : s.readFailed tag = s := by
  simp only [State.readFailed, h]

/-- Settles O51: the part and the stray are the two cases of the search by tag, and in a calm machine nothing follows. -/
theorem completionPartsAreHeld : Obligations.CompletionPartsAreHeld := by
  intro s tag data hcalm
  have hpart : exec (.completionPart tag data) s = .next (s.dataReturned tag data).finish := rfl
  refine ⟨fun o ho hshort => ?_, fun hstray => ?_⟩
  · rw [hpart, dataReturned_of_part ho hshort]
    exact congrArg Host.Outcome.next (State.Calm.finish (hcalm.of_eq rfl rfl rfl))
  · have hnone : s.readOf tag = none := readOf_eq_none_iff.2 hstray
    have hdata : (s.dataReturned tag data).finish = s := by rw [dataReturned_of_none hnone, hcalm.finish]
    have herror : (s.readFailed tag).finish = s := by rw [readFailed_of_none hnone, hcalm.finish]
    exact ⟨congrArg _ hdata, congrArg _ hdata, congrArg _ herror⟩

end Sys2Proof.Machine
end

section
/-! ENABLE in OFF (R173, R174), and the two resets (R180, R181). -/

namespace Sys2Proof.Machine

variable {s : State}

/-! ## The admin configuration (R173) -/

/-- The bits of QSIZE outside its two fields: 4 to 7 and 12 to 31 (section 11.7). -/
theorem qsizeMask_getLsbD : ∀ i < 32, (0xFFFFF0F0 : Word).getLsbD i = (decide (4 ≤ i ∧ i < 8) || decide (12 ≤ i)) := by
  decide

/-- A field of a word is 0 where each of its bits is clear. -/
theorem extractLsb'_eq_zero_iff (v : Word) (first n : Nat) :
    v.extractLsb' first n = 0 ↔ ∀ i, first ≤ i → i < first + n → v.getLsbD i = false := by
  constructor
  · intro h i hlow hhigh
    have hbit := congrArg (BitVec.getLsbD · (i - first)) h
    simpa [BitVec.getLsbD_extractLsb', Nat.add_sub_cancel' hlow, show i - first < n by omega] using hbit
  · intro h
    refine BitVec.eq_of_getLsbD_eq fun i hi => ?_
    simpa [BitVec.getLsbD_extractLsb'] using fun _ => h (first + i) (Nat.le_add_right ..) (by omega)

/-- The two other fields of QSIZE are 0 where its bits under the mask are. -/
theorem qsizeOthersZero_iff (v : Word) : qsizeOthersZero v = true ↔ v &&& 0xFFFFF0F0 = 0 := by
  have hmasked : v &&& 0xFFFFF0F0 = 0 ↔ ∀ i < 32, (4 ≤ i ∧ i < 8) ∨ 12 ≤ i → v.getLsbD i = false := by
    rw [BitVec.eq_of_getLsbD_eq_iff]
    refine forall₂_congr fun i hi => ?_
    rw [BitVec.getLsbD_and, qsizeMask_getLsbD i hi]
    cases v.getLsbD i <;> simp
  rw [hmasked]
  simp only [qsizeOthersZero, Bool.and_eq_true, beq_iff_eq, extractLsb'_eq_zero_iff]
  constructor
  · rintro ⟨hlow, hhigh⟩ i hi (⟨h4, h8⟩ | h12)
    · exact hlow i h4 h8
    · exact hhigh i h12 hi
  · exact fun h => ⟨fun i h4 h8 => h i (by omega) (.inl ⟨h4, h8⟩), fun i h12 hi => h i hi (.inr h12)⟩

theorem fits_iff (a : Addr) (n : Nat) : fits a n = true ↔ a.toNat + n ≤ 2 ^ 64 :=
  decide_eq_true_iff

theorem configGood_iff (s : State) :
    s.configGood = true ↔
      s.aqbase.toNat % 64 = 0 ∧ s.arbase.toNat % 64 = 0 ∧ 4 ≤ qsizeCq s.qsize ∧ qsizeCq s.qsize ≤ 12 ∧
        4 ≤ qsizeRq s.qsize ∧ qsizeRq s.qsize ≤ 12 ∧ s.qsize &&& 0xFFFFF0F0 = 0 ∧
        s.aqbase.toNat + 2 ^ qsizeCq s.qsize * 32 ≤ 2 ^ 64 ∧ s.arbase.toNat + 2 ^ qsizeRq s.qsize * 16 ≤ 2 ^ 64 := by
  simp only [State.configGood, Bool.and_eq_true, beq_iff_eq, decide_eq_true_iff, qsizeOthersZero_iff, fits_iff,
    and_assoc]

/-! ## ENABLE (R173 to R175) -/

theorem writeEnable_of_not_off (h : s.device ≠ .off) : s.writeEnable = s :=
  if_neg h

theorem writeEnable_of_good (h : s.device = .off) (hgood : s.configGood = true) : s.writeEnable = s.enter := by
  rw [State.writeEnable, if_pos h, if_pos hgood]

theorem writeEnable_of_not_good (h : s.device = .off) (hgood : ¬s.configGood = true) :
    s.writeEnable = { s with cause := .config } := by
  rw [State.writeEnable, if_pos h, if_neg hgood]

/-- Settles O33: the three outcomes by the device state and the checks of R173. -/
theorem enableChecksTheConfiguration : Obligations.EnableChecksTheConfiguration := by
  intro s cq rq
  have hexec : exec .enable s = .next s.writeEnable := rfl
  rw [hexec]
  refine congrArg Host.Outcome.next ?_
  split
  next hon => exact writeEnable_of_not_off hon
  next hoff =>
    have hoff : s.device = .off := not_not.1 hoff
    split
    next hgood => exact writeEnable_of_good hoff ((configGood_iff s).2 hgood)
    next hbad => exact writeEnable_of_not_good hoff (mt (configGood_iff s).1 hbad)

/-! ## The resets (R180, R181) -/

/-- Each input after a reset shows its own pin, which is not the controller's to reset (R68, log 11). -/
theorem resetInputs_get (s : State) (i : InputId) : s.resetInputs.get i = Input.atReset (s.input i).pin :=
  (get_foldl_set (fun i _ => Input.atReset (s.input i).pin) (List.nodup_finRange 4) _ i).trans
    (if_pos (List.mem_finRange i))

theorem powerOn_input (s : State) (link : LinkConfig) (i : InputId) :
    (s.powerOn link).input i = Input.atReset (s.input i).pin :=
  resetInputs_get s i

theorem functionReset_input (s : State) (i : InputId) : s.functionReset.input i = Input.atReset (s.input i).pin :=
  resetInputs_get s i

/-- Settles O35: each reset is the reset state with its own fields kept, and each input at reset with its pin. -/
theorem resetsClearTheBlock : Obligations.ResetsClearTheBlock := fun s =>
  ⟨fun _ => ⟨s.functionReset, rfl, functionReset_input s, rfl⟩,
    fun link => ⟨s.powerOn link, rfl, powerOn_input s link, rfl⟩⟩

end Sys2Proof.Machine
end

section
/-! The record formats of chapter 11: a command record's bytes give it back (section 11.2, R186), and the SCAN item as
R98 and R190 lay it out. -/

namespace Sys2Proof.Machine

/-- Settles O3: the 32 bytes are the record's 256 bits, whose fields are the record's own. -/
theorem recordBytesGiveTheRecordBack : Obligations.RecordBytesGiveTheRecordBack := fun rec =>
  ⟨length_encodeRecord rec, decodeRecord_encodeRecord rec⟩

/-! ## The samples of a scan and its timeout mask (R87, R190) -/

/-- Bit `j` of the timeout mask is the mark of list position `j` (R190). -/
theorem testBit_timeoutMask (slots : List ScanSlot) (j : Nat) :
    (timeoutMask slots).testBit j = decide (slots[j]? = some .timedOut) := by
  induction slots generalizing j with
  | nil => simp [timeoutMask]
  | cons x slots ih =>
    cases j with
    | zero => by_cases hx : x = .timedOut <;> simp [timeoutMask, hx, Nat.testBit_zero]
    | succ j =>
      have hhalf : timeoutMask (x :: slots) / 2 = timeoutMask slots := by
        simp only [timeoutMask]
        split <;> omega
      rw [Nat.testBit_succ, hhalf, ih, List.getElem?_cons_succ]

/-- The mask of at most eight positions stands whole in its byte (R190). -/
theorem getLsbD_timeoutMask {slots : List ScanSlot} (h : slots.length ≤ 8) (j : Nat) :
    (BitVec.ofNat 8 (timeoutMask slots)).getLsbD j = decide (slots[j]? = some .timedOut) := by
  rw [BitVec.getLsbD_ofNat, testBit_timeoutMask]
  by_cases hj : j < 8
  · simp [hj]
  · simp [hj, List.getElem?_eq_none (show slots.length ≤ j by omega)]

/-- The samples of a scan as bytes, in list order (R98). -/
def sampleBytes (slots : List ScanSlot) : List Byte :=
  slots.flatMap fun x => leBytes 2 x.value.toNat

theorem sampleBytes_cons (x : ScanSlot) (slots : List ScanSlot) :
    sampleBytes (x :: slots) = leBytes 2 x.value.toNat ++ sampleBytes slots :=
  List.flatMap_cons

theorem length_sampleBytes (slots : List ScanSlot) : (sampleBytes slots).length = 2 * slots.length := by
  induction slots with
  | nil => rfl
  | cons x slots ih =>
    rw [sampleBytes_cons, List.length_append, length_leBytes, ih, List.length_cons]
    omega

/-- Sample `j` stands at the bytes `2 * j` and `2 * j + 1` of the samples (R98). -/
theorem take_drop_sampleBytes {slots : List ScanSlot} {j : Nat} {x : ScanSlot} (h : slots[j]? = some x)
    (tail : List Byte) : ((sampleBytes slots ++ tail).drop (2 * j)).take 2 = leBytes 2 x.value.toNat := by
  induction slots generalizing j with
  | nil => exact nomatch h
  | cons y slots ih =>
    rw [sampleBytes_cons, List.append_assoc]
    cases j with
    | zero =>
      obtain rfl : y = x := Option.some.inj h
      exact List.take_left' (length_leBytes ..)
    | succ j =>
      have hskip : 2 * (j + 1) = (leBytes 2 y.value.toNat).length + 2 * j := by
        rw [length_leBytes]
        omega
      rw [hskip, List.drop_length_add_append]
      exact ih h

/-! ## The SCAN item (R98, R190) -/

/-- The bytes of a SCAN item before its first sample: its number, the count of positions and the timeout mask, and with
the timestamp option the tick (R98). -/
def scanItemHead (timestamp : Bool) (f : ScanFlight) (sequence : Half) : List Byte :=
  leBytes 2 sequence.toNat ++ [BitVec.ofNat 8 (f.slots.length % 16), BitVec.ofNat 8 (timeoutMask f.slots)] ++
    if timestamp then leBytes 8 f.time.toNat else []

theorem length_scanItemHead (timestamp : Bool) (f : ScanFlight) (sequence : Half) :
    (scanItemHead timestamp f sequence).length = if timestamp then 12 else 4 := by
  cases timestamp <;> rfl

/-- The zero bytes that bring a SCAN item to a multiple of 4 (R98). -/
def scanItemPadding (timestamp : Bool) (f : ScanFlight) : List Byte :=
  List.replicate (((if timestamp then 12 else 4) + 2 * f.slots.length) % 4) 0

/-- A SCAN item is its head, its samples and its padding (R98). -/
theorem scanItem_eq (timestamp : Bool) (f : ScanFlight) (sequence : Half) :
    scanItem timestamp f sequence =
      scanItemHead timestamp f sequence ++ (sampleBytes f.slots ++ scanItemPadding timestamp f) := by
  have hpad : scanItemSize f.slots.length timestamp -
      (scanItemHead timestamp f sequence ++ sampleBytes f.slots).length =
        ((if timestamp then 12 else 4) + 2 * f.slots.length) % 4 := by
    rw [List.length_append, length_scanItemHead, length_sampleBytes]
    cases timestamp <;> simp [scanItemSize]
  rw [← List.append_assoc, scanItemPadding, ← hpad]
  rfl

/-- A SCAN item has the size that its stream's list and options fix (R98). -/
theorem length_scanItem (timestamp : Bool) (f : ScanFlight) (sequence : Half) :
    (scanItem timestamp f sequence).length = scanItemSize f.slots.length timestamp := by
  rw [scanItem_eq, List.length_append, List.length_append, length_scanItemHead, length_sampleBytes, scanItemPadding,
    List.length_replicate]
  cases timestamp <;> simp [scanItemSize] <;> omega

/-- From its first sample on, a SCAN item is its samples and its padding (R98). -/
theorem drop_scanItem (timestamp : Bool) (f : ScanFlight) (sequence : Half) (k : Nat) :
    (scanItem timestamp f sequence).drop ((if timestamp then 12 else 4) + k) =
      (sampleBytes f.slots ++ scanItemPadding timestamp f).drop k := by
  rw [scanItem_eq, ← length_scanItemHead timestamp f sequence, List.drop_length_add_append]

/-- A SCAN item begins with its number (R91, R190). -/
theorem scanItem_number (timestamp : Bool) (f : ScanFlight) (sequence : Half) :
    (scanItem timestamp f sequence).take 2 = leBytes 2 sequence.toNat :=
  rfl

/-- Bytes 2 and 3 of a SCAN item of at most eight positions: how many there are, and the timeout mask (R190). -/
theorem scanItem_positions (timestamp : Bool) {f : ScanFlight} (sequence : Half) (h : f.slots.length ≤ 8) :
    ((scanItem timestamp f sequence).drop 2).take 2 =
      [BitVec.ofNat 8 f.slots.length, BitVec.ofNat 8 (timeoutMask f.slots)] := by
  rw [← Nat.mod_eq_of_lt (show f.slots.length < 16 by omega)]
  rfl

/-- With the timestamp option the tick of its strobe stands at bytes 4 to 11 of a SCAN item (R98, R190). -/
theorem scanItem_time (f : ScanFlight) (sequence : Half) :
    ((scanItem true f sequence).drop 4).take 8 = leBytes 8 f.time.toNat :=
  rfl

/-- Sample `j` of a SCAN item, 0 where its position timed out (R87, R98). -/
theorem scanItem_sample {timestamp : Bool} {f : ScanFlight} {j : Nat} {x : ScanSlot} (sequence : Half)
    (h : f.slots[j]? = some x) :
    ((scanItem timestamp f sequence).drop ((if timestamp then 12 else 4) + 2 * j)).take 2 =
      leBytes 2 x.value.toNat := by
  rw [drop_scanItem]
  exact take_drop_sampleBytes h _

/-- What follows the last sample of a SCAN item is zero (R98). -/
theorem scanItem_padding {timestamp : Bool} {f : ScanFlight} {sequence : Half} {y : Byte}
    (h : y ∈ (scanItem timestamp f sequence).drop ((if timestamp then 12 else 4) + 2 * f.slots.length)) : y = 0 := by
  rw [drop_scanItem, ← length_sampleBytes, List.drop_left] at h
  exact List.eq_of_mem_replicate h

end Sys2Proof.Machine
end

section
/-! The item that the last outcome of a scan or a STAMP advance completes (R88, R90 to R95, R98, R99). -/

namespace Sys2Proof.Machine

variable {s t : State} {i : StreamId} {p : PacerId} {n : PortId} {st : Stream} {fl : ScanFlight}
  {y : Stream × Option StreamFault}

/-! ## What an item leaves (R92) -/

theorem itemTaken_of_fault {cause : StreamFault} (h : y.2 = some cause) :
    s.itemTaken i y = s.faulted i y.1 cause := by
  simp only [State.itemTaken, h]

theorem itemTaken_of_limit (h : y.2 = none) (hlim : y.1.AtLimit) :
    s.itemTaken i y = s.endedRun i y.1.currentFinishes .limit := by
  simp only [State.itemTaken, h, if_pos hlim]

theorem itemTaken_of_below (h : y.2 = none) (hlim : ¬y.1.AtLimit) : s.itemTaken i y = s.setStream i y.1 := by
  simp only [State.itemTaken, h, if_neg hlim]
  rfl

theorem State.Calm.itemTaken (h : s.Calm) (i : StreamId) (y : Stream × Option StreamFault) : (s.itemTaken i y).Calm := by
  cases hy : y.2 with
  | some cause => exact itemTaken_of_fault hy ▸ h.faulted ..
  | none =>
    by_cases hlim : y.1.AtLimit
    · exact itemTaken_of_limit hy hlim ▸ h.endedRun ..
    · exact itemTaken_of_below hy hlim ▸ h.setStream ..

/-- After an item the event has no stop effect on the stream where that has met a fault, has ended its run, or does not
name the event as its stop source (R14, R64). -/
theorem itemTaken_not_stopped {a : Byte} (h : y.1.stopSource ≠ a ∨ y.2 ≠ none ∨ y.1.AtLimit) :
    ((s.itemTaken i y).stream i).stopSource ≠ a ∨ ((s.itemTaken i y).stream i).state ≠ .running := by
  cases hy : y.2 with
  | some cause =>
    rw [itemTaken_of_fault hy, faulted_stream_self]
    exact .inr fun h => nomatch h
  | none =>
    by_cases hlim : y.1.AtLimit
    · rw [itemTaken_of_limit hy hlim, endedRun_stream_self]
      exact .inr fun h => nomatch h
    · rw [itemTaken_of_below hy hlim, stream_setStream_self]
      exact .inl (h.resolve_right fun h => h.elim (fun h => h hy) hlim)

/-- The completion of an item `t` is what the item leaves, but for the TERMINAL of a run that it ended (R65, R92). -/
def State.TakesItem (t s : State) (i : StreamId) (y : Stream × Option StreamFault) : Prop :=
  t = s.itemTaken i y ∨ (y.1.AtLimit ∧ y.2 = none ∧ t = (s.itemTaken i y).emit (terminalCode i))

/-- The TERMINAL of a run that an item ended is heard by none, where none heard it before (R62). -/
theorem State.TakesItem.unheard (h : t.TakesItem s i y) (hun : y.1.AtLimit → s.Unheard (terminalCode i)) :
    t = s.itemTaken i y ∨ ∃ d, (s.itemTaken i y).Unheard d ∧ t = (s.itemTaken i y).emit d := by
  refine h.imp_right fun ⟨hlim, hy, ht⟩ => ⟨terminalCode i, ?_, ht⟩
  rw [itemTaken_of_limit hy hlim]
  exact endedRun_unheard (hun hlim) (fun _ _ => rfl) _

theorem State.TakesItem.finish (h : t.TakesItem s i y) (hs : s.Calm)
    (hun : y.1.AtLimit → s.Unheard (terminalCode i)) : t.finish = s.itemTaken i y := by
  rcases h.unheard hun with rfl | ⟨d, hd, rfl⟩
  · exact (hs.itemTaken i y).finish
  · exact finish_emit_of_unheard (hs.itemTaken i y) hd

/-! ## The last outcome of a scan (R82, R87, R88) -/

/-- Stream context `st` with its scan `fl` complete, and its timeout marks counted (R88). -/
def Stream.scanned (st : Stream) (fl : ScanFlight) : Stream :=
  { st with scan := none, portTimeouts := st.portTimeouts + BitVec.ofNat 32 fl.marks }

/-- A complete scan of a RUNNING stream with no stop pending is completed as its item (R88, R91 to R94). -/
theorem completeScan_takesItem (hst : s.stream i = st) (hk : st.kind = some .scan) (hrun : st.state = .running)
    (hstop : st.pendingStop = none) (hcan : s.CanHalt i) (fl : ScanFlight) :
    let y := (st.scanned fl).completed (scanItem st.timestamp fl st.sequence) (decide (fl.marks ≠ 0))
    (y.1.AtLimit → st.staging.length < 4 ∨ st.current = none) → (s.completeScan i fl).TakesItem s i y := by
  intro y hlim
  subst hst
  have hself := stream_setStream_self s i ((s.stream i).scanned fl)
  have hspec := completeItem_spec (s := s.setStream i ((s.stream i).scanned fl)) (i := i)
    (scanItem (s.stream i).timestamp fl) (decide (fl.marks ≠ 0)) (by rw [hself]; exact hrun)
    (by rw [hself]; exact hstop) (by rw [State.CanHalt, hself]; exact hcan)
    (by rw [hself]; exact fun h => nomatch hk.symm.trans h) (by rw [hself]; exact fun _ => rfl)
  rw [hself] at hspec
  have hdone := hspec hlim
  rw [itemTaken_setStream] at hdone
  have hmarks : (fl.marks != 0) = decide (fl.marks ≠ 0) := by simp [bne, beq_eq_decide]
  have hcomplete : s.completeScan i fl =
      (s.setStream i ((s.stream i).scanned fl)).completeItem i (scanItem (s.stream i).timestamp fl) (fl.marks != 0) :=
    rfl
  rw [State.TakesItem, hcomplete, hmarks]
  exact hdone

/-- The scan in flight `fl` with an outcome delivered at list position `k` (R87). -/
def ScanFlight.delivered (fl : ScanFlight) (k : Nat) (outcome : ScanSlot) : ScanFlight :=
  { fl with slots := fl.slots.set k outcome }

/-- With no further position awaited, a delivery leaves none awaited. -/
theorem awaited_not_mem_delivered {k : Nat} {outcome : ScanSlot} (hk : fl.slots[k]? = some .awaited)
    (hlast : ScanSlot.awaited ∉ fl.slots.eraseIdx k) (hout : outcome ≠ .awaited) :
    ScanSlot.awaited ∉ (fl.delivered k outcome).slots := fun h => by
  obtain ⟨j, hj⟩ := List.mem_iff_getElem?.1 h
  rw [ScanFlight.delivered] at hj
  by_cases hjk : k = j
  · rw [← hjk, List.getElem?_set_self (List.getElem?_eq_some_iff.1 hk).1] at hj
    exact hout (Option.some.inj hj)
  · rw [List.getElem?_set_ne hjk] at hj
    exact hlast (List.mem_eraseIdx_iff_getElem?.2 ⟨j, Ne.symm hjk, hj⟩)

/-- The last outcome awaited completes the scan in flight (R87, R88). -/
theorem portDelivers_of_last {outcome : ScanSlot} (hh : s.holder n = some i) (hst : s.stream i = st)
    (hs : st.scan = some fl) (hk : fl.slots[st.scanList.idxOf n]? = some .awaited)
    (hlast : ScanSlot.awaited ∉ fl.slots.eraseIdx (st.scanList.idxOf n)) (hout : outcome ≠ .awaited) :
    s.portDelivers n outcome =
      (s.setPort n (SamplePort.idle (s.port n).timeout)).completeScan i
        (fl.delivered (st.scanList.idxOf n) outcome) := by
  unfold State.portDelivers State.portOutcome
  generalize hu : s.setPort n (SamplePort.idle (s.port n).timeout) = u
  have huh : u.holder n = some i := by rw [← hu]; exact hh
  have hus : u.stream i = st := by rw [← hu]; exact hst
  rw [huh]
  dsimp only
  rw [hus, hs]
  dsimp only
  rw [if_pos hk]
  exact if_neg fun h => awaited_not_mem_delivered hk hlast hout (List.contains_iff_mem.1 h)

/-- A result or a timeout that is due delivers its outcome (R80, R81). -/
theorem exec_of_outcome {row : Instr} {outcome : ScanSlot}
    (h : (row = .result n ∧ (s.port n).phase = .shifting ∧ (s.port n).bits = 16 ∧
        outcome = .sample (s.port n).shift) ∨
      (row = .timeout n ∧ (s.port n).phase = .waitReady ∧
        (s.port n).inForce.toNat ≤ (s.port n).elapsed.toNat ∧ outcome = .timedOut)) :
    exec row s = .next (s.portDelivers n outcome).finish ∧ outcome ≠ .awaited := by
  rcases h with ⟨rfl, hphase, hbits, rfl⟩ | ⟨rfl, hphase, helapsed, rfl⟩
  · have hdue : s.resultDue n = true := by simp [State.resultDue, hphase, hbits]
    exact ⟨congrArg Host.Outcome.next (if_pos hdue), fun h => nomatch h⟩
  · have hdue : s.timeoutDue n = true := by simp [State.timeoutDue, hphase, BitVec.le_def, helapsed]
    exact ⟨congrArg Host.Outcome.next (if_pos hdue), fun h => nomatch h⟩

/-! ## The STAMP advance (R90) -/

/-- A STAMP advance of a RUNNING stream with no stop pending completes an item (R90 to R94). -/
theorem stampAdvance_takesItem (e : Event) (hst : s.stream i = st) (hk : st.kind = some .stamp)
    (hrun : st.state = .running) (hstop : st.pendingStop = none) (hcan : s.CanHalt i) :
    let y := st.completed (stampItem e st.sequence) false
    (y.1.AtLimit → st.staging.length < 4 ∨ st.current = none) → (s.stampAdvance i e).TakesItem s i y := by
  subst hst
  exact completeItem_spec (stampItem e) false hrun hstop hcan (fun h => nomatch hk.symm.trans h)
    fun h => nomatch hk.symm.trans h

/-- Settles O46: the last outcome of a scan, whose item is `scanItem`, and the STAMP advance. -/
theorem lastOutcomeCompletesTheItem : Obligations.LastOutcomeCompletesTheItem := by
  refine ⟨fun s n i fl outcome row hcalm hh => ?_, fun s p i hf => ?_⟩
  · intro st x k slots m hk hscan hlen hm hawaited hlast hrun hstop hcan hrow
    have hslots : slots.length = m := List.length_set.trans hlen
    refine ⟨scanItem st.timestamp (fl.delivered k outcome) st.sequence, ?_, ?_⟩
    · refine ⟨?_, scanItem_number .., ⟨_, ?_, getLsbD_timeoutMask (hslots.trans_le hm)⟩, ?_, ?_, ?_, ?_⟩
      · rw [length_scanItem, Stream.itemSize, hk]
        exact congrArg (scanItemSize · _) hslots
      · rw [← hslots]
        exact scanItem_positions _ _ (hslots.trans_le hm)
      · intro hts
        rw [hts]
        exact scanItem_time _ _
      · exact fun j v hj => scanItem_sample (f := fl.delivered k outcome) (x := .sample v) _ hj
      · exact fun j hj => scanItem_sample (f := fl.delivered k outcome) (x := .timedOut) _ hj
      · intro y hy
        rw [← hslots] at hy
        exact scanItem_padding (f := fl.delivered k outcome) hy
    · intro marks y hlim
      obtain ⟨hexec, hout⟩ := exec_of_outcome hrow
      have hitem := completeScan_takesItem (s := s.setPort n (SamplePort.idle x.timeout)) (i := i) (st := st) rfl hk
        hrun hstop hcan (fl.delivered k outcome) (fun h => (hlim h).1)
      rw [hexec, portDelivers_of_last hh rfl hscan hawaited hlast hout]
      exact congrArg Host.Outcome.next (hitem.finish (hcalm.of_eq rfl rfl rfl) fun h => (hlim h).2)
  · intro st b y hk hrun hsource hsrc hstop hcan hlim
    have ha : st.advancesOn (pacerCode p) = true := by simp [Stream.advancesOn, hk, hsource]
    have hitem := stampAdvance_takesItem (s := s.firedAt p) ⟨pacerCode p, s.timebase⟩ rfl hk hrun hstop hcan
      fun h => (hlim h).1
    obtain ⟨-, -, hstopSource, -⟩ := completed_sameRoles st b false
    have hadv : (s.firedAt p).advance i ⟨pacerCode p, s.timebase⟩ = (s.firedAt p).stampAdvance i _ :=
      advance_of_stamp hk
    exact exec_pacerFiring_of_advance hf hrun ha (itemTaken_not_stopped (hstopSource ▸ hsrc))
      ((hf.1.firedAt p).itemTaken i y) (hadv ▸ hitem.unheard fun h => (hlim h).2)

end Sys2Proof.Machine
end

section
/-! The queue of rows (log 9, log 29): the step takes the front row from it, and no row touches it. The rows that are no
control rows do only what `State.Kept` names; the control rows go one by one. -/

namespace Sys2Proof.Machine

variable {s : State}

/-! ## The queue of rows under each operation -/

theorem shutdown_pending (s : State) : s.shutdown.pending = s.pending := by
  have h := congrArg State.pending (shutdown_eq s s.device)
  simpa only [State.quiesced] using h

theorem askVector0_pending (s : State) : s.askVector0.pending = s.pending := by
  unfold State.askVector0
  split <;> rfl

theorem fatalStop_pending (s : State) : s.fatalStop.pending = s.pending := by
  unfold State.fatalStop
  split <;> simp only [askVector0_pending, shutdown_pending]

/-- No elementary change of a block touches the queue of rows. -/
theorem pending_kept (rows : List Instr) : State.Kept fun s => s.pending = rows where
  pacer _ _ _ h := h
  input _ _ _ h := h
  port _ _ _ h := h
  stream _ _ _ h := h
  holder _ _ _ h := h
  patHolder _ _ _ h := h
  portWord _ _ _ h := h
  queue _ _ _ h := h
  entry _ _ _ h := h
  reserve _ _ _ h := h
  release _ _ h := h
  submit _ _ _ h := by
    unfold State.submit
    split <;> exact h
  newRq _ _ _ _ _ _ h := h
  noRq _ _ _ h := h
  itemWritten _ _ h := h
  itemDropped _ _ h := h
  pattern _ _ _ h := h
  quiesceEnd _ h := h
  fatalStop s h := (fatalStop_pending s).trans h
  raw _ _ _ _ _ _ _ _ _ _ _ _ _ h := h

/-! ## The queue of rows under the host's control of the device (R152 to R154, R173 to R185) -/

theorem writeEnable_pending (s : State) : s.writeEnable.pending = s.pending := by
  unfold State.writeEnable
  split
  · split <;> rfl
  · rfl

/-- A quiesce that begins may bring its own end due, which is a follow-on like any other (R176, R177). -/
theorem writeDisable_pending (s : State) : s.writeDisable.pending = s.pending := by
  unfold State.writeDisable
  split
  · refine (pending_kept s.pending).finish ?_
    simp only [shutdown_pending]
  · rfl

theorem producerWrite_pending (s : State) (q : CqId) (v : Word) : (s.producerWrite q v).pending = s.pending :=
  (pending_kept s.pending).producerWrite rfl q v

theorem consumerWrite_pending (s : State) (q : RqId) (v : Word) : (s.consumerWrite q v).pending = s.pending := by
  unfold State.consumerWrite
  split <;> rfl

theorem writeInterrupt_pending (s : State) (q : RqId) (on clear : Bool) :
    (s.writeInterrupt q on clear).pending = s.pending := by
  rw [writeInterrupt_eq, State.setRq_pending]

theorem writeDevctl_pending (s : State) (v : Word) : (s.writeDevctl v).pending = s.pending := by
  unfold State.writeDevctl
  split
  · rfl
  · split
    · exact writeEnable_pending s
    · exact writeDisable_pending s

/-- No register of the window is the queue of rows. -/
theorem writeWindow_pending (s : State) (offset : BitVec 12) (v : Word) :
    (s.writeWindow offset v).pending = s.pending := by
  simp only [State.writeWindow, apply_ite State.pending, writeDevctl_pending, producerWrite_pending,
    consumerWrite_pending, writeInterrupt_pending, ite_self]

/-- What is due is taken, and the tick moves inputs, ports and timebase alone (R46). -/
theorem tick_pending (s : State) (serial : BitVec 8) : (s.tick serial).pending = s.pending := by
  have hdue : s.takeDue.pending = s.pending := (pending_kept s.pending).takeDue rfl
  simp only [State.tick, State.nextTick, tickPorts_eq, tickInputs_eq, hdue]

/-! ## The rows and the step -/

/-- Settles O2: the rows that are no control rows by what every operation keeps, and the control rows one by one. -/
theorem everyRowAnswersAndKeepsTheQueue : Obligations.EveryRowAnswersAndKeepsTheQueue := by
  intro c s
  cases c with
  | timebaseTick serial => exact ⟨_, rfl, tick_pending s serial⟩
  | powerOnReset link | functionReset enableBit | linkConfigurationChange link | linkStateChange up =>
    exact ⟨_, rfl, rfl⟩
  | enable => exact ⟨_, rfl, writeEnable_pending s⟩
  | quiesce => exact ⟨_, rfl, writeDisable_pending s⟩
  | consumerWrite q v => exact ⟨_, rfl, consumerWrite_pending s q v⟩
  | interruptEnable q on | errorFlagClear q on => exact ⟨_, rfl, writeInterrupt_pending s q on _⟩
  | registerWrite offset size v =>
    refine ⟨_, rfl, ?_⟩
    split
    · exact writeWindow_pending s offset v
    · rfl
  | _ => exact (pending_kept s.pending).exec_of_not_control rfl rfl

/-- On an empty queue of rows the block idles (log 9). -/
theorem step_of_empty (h : s.pending = []) : step s = .next s := by
  unfold step
  rw [h]

/-- A step takes the front row and leaves the rest of the queue waiting (log 9). -/
theorem step_of_front (c : Instr) (rest : List Instr) (s : State) :
    step { s with pending := c :: rest } = exec c { s with pending := rest } := rfl

/-- Settles O1: the two cases of the queue of rows. -/
theorem stepTakesTheFrontRow : Obligations.StepTakesTheFrontRow :=
  ⟨step_of_front, fun _ => step_of_empty⟩

end Sys2Proof.Machine
end
